-- ==== Sys2Proof/Word.lean ====
section
/-! DEFINITION. The word types of the core: 32-bit registers and command words, 8-bit stream data.
00_scope.md R14 (every host-visible register is 32 bits wide), 20_memory.md R75 (a token carries 8 bits). -/

namespace Sys2Proof

/-- A register value or a command word (00_scope.md R14). -/
abbrev Word := BitVec 32

/-- A symbol, a stream byte (00_scope.md R19, 20_memory.md R75). -/
abbrev Byte := BitVec 8

end Sys2Proof
end

