-- ==== Sys2Proof/Syntax.lean ====
section
/-! DEFINITION. The commands of the core, one constructor per row of spec/opcode_table.json
(30_encoding.md R103). Operand fields carry the widths of R101, so every value of the type is a command. -/

namespace Sys2Proof

/-- A command, with its operands as 30_encoding.md R101 assembles them from the word. -/
inductive Instr where
  /-- NOP (40_control.md R133). -/
  | nop
  /-- BS_INIT (41_bitstream.md R150). -/
  | bsInit
  /-- BS_WRBITS w (R151). -/
  | bsWrbits (w : BitVec 6)
  /-- BS_RDBITS w (R152). -/
  | bsRdbits (w : BitVec 6)
  /-- BS_WRBIT b (R153). -/
  | bsWrbit (b : Bool)
  /-- BS_RDBIT (R154). -/
  | bsRdbit
  /-- BS_ALIGN (R155). -/
  | bsAlign
  /-- BS_END (R156). -/
  | bsEnd
  /-- BS_DRAIN (R157). -/
  | bsDrain
  /-- HUF_INIT (42_huffman.md R180). -/
  | hufInit
  /-- HUF_COUNT (R181). -/
  | hufCount
  /-- HUF_RDHDR (R182). -/
  | hufRdhdr
  /-- HUF_BUILD (R190). -/
  | hufBuild
  /-- HUF_CODES (R200). -/
  | hufCodes
  /-- HUF_ENCODE (R210). -/
  | hufEncode
  /-- HUF_DECODE (R215). -/
  | hufDecode
  /-- HUF_GETFREQ s (R220). -/
  | hufGetfreq (s : Byte)
  /-- HUF_LOOKUP s, k (R221). -/
  | hufLookup (s : Byte) (k : BitVec 3)
  /-- LZW_INIT (43_lzw.md R241). -/
  | lzwInit
  /-- LZW_ENCODE (R250). -/
  | lzwEncode
  /-- LZW_DECODE (R253). -/
  | lzwDecode
  deriving DecidableEq, Repr

end Sys2Proof
end

