-- ==== Sys2Proof/Machine/State.lean ====
section
/-! DEFINITION. The state of the core and of its host as plain data (10_state.md; 20_memory.md sections 1 to
3), the reasons a step can stop, and the state right after hard reset (10_state.md R57,
70_reset_and_hazards.md R350). -/

namespace Sys2Proof.Machine

/-! ## Parameters -/

/-- The OPEN parameters of the spec (00_scope.md R11, R12; 20_memory.md R71), fixed for a run. The bounds of
R11 and R12 and the alignment of R71 are in the types. IN_DEPTH and OUT_DEPTH are used by no rule
(notes/assumptions/14.md). -/
structure Params where
  /-- FREQ_W - 1, so that 1 ≤ FREQ_W ≤ 32 (R11) -/
  freqWm1 : Fin 32
  /-- LZW_NMAX - 8, so that 8 ≤ LZW_NMAX ≤ 32 (R12) -/
  nmaxM8 : Fin 25
  /-- BASE / 64: BASE is aligned to 64 bytes (R71) -/
  window : Nat
  deriving DecidableEq, Repr

/-! ## Names -/

/-- ERR.CODE (60_exceptions.md R300); codes 9 to 15 are never written, so they are no values here. -/
inductive ErrCode where
  | none
  | eCmd
  | eSeq
  | eWidth
  | eCfg
  | eFreqOvf
  | eHufSym
  | eHufLen
  | eLzwCode
  deriving DecidableEq, Repr

/-- STATUS.HSTATE (10_state.md R30); values 6 and 7 never occur. -/
inductive HState where
  | idle
  | freq
  | tree
  | codes
  | done
  | error
  deriving DecidableEq, Repr

/-- STATUS.HMODE (10_state.md R29): the direction of the Huffman job. -/
inductive HMode where
  | encode
  | decode
  deriving DecidableEq, Repr

/-- TKIND (10_state.md R46): no leaf, one leaf, two or more leaves. -/
inductive TKind where
  | empty
  | single
  | full
  deriving DecidableEq, Repr

/-- STATUS.LSTATE (10_state.md R31). -/
inductive LState where
  | uninit
  | ready
  | done
  | error
  deriving DecidableEq, Repr

/-- A stream token (20_memory.md R75): a data byte, or `End`, written `stop`. -/
inductive Token where
  | byte (b : Byte)
  | stop
  deriving DecidableEq, Repr

/-! ## Internal memories -/

/-- An internal memory (NODE, DICT): the entries written so far, as (index, entry) pairs with strictly rising
indexes. An index not listed holds no entry (notes/assumptions/4.md). -/
abbrev Mem (α : Type) := List (Nat × α)

/-- An entry of the tree node memory (10_state.md R46). -/
inductive Node where
  | leaf (sym : Byte) (freq : Nat)
  | internal (freq : Nat) (left right : Nat)
  deriving DecidableEq, Repr

/-- An entry of the dictionary memory (10_state.md R50). -/
structure DictEntry where
  parent : Nat
  byte : Byte
  deriving DecidableEq, Repr

/-! ## The units -/

/-- The stream ports (20_memory.md R75 to R77) and the bit-stream controller (10_state.md R41, R42), with
its byte counters (R34, R35). -/
structure Stream where
  /-- IN: the tokens pushed and not yet taken, the head first -/
  inp : List Token
  /-- OUT: the tokens put and not yet removed, the oldest first -/
  out : List Token
  /-- WBUF: the bits accumulated and not yet put -/
  wbuf : BitVec 7
  /-- WCNT: how many there are, 0..7 -/
  wcnt : Fin 8
  /-- RBUF: the last data byte taken from IN -/
  rbuf : Byte
  /-- RCNT: how many of its bits are unread, 0..8 -/
  rcnt : Fin 9
  /-- EODF, read as STATUS.EOD -/
  eodf : Bool
  /-- CNT_IN -/
  cntIn : Word
  /-- CNT_OUT -/
  cntOut : Word
  deriving DecidableEq, Repr

/-- The Huffman unit (10_state.md R43 to R48). FREQ, TOTAL and node frequencies are numbers; their widths
(FREQ_W and FREQ_W + 8 bits) are the invariant `State.HufOk` (notes/assumptions/15.md). -/
structure Huf where
  /-- FREQ[0..255] -/
  freq : Vector Nat 256
  total : Nat
  hstate : HState
  hmode : HMode
  cvalid : Bool
  trunc : Bool
  /-- NODE -/
  node : Mem Node
  nnodes : Nat
  root : Nat
  tkind : TKind
  /-- CODE[0..255]: the bits of each symbol's code, the edge leaving the root first; `len` is the length -/
  code : Vector (List Bool) 256
  deriving DecidableEq, Repr

/-- The LZW unit (10_state.md R50 to R54). -/
structure Lzw where
  /-- LN, the latched code width -/
  ln : BitVec 6
  /-- NEXT, the next assignable code -/
  next : Nat
  /-- DICT -/
  dict : Mem DictEntry
  resets : Word
  lstate : LState
  deriving DecidableEq, Repr

/-! ## The host -/

/-- A host operation (20_memory.md R78). `memRead` and `memWrite` name the full address and the access size in
bytes. `outPopAll` is POPALL of 30_encoding.md R108 (notes/assumptions/12.md); `hardReset` is the
platform asserting the reset input between two host operations (70_reset_and_hazards.md R350,
notes/assumptions/11.md). -/
inductive HostOp where
  | memRead (addr size : Nat)
  | memWrite (addr size : Nat) (v : Word)
  | inPush (t : Token)
  | outPop
  | outPopAll
  | waitIdle
  | hardReset
  deriving DecidableEq, Repr

/-- What the host observed (70_reset_and_hazards.md R357): the value a MemRead returned or a token it took. -/
inductive Obs where
  | value (v : Word)
  | token (t : Token)
  deriving DecidableEq, Repr

/-- The host: its program, its position in it (10_state.md R21), and what it observed, the oldest first. -/
structure HostSide where
  prog : List HostOp
  index : Nat
  trace : List Obs
  deriving DecidableEq, Repr

/-! ## The state -/

/-- The state of the core, its ports and its host. Registers that only show other state (STATUS, ERR's ERRF view,
HUF_TOTAL_LO/HI, LZW_NEXT, LZW_RESETS, LZW_N) have no field: `readReg` computes them. -/
structure State where
  params : Params
  /-- CTRL.IE (10_state.md R24) -/
  ie : Bool
  /-- CFG.DICT_BITS (R25) -/
  dictBits : BitVec 6
  /-- ARG (R27) -/
  arg : Word
  /-- RESULT (R28) -/
  result : Word
  /-- STATUS.DONE (R29) -/
  done : Bool
  /-- STATUS.OVR (R29) -/
  ovr : Bool
  /-- ERR.CODE (R32) -/
  err : ErrCode
  /-- ERRINFO (R33) -/
  errInfo : Word
  /-- CODE_LEN (R37) -/
  codeLen : BitVec 8
  /-- BUSY (R39) -/
  busy : Bool
  /-- CUR_CMD (R39) -/
  curCmd : Word
  /-- CUR_ARG (R39) -/
  curArg : Word
  /-- CUR_CFG (R39) -/
  curCfg : BitVec 6
  bs : Stream
  huf : Huf
  lzw : Lzw
  host : HostSide
  /-- the number of free values drawn so far: the model's own field (notes/assumptions/5.md) -/
  draws : Nat
  deriving DecidableEq, Repr

/-! ## Why a step can stop -/

/-- Faults. None is raised in a state that a run from reset reaches (the invariant `State.Ok` excludes them);
they only make the step total on the states the spec never describes (notes/assumptions/6.md). -/
inductive Fault where
  /-- HUF_CODES or HUF_DECODE met a node id at which the tree holds no node. Safe: the hardware has no such
  state (10_state.md R47). -/
  | brokenTree
  /-- LZW_DECODE met a valid code with no dictionary entry, or a chain of parents that does not end. Safe: the
  hardware has no such state (43_lzw.md R247). -/
  | brokenDict
  /-- A command would loop without taking input: HUF_DECODE on a tree whose root is a leaf, LZW_DECODE with a code
  width of 0. Safe: the hardware has no such state (10_state.md R46, 43_lzw.md R241). -/
  | noProgress
  deriving DecidableEq, Repr

/-- Refusals. -/
inductive Refusal where
  /-- `exec`'s arm of an instruction without a meaning. Safe: nothing is claimed of it. -/
  | notModelled (mnemonic : String)
  /-- A host access to an address outside the core's window: it is no access to the core, and what answers there is
  the platform's (20_memory.md R71). Safe: the model stops where the platform goes on
  (notes/assumptions/13.md). -/
  | outsideWindow (addr : Nat)
  deriving DecidableEq, Repr

/-! ## Reset (10_state.md R57, 70_reset_and_hazards.md R350) -/

/-- The bit-stream controller and the ports after hard reset. -/
def Stream.reset : Stream :=
  { inp := [], out := [], wbuf := 0, wcnt := 0, rbuf := 0, rcnt := 0, eodf := false, cntIn := 0, cntOut := 0 }

/-- The Huffman unit after hard reset. The CODE entries are unspecified and never read while CVALID = 0
(R48): length 0 is a DESIGN CHOICE, notes/assumptions/3.md. -/
def Huf.reset : Huf :=
  { freq := Vector.replicate 256 0, total := 0, hstate := .idle, hmode := .encode, cvalid := false, trunc := false,
    node := [], nnodes := 0, root := 0, tkind := .empty, code := Vector.replicate 256 [] }

/-- The LZW unit after hard reset. -/
def Lzw.reset : Lzw :=
  { ln := 0, next := 256, dict := [], resets := 0, lstate := .uninit }

/-- The state right after hard reset of a core with the parameters `p`, with no host program. CUR_CMD,
CUR_ARG and CUR_CFG are unspecified and never read while BUSY = 0 (R39): 0 is a DESIGN CHOICE,
notes/assumptions/2.md. -/
def State.resetWith (p : Params) : State :=
  { params := p, ie := false, dictBits := 9, arg := 0, result := 0, done := false, ovr := false,
    err := .none, errInfo := 0, codeLen := 0, busy := false, curCmd := 0, curArg := 0, curCfg := 0,
    bs := Stream.reset, huf := Huf.reset, lzw := Lzw.reset,
    host := { prog := [], index := 0, trace := [] }, draws := 0 }

/-- The parameters of the core that `State.reset` is: FREQ_W = 8, LZW_NMAX = 16 (the defaults of
95_test_vectors.md section 0) and BASE = 0. DESIGN CHOICE: the spec leaves all three open; no statement
rests on them (notes/assumptions/1.md). -/
def Params.default : Params := { freqWm1 := 7, nmaxM8 := 8, window := 0 }

/-- The machine right after hard reset. -/
def State.reset : State := State.resetWith Params.default

end Sys2Proof.Machine
end

