-- ==== Sys2Proof/Config.lean ====
section
/-! DEFINITION. The free values of the model: what the spec leaves unspecified and a claim must hold for
whatever it is (93_implementation_defined.md, treatment `any value`). Each is an opaque function of the
draw counter `State.draws`: no proof can see a value of it. The parameters FREQ_W, LZW_NMAX and BASE
(treatment `parameter`) are fields of State, fixed for a run (notes/assumptions/1.md). -/

namespace Sys2Proof

/-- Which agent moves when both the engine and the host can (20_memory.md R84: "Host steps and the engine
step interleave in any order consistent with these rules"): true is the engine. DESIGN CHOICE, safe:
notes/assumptions/5.md. -/
opaque Config.engineFirst : Nat → Bool

/-- The value of an unspecified register or field read while BUSY = 1 (20_memory.md R85; 93 S1: "a fresh
draw per read"). Safe: notes/assumptions/7.md. -/
opaque Config.busyRead : Nat → Word

/-- The tokens that would have followed those in IN, had an aborted command run on (70_reset_and_hazards.md R353: what
the command "would have put" depends on them where it waits for more input). Safe: notes/assumptions/8.md. -/
opaque Config.abortRest : Nat → List Machine.Token

/-- How many tokens an aborted command has taken from IN (70_reset_and_hazards.md R353, the draw n),
before the bound of R353 is applied. Safe: notes/assumptions/8.md. -/
opaque Config.abortTaken : Nat → Nat

/-- How many tokens an aborted command has put to OUT (70_reset_and_hazards.md R353, the draw m), before
the bound of R353 is applied. Safe: notes/assumptions/8.md. -/
opaque Config.abortPut : Nat → Nat

end Sys2Proof
end

