-- ==== Sys2Proof/WellFormed.lean ====
section
/-! DEFINITION. Which command words are legal: the match and mask columns of the opcode map
(30_encoding.md R103). A command term needs no check of its own, because its operand fields have the
widths of R101; what can be ill formed is a word, and `legalWord` is the check that refuses it. It is
written from the masks alone and shares nothing with the decoder, so that the two can be compared. -/

namespace Sys2Proof

/-- One row of the opcode map: a word belongs to it when `word &&& mask = pattern` (R103). -/
structure OpcodeRow where
  pattern : Word
  mask : Word
  deriving DecidableEq, Repr

/-- The opcode map, the rows in the order of R103. -/
def opcodeRows : List OpcodeRow :=
  [ ⟨0x00000000#32, 0xFFFFFFFF#32⟩,   -- NOP
    ⟨0x00000010#32, 0xFFFFFFFF#32⟩,   -- BS_INIT
    ⟨0x00000011#32, 0xFFC0FFFF#32⟩,   -- BS_WRBITS
    ⟨0x00000012#32, 0xFFC0FFFF#32⟩,   -- BS_RDBITS
    ⟨0x00000013#32, 0xFFFFFEFF#32⟩,   -- BS_WRBIT
    ⟨0x00000014#32, 0xFFFFFFFF#32⟩,   -- BS_RDBIT
    ⟨0x00000015#32, 0xFFFFFFFF#32⟩,   -- BS_ALIGN
    ⟨0x00000016#32, 0xFFFFFFFF#32⟩,   -- BS_END
    ⟨0x00000017#32, 0xFFFFFFFF#32⟩,   -- BS_DRAIN
    ⟨0x00000020#32, 0xFFFFFFFF#32⟩,   -- HUF_INIT
    ⟨0x00000021#32, 0xFFFFFFFF#32⟩,   -- HUF_COUNT
    ⟨0x00000022#32, 0xFFFFFFFF#32⟩,   -- HUF_RDHDR
    ⟨0x00000023#32, 0xFFFFFFFF#32⟩,   -- HUF_BUILD
    ⟨0x00000024#32, 0xFFFFFFFF#32⟩,   -- HUF_CODES
    ⟨0x00000025#32, 0xFFFFFFFF#32⟩,   -- HUF_ENCODE
    ⟨0x00000026#32, 0xFFFFFFFF#32⟩,   -- HUF_DECODE
    ⟨0x00000027#32, 0xFFFF00FF#32⟩,   -- HUF_GETFREQ
    ⟨0x00000028#32, 0xFFF800FF#32⟩,   -- HUF_LOOKUP
    ⟨0x00000030#32, 0xFFFFFFFF#32⟩,   -- LZW_INIT
    ⟨0x00000031#32, 0xFFFFFFFF#32⟩,   -- LZW_ENCODE
    ⟨0x00000032#32, 0xFFFFFFFF#32⟩ ]  -- LZW_DECODE

/-- `c` selects the row `r` (R103). -/
def OpcodeRow.selects (r : OpcodeRow) (c : Word) : Bool := c &&& r.mask == r.pattern

/-- `c` is a legal command word: it matches a row of the opcode map (R104). -/
def legalWord (c : Word) : Bool := opcodeRows.any (fun r => r.selects c)

end Sys2Proof
end

