-- ==== Sys2Proof/Decode.lean ====
section
/-! DEFINITION. The decoder of command words, total on all 32-bit words and rejecting by name, and the
encoder (30_encoding.md R100 to R107). -/

namespace Sys2Proof

/-- Why a word is no command (30_encoding.md R104): both kinds raise E_CMD. -/
inductive Illegal where
  /-- the OP value is absent from the opcode map (R106) -/
  | reservedOpcode
  /-- a known OP with a nonzero bit where its mask fixes 0 (R102, R106) -/
  | fixedBits
  deriving DecidableEq, Repr

/-! ## Fields of a command word (R100) -/

/-- OP, bits 7:0. -/
def opField (c : Word) : BitVec 8 := c.extractLsb' 0 8

/-- IMM8, bits 15:8. -/
def immField (c : Word) : BitVec 8 := c.extractLsb' 8 8

/-- WIDTH, bits 21:16. -/
def widthField (c : Word) : BitVec 6 := c.extractLsb' 16 6

/-- RSV, bits 31:22. -/
def rsvField (c : Word) : BitVec 10 := c.extractLsb' 22 10

/-- The command `i` when the bits its opcode fixes to 0 are 0, else the rejection (R102, R104). -/
def ifFixed (ok : Bool) (i : Instr) : Except Illegal Instr :=
  if ok then .ok i else .error .fixedBits

/-- IMM8, WIDTH and RSV are all 0: what an opcode without operand bits requires (R102). -/
def plain (c : Word) : Bool :=
  immField c == 0#8 && widthField c == 0#6 && rsvField c == 0#10

/-- The decoder (R103, R104). -/
def decode (c : Word) : Except Illegal Instr :=
  match (opField c).toNat with
  | 0x00 => ifFixed (plain c) .nop
  | 0x10 => ifFixed (plain c) .bsInit
  | 0x11 => ifFixed (immField c == 0#8 && rsvField c == 0#10) (.bsWrbits (widthField c))
  | 0x12 => ifFixed (immField c == 0#8 && rsvField c == 0#10) (.bsRdbits (widthField c))
  | 0x13 => ifFixed ((immField c).extractLsb' 1 7 == 0#7 && widthField c == 0#6 && rsvField c == 0#10)
      (.bsWrbit ((immField c).getLsbD 0))
  | 0x14 => ifFixed (plain c) .bsRdbit
  | 0x15 => ifFixed (plain c) .bsAlign
  | 0x16 => ifFixed (plain c) .bsEnd
  | 0x17 => ifFixed (plain c) .bsDrain
  | 0x20 => ifFixed (plain c) .hufInit
  | 0x21 => ifFixed (plain c) .hufCount
  | 0x22 => ifFixed (plain c) .hufRdhdr
  | 0x23 => ifFixed (plain c) .hufBuild
  | 0x24 => ifFixed (plain c) .hufCodes
  | 0x25 => ifFixed (plain c) .hufEncode
  | 0x26 => ifFixed (plain c) .hufDecode
  | 0x27 => ifFixed (widthField c == 0#6 && rsvField c == 0#10) (.hufGetfreq (immField c))
  | 0x28 => ifFixed ((widthField c).extractLsb' 3 3 == 0#3 && rsvField c == 0#10)
      (.hufLookup (immField c) ((widthField c).extractLsb' 0 3))
  | 0x30 => ifFixed (plain c) .lzwInit
  | 0x31 => ifFixed (plain c) .lzwEncode
  | 0x32 => ifFixed (plain c) .lzwDecode
  | _ => .error .reservedOpcode

/-- A command word from its fields: RSV = 0, WIDTH, IMM8, OP, most significant first (R100). -/
def commandWord (width : BitVec 6) (imm : BitVec 8) (op : BitVec 8) : Word :=
  0#10 ++ width ++ imm ++ op

/-- The encoder (R101, R103). -/
def encode : Instr → Word
  | .nop => commandWord 0 0 0x00
  | .bsInit => commandWord 0 0 0x10
  | .bsWrbits w => commandWord w 0 0x11
  | .bsRdbits w => commandWord w 0 0x12
  | .bsWrbit b => commandWord 0 (0#7 ++ BitVec.ofBool b) 0x13
  | .bsRdbit => commandWord 0 0 0x14
  | .bsAlign => commandWord 0 0 0x15
  | .bsEnd => commandWord 0 0 0x16
  | .bsDrain => commandWord 0 0 0x17
  | .hufInit => commandWord 0 0 0x20
  | .hufCount => commandWord 0 0 0x21
  | .hufRdhdr => commandWord 0 0 0x22
  | .hufBuild => commandWord 0 0 0x23
  | .hufCodes => commandWord 0 0 0x24
  | .hufEncode => commandWord 0 0 0x25
  | .hufDecode => commandWord 0 0 0x26
  | .hufGetfreq s => commandWord 0 s 0x27
  | .hufLookup s k => commandWord (0#3 ++ k) s 0x28
  | .lzwInit => commandWord 0 0 0x30
  | .lzwEncode => commandWord 0 0 0x31
  | .lzwDecode => commandWord 0 0 0x32

/-- The command this decoder reads from the low `nbits` bits of `w`, numbered as
spec/opcode_table.json numbers them: a command is one 32-bit word (R100, R107), its bit 0 the least
significant, and every bit above `nbits` is 0. -/
def decodeTableWord (nbits w : Nat) : Option Instr :=
  match decode (BitVec.ofNat 32 (w % 2 ^ nbits)) with
  | .ok i => some i
  | .error _ => none

end Sys2Proof
end

