-- ==== Sys2Proof/Machine/Ops.lean ====
section
/-! DEFINITION. The named operations over the state: parameters, internal memories, command accept and
completion (40_control.md R130, R131), raising an error and the resets that are the only way out of one
(60_exceptions.md R310, R315; 70_reset_and_hazards.md R350, R352). -/

namespace Sys2Proof.Machine

/-! ## Parameters -/

/-- FREQ_W (00_scope.md R11). -/
def Params.freqW (p : Params) : Nat := p.freqWm1.val + 1

/-- LZW_NMAX (00_scope.md R12). -/
def Params.lzwNmax (p : Params) : Nat := p.nmaxM8.val + 8

/-- BASE (20_memory.md R71). -/
def Params.base (p : Params) : Nat := 64 * p.window

/-! ## Internal memories -/

/-- The entry at index `i`, if one has been written. -/
def memGet {α : Type} : Mem α → Nat → Option α
  | [], _ => none
  | (k, x) :: m, i => if k = i then some x else memGet m i

/-- Write the entry at index `i`, keeping the indexes strictly rising. -/
def memSet {α : Type} : Mem α → Nat → α → Mem α
  | [], i, x => [(i, x)]
  | (k, y) :: m, i, x =>
    if i < k then (i, x) :: (k, y) :: m
    else if i = k then (i, x) :: m
    else (k, y) :: memSet m i x

/-- Write the entries `xs` at the indexes `i`, `i + 1`, ... -/
def memSetFrom {α : Type} : Mem α → Nat → List α → Mem α
  | m, _, [] => m
  | m, i, x :: xs => memSetFrom (memSet m i x) (i + 1) xs

/-- The canonical form of an internal memory: strictly rising indexes. -/
def memWf {α : Type} : Mem α → Bool
  | [] => true
  | [_] => true
  | (i, _) :: (j, y) :: m => decide (i < j) && memWf ((j, y) :: m)

/-! ## Bit strings -/

/-- The unsigned number of a bit string, first bit most significant (00_scope.md R16, 20_memory.md R80). -/
def bitsToNat (bits : List Bool) : Nat := bits.foldl (fun acc b => 2 * acc + b.toNat) 0

/-- All 256 symbols in ascending order. -/
def allSymbols : List Byte := (List.range 256).map (BitVec.ofNat 8)

/-! ## Accept and completion (40_control.md R130, R131) -/

/-- A CMD write is dropped and sets STATUS.OVR; nothing else changes (R130). -/
def dropCommand (s : State) : State := { s with ovr := true }

/-- The engine takes the word `c`, with ARG and CFG.DICT_BITS sampled (R130). -/
def takeCommand (c : Word) (s : State) : State :=
  { s with busy := true, done := false, curCmd := c, curArg := s.arg, curCfg := s.dictBits }

/-- A host write of `c` to CMD (R130). -/
def acceptCommand (c : Word) (s : State) : State :=
  if s.busy then dropCommand s
  else if s.err ≠ .none then dropCommand s
  else takeCommand c s

/-- `Complete` (R131). -/
def complete (s : State) : State := { s with busy := false, done := true }

/-! ## Errors (60_exceptions.md R310)

The core's exception entry: it saves no pc and no mode, records the code and its detail, and completes the
command (R314). What the command changed before stays. -/

/-- `raise Error(code, info)` (R310). -/
def raiseError (code : ErrCode) (info : Word) (s : State) : State :=
  complete { s with err := code, errInfo := info }

/-! ## Resets: the only way out of a recorded error (60_exceptions.md R315) -/

/-- The soft reset with the written value's bit 1 as CTRL.IE and the ports at `inp` and `out`
(70_reset_and_hazards.md R352): every state of 10_state.md R57 takes its hard-reset value, except
CFG.DICT_BITS and CTRL.IE; the ports are not emptied. The host's own position is no state of the core. -/
def softResetTo (ie : Bool) (inp out : List Token) (s : State) : State :=
  { State.resetWith s.params with
    ie := ie, dictBits := s.dictBits, bs := { Stream.reset with inp := inp, out := out },
    host := s.host, draws := s.draws }

/-- The hard reset (70_reset_and_hazards.md R350): every state of 10_state.md R57 takes its hard-reset
value and both ports are emptied, whatever the core was doing. -/
def hardResetCore (s : State) : State :=
  { State.resetWith s.params with host := s.host, draws := s.draws }

/-! ## Parts of the state -/

/-- Replace the bit-stream controller and the ports. -/
def State.withBs (s : State) (b : Stream) : State := { s with bs := b }

/-- Replace the Huffman unit. -/
def State.withHuf (s : State) (h : Huf) : State := { s with huf := h }

/-- Replace the LZW unit. -/
def State.withLzw (s : State) (z : Lzw) : State := { s with lzw := z }

/-- RESULT <- v. -/
def State.withResult (s : State) (v : Word) : State := { s with result := v }

/-- CODE_LEN <- v. -/
def State.withCodeLen (s : State) (v : BitVec 8) : State := { s with codeLen := v }

/-- The tokens `ts` appended to IN (20_memory.md R78). -/
def pushed (ts : List Token) (b : Stream) : Stream := { b with inp := b.inp ++ ts }

/-- The host has put the tokens `ts` at the end of IN (20_memory.md R78). -/
def pushTokens (ts : List Token) (s : State) : State := s.withBs (pushed ts s.bs)

/-! ## What the execution of a command comes to

The engine step is atomic (40_control.md R131) and enabled only when the command completes on the tokens now in IN
(20_memory.md R84). `Run` is what executing a command comes to before the step decides. -/

/-- The outcome of a command's pseudocode. -/
inductive Run where
  /-- it ran to its end, in this state (BUSY and DONE not yet updated) -/
  | ok (s : State)
  /-- it stopped at `raise Error(code, info)`, having changed the state to `s` -/
  | raise (code : ErrCode) (info : Word) (s : State)
  /-- it needs a token beyond the end of IN (20_memory.md R76); `b` is the bit stream at that point, which only the
  abort of R353 looks at -/
  | wait (b : Stream)
  /-- see `Fault` -/
  | fault (f : Fault)
  deriving DecidableEq, Repr

/-- The step a `Run` from the state `s` makes: completion (R131), the error of R310, or waiting: the command
does not complete and nothing has changed (20_memory.md R84; notes/assumptions/9.md). -/
def Run.finish (s : State) : Run → Host.Outcome State Fault Refusal
  | .ok t => .next (complete t)
  | .raise code info t => .next (raiseError code info t)
  | .wait _ => .next s
  | .fault f => .fault f

/-- A `Run` that is no wait: the engine step is enabled (20_memory.md R84). -/
def Run.enabled : Run → Bool
  | .wait _ => false
  | _ => true

/-- The precondition check of 40_control.md R131: E_SEQ with the command word when it is false. -/
def checkPre (pre : Bool) (s : State) (body : Run) : Run :=
  if pre then body else .raise .eSeq s.curCmd s

/-- What a loop over the input comes to: `x` is the loop's own result. -/
inductive Loop (β : Type) where
  | done (x : β) (b : Stream)
  | raise (code : ErrCode) (info : Word) (x : β) (b : Stream)
  | wait (b : Stream)
  | fault (f : Fault)
  deriving DecidableEq, Repr

end Sys2Proof.Machine
end

