-- ==== Sys2Proof/Machine/Operands.lean ====
section
/-! DEFINITION. The operand forms of the commands (30_encoding.md R101, R105). The immediates w, b, s, k are
assembled by the decoder; the other operands are the registers sampled at accept (10_state.md R39). -/

namespace Sys2Proof.Machine

/-- w = zext_32(cmd[21:16]) (R101). -/
def widthOperand (w : BitVec 6) : Nat := w.toNat

/-- The operand check of BS_WRBITS and BS_RDBITS: a width above 32 raises E_WIDTH with the command word before
anything changes (R105, 41_bitstream.md R151, R152). -/
def checkWidth (w : BitVec 6) (s : State) (body : Run) : Run :=
  if widthOperand w > 32 then .raise .eWidth s.curCmd s else body

/-- The value operand of BS_WRBITS: ARG as sampled at accept (R101). -/
def valueOperand (s : State) : Nat := s.curArg.toNat

/-- The LZW code width operand: CFG.DICT_BITS as sampled at accept (R101). -/
def codeWidthOperand (s : State) : BitVec 6 := s.curCfg

/-- The operand check of LZW_INIT: `8 ≤ DICT_BITS ≤ LZW_NMAX`, else E_CFG with the sampled value (43_lzw.md
R241). -/
def checkCodeWidth (s : State) (body : Run) : Run :=
  let n := (codeWidthOperand s).toNat
  if n < 8 ∨ n > s.params.lzwNmax then .raise .eCfg ((codeWidthOperand s).setWidth 32) s else body

end Sys2Proof.Machine
end

