-- ==== Sys2Proof/Machine/Stream.lean ====
section
/-! DEFINITION. The bit-stream primitives (41_bitstream.md R140 to R149), over the bit-stream controller
and the ports alone: nothing else of the state can change in them. -/

namespace Sys2Proof.Machine

/-- What a read comes to: a value, end-of-data, or a wait for a token that IN does not hold yet
(20_memory.md R76). -/
inductive Rd (α : Type) where
  | ok (a : α) (b : Stream)
  | eod (b : Stream)
  | wait (b : Stream)
  deriving DecidableEq, Repr

/-! ## Reading (R141, R142) -/

/-- The last two lines of ReadBit: take the next unread bit of RBUF. -/
def takeBit (b : Stream) : Rd Bool :=
  .ok (b.rbuf.getLsbD (b.rcnt.val - 1)) { b with rcnt := ⟨b.rcnt.val - 1, by omega⟩ }

/-- RBUF <- t.b, RCNT <- 8, CNT_IN + 1, the token taken (R141). -/
def refill (x : Byte) (rest : List Token) (b : Stream) : Stream :=
  { b with inp := rest, rbuf := x, rcnt := 8, cntIn := b.cntIn + 1 }

/-- ReadBit (R141). -/
def readBit (b : Stream) : Rd Bool :=
  if b.rcnt = 0 then
    if b.eodf then .eod b
    else match b.inp with
      | [] => .wait b
      | .stop :: rest => .eod { b with inp := rest, eodf := true }
      | .byte x :: rest => takeBit (refill x rest b)
  else takeBit b

/-- The loop of ReadBits: `w` more bits, the first the most significant (R142). -/
def readBitsFrom : (w : Nat) → (acc : Nat) → Stream → Rd Nat
  | 0, acc, b => .ok acc b
  | w + 1, acc, b =>
    match readBit b with
    | .ok r b' => readBitsFrom w (2 * acc + r.toNat) b'
    | .eod b' => .eod b'
    | .wait b' => .wait b'

/-- ReadBits(w) (R142). -/
def readBits (w : Nat) (b : Stream) : Rd Nat := readBitsFrom w 0 b

/-- How many bits a reader can still take from RBUF and the tokens in IN, at most: the bound of the engine's
loops, each turn of which takes at least one bit. -/
def available (b : Stream) : Nat := b.rcnt.val + 8 * b.inp.length

/-! ## Writing (R143) -/

/-- OutPut(tok) (20_memory.md R77). -/
def outPut (t : Token) (b : Stream) : Stream := { b with out := b.out ++ [t] }

/-- WriteBit(b) (R143); `acc` is the 8-bit intermediate. -/
def writeBit (r : Bool) (b : Stream) : Stream :=
  let acc : BitVec 8 := b.wbuf ++ BitVec.ofBool r
  if b.wcnt = 7 then
    { outPut (.byte acc) b with cntOut := b.cntOut + 1, wbuf := 0, wcnt := 0 }
  else { b with wbuf := acc.extractLsb' 0 7, wcnt := b.wcnt + 1 }

/-- Write a bit string, first bit first. -/
def writeBools : List Bool → Stream → Stream
  | [], b => b
  | r :: rs, b => writeBools rs (writeBit r b)

/-- WriteBits(v, w): the low `w` bits of `v`, most significant first (R143). -/
def writeBits (v : Nat) : (w : Nat) → Stream → Stream
  | 0, b => b
  | w + 1, b => writeBits v w (writeBit (v.testBit w) b)

/-- The loop of Align, at most `n` turns. -/
def alignLoop : (n : Nat) → Stream → Stream
  | 0, b => b
  | n + 1, b => if b.wcnt = 0 then b else alignLoop n (writeBit false b)

/-- Align() (R144): at most 7 zero bits bring WCNT to 0. -/
def align (b : Stream) : Stream := alignLoop 7 b

/-- Finalize() (R145). -/
def finalize (b : Stream) : Stream := outPut .stop (align b)

/-! ## Streams (R147 to R149) -/

/-- RdRestart() (R147). -/
def rdRestart (b : Stream) : Stream := { b with rcnt := 0, eodf := false }

/-- StreamInit() (R148). -/
def streamInit (b : Stream) : Stream :=
  { rdRestart { b with wbuf := 0, wcnt := 0 } with cntIn := 0, cntOut := 0 }

/-- The loop of Drain over the tokens of IN. -/
def drainFrom : List Token → Stream → Rd Unit
  | [], b => .wait { b with inp := [] }
  | .stop :: rest, b => .ok () { b with inp := rest, eodf := true }
  | .byte _ :: rest, b => drainFrom rest { b with cntIn := b.cntIn + 1 }

/-- Drain() (R149). -/
def drain (b : Stream) : Rd Unit :=
  if b.eodf then .ok () { b with rcnt := 0 } else drainFrom b.inp { b with rcnt := 0 }

end Sys2Proof.Machine
end

