-- ==== Sys2Proof/Machine/BitStream.lean ====
section
/-! DEFINITION. The BS_ commands (41_bitstream.md R150 to R157). Each `run` is the command's pseudocode; each
`exec` is the engine step that performs it. -/

namespace Sys2Proof.Machine

/-- RESULT after a read: the value zero-extended to 32 bits, or 0 at end-of-data (R152, R154). -/
def readIntoResult (s : State) : Rd Nat → Run
  | .ok v b => .ok ((s.withBs b).withResult (BitVec.ofNat 32 v))
  | .eod b => .ok ((s.withBs b).withResult 0)
  | .wait b => .wait b

/-- BS_INIT's pseudocode (R150). -/
def runBsInit (s : State) : Run := .ok (s.withBs (streamInit s.bs))

/-- BS_WRBITS' pseudocode (R151). -/
def runBsWrbits (w : BitVec 6) (s : State) : Run :=
  checkWidth w s (.ok (s.withBs (writeBits (valueOperand s) (widthOperand w) s.bs)))

/-- BS_RDBITS' pseudocode (R152). -/
def runBsRdbits (w : BitVec 6) (s : State) : Run :=
  checkWidth w s (readIntoResult s (readBits (widthOperand w) s.bs))

/-- BS_WRBIT's pseudocode (R153). -/
def runBsWrbit (r : Bool) (s : State) : Run := .ok (s.withBs (writeBit r s.bs))

/-- BS_RDBIT's pseudocode (R154): ReadBit is ReadBits(1) with the bit as the value. -/
def runBsRdbit (s : State) : Run :=
  match readBit s.bs with
  | .ok r b => .ok ((s.withBs b).withResult (BitVec.ofNat 32 r.toNat))
  | .eod b => .ok ((s.withBs b).withResult 0)
  | .wait b => .wait b

/-- BS_ALIGN's pseudocode (R155). -/
def runBsAlign (s : State) : Run := .ok (s.withBs (align s.bs))

/-- BS_END's pseudocode (R156). -/
def runBsEnd (s : State) : Run := .ok (s.withBs (finalize s.bs))

/-- BS_DRAIN's pseudocode (R157). -/
def runBsDrain (s : State) : Run :=
  match drain s.bs with
  | .ok _ b => .ok (s.withBs b)
  | .eod b => .ok (s.withBs b)
  | .wait b => .wait b

/-- BS_INIT (R150). -/
def execBsInit (s : State) : Host.Outcome State Fault Refusal := (runBsInit s).finish s

/-- BS_WRBITS w (R151). -/
def execBsWrbits (w : BitVec 6) (s : State) : Host.Outcome State Fault Refusal := (runBsWrbits w s).finish s

/-- BS_RDBITS w (R152). -/
def execBsRdbits (w : BitVec 6) (s : State) : Host.Outcome State Fault Refusal := (runBsRdbits w s).finish s

/-- BS_WRBIT b (R153). -/
def execBsWrbit (r : Bool) (s : State) : Host.Outcome State Fault Refusal := (runBsWrbit r s).finish s

/-- BS_RDBIT (R154). -/
def execBsRdbit (s : State) : Host.Outcome State Fault Refusal := (runBsRdbit s).finish s

/-- BS_ALIGN (R155). -/
def execBsAlign (s : State) : Host.Outcome State Fault Refusal := (runBsAlign s).finish s

/-- BS_END (R156). -/
def execBsEnd (s : State) : Host.Outcome State Fault Refusal := (runBsEnd s).finish s

/-- BS_DRAIN (R157). -/
def execBsDrain (s : State) : Host.Outcome State Fault Refusal := (runBsDrain s).finish s

end Sys2Proof.Machine
end

