-- ==== Sys2Proof/Machine/Control.lean ====
section
/-! DEFINITION. The control family (40_control.md): NOP, and the engine's answer to a word that is no command. -/

namespace Sys2Proof.Machine

/-- NOP's pseudocode: nothing (40_control.md R133). -/
def runNop (s : State) : Run := .ok s

/-- NOP (R133). -/
def execNop (s : State) : Host.Outcome State Fault Refusal := (runNop s).finish s

/-- `Execute(c)` of a word that matches no row: E_CMD with the word (40_control.md R131, 30_encoding.md R104). -/
def runIllegal (s : State) : Run := .raise .eCmd s.curCmd s

end Sys2Proof.Machine
end

