-- ==== Sys2Proof/Machine/Huffman.lean ====
section
/-! DEFINITION. The Huffman codec and the HUF_ commands (42_huffman.md R180 to R221). Each `run` is the command's
pseudocode; each `exec` is the engine step that performs it. -/

namespace Sys2Proof.Machine

/-! ## Tables indexed by symbol -/

/-- The entry of symbol `c` in a 256-entry table (10_state.md R43, R48). -/
def symGet {α : Type} (t : Vector α 256) (c : Byte) : α := t[c.toNat]'(c.isLt)

/-- The table with the entry of symbol `c` replaced. -/
def symSet {α : Type} (t : Vector α 256) (c : Byte) (x : α) : Vector α 256 := t.set c.toNat x (c.isLt)

/-- FREQ[0] + ... + FREQ[255]: the value TOTAL takes (R181, R182; exact, 10_state.md R58). -/
def freqSum (f : Vector Nat 256) : Nat := f.toList.sum

/-! ## HUF_INIT (R180) -/

/-- The Huffman unit's part of HUF_INIT (R180): NODE and CODE entries are not touched. -/
def hufInitUnit (h : Huf) : Huf :=
  { h with freq := Vector.replicate 256 0, total := 0, nnodes := 0, tkind := .empty, root := 0,
           cvalid := false, trunc := false, hmode := .encode, hstate := .idle }

/-- HUF_INIT's pseudocode (R180). -/
def runHufInit (s : State) : Run := .ok ((s.withBs (streamInit s.bs)).withHuf (hufInitUnit s.huf))

/-! ## HUF_COUNT (R181) -/

/-- The loop of HUF_COUNT, `limit` = 2^FREQ_W - 1, over at most `n` bytes and the End (R181). -/
def countLoop (limit : Nat) : (n : Nat) → Vector Nat 256 → Stream → Loop (Vector Nat 256)
  | 0, _, _ => .fault .noProgress
  | n + 1, f, b =>
    match readBits 8 b with
    | .eod b' => .done f b'
    | .wait b' => .wait b'
    | .ok r b' =>
      let c : Byte := BitVec.ofNat 8 r
      if symGet f c = limit then .raise .eFreqOvf (c.setWidth 32) f b'
      else countLoop limit n (symSet f c (symGet f c + 1)) b'

/-- HUF_COUNT's pseudocode (R181). -/
def runHufCount (s : State) : Run :=
  checkPre (s.huf.hstate == .idle) s <|
    let b₀ := rdRestart s.bs
    match countLoop (2 ^ s.params.freqW - 1) (available b₀ + 1) s.huf.freq b₀ with
    | .done f b =>
      .ok ((s.withBs b).withHuf { s.huf with freq := f, total := freqSum f, hmode := .encode, hstate := .freq })
    | .raise code info f b => .raise code info ((s.withBs b).withHuf { s.huf with freq := f, hstate := .error })
    | .wait b => .wait b
    | .fault e => .fault e

/-! ## HUF_RDHDR (R182) -/

/-- The loop of HUF_RDHDR over the symbols still to be read; the Bool of the result is true at a truncated
header (R182). -/
def headerLoop (freqW : Nat) : List Byte → Vector Nat 256 → Stream → Loop (Vector Nat 256 × Bool)
  | [], f, b => .done (f, false) b
  | c :: cs, f, b =>
    match readBits freqW b with
    | .eod b' => .done (f, true) b'
    | .wait b' => .wait b'
    | .ok r b' => headerLoop freqW cs (symSet f c r) b'

/-- HUF_RDHDR's pseudocode (R182). -/
def runHufRdhdr (s : State) : Run :=
  checkPre (s.huf.hstate == .idle) s <|
    match headerLoop s.params.freqW allSymbols s.huf.freq (rdRestart s.bs) with
    | .done (f, true) b =>
      .ok ((s.withBs (finalize b)).withHuf
        { s.huf with freq := f, total := freqSum f, hmode := .decode, cvalid := false, trunc := true, hstate := .done })
    | .done (f, false) b =>
      .ok ((s.withBs b).withHuf { s.huf with freq := f, total := freqSum f, hmode := .decode, hstate := .freq })
    | .raise code info _ b => .raise code info (s.withBs b)
    | .wait b => .wait b
    | .fault e => .fault e

/-! ## HUF_BUILD (R190 to R194) -/

/-- The frequency of a node (10_state.md R46). -/
def Node.freq : Node → Nat
  | .leaf _ f => f
  | .internal f _ _ => f

/-- A queue entry: a node id with its node's frequency (R192). -/
structure Key where
  freq : Nat
  id : Nat
  deriving DecidableEq, Repr

/-- The lesser key: the lower frequency first and, among equal frequencies, the lower node id (R192). -/
def keyBefore (a b : Key) : Bool := a.freq < b.freq || (a.freq == b.freq && a.id < b.id)

/-- The least of `k` and the keys of `q`. -/
def leastKey (k : Key) (q : List Key) : Key := q.foldl (fun m x => if keyBefore x m then x else m) k

/-- The least key of a queue and the rest of it. -/
def popLeast : List Key → Option (Key × List Key)
  | [] => none
  | k :: q => some (leastKey k q, (k :: q).erase (leastKey k q))

/-- The leaves: one for each symbol with non-zero frequency, in ascending symbol order; a leaf's place is its node id
(R191). -/
def leafNodes (f : Vector Nat 256) : List Node :=
  allSymbols.filterMap (fun c => if symGet f c > 0 then some (.leaf c (symGet f c)) else none)

/-- The queue of the nodes `ns`, whose ids are their places. -/
def queueOf (ns : List Node) : List Key := ns.zipIdx.map (fun p => { freq := p.1.freq, id := p.2 })

/-- The combining loop (R190, R194): at most `n` times, the two least nodes of the queue become the left and the right
child of a new node, whose id is the number of nodes so far (R193). -/
def combineLoop : (n : Nat) → List Node → List Key → List Node × List Key
  | 0, ns, q => (ns, q)
  | n + 1, ns, q =>
    match popLeast q with
    | none => (ns, q)
    | some (a, q₁) =>
      match popLeast q₁ with
      | none => (ns, q)
      | some (b, q₂) =>
        combineLoop n (ns ++ [.internal (a.freq + b.freq) a.id b.id]) (q₂ ++ [{ freq := a.freq + b.freq, id := ns.length }])

/-- What HUF_BUILD makes of the counters. -/
structure Tree where
  nodes : List Node
  root : Nat
  tkind : TKind
  deriving DecidableEq, Repr

/-- The tree of the counters `f` (R190): it depends on FREQ alone (R192). -/
def buildTree (f : Vector Nat 256) : Tree :=
  match leafNodes f with
  | [] => { nodes := [], root := 0, tkind := .empty }
  | [x] => { nodes := [x], root := 0, tkind := .single }
  | ls =>
    let r := combineLoop ls.length ls (queueOf ls)
    { nodes := r.1, root := (r.2.head?.map Key.id).getD 0, tkind := .full }

/-- HUF_BUILD's pseudocode (R190). -/
def runHufBuild (s : State) : Run :=
  checkPre (s.huf.hstate == .freq) s <|
    let t := buildTree s.huf.freq
    .ok (s.withHuf { s.huf with node := memSetFrom s.huf.node 0 t.nodes, nnodes := t.nodes.length,
                                root := t.root, tkind := t.tkind, hstate := .tree })

/-! ## HUF_CODES (R200 to R204) -/

/-- NODE[i]; an entry with id ≥ NNODES is never read (10_state.md R46). -/
def nodeAt (h : Huf) (i : Nat) : Option Node := if i < h.nnodes then memGet h.node i else none

/-- Walk(i, path), depth-first, left subtree first, to a depth of at most `n` nodes (R200, R202). -/
def walk (h : Huf) : (n : Nat) → (i : Nat) → (path : List Bool) → Vector (List Bool) 256 →
    Option (Vector (List Bool) 256)
  | 0, _, _, _ => none
  | n + 1, i, path, t =>
    match nodeAt h i with
    | none => none
    | some (.leaf c _) => some (symSet t c path)
    | some (.internal _ l r) =>
      match walk h n l (path ++ [false]) t with
      | none => none
      | some t' => walk h n r (path ++ [true]) t'

/-- The code table of the tree that the unit holds (R200, R203, R204). -/
def codeTable (h : Huf) : Option (Vector (List Bool) 256) :=
  match h.tkind with
  | .empty => some (Vector.replicate 256 [])
  | .single =>
    match nodeAt h 0 with
    | some (.leaf c _) => some (symSet (Vector.replicate 256 []) c [false])
    | _ => none
  | .full => walk h h.nnodes h.root [] (Vector.replicate 256 [])

/-- HUF_CODES' pseudocode (R200). -/
def runHufCodes (s : State) : Run :=
  checkPre (s.huf.hstate == .tree) s <|
    match codeTable s.huf with
    | some t => .ok (s.withHuf { s.huf with code := t, cvalid := true, hstate := .codes })
    | none => .fault .brokenTree

/-! ## HUF_ENCODE (R210, R211) -/

/-- The header: each counter in symbol order, FREQ_W bits wide (R183). -/
def writeHeader (freqW : Nat) (f : Vector Nat 256) (b : Stream) : Stream :=
  allSymbols.foldl (fun b c => writeBits (symGet f c) freqW b) b

/-- The second pass of HUF_ENCODE over at most `n` bytes and the End; `k` is the spec's count n (R210). -/
def encodeLoop (code : Vector (List Bool) 256) (total : Nat) : (n : Nat) → (k : Nat) → Stream → Loop Nat
  | 0, _, _ => .fault .noProgress
  | n + 1, k, b =>
    match readBits 8 b with
    | .eod b' => .done k b'
    | .wait b' => .wait b'
    | .ok r b' =>
      let c : Byte := BitVec.ofNat 8 r
      if (symGet code c).length = 0 then .raise .eHufSym (c.setWidth 32) k b'
      else if k = total then .raise .eHufLen (BitVec.ofNat 32 (k + 1)) k b'
      else encodeLoop code total n (k + 1) (writeBools (symGet code c) b')

/-- HUF_ENCODE's pseudocode (R210). -/
def runHufEncode (s : State) : Run :=
  checkPre (s.huf.hstate == .codes && s.huf.hmode == .encode) s <|
    let b₀ := writeHeader s.params.freqW s.huf.freq (rdRestart s.bs)
    match encodeLoop s.huf.code s.huf.total (available b₀ + 1) 0 b₀ with
    | .done k b =>
      if k ≠ s.huf.total then
        .raise .eHufLen (BitVec.ofNat 32 k) ((s.withBs b).withHuf { s.huf with hstate := .error })
      else .ok ((s.withBs (finalize b)).withHuf { s.huf with hstate := .done })
    | .raise code info _ b => .raise code info ((s.withBs b).withHuf { s.huf with hstate := .error })
    | .wait b => .wait b
    | .fault e => .fault e

/-! ## HUF_DECODE (R215 to R217) -/

/-- What decoding one symbol comes to. -/
inductive SymRead where
  | sym (c : Byte) (b : Stream)
  | eod (b : Stream)
  | wait (b : Stream)
  | fault (f : Fault)
  deriving DecidableEq, Repr

/-- Descend from node `i`, one bit at a time, over at most `n` nodes: 0 goes left, 1 goes right (R215). -/
def descend (h : Huf) : (n : Nat) → (i : Nat) → Stream → SymRead
  | 0, _, _ => .fault .noProgress
  | n + 1, i, b =>
    match nodeAt h i with
    | none => .fault .brokenTree
    | some (.leaf c _) => .sym c b
    | some (.internal _ l r) =>
      match readBit b with
      | .ok x b' => descend h n (if x then r else l) b'
      | .eod b' => .eod b'
      | .wait b' => .wait b'

/-- Decode one symbol: a single-leaf tree takes one bit whatever its value (R216), any other tree is descended from
ROOT. -/
def decodeSymbol (h : Huf) (b : Stream) : SymRead :=
  if h.tkind = .single then
    match nodeAt h 0 with
    | some (.leaf c _) =>
      match readBit b with
      | .ok _ b' => .sym c b'
      | .eod b' => .eod b'
      | .wait b' => .wait b'
    | _ => .fault .brokenTree
  else descend h (available b + 1) h.root b

/-- The loop of HUF_DECODE over at most `n` symbols; `k` is the spec's count n; the result is true when the stream
was truncated (R215). -/
def decodeLoop (h : Huf) : (n : Nat) → (k : Nat) → Stream → Loop Bool
  | 0, k, b => if k < h.total then .fault .noProgress else .done false b
  | n + 1, k, b =>
    if k < h.total then
      match decodeSymbol h b with
      | .sym c b' => decodeLoop h n (k + 1) (writeBits c.toNat 8 b')
      | .eod b' => .done true b'
      | .wait b' => .wait b'
      | .fault e => .fault e
    else .done false b

/-- HUF_DECODE's pseudocode (R215). -/
def runHufDecode (s : State) : Run :=
  checkPre (s.huf.hstate == .codes && s.huf.hmode == .decode) s <|
    match decodeLoop s.huf (available s.bs + 1) 0 s.bs with
    | .done true b =>
      .ok ((s.withBs (finalize b)).withHuf { s.huf with trunc := true, hstate := .done })
    | .done false b =>
      match drain b with
      | .ok _ b' => .ok ((s.withBs (finalize b')).withHuf { s.huf with hstate := .done })
      | .eod b' => .ok ((s.withBs (finalize b')).withHuf { s.huf with hstate := .done })
      | .wait b' => .wait b'
    | .raise code info _ b => .raise code info (s.withBs b)
    | .wait b => .wait b
    | .fault e => .fault e

/-! ## HUF_GETFREQ and HUF_LOOKUP (R220, R221) -/

/-- HUF_GETFREQ's pseudocode (R220). -/
def runHufGetfreq (c : Byte) (s : State) : Run :=
  .ok (s.withResult (BitVec.ofNat 32 (symGet s.huf.freq c)))

/-- Bits 32k to 32k + 31 of a code, the first in bit 31, 0 past its end (R221). -/
def codeWord (bits : List Bool) (k : Nat) : Word :=
  BitVec.ofNat 32 (bitsToNat ((List.range 32).map (fun j => bits.getD (32 * k + j) false)))

/-- HUF_LOOKUP's pseudocode (R221). -/
def runHufLookup (c : Byte) (k : BitVec 3) (s : State) : Run :=
  checkPre s.huf.cvalid s <|
    .ok ((s.withCodeLen (BitVec.ofNat 8 (symGet s.huf.code c).length)).withResult
      (codeWord (symGet s.huf.code c) k.toNat))

/-! ## The engine steps -/

/-- HUF_INIT (R180). -/
def execHufInit (s : State) : Host.Outcome State Fault Refusal := (runHufInit s).finish s

/-- HUF_COUNT (R181). -/
def execHufCount (s : State) : Host.Outcome State Fault Refusal := (runHufCount s).finish s

/-- HUF_RDHDR (R182). -/
def execHufRdhdr (s : State) : Host.Outcome State Fault Refusal := (runHufRdhdr s).finish s

/-- HUF_BUILD (R190). -/
def execHufBuild (s : State) : Host.Outcome State Fault Refusal := (runHufBuild s).finish s

/-- HUF_CODES (R200). -/
def execHufCodes (s : State) : Host.Outcome State Fault Refusal := (runHufCodes s).finish s

/-- HUF_ENCODE (R210). -/
def execHufEncode (s : State) : Host.Outcome State Fault Refusal := (runHufEncode s).finish s

/-- HUF_DECODE (R215). -/
def execHufDecode (s : State) : Host.Outcome State Fault Refusal := (runHufDecode s).finish s

/-- HUF_GETFREQ s (R220). -/
def execHufGetfreq (c : Byte) (s : State) : Host.Outcome State Fault Refusal := (runHufGetfreq c s).finish s

/-- HUF_LOOKUP s, k (R221). -/
def execHufLookup (c : Byte) (k : BitVec 3) (s : State) : Host.Outcome State Fault Refusal :=
  (runHufLookup c k s).finish s

end Sys2Proof.Machine
end

