-- ==== Sys2Proof/Machine/Lzw.lean ====
section
/-! DEFINITION. The LZW codec and the LZW_ commands (43_lzw.md R241 to R256). Each `run` is the command's
pseudocode; each `exec` is the engine step that performs it. -/

namespace Sys2Proof.Machine

/-! ## The dictionary (R242, R243, R247) -/

/-- LMAX = 2^LN - 1, the largest code value (10_state.md R51). -/
def lmax (z : Lzw) : Nat := 2 ^ z.ln.toNat - 1

/-- ResetDict() (R242): every entry at or above NEXT is invalid and never read. -/
def resetDict (z : Lzw) : Lzw := { z with next := 256 }

/-- The first half of Insert(p, c): the entry at NEXT (R243). -/
def writeEntry (p : Nat) (c : Byte) (z : Lzw) : Lzw :=
  { z with dict := memSet z.dict z.next { parent := p, byte := c }, next := z.next + 1 }

/-- Insert(p, c) with the eager overflow reset (R243; 90_conflicts.md C6). -/
def lzwInsert (p : Nat) (c : Byte) (z : Lzw) : Lzw :=
  let wrote := decide (z.next ≤ lmax z)
  let z₁ := if wrote then writeEntry p c z else z
  if z₁.next > lmax z then
    let z₂ := resetDict z₁
    if wrote then { z₂ with resets := z₂.resets + 1 } else z₂
  else z₁

/-- The valid code `k` with 256 ≤ k < NEXT and DICT[k] = (p, c), if there is one (R250). -/
def findEntry (p : Nat) (c : Byte) (z : Lzw) : Option Nat :=
  (z.dict.find? (fun e => decide (256 ≤ e.1) && decide (e.1 < z.next) && e.2 == { parent := p, byte := c })).map Prod.fst

/-- Seq(k) along a chain of at most `n` entries (R247). -/
def seqOf (z : Lzw) : (n : Nat) → (k : Nat) → Option (List Byte)
  | 0, _ => none
  | n + 1, k =>
    if k < 256 then some [BitVec.ofNat 8 k]
    else match memGet z.dict k with
      | none => none
      | some e => (seqOf z n e.parent).map (fun xs => xs ++ [e.byte])

/-- Seq(k): parents are smaller than their entry's code, so k + 1 entries suffice (R247). -/
def seqAt (z : Lzw) (k : Nat) : Option (List Byte) := seqOf z (k + 1) k

/-! ## LZW_INIT (R241) -/

/-- The LZW unit's part of LZW_INIT (R241). -/
def lzwInitUnit (n : BitVec 6) (z : Lzw) : Lzw :=
  { resetDict { z with ln := n } with resets := 0, lstate := .ready }

/-- LZW_INIT's pseudocode (R241). -/
def runLzwInit (s : State) : Run :=
  checkCodeWidth s (.ok ((s.withBs (streamInit s.bs)).withLzw (lzwInitUnit (codeWidthOperand s) s.lzw)))

/-! ## LZW_ENCODE (R250) -/

/-- Emit a code (R250): LN bits. -/
def emitCode (z : Lzw) (k : Nat) (b : Stream) : Stream := writeBits k z.ln.toNat b

/-- The loop of LZW_ENCODE over at most `n` bytes and the End; `p` is the current prefix P (R250). -/
def lzwEncodeLoop : (n : Nat) → (p : Option Nat) → Lzw → Stream → Loop (Option Nat × Lzw)
  | 0, _, _, _ => .fault .noProgress
  | n + 1, p, z, b =>
    match readBits 8 b with
    | .eod b' => .done (p, z) b'
    | .wait b' => .wait b'
    | .ok r b' =>
      let c : Byte := BitVec.ofNat 8 r
      match p with
      | none => lzwEncodeLoop n (some c.toNat) z b'
      | some q =>
        match findEntry q c z with
        | some k => lzwEncodeLoop n (some k) z b'
        | none => lzwEncodeLoop n (some c.toNat) (lzwInsert q c z) (emitCode z q b')

/-- LZW_ENCODE's pseudocode (R250). -/
def runLzwEncode (s : State) : Run :=
  checkPre (s.lzw.lstate == .ready) s <|
    let b₀ := rdRestart s.bs
    match lzwEncodeLoop (available b₀ + 1) none s.lzw b₀ with
    | .done (none, z) b => .ok ((s.withBs (finalize b)).withLzw { z with lstate := .done })
    | .done (some p, z) b => .ok ((s.withBs (finalize (emitCode z p b))).withLzw { z with lstate := .done })
    | .raise code info _ b => .raise code info (s.withBs b)
    | .wait b => .wait b
    | .fault e => .fault e

/-! ## LZW_DECODE (R253 to R256) -/

/-- What the dictionary makes of a code. -/
inductive Resolved where
  /-- the sequence `cur` -/
  | bytes (cur : List Byte)
  /-- no resolvable sequence: E_LZW_CODE -/
  | unresolved
  /-- see `Fault.brokenDict` -/
  | broken
  deriving DecidableEq, Repr

/-- A sequence read from the dictionary memory. -/
def resolvedSeq : Option (List Byte) → Resolved
  | some xs => .bytes xs
  | none => .broken

/-- The branches of LZW_DECODE for the code `k`, with the previous code `pk` (R253): the first code (R256), the
stale-code guard (R255), a present code, the KwK case (R254), an unresolvable code. -/
def resolveCode (pk : Option Nat) (z : Lzw) (k : Nat) : Resolved :=
  match pk with
  | none => if k ≥ 256 then .unresolved else .bytes [BitVec.ofNat 8 k]
  | some p =>
    if z.next = lmax z ∧ k ≥ 256 then .unresolved
    else if k < z.next then resolvedSeq (seqAt z k)
    else if k = z.next then resolvedSeq ((seqAt z p).map (fun xs => xs ++ [xs.headD 0]))
    else .unresolved

/-- Write decoded bytes, in order (R253). -/
def writeSymbols : List Byte → Stream → Stream
  | [], b => b
  | c :: cs, b => writeSymbols cs (writeBits c.toNat 8 b)

/-- The insertion after a resolved code: none after the first code (R253). -/
def insertAfter (pk : Option Nat) (cur : List Byte) (z : Lzw) : Lzw :=
  match pk with
  | none => z
  | some p => lzwInsert p (cur.headD 0) z

/-- The loop of LZW_DECODE over at most `n` codes; `pk` is the previous code PK (R253). -/
def lzwDecodeLoop : (n : Nat) → (pk : Option Nat) → Lzw → Stream → Loop Lzw
  | 0, _, _, _ => .fault .noProgress
  | n + 1, pk, z, b =>
    match readBits z.ln.toNat b with
    | .eod b' => .done z b'
    | .wait b' => .wait b'
    | .ok k b' =>
      match resolveCode pk z k with
      | .unresolved => .raise .eLzwCode (BitVec.ofNat 32 k) z b'
      | .broken => .fault .brokenDict
      | .bytes cur => lzwDecodeLoop n (some k) (insertAfter pk cur z) (writeSymbols cur b')

/-- LZW_DECODE's pseudocode (R253). -/
def runLzwDecode (s : State) : Run :=
  checkPre (s.lzw.lstate == .ready) s <|
    let b₀ := rdRestart s.bs
    match lzwDecodeLoop (available b₀ + 1) none s.lzw b₀ with
    | .done z b => .ok ((s.withBs (finalize b)).withLzw { z with lstate := .done })
    | .raise code info z b => .raise code info ((s.withBs b).withLzw { z with lstate := .error })
    | .wait b => .wait b
    | .fault e => .fault e

/-! ## The engine steps -/

/-- LZW_INIT (R241). -/
def execLzwInit (s : State) : Host.Outcome State Fault Refusal := (runLzwInit s).finish s

/-- LZW_ENCODE (R250). -/
def execLzwEncode (s : State) : Host.Outcome State Fault Refusal := (runLzwEncode s).finish s

/-- LZW_DECODE (R253). -/
def execLzwDecode (s : State) : Host.Outcome State Fault Refusal := (runLzwDecode s).finish s

end Sys2Proof.Machine
end

