-- ==== Sys2Proof/Machine/Execute.lean ====
section
/-! DEFINITION. `Execute(CUR_CMD)` of 40_control.md R131 as a `Run`, before the engine step decides: it tells
whether the engine step is enabled (20_memory.md R84) and what an aborted command would have transferred
(70_reset_and_hazards.md R353). The engine step itself is `exec` (Machine/Dispatch.lean), which finishes the same
`Run`s. -/

namespace Sys2Proof.Machine

/-- The pseudocode of each command. -/
def runCommand (i : Instr) (s : State) : Run :=
  match i with
  | .nop => runNop s
  | .bsInit => runBsInit s
  | .bsWrbits w => runBsWrbits w s
  | .bsRdbits w => runBsRdbits w s
  | .bsWrbit b => runBsWrbit b s
  | .bsRdbit => runBsRdbit s
  | .bsAlign => runBsAlign s
  | .bsEnd => runBsEnd s
  | .bsDrain => runBsDrain s
  | .hufInit => runHufInit s
  | .hufCount => runHufCount s
  | .hufRdhdr => runHufRdhdr s
  | .hufBuild => runHufBuild s
  | .hufCodes => runHufCodes s
  | .hufEncode => runHufEncode s
  | .hufDecode => runHufDecode s
  | .hufGetfreq c => runHufGetfreq c s
  | .hufLookup c k => runHufLookup c k s
  | .lzwInit => runLzwInit s
  | .lzwEncode => runLzwEncode s
  | .lzwDecode => runLzwDecode s

/-- `Execute(CUR_CMD)` (40_control.md R131). -/
def executeRun (s : State) : Run :=
  match decode s.curCmd with
  | .ok i => runCommand i s
  | .error _ => runIllegal s

/-- The bit stream a `Run` from `s` has come to. -/
def Run.stream (s : State) : Run → Stream
  | .ok t => t.bs
  | .raise _ _ t => t.bs
  | .wait b => b
  | .fault _ => s.bs

/-- The engine step is enabled: a command is accepted and completes on the tokens now in IN (20_memory.md R84). -/
def engineEnabled (s : State) : Bool := s.busy && (executeRun s).enabled

/-- The tokens the executing command would take from IN, of those IN holds, as far as these decide
(70_reset_and_hazards.md R353). -/
def wouldTake (s : State) : Nat := s.bs.inp.length - ((executeRun s).stream s).inp.length

/-- The tokens the executing command would put to OUT, as far as IN decides (R353). -/
def wouldPut (s : State) : List Token := ((executeRun s).stream s).out.drop s.bs.out.length

/-- The executing command is abandoned with CTRL.IE <- `ie` (R353). What it would have taken and put is what it takes and
puts with some tokens behind those now in IN, `rest`: where it completes on IN they change nothing, and where it waits
they are the input it waits for. For some n and m, each at most what it would have transferred, the first n tokens are
gone from IN, which must hold them, and the first m are on OUT; `rest`, n and m are free values. -/
def abandon (ie : Bool) (s : State) : State :=
  let t := pushTokens (Config.abortRest s.draws) s
  let n := min (Config.abortTaken s.draws) (min (wouldTake t) s.bs.inp.length)
  let m := min (Config.abortPut s.draws) (wouldPut t).length
  softResetTo ie (s.bs.inp.drop n) (s.bs.out ++ (wouldPut t).take m) { s with draws := s.draws + 1 }

/-- A soft reset with CTRL.IE <- `ie` (70_reset_and_hazards.md R352). -/
def softReset (ie : Bool) (s : State) : State :=
  if s.busy then abandon ie s else softResetTo ie s.bs.inp s.bs.out s

end Sys2Proof.Machine
end

