-- ==== Sys2Proof/Machine/Dispatch.lean ====
section
/-! DEFINITION. The engine step of each command: one arm per constructor of Instr. -/

namespace Sys2Proof.Machine

def exec (i : Instr) (s : State) : Host.Outcome State Fault Refusal :=
  match i with
  | .nop => Sys2Proof.Machine.execNop s
  | .bsInit => Sys2Proof.Machine.execBsInit s
  | .bsWrbits w => Sys2Proof.Machine.execBsWrbits w s
  | .bsRdbits w => Sys2Proof.Machine.execBsRdbits w s
  | .bsWrbit b => Sys2Proof.Machine.execBsWrbit b s
  | .bsRdbit => Sys2Proof.Machine.execBsRdbit s
  | .bsAlign => Sys2Proof.Machine.execBsAlign s
  | .bsEnd => Sys2Proof.Machine.execBsEnd s
  | .bsDrain => Sys2Proof.Machine.execBsDrain s
  | .hufInit => Sys2Proof.Machine.execHufInit s
  | .hufCount => Sys2Proof.Machine.execHufCount s
  | .hufRdhdr => Sys2Proof.Machine.execHufRdhdr s
  | .hufBuild => Sys2Proof.Machine.execHufBuild s
  | .hufCodes => Sys2Proof.Machine.execHufCodes s
  | .hufEncode => Sys2Proof.Machine.execHufEncode s
  | .hufDecode => Sys2Proof.Machine.execHufDecode s
  | .hufGetfreq c => Sys2Proof.Machine.execHufGetfreq c s
  | .hufLookup c k => Sys2Proof.Machine.execHufLookup c k s
  | .lzwInit => Sys2Proof.Machine.execLzwInit s
  | .lzwEncode => Sys2Proof.Machine.execLzwEncode s
  | .lzwDecode => Sys2Proof.Machine.execLzwDecode s

end Sys2Proof.Machine
end

