-- ==== Sys2Proof/Machine/Flags.lean ====
section
/-! DEFINITION. The STATUS flags and fields (10_state.md R29 to R31, R55), the write-one-to-clear rule and the
interrupt line (60_exceptions.md R321). -/

namespace Sys2Proof.Machine

/-- ERR.CODE as a number (60_exceptions.md R300). -/
def ErrCode.number : ErrCode → BitVec 4
  | .none => 0
  | .eCmd => 1
  | .eSeq => 2
  | .eWidth => 3
  | .eCfg => 4
  | .eFreqOvf => 5
  | .eHufSym => 6
  | .eHufLen => 7
  | .eLzwCode => 8

/-- STATUS.HSTATE as a number (10_state.md R30). -/
def HState.number : HState → BitVec 3
  | .idle => 0
  | .freq => 1
  | .tree => 2
  | .codes => 3
  | .done => 4
  | .error => 5

/-- STATUS.HMODE: 0 encode, 1 decode (R29). -/
def HMode.bit : HMode → Bool
  | .encode => false
  | .decode => true

/-- STATUS.LSTATE as a number (R31). -/
def LState.number : LState → BitVec 2
  | .uninit => 0
  | .ready => 1
  | .done => 2
  | .error => 3

/-- STATUS.ERRF: 1 exactly when ERR.CODE is not 0 (R29). -/
def errf (s : State) : Bool := s.err != .none

/-- STATUS with BUSY = 0, field by field from bit 31 down (R29). -/
def statusWord (s : State) : Word :=
  0#8 ++ BitVec.ofNat 4 s.bs.rcnt.val ++
  0#1 ++ BitVec.ofNat 3 s.bs.wcnt.val ++
  0#2 ++ s.lzw.lstate.number ++
  0#1 ++ s.huf.hstate.number ++
  BitVec.ofBool s.huf.cvalid ++ BitVec.ofBool s.huf.hmode.bit ++
  BitVec.ofBool s.huf.trunc ++ BitVec.ofBool s.bs.eodf ++
  BitVec.ofBool (errf s) ++ BitVec.ofBool s.ovr ++ BitVec.ofBool s.done ++ BitVec.ofBool s.busy

/-- The bits of STATUS that are unspecified while BUSY = 1: EOD, TRUNC, HMODE, CVALID, HSTATE, LSTATE, WCNT and
RCNT (20_memory.md R85). -/
def busyStatusMask : Word := 0x00F737F0#32

/-- STATUS read while BUSY = 1: BUSY = 1, DONE = 0, ERRF = 0, OVR accurate, the other fields from the free value
`x` (20_memory.md R85). -/
def busyStatusWord (x : Word) (s : State) : Word :=
  (x &&& busyStatusMask) ||| (0#29 ++ BitVec.ofBool s.ovr ++ 0#1 ++ 1#1)

/-- A host write to STATUS: clears DONE if bit 1 is 1 and OVR if bit 2 is 1 (R29). -/
def clearFlags (v : Word) (s : State) : State :=
  { s with done := s.done && !v.getLsbD 1, ovr := s.ovr && !v.getLsbD 2 }

/-- The interrupt line: irq = CTRL.IE & (STATUS.DONE | STATUS.ERRF) (60_exceptions.md R321). -/
def irq (s : State) : Bool := s.ie && (s.done || errf s)

end Sys2Proof.Machine
end

