-- ==== Sys2Proof/Machine/Registers.lean ====
section
/-! DEFINITION. The register window: the map of 10_state.md R23, what each register reads (R24 to R38, 20_memory.md
R73, R85) and what a write to it does. -/

namespace Sys2Proof.Machine

/-- The sixteen registers (10_state.md R23). -/
inductive Reg where
  | ctrl
  | cfg
  | cmd
  | arg
  | result
  | status
  | err
  | errInfo
  | cntIn
  | cntOut
  | hufTotalLo
  | hufTotalHi
  | codeLen
  | lzwNext
  | lzwResets
  | lzwN
  deriving DecidableEq, Repr

/-- The register at a byte offset; none where the offset is no multiple of 4 in 0x00..0x3C (20_memory.md R72). -/
def regAtOffset (off : Nat) : Option Reg :=
  match off with
  | 0x00 => some .ctrl
  | 0x04 => some .cfg
  | 0x08 => some .cmd
  | 0x0C => some .arg
  | 0x10 => some .result
  | 0x14 => some .status
  | 0x18 => some .err
  | 0x1C => some .errInfo
  | 0x20 => some .cntIn
  | 0x24 => some .cntOut
  | 0x28 => some .hufTotalLo
  | 0x2C => some .hufTotalHi
  | 0x30 => some .codeLen
  | 0x34 => some .lzwNext
  | 0x38 => some .lzwResets
  | 0x3C => some .lzwN
  | _ => none

/-- The value of a register, with BUSY = 0 where R85 makes a difference (10_state.md R24 to R38). -/
def regValue (r : Reg) (s : State) : Word :=
  match r with
  | .ctrl => 0#30 ++ BitVec.ofBool s.ie ++ 0#1
  | .cfg => 0#26 ++ s.dictBits
  | .cmd => 0
  | .arg => s.arg
  | .result => s.result
  | .status => statusWord s
  | .err => 0#28 ++ s.err.number
  | .errInfo => s.errInfo
  | .cntIn => s.bs.cntIn
  | .cntOut => s.bs.cntOut
  | .hufTotalLo => BitVec.ofNat 32 s.huf.total
  | .hufTotalHi => 0#24 ++ BitVec.ofNat 8 (s.huf.total / 2 ^ 32)
  | .codeLen => 0#24 ++ s.codeLen
  | .lzwNext => BitVec.ofNat 32 s.lzw.next
  | .lzwResets => s.lzw.resets
  | .lzwN => 0#26 ++ s.lzw.ln

/-- CTRL, CFG, CMD and ARG read accurately at all times; every other register is read-only or STATUS
(20_memory.md R85). -/
def alwaysAccurate (r : Reg) : Bool := r == .ctrl || r == .cfg || r == .cmd || r == .arg

/-- A host read of a register: the value and the state after, which is the same but for a free value drawn while
BUSY = 1 (20_memory.md R73, R85). -/
def readReg (r : Reg) (s : State) : Word × State :=
  if s.busy && !alwaysAccurate r then
    let x := Config.busyRead s.draws
    (if r = .status then busyStatusWord x s else x, { s with draws := s.draws + 1 })
  else (regValue r s, s)

/-- A host write to a register (10_state.md R24 to R29, 20_memory.md R73): read-only registers ignore it. -/
def writeReg (r : Reg) (v : Word) (s : State) : State :=
  match r with
  | .ctrl => if v.getLsbD 0 then softReset (v.getLsbD 1) s else { s with ie := v.getLsbD 1 }
  | .cfg => { s with dictBits := v.extractLsb' 0 6 }
  | .cmd => acceptCommand v s
  | .arg => { s with arg := v }
  | .status => clearFlags v s
  | .result | .err | .errInfo | .cntIn | .cntOut | .hufTotalLo | .hufTotalHi | .codeLen | .lzwNext
  | .lzwResets | .lzwN => s

end Sys2Proof.Machine
end

