-- ==== Sys2Proof/Machine/HostOps.lean ====
section
/-! DEFINITION. The host operations (20_memory.md R78) and which of them can be performed now. -/

namespace Sys2Proof.Machine

/-- The offset of an address in the core's window, address bits 5:0 (20_memory.md R71); none outside it. -/
def windowOffset (p : Params) (addr : Nat) : Option Nat :=
  if p.base ≤ addr ∧ addr < p.base + 64 then some (addr - p.base) else none

/-- The register a legal access reaches: 4 bytes at a multiple of 4 (R72). -/
def accessedReg (off size : Nat) : Option Reg := if size = 4 then regAtOffset off else none

/-- The host has performed its operation and goes to the next (10_state.md R21). -/
def advance (s : State) : State := { s with host := { s.host with index := s.host.index + 1 } }

/-- The host has observed `xs` (70_reset_and_hazards.md R357). -/
def observe (xs : List Obs) (s : State) : State := { s with host := { s.host with trace := s.host.trace ++ xs } }

/-- MemRead at an offset of the window: an access that is not legal reads 0 (R72). -/
def windowRead (off size : Nat) (s : State) : Word × State :=
  match accessedReg off size with
  | some r => readReg r s
  | none => (0, s)

/-- MemWrite at an offset of the window: an access that is not legal has no effect (R72). -/
def windowWrite (off size : Nat) (v : Word) (s : State) : State :=
  match accessedReg off size with
  | some r => writeReg r v s
  | none => s

/-- OUT with its tokens removed. -/
def withOut (ts : List Token) (s : State) : State := s.withBs { s.bs with out := ts }

/-- The host's next operation, if its program has one left. -/
def nextOp (s : State) : Option HostOp := s.host.prog[s.host.index]?

/-- The operation can be performed now: OutPop waits while OUT is empty, WaitIdle while BUSY = 1 (R78). -/
def opEnabled (op : HostOp) (s : State) : Bool :=
  match op with
  | .outPop => !s.bs.out.isEmpty
  | .waitIdle => !s.busy
  | .memRead _ _ | .memWrite _ _ _ | .inPush _ | .outPopAll | .hardReset => true

/-- Perform a host operation, or wait (R78). -/
def hostStep (op : HostOp) (s : State) : Host.Outcome State Fault Refusal :=
  match op with
  | .memRead addr size =>
    match windowOffset s.params addr with
    | none => .refused (.outsideWindow addr)
    | some off =>
      let r := windowRead off size s
      .next (advance (observe [.value r.1] r.2))
  | .memWrite addr size v =>
    match windowOffset s.params addr with
    | none => .refused (.outsideWindow addr)
    | some off => .next (advance (windowWrite off size v s))
  | .inPush t => .next (advance (pushTokens [t] s))
  | .outPop =>
    match s.bs.out with
    | [] => .next s
    | t :: ts => .next (advance (observe [.token t] (withOut ts s)))
  | .outPopAll => .next (advance (observe (s.bs.out.map .token) (withOut [] s)))
  | .waitIdle => if s.busy then .next s else .next (advance s)
  | .hardReset => .next (advance (hardResetCore s))

end Sys2Proof.Machine
end

