-- ==== Sys2Proof/Machine/Engine.lean ====
section
/-! DEFINITION. The engine step (40_control.md R131) and whose move it is (20_memory.md R83, R84). -/

namespace Sys2Proof.Machine

/-- The engine performs the accepted command; a word that is no command raises E_CMD (40_control.md R131). -/
def engineStep (s : State) : Host.Outcome State Fault Refusal :=
  match decode s.curCmd with
  | .ok i => exec i s
  | .error _ => (runIllegal s).finish s

/-- Whose move it is, and the state in which it is made. -/
inductive Turn where
  | engine (s : State)
  | host (op : HostOp) (s : State)
  deriving DecidableEq, Repr

/-- Whose move it is (20_memory.md R84). Where only one agent can move, it does; where both can, a free value decides
(notes/assumptions/5.md); where neither can, the one the program names waits (notes/assumptions/9.md). -/
def whoseTurn (s : State) : Turn :=
  match nextOp s with
  | none => .engine s
  | some op =>
    if engineEnabled s then
      if opEnabled op s then
        let t := { s with draws := s.draws + 1 }
        if Config.engineFirst s.draws then .engine t else .host op t
      else .engine s
    else .host op s

/-- The engine's move: with no command accepted it is idle and holds its state (60_exceptions.md R339). -/
def engineTurn (s : State) : Host.Outcome State Fault Refusal := if s.busy then engineStep s else .next s

/-- The state `s` in which the word `c` has just been accepted (40_control.md R130) and the host's program is at its
end, so that the engine makes the next move. -/
def placeCommand (c : Word) (s : State) : State :=
  { takeCommand c s with host := { s.host with index := s.host.prog.length } }

end Sys2Proof.Machine
end

