-- ==== Sys2Proof/Machine/Step.lean ====
section
/-! DEFINITION. One step of the machine: a host operation or the engine step. -/

namespace Sys2Proof.Machine

/-- One step (20_memory.md R83, R84). A run that has ended, and an agent that waits for ever, keep the state as it is
(70_reset_and_hazards.md R357; notes/assumptions/9.md, 19.md). -/
def step (s : State) : Host.Outcome State Fault Refusal :=
  match whoseTurn s with
  | .engine t => engineTurn t
  | .host op t => hostStep op t

/-- `s` with the command word of the table's bits `w` accepted and the engine to move, so that the next step executes
exactly it: the core fetches no instructions, a command is the value of one CMD write (20_memory.md R88;
notes/assumptions/10.md). -/
def State.withFetchWord (s : State) (nbits w : Nat) : State := placeCommand (BitVec.ofNat 32 (w % 2 ^ nbits)) s

end Sys2Proof.Machine
end

