-- ==== Sys2Proof/Safety.lean ====
section
/-! DEFINITION. The terms that claims use: the bit strings behind the packer, the unpacker and the ports, what a
finished or a partial write looks like on OUT, and the invariants of the machine. -/

namespace Sys2Proof.Machine

/-! ## Bit strings (00_scope.md R16, 20_memory.md R79, R80) -/

/-- The bit string of the low `w` bits of `v`, most significant first (R16). -/
def natBits : (w : Nat) → (v : Nat) → List Bool
  | 0, _ => []
  | w + 1, v => v.testBit w :: natBits w v

/-- The eight bits of a stream byte, bit 7 first (R79). -/
def byteBits (c : Byte) : List Bool := natBits 8 c.toNat

/-- The bits of data bytes, in stream order. -/
def bytesBits (xs : List Byte) : List Bool := xs.flatMap byteBits

/-- The pending bit string of the packer, WBUF[WCNT-1], ..., WBUF[0] (10_state.md R41). -/
def pendingBits (b : Stream) : List Bool := natBits b.wcnt.val b.wbuf.toNat

/-- The unread bits of the unpacker, RBUF[RCNT-1], ..., RBUF[0] (10_state.md R42). -/
def unreadBits (b : Stream) : List Bool := natBits b.rcnt.val b.rbuf.toNat

/-- The data bytes at the head of a token sequence, up to its first End. -/
def leadingBytes : List Token → List Byte
  | .byte c :: ts => c :: leadingBytes ts
  | _ => []

/-- The bits the unpacker can still deliver from the current input stream with the tokens now in IN. -/
def inBits (b : Stream) : List Bool :=
  unreadBits b ++ (if b.eodf then [] else bytesBits (leadingBytes b.inp))

/-- The End of the current input stream has been taken or is in IN. -/
def inClosed (b : Stream) : Bool := b.eodf || b.inp.contains .stop

/-- The packer's invariant: WBUF bits at positions ≥ WCNT are 0 (10_state.md R41). -/
def PackerOk (b : Stream) : Prop := b.wbuf.toNat < 2 ^ b.wcnt.val

/-- `b'` is `b` after writing the bit string `bits` and nothing else: whole bytes are on OUT, counted by CNT_OUT, the rest
is pending (41_bitstream.md R143). -/
def Wrote (bits : List Bool) (b b' : Stream) : Prop :=
  ∃ xs : List Byte,
    b' = { b with out := b.out ++ xs.map .byte, cntOut := b.cntOut + BitVec.ofNat 32 xs.length,
                  wbuf := b'.wbuf, wcnt := b'.wcnt } ∧
    bytesBits xs ++ pendingBits b' = pendingBits b ++ bits ∧
    PackerOk b'

/-- How many zero bits bring `n` bits to a byte boundary (R144). -/
def padding (n : Nat) : Nat := (8 - n % 8) % 8

/-- `b'` is `b` after writing `bits`, padding with zero bits to a byte boundary and, where `withEnd`, the End token
(R144, R145). -/
def Closed (withEnd : Bool) (bits : List Bool) (b b' : Stream) : Prop :=
  ∃ xs : List Byte,
    b' = { b with out := b.out ++ xs.map .byte ++ (if withEnd then [.stop] else []),
                  cntOut := b.cntOut + BitVec.ofNat 32 xs.length, wbuf := 0, wcnt := 0 } ∧
    bytesBits xs = pendingBits b ++ bits ++ List.replicate (padding (b.wcnt.val + bits.length)) false

/-- `b'` is `b` after taking `n` bits of the current input stream and nothing else (R141, R142): some data bytes have left
IN, counted by CNT_IN and the last of them in RBUF, and a byte is taken only when its first bit is needed. -/
def Took (n : Nat) (b b' : Stream) : Prop :=
  ∃ xs : List Byte,
    b.inp = xs.map .byte ++ b'.inp ∧
    b' = { b with inp := b'.inp, rbuf := xs.getLast?.getD b.rbuf, rcnt := b'.rcnt,
                  cntIn := b.cntIn + BitVec.ofNat 32 xs.length } ∧
    inBits b' = (inBits b).drop n ∧
    available b = available b' + n ∧
    (xs = [] ∨ b'.rcnt.val < 8)

/-- The tokens behind the End of the current input stream. -/
def restAfterEnd (b : Stream) : List Token := if b.eodf then b.inp else (b.inp.dropWhile (· != .stop)).drop 1

/-- The data bytes of the current input stream that are still in IN. -/
def bytesBeforeEnd (b : Stream) : List Byte := if b.eodf then [] else leadingBytes b.inp

/-- `b'` is `b` after reads have met the End of the current input stream and nothing else: every byte before it has been
taken and counted, the last of them in RBUF, and no bit is left (R141, R142). -/
def ReachedEnd (b b' : Stream) : Prop :=
  b' = { b with inp := restAfterEnd b, rbuf := (bytesBeforeEnd b).getLast?.getD b.rbuf, rcnt := 0, eodf := true,
                cntIn := b.cntIn + BitVec.ofNat 32 (bytesBeforeEnd b).length }

/-- `b'` is `b` after Drain and nothing else (R149): as `ReachedEnd`, but the bytes do not pass through RBUF. -/
def Drained (b b' : Stream) : Prop :=
  b' = { b with inp := restAfterEnd b, rcnt := 0, eodf := true,
                cntIn := b.cntIn + BitVec.ofNat 32 (bytesBeforeEnd b).length }

/-- `b` after the unpacker, restarted, has read the data bytes `xs` whole, leaving the tokens `rest` in IN;
`ended` tells whether it also took the End after them (R141, R147). -/
def tookBytes (xs : List Byte) (ended : Bool) (rest : List Token) (b : Stream) : Stream :=
  { b with inp := rest, rbuf := xs.getLast?.getD b.rbuf, rcnt := 0, eodf := ended,
           cntIn := b.cntIn + BitVec.ofNat 32 xs.length }

/-- The number of data bytes among tokens (CNT_IN and CNT_OUT count these, 10_state.md R34, R35). -/
def dataCount (ts : List Token) : Nat := ts.countP (fun t => t != .stop)

/-- WriteBits of several (value, width) pairs, in order. -/
def writeAll : List (Nat × Nat) → Stream → Stream
  | [], b => b
  | (v, w) :: ws, b => writeAll ws (writeBits v w b)

/-- ReadBits of several widths, in order: the values read, unless one of the reads meets end-of-data or waits. -/
def readAll : List Nat → Stream → Rd (List Nat)
  | [], b => .ok [] b
  | w :: ws, b =>
    match readBits w b with
    | .ok v b₁ =>
      match readAll ws b₁ with
      | .ok vs b₂ => .ok (v :: vs) b₂
      | .eod b₂ => .eod b₂
      | .wait b₂ => .wait b₂
    | .eod b₁ => .eod b₁
    | .wait b₁ => .wait b₁

/-- A packer and an unpacker as StreamInit leaves them, with the tokens `ts` in IN (R148). -/
def freshStream (ts : List Token) : Stream := { Stream.reset with inp := ts }

/-! ## The Huffman tree as a machine of its own -/

/-- The node reached from node `i` along `bits`: 0 goes left, 1 goes right (42_huffman.md R202). -/
def follow (h : Huf) : (i : Nat) → (bits : List Bool) → Option Node
  | i, [] => nodeAt h i
  | i, x :: bits =>
    match nodeAt h i with
    | some (.internal _ l r) => follow h (if x then r else l) bits
    | _ => none

/-- The path `bits` from ROOT ends at a leaf of symbol `c` (42_huffman.md R201). -/
def leafPath (h : Huf) (bits : List Bool) (c : Byte) : Prop := ∃ f, follow h h.root bits = some (.leaf c f)

/-- The symbols with a leaf, in ascending order (R191). -/
def leafSymbols (f : Vector Nat 256) : List Byte := allSymbols.filter (fun c => decide (0 < symGet f c))

/-- The frequency of the node with id `i`, where there is one. -/
def freqOf (h : Huf) (i : Nat) : Nat := ((nodeAt h i).map Node.freq).getD 0

/-- The sum of the frequencies of the leaves below node `i`, over at most `n` levels. -/
def leavesSum (h : Huf) : (n : Nat) → (i : Nat) → Nat
  | 0, _ => 0
  | n + 1, i =>
    match nodeAt h i with
    | some (.leaf _ f) => f
    | some (.internal _ l r) => leavesSum h n l + leavesSum h n r
    | none => 0

/-- Node `j` is a child of node `i`. -/
def childOf (h : Huf) (i j : Nat) : Prop := ∃ f l r, nodeAt h i = some (.internal f l r) ∧ (j = l ∨ j = r)

/-- The queue's order on node ids: the lower frequency first and, among equal frequencies, the lower id (R192). -/
def idBefore (h : Huf) (i j : Nat) : Prop := freqOf h i < freqOf h j ∨ (freqOf h i = freqOf h j ∧ i < j)

/-- The node `j` is in the queue when node `k` is created: it exists and is no child of a node created before `k`
(R190). -/
def inQueue (h : Huf) (k j : Nat) : Prop :=
  j < k ∧ ∀ i f l r, i < k → nodeAt h i = some (.internal f l r) → j ≠ l ∧ j ≠ r

/-- The tree memory holds the tree of the counters `f`, as 42_huffman.md R190 to R194 say it: the leaves in ascending
symbol order, then internal nodes, each made of the two least nodes in the queue at its creation, the least on the left. -/
def IsHuffmanTree (f : Vector Nat 256) (h : Huf) : Prop :=
  (∀ i c, (leafSymbols f)[i]? = some c → nodeAt h i = some (.leaf c (symGet f c))) ∧
  ((leafSymbols f).length = 0 → h.tkind = .empty ∧ h.nnodes = 0 ∧ h.root = 0) ∧
  ((leafSymbols f).length = 1 → h.tkind = .single ∧ h.nnodes = 1 ∧ h.root = 0) ∧
  (2 ≤ (leafSymbols f).length →
    h.tkind = .full ∧ h.nnodes = 2 * (leafSymbols f).length - 1 ∧ h.root = 2 * (leafSymbols f).length - 2) ∧
  (∀ k, (leafSymbols f).length ≤ k → k < h.nnodes →
    ∃ a b, nodeAt h k = some (.internal (freqOf h a + freqOf h b) a b) ∧
      a ≠ b ∧ inQueue h k a ∧ inQueue h k b ∧
      (∀ j, inQueue h k j → j ≠ a → idBefore h a j) ∧
      (∀ j, inQueue h k j → j ≠ a → j ≠ b → idBefore h b j))

/-! ## The codecs as functions of byte and code sequences -/

/-- The header bits of the counters `f`: each in symbol order, most significant bit first (42_huffman.md R183). -/
def headerBits (freqW : Nat) (f : Vector Nat 256) : List Bool := allSymbols.flatMap (fun c => natBits freqW (symGet f c))

/-- The codes LZW_ENCODE emits for bytes, from the prefix `p` on, and the unit after (43_lzw.md R250). -/
def lzwSpell : (p : Option Nat) → Lzw → List Byte → List Nat × Lzw
  | none, z, [] => ([], z)
  | some p, z, [] => ([p], z)
  | none, z, c :: cs => lzwSpell (some c.toNat) z cs
  | some p, z, c :: cs =>
    match findEntry p c z with
    | some k => lzwSpell (some k) z cs
    | none => (p :: (lzwSpell (some c.toNat) (lzwInsert p c z) cs).1, (lzwSpell (some c.toNat) (lzwInsert p c z) cs).2)

/-- The bytes LZW_DECODE gives for codes, after the previous code `pk`, and the unit after; none where a code does not
resolve (43_lzw.md R253). -/
def lzwRead : (pk : Option Nat) → Lzw → List Nat → Option (List Byte × Lzw)
  | _, z, [] => some ([], z)
  | pk, z, k :: ks =>
    match resolveCode pk z k with
    | .bytes cur => (lzwRead (some k) (insertAfter pk cur z) ks).map (fun r => (cur ++ r.1, r.2))
    | _ => none

/-- The bits of codes, each `w` bits wide. -/
def codesBits (w : Nat) (ks : List Nat) : List Bool := ks.flatMap (natBits w)

/-! ## Invariants -/

/-- The bit-stream controller (10_state.md R41: "WBUF bits at positions ≥ WCNT are 0"; R42: EODF is set only with no bit
left). -/
def StreamOk (b : Stream) : Prop := PackerOk b ∧ (b.eodf = true → b.rcnt = 0)

/-- A tree that HUF_CODES and HUF_DECODE can use (10_state.md R46, R47). -/
def TreeOk (h : Huf) : Prop :=
  (h.tkind = .empty → h.total = 0) ∧
  (h.tkind = .single → ∃ c f, nodeAt h 0 = some (.leaf c f)) ∧
  (h.tkind = .full →
    (∃ f l r, nodeAt h h.root = some (.internal f l r)) ∧
    ∀ i, i < h.nnodes → (∃ n, nodeAt h i = some n) ∧
      ∀ f l r, nodeAt h i = some (.internal f l r) → l < i ∧ r < i)

/-- The Huffman unit: counters of FREQ_W bits (10_state.md R43), TOTAL the sum of the counters from HUF_COUNT or
HUF_RDHDR on (R44), CVALID with the states that have a code table (R29, R48), at most 511 nodes (R46). -/
def HufOk (p : Params) (h : Huf) : Prop :=
  (∀ c, symGet h.freq c < 2 ^ p.freqW) ∧
  (h.hstate = .idle → h.freq = Vector.replicate 256 0 ∧ h.total = 0) ∧
  (h.hstate = .freq ∨ h.hstate = .tree ∨ h.hstate = .codes ∨ h.hstate = .done → h.total = freqSum h.freq) ∧
  (h.hstate = .codes → h.cvalid = true) ∧
  (h.cvalid = true → h.hstate = .codes ∨ h.hstate = .done ∨ h.hstate = .error) ∧
  h.nnodes ≤ 511 ∧
  (h.hstate = .tree ∨ h.hstate = .codes → TreeOk h)

/-- The LZW unit: LN latched within 8..LZW_NMAX (43_lzw.md R241), 256 ≤ NEXT ≤ LMAX for LN > 8 and NEXT = 256 for LN = 8
(R244), every valid entry written and its parent smaller than its code (R247), a fresh dictionary while READY. -/
def LzwOk (p : Params) (z : Lzw) : Prop :=
  (z.lstate = .uninit → z.ln = 0 ∧ z.next = 256 ∧ z.resets = 0) ∧
  (z.lstate ≠ .uninit → 8 ≤ z.ln.toNat ∧ z.ln.toNat ≤ p.lzwNmax) ∧
  256 ≤ z.next ∧
  (8 < z.ln.toNat → z.next ≤ lmax z) ∧
  (z.ln.toNat ≤ 8 → z.next = 256) ∧
  (∀ k, 256 ≤ k → k < z.next → ∃ e, memGet z.dict k = some e ∧ e.parent < k) ∧
  (z.lstate = .ready → z.next = 256 ∧ z.resets = 0)

/-- Errors and BUSY: ERRINFO is 0 with no error recorded (60_exceptions.md R300), a command runs only with none recorded and
with DONE = 0 (40_control.md R130), a unit in its ERROR state always comes with a recorded error (R310, 43_lzw.md R241). -/
def ErrorOk (s : State) : Prop :=
  (s.err = .none → s.errInfo = 0) ∧
  (s.busy = true → s.err = .none ∧ s.done = false) ∧
  (s.huf.hstate = .error → s.err ≠ .none) ∧
  (s.lzw.lstate = .error → s.err ≠ .none)

/-- The internal memories are in canonical form. -/
def MemoriesOk (s : State) : Prop := memWf s.huf.node = true ∧ memWf s.lzw.dict = true

/-- A state such as a run from reset reaches. -/
def State.Ok (s : State) : Prop :=
  StreamOk s.bs ∧ HufOk s.params s.huf ∧ LzwOk s.params s.lzw ∧ ErrorOk s ∧ MemoriesOk s

/-! ## Commands: rows, preconditions, moves and runs -/

/-- The row of a command in the opcode map, counted from 0 (30_encoding.md R103). -/
def rowOf : Instr → Nat
  | .nop => 0
  | .bsInit => 1
  | .bsWrbits _ => 2
  | .bsRdbits _ => 3
  | .bsWrbit _ => 4
  | .bsRdbit => 5
  | .bsAlign => 6
  | .bsEnd => 7
  | .bsDrain => 8
  | .hufInit => 9
  | .hufCount => 10
  | .hufRdhdr => 11
  | .hufBuild => 12
  | .hufCodes => 13
  | .hufEncode => 14
  | .hufDecode => 15
  | .hufGetfreq _ => 16
  | .hufLookup _ _ => 17
  | .lzwInit => 18
  | .lzwEncode => 19
  | .lzwDecode => 20

/-- HSTATE after a command that completed without an error, from HSTATE `h` (42_huffman.md, 10_state.md R30). -/
def hufMoves (i : Instr) (h : HState) : List HState :=
  match i with
  | .hufInit => [.idle]
  | .hufCount => [.freq]
  | .hufRdhdr => [.freq, .done]
  | .hufBuild => [.tree]
  | .hufCodes => [.codes]
  | .hufEncode | .hufDecode => [.done]
  | .nop | .bsInit | .bsWrbits _ | .bsRdbits _ | .bsWrbit _ | .bsRdbit | .bsAlign | .bsEnd | .bsDrain => [h]
  | .hufGetfreq _ | .hufLookup _ _ | .lzwInit | .lzwEncode | .lzwDecode => [h]

/-- LSTATE after a command that completed without an error, from LSTATE `l` (10_state.md R31). -/
def lzwMove (i : Instr) (l : LState) : LState :=
  match i with
  | .lzwInit => .ready
  | .lzwEncode | .lzwDecode => .done
  | .nop | .bsInit | .bsWrbits _ | .bsRdbits _ | .bsWrbit _ | .bsRdbit | .bsAlign | .bsEnd | .bsDrain => l
  | .hufInit | .hufCount | .hufRdhdr | .hufBuild | .hufCodes | .hufEncode | .hufDecode => l
  | .hufGetfreq _ | .hufLookup _ _ => l

/-- The job commands that end their output stream at every normal completion (41_bitstream.md R146), and BS_END. -/
def endsOutput (i : Instr) : Bool :=
  i == .hufEncode || i == .hufDecode || i == .lzwEncode || i == .lzwDecode || i == .bsEnd

/-- The commands that call StreamInit (41_bitstream.md R148). -/
def startsStream (i : Instr) : Bool := i == .bsInit || i == .hufInit || i == .lzwInit

/-- The table of preconditions (40_control.md R132). -/
def preTable (i : Instr) (s : State) : Bool :=
  match i with
  | .nop | .bsInit | .bsWrbits _ | .bsRdbits _ | .bsWrbit _ | .bsRdbit | .bsAlign | .bsEnd | .bsDrain => true
  | .hufInit | .hufGetfreq _ => true
  | .hufCount => s.huf.hstate == .idle
  | .hufRdhdr => s.huf.hstate == .idle
  | .hufBuild => s.huf.hstate == .freq
  | .hufCodes => s.huf.hstate == .tree
  | .hufEncode => s.huf.hstate == .codes && s.huf.hmode == .encode
  | .hufDecode => s.huf.hstate == .codes && s.huf.hmode == .decode
  | .hufLookup _ _ => s.huf.cvalid
  | .lzwInit => true
  | .lzwEncode | .lzwDecode => s.lzw.lstate == .ready

/-- The host has no operation that it can perform now: its program is at its end, or it waits (20_memory.md R78). -/
def hostWaits (s : State) : Prop := ∀ op, nextOp s = some op → opEnabled op s = false

/-- The engine steps of commands one after the other, each on the state the one before left; a fault or a refusal ends
them. -/
def execAll : List Instr → State → Host.Outcome State Fault Refusal
  | [], s => .next s
  | i :: is, s =>
    match exec i s with
    | .next t => execAll is t
    | o => o

end Sys2Proof.Machine
end

