-- ==== Sys2Proof/Certificates/Slice0/Obligations.lean ====
section
/-! DEFINITION. The statements about the model that the provers are asked to prove. Each docstring names the rules of
spec/ it formalises. -/

open Sys2Proof Sys2Proof.Machine

/-! ## Encoding -/

/-- Decoding and encoding are inverse to each other (30_encoding.md R101, R103): every command decodes from the word the encoder
gives it, and from no other word. -/
def Obligations.DecodeInvertsEncode : Prop := ∀ (c : Word) (i : Instr), decode c = .ok i ↔ c = encode i

/-- The opcode map (30_encoding.md R103): a word decodes to a command exactly when it selects that command's row, which is
then the only row it selects. -/
def Obligations.OpcodeMapSelectsTheRow : Prop :=
  (∀ (c : Word) (n : Nat) (r : OpcodeRow), opcodeRows[n]? = some r →
    (r.selects c = true ↔ ∃ i, decode c = .ok i ∧ rowOf i = n)) ∧
  (∀ (c : Word) (m n : Nat) (r q : OpcodeRow), opcodeRows[m]? = some r → opcodeRows[n]? = some q →
    r.selects c = true → q.selects c = true → m = n)

/-- Operand assembly (30_encoding.md R101): the immediates are the word's fields. -/
def Obligations.OperandsAreFields : Prop :=
  (∀ c w, decode c = .ok (.bsWrbits w) → w.toNat = c.toNat / 2 ^ 16 % 64) ∧
  (∀ c w, decode c = .ok (.bsRdbits w) → w.toNat = c.toNat / 2 ^ 16 % 64) ∧
  (∀ c b, decode c = .ok (.bsWrbit b) → b = c.getLsbD 8) ∧
  (∀ c x, decode c = .ok (.hufGetfreq x) → x.toNat = c.toNat / 2 ^ 8 % 256) ∧
  (∀ c x k, decode c = .ok (.hufLookup x k) → x.toNat = c.toNat / 2 ^ 8 % 256 ∧ k.toNat = c.toNat / 2 ^ 16 % 8)

/-- Decoding is total, and an accepted word that matches no row raises E_CMD with the word and changes no other state
(30_encoding.md R104). -/
def Obligations.OffMapWordsRaiseECmd : Prop :=
  (∀ c : Word, (∃ i, decode c = .ok i) ↔ legalWord c = true) ∧
  (∀ c : Word, decode c = .error .reservedOpcode ↔ ∀ r ∈ opcodeRows, opField c ≠ opField r.pattern) ∧
  (∀ c : Word, decode c = .error .fixedBits ↔
    ∃ r ∈ opcodeRows, opField c = opField r.pattern ∧ c &&& r.mask ≠ r.pattern) ∧
  (∀ s : State, s.busy = true → legalWord s.curCmd = false → hostWaits s →
    step s = .next { s with err := .eCmd, errInfo := s.curCmd, busy := false, done := true })

/-- The reserved opcodes and RSV (30_encoding.md R106): a word with a reserved opcode is rejected as such, a word with RSV ≠ 0
is illegal, and NOP is the word 0 alone. -/
def Obligations.ReservedWordsAreIllegal : Prop :=
  (∀ c : Word, ((0x01 ≤ (opField c).toNat ∧ (opField c).toNat ≤ 0x0F) ∨ (0x18 ≤ (opField c).toNat ∧ (opField c).toNat ≤ 0x1F) ∨
      (0x29 ≤ (opField c).toNat ∧ (opField c).toNat ≤ 0x2F) ∨ 0x33 ≤ (opField c).toNat) ↔
    decode c = .error .reservedOpcode) ∧
  (∀ c : Word, rsvField c ≠ 0 → ∃ e, decode c = .error e) ∧
  (∀ c : Word, decode c = .ok .nop ↔ c = 0)

/-- Words written out bit by bit from the patterns of 30_encoding.md R103 decode to the commands they stand for. -/
def Obligations.HandWrittenWords : Prop :=
  decode 0b00000000000000000000000000000000#32 = .ok .nop ∧
  decode 0b00000000001000000000000000010001#32 = .ok (.bsWrbits 32) ∧
  decode 0b00000000000000110000000000010010#32 = .ok (.bsRdbits 3) ∧
  decode 0b00000000000000000000000100010011#32 = .ok (.bsWrbit true) ∧
  decode 0b00000000000000000000000000100001#32 = .ok .hufCount ∧
  decode 0b00000000000000000110001000100111#32 = .ok (.hufGetfreq 0x62) ∧
  decode 0b00000000000001010110001100101000#32 = .ok (.hufLookup 0x63 5) ∧
  decode 0b00000000000000000000000000110010#32 = .ok .lzwDecode

/-! ## The machine -/

/-- When a command is accepted and the host cannot move, a step is the command's own (40_control.md R131, 20_memory.md R84);
so is the step after a command word is placed. -/
def Obligations.StepRunsTheAcceptedCommand : Prop :=
  (∀ (s : State) (i : Instr), s.busy = true → decode s.curCmd = .ok i → hostWaits s → step s = exec i s) ∧
  (∀ (s : State) (i : Instr), step (s.withFetchWord 32 (encode i).toNat) = exec i (placeCommand (encode i) s))

/-- Whose move it is (20_memory.md R83, R84; which of two agents that both can move goes first is the free value of
notes/assumptions/5.md, and this holds for every value of it). Two clauses are the model's choice, not the rules': that the
step of a run that has ended answers the same state (DESIGN CHOICE, notes/assumptions/19.md, after 60_exceptions.md R339 and
70_reset_and_hazards.md R357), and that where neither agent can move the waiting host operation is the step, which changes
nothing (DESIGN CHOICE, notes/assumptions/9.md). -/
def Obligations.WhoMoves : Prop :=
  (∀ s : State, nextOp s = none → s.busy = false → step s = .next s) ∧
  (∀ (s : State) (op : HostOp), nextOp s = some op →
    (engineEnabled s = false → step s = hostStep op s) ∧
    (engineEnabled s = true → opEnabled op s = false → step s = engineStep s) ∧
    (engineEnabled s = true → opEnabled op s = true →
      step s = engineStep { s with draws := s.draws + 1 } ∨ step s = hostStep op { s with draws := s.draws + 1 }))

/-- Command accept (40_control.md R130). -/
def Obligations.CommandAccept : Prop :=
  ∀ (s : State) (c : Word),
    hostStep (.memWrite (s.params.base + 0x08) 4 c) s = .next
      (if s.busy = true ∨ s.err ≠ .none then
        { s with ovr := true, host := { s.host with index := s.host.index + 1 } }
      else
        { s with busy := true, done := false, curCmd := c, curArg := s.arg, curCfg := s.dictBits,
                 host := { s.host with index := s.host.index + 1 } })

/-- Preconditions (40_control.md R132): a command whose precondition is false raises E_SEQ with its word and changes no
other state; one whose precondition is true never does. -/
def Obligations.PreconditionTable : Prop :=
  ∀ (i : Instr) (s : State),
    (preTable i s = false →
      exec i s = .next { s with err := .eSeq, errInfo := s.curCmd, busy := false, done := true }) ∧
    (preTable i s = true → s.err = .none → ∀ t, exec i s = .next t → t.err ≠ .eSeq)

/-- What a command that ends with an error leaves (60_exceptions.md R300, R310): BUSY 0 and DONE 1; after E_SEQ, E_WIDTH and
E_CFG only ERR, ERRINFO, BUSY and DONE have changed; after a data error the unit is in its ERROR state. Each code comes from
the commands R300 names. -/
def Obligations.CommandErrors : Prop :=
  ∀ (i : Instr) (s t : State), s.err = .none → exec i s = .next t → t.err ≠ .none →
    t.busy = false ∧ t.done = true ∧ t.err ≠ .eCmd ∧
    (t.err = .eSeq ∨ t.err = .eWidth ∨ t.err = .eCfg →
      t = { s with err := t.err, errInfo := t.errInfo, busy := false, done := true }) ∧
    (t.err = .eSeq ∨ t.err = .eWidth → t.errInfo = s.curCmd) ∧
    (t.err = .eWidth → ∃ w : BitVec 6, 32 < w.toNat ∧ (i = .bsWrbits w ∨ i = .bsRdbits w)) ∧
    (t.err = .eCfg → i = .lzwInit ∧ t.errInfo.toNat = s.curCfg.toNat) ∧
    (t.err = .eFreqOvf → i = .hufCount ∧ t.huf.hstate = .error ∧ t.errInfo.toNat < 256) ∧
    (t.err = .eHufSym → i = .hufEncode ∧ t.huf.hstate = .error ∧ t.errInfo.toNat < 256) ∧
    (t.err = .eHufLen → i = .hufEncode ∧ t.huf.hstate = .error) ∧
    (t.err = .eLzwCode → i = .lzwDecode ∧ t.lzw.lstate = .error)

/-- The engine never re-reads or looks past the tokens it takes (20_memory.md R76, R84): a command that completes does the
same, token for token, with more tokens behind those now in IN. -/
def Obligations.MoreInputChangesNothing : Prop :=
  ∀ (i : Instr) (s t : State) (ts : List Token),
    (runCommand i s).enabled = true → exec i s = .next t → exec i (pushTokens ts s) = .next (pushTokens ts t)

/-- The frame of every command: the host's registers, the host and the parameters never change (20_memory.md R87), RESULT and
CODE_LEN change only by their writers (10_state.md R28, R37), each unit changes only by its own commands
(41_bitstream.md R150, 42_huffman.md R180, 43_lzw.md R241), and NOP, HUF_BUILD, HUF_CODES, HUF_GETFREQ and HUF_LOOKUP
touch no stream state (70_reset_and_hazards.md R364). -/
def Obligations.CommandFrames : Prop :=
  ∀ (i : Instr) (s t : State), exec i s = .next t →
    t.params = s.params ∧ t.ie = s.ie ∧ t.dictBits = s.dictBits ∧ t.arg = s.arg ∧ t.ovr = s.ovr ∧
    t.curCmd = s.curCmd ∧ t.curArg = s.curArg ∧ t.curCfg = s.curCfg ∧ t.host = s.host ∧ t.draws = s.draws ∧
    ((∀ w, i ≠ .bsRdbits w) → i ≠ .bsRdbit → (∀ c, i ≠ .hufGetfreq c) → (∀ c k, i ≠ .hufLookup c k) → t.result = s.result) ∧
    ((∀ c k, i ≠ .hufLookup c k) → t.codeLen = s.codeLen) ∧
    (i ≠ .hufInit → i ≠ .hufCount → i ≠ .hufRdhdr → i ≠ .hufBuild → i ≠ .hufCodes → i ≠ .hufEncode → i ≠ .hufDecode →
      t.huf = s.huf) ∧
    (i ≠ .lzwInit → i ≠ .lzwEncode → i ≠ .lzwDecode → t.lzw = s.lzw) ∧
    (i = .nop ∨ i = .hufBuild ∨ i = .hufCodes ∨ (∃ c, i = .hufGetfreq c) ∨ (∃ c k, i = .hufLookup c k) → t.bs = s.bs)

/-- The ports are first-in first-out, and CNT_IN and CNT_OUT count the data bytes taken and put (20_memory.md R76, R77;
10_state.md R34, R35). -/
def Obligations.PortTransfers : Prop :=
  ∀ (i : Instr) (s t : State), exec i s = .next t →
    ∃ taken put : List Token, s.bs.inp = taken ++ t.bs.inp ∧ t.bs.out = s.bs.out ++ put ∧
      (startsStream i = false →
        t.bs.cntIn = s.bs.cntIn + BitVec.ofNat 32 (dataCount taken) ∧
        t.bs.cntOut = s.bs.cntOut + BitVec.ofNat 32 (dataCount put)) ∧
      (startsStream i = true → taken = [] ∧ put = [] ∧ (t.err = .none → t.bs.cntIn = 0 ∧ t.bs.cntOut = 0))

/-- Where an End token goes to OUT (41_bitstream.md R146, 60_exceptions.md R312): a job command that completes normally puts
exactly one, last; HUF_RDHDR does so when the header is truncated; a command that ends with an error, and every other
command, puts none. -/
def Obligations.EndTokens : Prop :=
  ∀ (i : Instr) (s t : State) (put : List Token),
    s.busy = true → s.err = .none → exec i s = .next t → t.busy = false → t.bs.out = s.bs.out ++ put →
    (t.err ≠ .none → .stop ∉ put) ∧
    (t.err = .none → (endsOutput i = true ∨ (i = .hufRdhdr ∧ t.huf.hstate = .done)) →
      ∃ xs : List Byte, put = xs.map .byte ++ [.stop]) ∧
    (t.err = .none → endsOutput i = false → ¬(i = .hufRdhdr ∧ t.huf.hstate = .done) → .stop ∉ put)

/-- The unit state machines (10_state.md R30, R31, R55): where a command that completes without an error takes HSTATE and
LSTATE, and which commands change HMODE, CVALID and TRUNC. -/
def Obligations.UnitStateMachines : Prop :=
  ∀ (i : Instr) (s t : State), s.busy = true → s.err = .none → exec i s = .next t → t.busy = false → t.err = .none →
    t.huf.hstate ∈ hufMoves i s.huf.hstate ∧ t.lzw.lstate = lzwMove i s.lzw.lstate ∧
    t.huf.hmode = (if i = .hufInit ∨ i = .hufCount then .encode else if i = .hufRdhdr then .decode else s.huf.hmode) ∧
    (t.huf.cvalid = true ↔ i = .hufCodes ∨
      (s.huf.cvalid = true ∧ i ≠ .hufInit ∧ ¬(i = .hufRdhdr ∧ t.huf.hstate = .done))) ∧
    (i ≠ .hufInit → i ≠ .hufRdhdr → i ≠ .hufDecode → t.huf.trunc = s.huf.trunc) ∧
    (i = .hufInit → t.huf.trunc = false) ∧
    (i = .hufRdhdr → t.huf.hstate = .done → t.huf.trunc = true)

/-! ## Registers and the host -/

/-- The host operations on the ports (20_memory.md R78) and POPALL (30_encoding.md R108). -/
def Obligations.PortOperations : Prop :=
  ∀ s : State,
    (∀ tok : Token, hostStep (.inPush tok) s = .next
      { s with bs := { s.bs with inp := s.bs.inp ++ [tok] }, host := { s.host with index := s.host.index + 1 } }) ∧
    (∀ (tok : Token) (rest : List Token), s.bs.out = tok :: rest → hostStep .outPop s = .next
      { s with bs := { s.bs with out := rest },
               host := { s.host with index := s.host.index + 1, trace := s.host.trace ++ [.token tok] } }) ∧
    (s.bs.out = [] → hostStep .outPop s = .next s) ∧
    (hostStep .outPopAll s = .next
      { s with bs := { s.bs with out := [] },
               host := { s.host with index := s.host.index + 1, trace := s.host.trace ++ s.bs.out.map .token } }) ∧
    (s.busy = true → hostStep .waitIdle s = .next s) ∧
    (s.busy = false → hostStep .waitIdle s = .next { s with host := { s.host with index := s.host.index + 1 } })

/-- What a MemRead returns while BUSY = 0, register by register, STATUS field by field, and that it changes nothing but the
host's own side (10_state.md R24 to R38, 20_memory.md R73). The numbers of HSTATE (R30), LSTATE (R31) and ERR.CODE
(60_exceptions.md R300) are written out as tables. The counters TOTAL and NEXT are those their widths allow. -/
def Obligations.IdleRegisterReads : Prop :=
  ∀ (s : State) (off : Nat), s.busy = false → s.huf.total < 2 ^ 40 → s.lzw.next < 2 ^ 32 → off < 64 → off % 4 = 0 →
    ∃ v : Word,
      hostStep (.memRead (s.params.base + off) 4) s = .next
        { s with host := { s.host with index := s.host.index + 1, trace := s.host.trace ++ [.value v] } } ∧
      (off = 0x00 → v = if s.ie then 2 else 0) ∧
      (off = 0x04 → v = s.dictBits.setWidth 32) ∧
      (off = 0x08 → v = 0) ∧
      (off = 0x0C → v = s.arg) ∧
      (off = 0x10 → v = s.result) ∧
      (off = 0x14 → v.getLsbD 0 = false ∧ v.getLsbD 1 = s.done ∧ v.getLsbD 2 = s.ovr ∧
        v.getLsbD 3 = (s.err != .none) ∧ v.getLsbD 4 = s.bs.eodf ∧ v.getLsbD 5 = s.huf.trunc ∧
        v.getLsbD 6 = (s.huf.hmode == .decode) ∧ v.getLsbD 7 = s.huf.cvalid ∧
        (s.huf.hstate, v.extractLsb' 8 3) ∈ [(HState.idle, 0#3), (.freq, 1#3), (.tree, 2#3), (.codes, 3#3), (.done, 4#3),
          (.error, 5#3)] ∧
        v.getLsbD 11 = false ∧
        (s.lzw.lstate, v.extractLsb' 12 2) ∈ [(LState.uninit, 0#2), (.ready, 1#2), (.done, 2#2), (.error, 3#2)] ∧
        v.extractLsb' 14 2 = 0 ∧
        (v.extractLsb' 16 3).toNat = s.bs.wcnt.val ∧ v.getLsbD 19 = false ∧
        (v.extractLsb' 20 4).toNat = s.bs.rcnt.val ∧ v.extractLsb' 24 8 = 0) ∧
      (off = 0x18 → (s.err, v) ∈ [(ErrCode.none, 0#32), (.eCmd, 1#32), (.eSeq, 2#32), (.eWidth, 3#32), (.eCfg, 4#32),
        (.eFreqOvf, 5#32), (.eHufSym, 6#32), (.eHufLen, 7#32), (.eLzwCode, 8#32)]) ∧
      (off = 0x1C → v = s.errInfo) ∧
      (off = 0x20 → v = s.bs.cntIn) ∧
      (off = 0x24 → v = s.bs.cntOut) ∧
      (off = 0x28 → v.toNat = s.huf.total % 2 ^ 32) ∧
      (off = 0x2C → v.toNat = s.huf.total / 2 ^ 32) ∧
      (off = 0x30 → v = s.codeLen.setWidth 32) ∧
      (off = 0x34 → v.toNat = s.lzw.next) ∧
      (off = 0x38 → v = s.lzw.resets) ∧
      (off = 0x3C → v = s.lzw.ln.setWidth 32)

/-- What a MemRead returns while BUSY = 1 (20_memory.md R85): STATUS gives BUSY = 1, DONE = 0, ERRF = 0 and OVR, and CTRL, CFG
and ARG read accurately; the rest is unspecified (a free value), and the read changes no state of the core. One clause is the
model's deduction, not R85's words: that the reserved bits of STATUS (11, 15:14, 19 and 31:24) read 0 then too (DEDUCED from
R73, notes/assumptions/7.md). -/
def Obligations.BusyReads : Prop :=
  ∀ (s : State) (off : Nat), s.busy = true → off < 64 → off % 4 = 0 →
    ∃ (v : Word) (d : Nat),
      hostStep (.memRead (s.params.base + off) 4) s = .next
        { s with host := { s.host with index := s.host.index + 1, trace := s.host.trace ++ [.value v] }, draws := d } ∧
      (off = 0x00 → v = if s.ie then 2 else 0) ∧
      (off = 0x04 → v = s.dictBits.setWidth 32) ∧
      (off = 0x08 → v = 0) ∧
      (off = 0x0C → v = s.arg) ∧
      (off = 0x14 → v.getLsbD 0 = true ∧ v.getLsbD 1 = false ∧ v.getLsbD 2 = s.ovr ∧ v.getLsbD 3 = false ∧
        v.getLsbD 11 = false ∧ v.extractLsb' 14 2 = 0 ∧ v.getLsbD 19 = false ∧ v.extractLsb' 24 8 = 0)

/-- An access of another size than 4, or at an offset that is no multiple of 4, is not legal (20_memory.md R72): a write has
no effect and a read returns 0. A legal one reaches one of the sixteen registers. -/
def Obligations.IllegalAccesses : Prop :=
  (∀ (s : State) (off size : Nat) (v : Word), off < 64 → ¬(size = 4 ∧ off % 4 = 0) →
    hostStep (.memWrite (s.params.base + off) size v) s =
      .next { s with host := { s.host with index := s.host.index + 1 } } ∧
    hostStep (.memRead (s.params.base + off) size) s =
      .next { s with host := { s.host with index := s.host.index + 1, trace := s.host.trace ++ [.value 0] } }) ∧
  (∀ (s : State) (off : Nat), off < 64 → off % 4 = 0 → ∃ r : Reg,
    (∀ v, hostStep (.memWrite (s.params.base + off) 4 v) s = .next (advance (writeReg r v s))) ∧
    hostStep (.memRead (s.params.base + off) 4) s =
      .next (advance (observe [.value (readReg r s).1] (readReg r s).2)))

/-- An access outside the 64 bytes at BASE is no access to the core (20_memory.md R71): the model refuses it by name
(notes/assumptions/13.md). -/
def Obligations.OutsideTheWindow : Prop :=
  ∀ (s : State) (addr size : Nat) (v : Word), addr < s.params.base ∨ s.params.base + 64 ≤ addr →
    hostStep (.memRead addr size) s = .refused (.outsideWindow addr) ∧
    hostStep (.memWrite addr size v) s = .refused (.outsideWindow addr)

/-- Register writes other than commands and resets (10_state.md R24, R25, R27, R29; 20_memory.md R73): what each changes,
and that a write to a read-only register has no effect. -/
def Obligations.RegisterWrites : Prop :=
  ∀ (s : State) (off : Nat) (v : Word), off < 64 → off % 4 = 0 → off ≠ 0x08 → ¬(off = 0x00 ∧ v.getLsbD 0 = true) →
    hostStep (.memWrite (s.params.base + off) 4 v) s = .next
      { s with
        ie := if off = 0x00 then v.getLsbD 1 else s.ie
        dictBits := if off = 0x04 then v.extractLsb' 0 6 else s.dictBits
        arg := if off = 0x0C then v else s.arg
        done := if off = 0x14 ∧ v.getLsbD 1 = true then false else s.done
        ovr := if off = 0x14 ∧ v.getLsbD 2 = true then false else s.ovr
        host := { s.host with index := s.host.index + 1 } }

/-- A soft reset while BUSY = 0 (70_reset_and_hazards.md R352, R354): every state takes its hard-reset value but CFG.DICT_BITS,
which stays, and CTRL.IE, which takes bit 1 of the written value; no token moves; a second one in a row leaves the same
state as one. The values of the state that 10_state.md R57 calls unspecified (CUR_CMD, CUR_ARG, CUR_CFG and the CODE, NODE and
DICT entries) are the model's choice, through resetWith: DESIGN CHOICE, notes/assumptions/2.md, 3.md and 4.md. -/
def Obligations.SoftResetWhenIdle : Prop :=
  ∀ (s : State) (v : Word), s.busy = false → v.getLsbD 0 = true →
    hostStep (.memWrite s.params.base 4 v) s = .next
      { State.resetWith s.params with
        ie := v.getLsbD 1, dictBits := s.dictBits,
        bs := { (State.resetWith s.params).bs with inp := s.bs.inp, out := s.bs.out },
        host := { s.host with index := s.host.index + 1 }, draws := s.draws } ∧
    writeReg .ctrl v (writeReg .ctrl v s) = writeReg .ctrl v s

/-- A soft reset while BUSY = 1 (70_reset_and_hazards.md R352, R353): for some n and m, each at most what the command would have
transferred, the first n tokens are gone from IN and the first m of the command's tokens are on OUT; everything else is
reset. Where the command would complete, what it would have transferred is what its engine step transfers, whatever comes
behind it in IN. Where it waits, what it would have transferred is what it transfers with some tokens `rest` behind those in
IN (DEDUCED, notes/assumptions/8.md): it takes all of IN, and where `rest` lets it complete, it puts first what it has put
before it waits. The values after the reset of the state that
10_state.md R57 calls unspecified are the model's choice (DESIGN CHOICE, notes/assumptions/2.md, 3.md and 4.md). -/
def Obligations.SoftResetDuringACommand : Prop :=
  ∀ (s : State) (v : Word), s.busy = true → v.getLsbD 0 = true →
    (∃ (rest : List Token) (n m d : Nat), n ≤ wouldTake (pushTokens rest s) ∧ n ≤ s.bs.inp.length ∧
      m ≤ (wouldPut (pushTokens rest s)).length ∧
      hostStep (.memWrite s.params.base 4 v) s = .next
        { State.resetWith s.params with
          ie := v.getLsbD 1, dictBits := s.dictBits,
          bs := { (State.resetWith s.params).bs with
                  inp := s.bs.inp.drop n, out := s.bs.out ++ (wouldPut (pushTokens rest s)).take m },
          host := { s.host with index := s.host.index + 1 }, draws := d }) ∧
    (∀ (rest : List Token) (t : State), engineEnabled s = true → engineStep s = .next t →
      s.bs.inp.drop (wouldTake (pushTokens rest s)) = t.bs.inp ∧ wouldTake (pushTokens rest s) ≤ s.bs.inp.length ∧
      t.bs.out = s.bs.out ++ wouldPut (pushTokens rest s)) ∧
    (engineEnabled s = false → wouldTake s = s.bs.inp.length) ∧
    (∀ (rest : List Token) (t : State), engineEnabled (pushTokens rest s) = true →
      engineStep (pushTokens rest s) = .next t →
      wouldTake s ≤ wouldTake (pushTokens rest s) ∧ wouldPut s <+: wouldPut (pushTokens rest s) ∧
      t.bs.out = s.bs.out ++ wouldPut (pushTokens rest s))

/-- Hard reset (10_state.md R57, 70_reset_and_hazards.md R350), for every value of the parameters: the values R57 lists, the
ports empty, whatever the core was doing. Two things are the model's choice, not the rules': through resetWith, the values of
the state that R57 calls unspecified (CUR_CMD, CUR_ARG, CUR_CFG and the CODE, NODE and DICT entries: DESIGN CHOICE,
notes/assumptions/2.md, 3.md and 4.md), and that the reset input is an operation of the host's program, so that the host goes
on to its next operation (DESIGN CHOICE, notes/assumptions/11.md). -/
def Obligations.HardReset : Prop :=
  ∀ s : State, ∃ t : State,
    hostStep .hardReset s = .next { t with host := { s.host with index := s.host.index + 1 }, draws := s.draws } ∧
    t = State.resetWith s.params ∧
    t.params = s.params ∧ t.ie = false ∧ t.dictBits = 9 ∧ t.arg = 0 ∧ t.result = 0 ∧
    statusWord t = 0 ∧ t.done = false ∧ t.ovr = false ∧ t.err = .none ∧ t.errInfo = 0 ∧ t.codeLen = 0 ∧ t.busy = false ∧
    t.bs = { inp := [], out := [], wbuf := 0, wcnt := 0, rbuf := 0, rcnt := 0, eodf := false, cntIn := 0, cntOut := 0 } ∧
    (∀ c, symGet t.huf.freq c = 0) ∧ t.huf.total = 0 ∧ t.huf.hstate = .idle ∧ t.huf.hmode = .encode ∧
    t.huf.cvalid = false ∧ t.huf.trunc = false ∧ t.huf.nnodes = 0 ∧ t.huf.tkind = .empty ∧ t.huf.root = 0 ∧
    t.lzw.ln = 0 ∧ t.lzw.next = 256 ∧ t.lzw.resets = 0 ∧ t.lzw.lstate = .uninit

/-- The interrupt line (60_exceptions.md R321): its equation, the three ways that clear it, and that with an error recorded it
stays asserted until a soft or a hard reset or IE = 0. -/
def Obligations.InterruptLine : Prop :=
  (∀ s : State, irq s = true ↔ s.ie = true ∧ (s.done = true ∨ s.err ≠ .none)) ∧
  (∀ (s : State) (v : Word), s.err = .none → v.getLsbD 1 = true → irq (writeReg .status v s) = false) ∧
  (∀ (s : State) (c : Word), s.busy = false → s.err = .none → irq (writeReg .cmd c s) = false) ∧
  (∀ (s : State) (v : Word), v.getLsbD 0 = false → v.getLsbD 1 = false → irq (writeReg .ctrl v s) = false) ∧
  (∀ s t : State, ErrorOk s → s.err ≠ .none → irq s = true → step s = .next t →
    irq t = true ∨ nextOp s = some .hardReset ∨
      ∃ v, nextOp s = some (.memWrite s.params.base 4 v) ∧ (v.getLsbD 0 = true ∨ v.getLsbD 1 = false))

/-- Errors are sticky (60_exceptions.md R311, R315): while one is recorded no command runs and neither ERR nor ERRINFO changes,
but by a soft or a hard reset. -/
def Obligations.ErrorsAreSticky : Prop :=
  ∀ s t : State, ErrorOk s → s.err ≠ .none → step s = .next t →
    (t.err = s.err ∧ t.errInfo = s.errInfo ∧ t.busy = false ∧ t.huf = s.huf ∧ t.lzw = s.lzw ∧ t.result = s.result) ∨
    (t.err = .none ∧ t.errInfo = 0 ∧
      (nextOp s = some .hardReset ∨ ∃ v, v.getLsbD 0 = true ∧ nextOp s = some (.memWrite s.params.base 4 v)))

/-! ## NOP, the queries and the initialisations -/

/-- NOP writes only BUSY and DONE (40_control.md R133). -/
def Obligations.NopOnlyCompletes : Prop :=
  decode 0x00000000#32 = .ok .nop ∧ ∀ s : State, exec .nop s = .next { s with busy := false, done := true }

/-- HUF_GETFREQ and HUF_LOOKUP (42_huffman.md R220, R221): RESULT takes the counter; CODE_LEN takes the code's length and bit
31 - j of RESULT its bit 32 k + j, 0 past its end; without a code table HUF_LOOKUP raises E_SEQ. -/
def Obligations.HuffmanQueries : Prop :=
  ∀ (s : State) (c : Byte),
    exec (.hufGetfreq c) s =
      .next { s with result := BitVec.ofNat 32 (symGet s.huf.freq c), busy := false, done := true } ∧
    (∀ k : BitVec 3, s.huf.cvalid = true → ∃ v : Word,
      exec (.hufLookup c k) s =
        .next { s with result := v, codeLen := BitVec.ofNat 8 (symGet s.huf.code c).length, busy := false, done := true } ∧
      ∀ j, j < 32 → v.getLsbD (31 - j) = (symGet s.huf.code c).getD (32 * k.toNat + j) false) ∧
    (∀ k : BitVec 3, s.huf.cvalid = false →
      exec (.hufLookup c k) s = .next { s with err := .eSeq, errInfo := s.curCmd, busy := false, done := true })

/-- BS_INIT and HUF_INIT (41_bitstream.md R148, R150; 42_huffman.md R180): a fresh bit stream, the tokens in the ports untouched;
HUF_INIT also clears the Huffman unit but for the memory entries. -/
def Obligations.StreamAndHuffmanInit : Prop :=
  ∀ s : State,
    exec .bsInit s = .next
      { s with bs := { s.bs with wbuf := 0, wcnt := 0, rcnt := 0, eodf := false, cntIn := 0, cntOut := 0 },
               busy := false, done := true } ∧
    ∃ f : Vector Nat 256, (∀ c, symGet f c = 0) ∧
      exec .hufInit s = .next
        { s with bs := { s.bs with wbuf := 0, wcnt := 0, rcnt := 0, eodf := false, cntIn := 0, cntOut := 0 },
                 huf := { s.huf with freq := f, total := 0, nnodes := 0, tkind := .empty, root := 0, cvalid := false,
                                     trunc := false, hmode := .encode, hstate := .idle },
                 busy := false, done := true }

/-- LZW_INIT (43_lzw.md R241, R242): with a width in 8..LZW_NMAX it latches it and empties the dictionary on a fresh bit stream;
with another it raises E_CFG with the width and changes nothing else. -/
def Obligations.LzwInit : Prop :=
  ∀ s : State,
    (8 ≤ s.curCfg.toNat → s.curCfg.toNat ≤ s.params.lzwNmax →
      exec .lzwInit s = .next
        { s with bs := { s.bs with wbuf := 0, wcnt := 0, rcnt := 0, eodf := false, cntIn := 0, cntOut := 0 },
                 lzw := { s.lzw with ln := s.curCfg, next := 256, resets := 0, lstate := .ready },
                 busy := false, done := true }) ∧
    (s.curCfg.toNat < 8 ∨ s.params.lzwNmax < s.curCfg.toNat →
      exec .lzwInit s = .next
        { s with err := .eCfg, errInfo := s.curCfg.setWidth 32, busy := false, done := true })

/-! ## The BS_ commands -/

/-- BS_WRBITS (41_bitstream.md R143, R151): the low w bits of the sampled ARG are written, most significant first, and nothing
else changes; a width above 32 raises E_WIDTH with the command word before any bit is written. -/
def Obligations.BsWrbits : Prop :=
  ∀ (s : State) (w : BitVec 6),
    (w.toNat ≤ 32 → PackerOk s.bs → ∃ b, Wrote (natBits w.toNat s.curArg.toNat) s.bs b ∧
      exec (.bsWrbits w) s = .next { s with bs := b, busy := false, done := true }) ∧
    (32 < w.toNat → exec (.bsWrbits w) s =
      .next { s with err := .eWidth, errInfo := s.curCmd, busy := false, done := true })

/-- BS_RDBITS (41_bitstream.md R142, R152): with w bits at hand RESULT takes them, the first the most significant; with fewer
and the End in IN, RESULT is 0 and the stream is at its end; with fewer and no End yet, the command waits; w = 0 takes
nothing; a width above 32 raises E_WIDTH before any token is taken. -/
def Obligations.BsRdbits : Prop :=
  ∀ (s : State) (w : BitVec 6),
    (w.toNat ≤ 32 → w.toNat ≤ (inBits s.bs).length → ∃ b, Took w.toNat s.bs b ∧
      exec (.bsRdbits w) s = .next
        { s with bs := b, result := BitVec.ofNat 32 (bitsToNat ((inBits s.bs).take w.toNat)),
                 busy := false, done := true }) ∧
    (w.toNat ≤ 32 → (inBits s.bs).length < w.toNat → inClosed s.bs = true → ∃ b, ReachedEnd s.bs b ∧
      exec (.bsRdbits w) s = .next { s with bs := b, result := 0, busy := false, done := true }) ∧
    (w.toNat ≤ 32 → (inBits s.bs).length < w.toNat → inClosed s.bs = false → exec (.bsRdbits w) s = .next s) ∧
    (exec (.bsRdbits 0) s = .next { s with result := 0, busy := false, done := true }) ∧
    (32 < w.toNat → exec (.bsRdbits w) s =
      .next { s with err := .eWidth, errInfo := s.curCmd, busy := false, done := true })

/-- BS_WRBIT and BS_RDBIT (41_bitstream.md R153, R154). -/
def Obligations.BsSingleBits : Prop :=
  ∀ s : State,
    (∀ r : Bool, PackerOk s.bs → ∃ b, Wrote [r] s.bs b ∧
      exec (.bsWrbit r) s = .next { s with bs := b, busy := false, done := true }) ∧
    (∀ (x : Bool) (rest : List Bool), inBits s.bs = x :: rest → ∃ b, Took 1 s.bs b ∧
      exec .bsRdbit s = .next { s with bs := b, result := if x then 1 else 0, busy := false, done := true }) ∧
    (inBits s.bs = [] → inClosed s.bs = true → ∃ b, ReachedEnd s.bs b ∧
      exec .bsRdbit s = .next { s with bs := b, result := 0, busy := false, done := true }) ∧
    (inBits s.bs = [] → inClosed s.bs = false → exec .bsRdbit s = .next s)

/-- BS_ALIGN and BS_END (41_bitstream.md R144, R145, R155, R156): the pending bits go out, padded with zero bits to a byte;
BS_END also puts End; with no bit pending BS_ALIGN changes nothing. -/
def Obligations.BsAlignAndEnd : Prop :=
  ∀ s : State, PackerOk s.bs →
    (∃ b, Closed false [] s.bs b ∧ exec .bsAlign s = .next { s with bs := b, busy := false, done := true }) ∧
    (∃ b, Closed true [] s.bs b ∧ exec .bsEnd s = .next { s with bs := b, busy := false, done := true }) ∧
    (s.bs.wcnt = 0 → exec .bsAlign s = .next { s with busy := false, done := true })

/-- BS_DRAIN (41_bitstream.md R149, R157): the tokens of the stream leave IN up to and including End, the data bytes counted;
after End no token is taken; without End in IN the command waits. -/
def Obligations.BsDrain : Prop :=
  ∀ s : State,
    (s.bs.eodf = true → exec .bsDrain s =
      .next { s with bs := { s.bs with rcnt := 0 }, busy := false, done := true }) ∧
    (∀ (xs : List Byte) (rest : List Token), s.bs.eodf = false → s.bs.inp = xs.map .byte ++ .stop :: rest →
      exec .bsDrain s = .next
        { s with bs := { s.bs with inp := rest, rcnt := 0, eodf := true,
                                   cntIn := s.bs.cntIn + BitVec.ofNat 32 xs.length },
                 busy := false, done := true }) ∧
    (∀ xs : List Byte, s.bs.eodf = false → s.bs.inp = xs.map .byte → exec .bsDrain s = .next s)

/-- Output length (41_bitstream.md R159): a packer that starts with WCNT = 0, writes B bits in total and then aligns puts
exactly ⌈B / 8⌉ Byte tokens to OUT. -/
def Obligations.OutputLength : Prop :=
  ∀ (b : Stream) (ws : List (Nat × Nat)), PackerOk b → b.wcnt = 0 →
    ∃ xs : List Byte, (align (writeAll ws b)).out = b.out ++ xs.map .byte ∧
      xs.length = ((ws.map Prod.snd).sum + 7) / 8

/-- Round trip of the bit stream (41_bitstream.md R158): what a fresh packer writes and finalizes, a fresh unpacker reads back;
then only the zero padding is left, and a longer read meets end-of-data. -/
def Obligations.BitStreamRoundTrip : Prop :=
  ∀ ws : List (Nat × Nat),
    ∃ b : Stream,
      readAll (ws.map Prod.snd) (freshStream (finalize (writeAll ws (freshStream []))).out) =
        .ok (ws.map (fun p => p.1 % 2 ^ p.2)) b ∧
      (∀ w, padding (ws.map Prod.snd).sum < w → ∃ b', readBits w b = .eod b') ∧
      (∀ w, w ≤ padding (ws.map Prod.snd).sum → ∃ b', readBits w b = .ok 0 b')

/-! ## The Huffman codec -/

/-- HUF_COUNT (42_huffman.md R181): on a whole stream each counter grows by the occurrences of its symbol and TOTAL is their
sum; a counter that would pass 2^FREQ_W - 1 raises E_FREQ_OVF at that byte; without an End the command waits. -/
def Obligations.HufCount : Prop :=
  ∀ (s : State) (xs : List Byte), s.huf.hstate = .idle →
    (∀ c, symGet s.huf.freq c + xs.count c ≤ 2 ^ s.params.freqW - 1) →
    (∀ rest, s.bs.inp = xs.map .byte ++ .stop :: rest →
      ∃ f, (∀ c, symGet f c = symGet s.huf.freq c + xs.count c) ∧
        exec .hufCount s = .next
          { s with bs := tookBytes xs true rest s.bs,
                   huf := { s.huf with freq := f, total := (allSymbols.map (symGet f)).sum, hmode := .encode,
                                       hstate := .freq },
                   busy := false, done := true }) ∧
    (∀ c rest, s.bs.inp = xs.map .byte ++ .byte c :: rest →
      symGet s.huf.freq c + xs.count c = 2 ^ s.params.freqW - 1 →
      ∃ f, (∀ d, symGet f d = symGet s.huf.freq d + xs.count d) ∧
        exec .hufCount s = .next
          { s with bs := tookBytes (xs ++ [c]) false rest s.bs,
                   huf := { s.huf with freq := f, hstate := .error },
                   err := .eFreqOvf, errInfo := c.setWidth 32, busy := false, done := true }) ∧
    (s.bs.inp = xs.map .byte → exec .hufCount s = .next s)

/-- HUF_RDHDR (42_huffman.md R182, R183): with a whole header at hand each counter is its FREQ_W-bit field, in symbol order;
a truncated header loads the whole fields, sets TRUNC and ends the output; without enough bits and without End the command
waits. -/
def Obligations.HufRdhdr : Prop :=
  ∀ s : State, s.huf.hstate = .idle → PackerOk s.bs →
    (256 * s.params.freqW ≤ (inBits (rdRestart s.bs)).length →
      ∃ b f, Took (256 * s.params.freqW) (rdRestart s.bs) b ∧
        (∀ c : Byte, symGet f c =
          bitsToNat (((inBits (rdRestart s.bs)).drop (c.toNat * s.params.freqW)).take s.params.freqW)) ∧
        exec .hufRdhdr s = .next
          { s with bs := b,
                   huf := { s.huf with freq := f, total := (allSymbols.map (symGet f)).sum, hmode := .decode,
                                       hstate := .freq },
                   busy := false, done := true }) ∧
    ((inBits (rdRestart s.bs)).length < 256 * s.params.freqW → inClosed (rdRestart s.bs) = true →
      ∃ b b' f, ReachedEnd (rdRestart s.bs) b ∧ Closed true [] b b' ∧
        (∀ c : Byte, symGet f c =
          if (c.toNat + 1) * s.params.freqW ≤ (inBits (rdRestart s.bs)).length then
            bitsToNat (((inBits (rdRestart s.bs)).drop (c.toNat * s.params.freqW)).take s.params.freqW)
          else symGet s.huf.freq c) ∧
        exec .hufRdhdr s = .next
          { s with bs := b',
                   huf := { s.huf with freq := f, total := (allSymbols.map (symGet f)).sum, hmode := .decode,
                                       cvalid := false, trunc := true, hstate := .done },
                   busy := false, done := true }) ∧
    ((inBits (rdRestart s.bs)).length < 256 * s.params.freqW → inClosed (rdRestart s.bs) = false →
      exec .hufRdhdr s = .next s)

/-- HUF_BUILD (42_huffman.md R190 to R194): the tree memory takes the Huffman tree of the counters, and nothing else changes. -/
def Obligations.HufBuild : Prop :=
  ∀ s : State, s.huf.hstate = .freq →
    ∃ h : Huf,
      exec .hufBuild s = .next
        { s with huf := { s.huf with node := h.node, nnodes := h.nnodes, root := h.root, tkind := h.tkind, hstate := .tree },
                 busy := false, done := true } ∧
      IsHuffmanTree s.huf.freq h ∧
      ∀ i, h.nnodes ≤ i → memGet h.node i = memGet s.huf.node i

/-- Invariants of the built tree (42_huffman.md R195). -/
def Obligations.TreeInvariants : Prop :=
  ∀ s t : State, s.huf.hstate = .freq → exec .hufBuild s = .next t →
    (∀ i f l r, nodeAt t.huf i = some (.internal f l r) →
      f = freqOf t.huf l + freqOf t.huf r ∧ f = leavesSum t.huf t.huf.nnodes i ∧ l ≠ r ∧
      (∃ n, nodeAt t.huf l = some n) ∧ ∃ n, nodeAt t.huf r = some n) ∧
    (t.huf.tkind ≠ .empty → freqOf t.huf t.huf.root = (allSymbols.map (symGet s.huf.freq)).sum) ∧
    (∀ j, j < t.huf.nnodes → j ≠ t.huf.root → ∃ i, childOf t.huf i j ∧ ∀ i', childOf t.huf i' j → i' = i) ∧
    (∀ i, ¬ childOf t.huf i t.huf.root) ∧
    (∀ c, symGet s.huf.freq c ≠ 0 ↔ ∃ i f, nodeAt t.huf i = some (.leaf c f)) ∧
    (∀ i j c f g, nodeAt t.huf i = some (.leaf c f) → nodeAt t.huf j = some (.leaf c g) → i = j)

/-- HUF_CODES (42_huffman.md R200 to R204): no codes for the empty tree, the code 0 for a single leaf, and otherwise each
symbol's path from ROOT to its leaf, left 0 and right 1; a symbol with no leaf has no code. -/
def Obligations.HufCodes : Prop :=
  ∀ s : State, s.huf.hstate = .tree → TreeOk s.huf →
    ∃ code : Vector (List Bool) 256,
      exec .hufCodes s = .next
        { s with huf := { s.huf with code := code, cvalid := true, hstate := .codes }, busy := false, done := true } ∧
      (s.huf.tkind = .empty → ∀ c, symGet code c = []) ∧
      (s.huf.tkind = .single → ∀ c d f, nodeAt s.huf 0 = some (.leaf d f) →
        symGet code c = if c = d then [false] else []) ∧
      (s.huf.tkind = .full → ∀ c,
        (symGet code c ≠ [] → leafPath s.huf (symGet code c) c) ∧
        (symGet code c = [] → ∀ bits, ¬ leafPath s.huf bits c))

/-- Code-table properties (42_huffman.md R206), of HUF_BUILD and HUF_CODES one after the other: a prefix code; for a full tree
every infinite bit string begins with exactly one codeword and Kraft's sum is 1; the table depends on the counters alone. -/
def Obligations.CodeTableProperties : Prop :=
  (∀ s t : State, s.huf.hstate = .freq → execAll [.hufBuild, .hufCodes] s = .next t →
    (∀ c d, c ≠ d → symGet t.huf.code c ≠ [] → symGet t.huf.code d ≠ [] → ¬ symGet t.huf.code c <+: symGet t.huf.code d) ∧
    (t.huf.tkind = .full →
      (∀ bit : Nat → Bool, ∃ c, symGet t.huf.code c ≠ [] ∧
        (List.range (symGet t.huf.code c).length).map bit = symGet t.huf.code c ∧
        ∀ d, symGet t.huf.code d ≠ [] →
          (List.range (symGet t.huf.code d).length).map bit = symGet t.huf.code d → d = c) ∧
      (allSymbols.map (fun c => if symGet t.huf.code c = [] then 0
        else (1 / 2 : ℚ) ^ (symGet t.huf.code c).length)).sum = 1)) ∧
  (∀ s s' t t' : State, s.huf.hstate = .freq → s'.huf.hstate = .freq → s.huf.freq = s'.huf.freq →
    execAll [.hufBuild, .hufCodes] s = .next t → execAll [.hufBuild, .hufCodes] s' = .next t' → t.huf.code = t'.huf.code)

/-- Code lengths (42_huffman.md R204, R205): after HUF_BUILD and HUF_CODES, which always complete, a symbol has a code exactly when
its counter is not 0, and no code is longer than 255 bits. -/
def Obligations.CodeLengths : Prop :=
  ∀ s : State, s.huf.hstate = .freq → ∃ t, execAll [.hufBuild, .hufCodes] s = .next t ∧
    ∀ c, (symGet t.huf.code c ≠ [] ↔ symGet s.huf.freq c ≠ 0) ∧ (symGet t.huf.code c).length ≤ 255

/-- HUF_ENCODE (42_huffman.md R183, R210, R211): the header and the codes of the second pass, padded, then End; a byte without a
code raises E_HUF_SYM, an extra byte and a short pass raise E_HUF_LEN; without an End the command waits. -/
def Obligations.HufEncode : Prop :=
  ∀ (s : State) (xs : List Byte), s.huf.hstate = .codes → s.huf.hmode = .encode → PackerOk s.bs →
    (∀ x ∈ xs, symGet s.huf.code x ≠ []) → xs.length ≤ s.huf.total →
    (∀ rest, s.bs.inp = xs.map .byte ++ .stop :: rest → xs.length = s.huf.total →
      ∃ b, Closed true (headerBits s.params.freqW s.huf.freq ++ xs.flatMap (symGet s.huf.code))
          (tookBytes xs true rest s.bs) b ∧
        exec .hufEncode s = .next
          { s with bs := b, huf := { s.huf with hstate := .done }, busy := false, done := true }) ∧
    (∀ rest, s.bs.inp = xs.map .byte ++ .stop :: rest → xs.length < s.huf.total →
      ∃ b, Wrote (headerBits s.params.freqW s.huf.freq ++ xs.flatMap (symGet s.huf.code))
          (tookBytes xs true rest s.bs) b ∧
        exec .hufEncode s = .next
          { s with bs := b, huf := { s.huf with hstate := .error },
                   err := .eHufLen, errInfo := BitVec.ofNat 32 xs.length, busy := false, done := true }) ∧
    (∀ c rest, s.bs.inp = xs.map .byte ++ .byte c :: rest → symGet s.huf.code c = [] →
      ∃ b, Wrote (headerBits s.params.freqW s.huf.freq ++ xs.flatMap (symGet s.huf.code))
          (tookBytes (xs ++ [c]) false rest s.bs) b ∧
        exec .hufEncode s = .next
          { s with bs := b, huf := { s.huf with hstate := .error },
                   err := .eHufSym, errInfo := c.setWidth 32, busy := false, done := true }) ∧
    (∀ c rest, s.bs.inp = xs.map .byte ++ .byte c :: rest → symGet s.huf.code c ≠ [] → xs.length = s.huf.total →
      ∃ b, Wrote (headerBits s.params.freqW s.huf.freq ++ xs.flatMap (symGet s.huf.code))
          (tookBytes (xs ++ [c]) false rest s.bs) b ∧
        exec .hufEncode s = .next
          { s with bs := b, huf := { s.huf with hstate := .error },
                   err := .eHufLen, errInfo := BitVec.ofNat 32 (s.huf.total + 1), busy := false, done := true }) ∧
    (s.bs.inp = xs.map .byte → exec .hufEncode s = .next s)

/-- HUF_DECODE (42_huffman.md R215 to R217): TOTAL symbols are decoded and put as bytes, each along its path from ROOT (one bit for
a single leaf), the rest of the stream is drained, then End; where the stream ends first, TRUNC is set and the symbols
decoded so far are put; without an End the command waits. -/
def Obligations.HufDecode : Prop :=
  ∀ s : State, s.huf.hstate = .codes → s.huf.hmode = .decode → PackerOk s.bs → TreeOk s.huf →
    (∀ (ps : List (List Bool × Byte)) (r : List Bool), inClosed s.bs = true → s.huf.tkind ≠ .single →
      (∀ p ∈ ps, leafPath s.huf p.1 p.2) → inBits s.bs = ps.flatMap Prod.fst ++ r →
      (ps.length = s.huf.total →
        ∃ b₁ b₂ b₃, Took (ps.flatMap Prod.fst).length s.bs b₁ ∧ Drained b₁ b₂ ∧
          Closed true (bytesBits (ps.map Prod.snd)) b₂ b₃ ∧
          exec .hufDecode s = .next
            { s with bs := b₃, huf := { s.huf with hstate := .done }, busy := false, done := true }) ∧
      (ps.length < s.huf.total → (∃ f i j, follow s.huf s.huf.root r = some (.internal f i j)) →
        ∃ b₁ b₂, ReachedEnd s.bs b₁ ∧ Closed true (bytesBits (ps.map Prod.snd)) b₁ b₂ ∧
          exec .hufDecode s = .next
            { s with bs := b₂, huf := { s.huf with trunc := true, hstate := .done }, busy := false, done := true })) ∧
    (∀ c f, inClosed s.bs = true → s.huf.tkind = .single → nodeAt s.huf 0 = some (.leaf c f) →
      (s.huf.total ≤ (inBits s.bs).length →
        ∃ b₁ b₂ b₃, Took s.huf.total s.bs b₁ ∧ Drained b₁ b₂ ∧
          Closed true (bytesBits (List.replicate s.huf.total c)) b₂ b₃ ∧
          exec .hufDecode s = .next
            { s with bs := b₃, huf := { s.huf with hstate := .done }, busy := false, done := true }) ∧
      ((inBits s.bs).length < s.huf.total →
        ∃ b₁ b₂, ReachedEnd s.bs b₁ ∧ Closed true (bytesBits (List.replicate (inBits s.bs).length c)) b₁ b₂ ∧
          exec .hufDecode s = .next
            { s with bs := b₂, huf := { s.huf with trunc := true, hstate := .done }, busy := false, done := true })) ∧
    (inClosed s.bs = false → exec .hufDecode s = .next s)

/-- Huffman round trip (42_huffman.md R225): an encoder job with `xs` on both passes and a decoder job, on a core of the same FREQ_W,
over its OUT stream, give `xs` and End, with TRUNC = 0 and no error. -/
def Obligations.HuffmanRoundTrip : Prop :=
  ∀ (s d : State) (xs : List Byte) (rest rest' : List Token),
    s.err = .none → d.err = .none → d.params.freqWm1 = s.params.freqWm1 →
    (∀ c, xs.count c ≤ 2 ^ s.params.freqW - 1) →
    s.bs.inp = xs.map .byte ++ .stop :: (xs.map .byte ++ .stop :: rest) →
    ∃ (t u : State) (zs : List Byte),
      execAll [.hufInit, .hufCount, .hufBuild, .hufCodes, .hufEncode] s = .next t ∧
      t.err = .none ∧ t.bs.inp = rest ∧ t.bs.out = s.bs.out ++ zs.map .byte ++ [.stop] ∧
      (d.bs.inp = zs.map .byte ++ .stop :: rest' →
        execAll [.hufInit, .hufRdhdr, .hufBuild, .hufCodes, .hufDecode] d = .next u ∧
        u.err = .none ∧ u.huf.trunc = false ∧ u.bs.inp = rest' ∧ u.bs.out = d.bs.out ++ xs.map .byte ++ [.stop])

/-! ## The LZW codec -/

/-- Insert and the search (43_lzw.md R243, R244, R250): below the ceiling the pair becomes entry NEXT; the entry that reaches LMAX
resets the dictionary and is counted; with LN = 8 nothing is written or counted. The search finds the valid entry that holds
the pair, where there is one. -/
def Obligations.LzwInsertAndSearch : Prop :=
  (∀ (p : Nat) (c : Byte) (z : Lzw), z.next < lmax z →
    lzwInsert p c z = { z with dict := memSet z.dict z.next { parent := p, byte := c }, next := z.next + 1 }) ∧
  (∀ (p : Nat) (c : Byte) (z : Lzw), z.next = lmax z →
    lzwInsert p c z =
      { z with dict := memSet z.dict z.next { parent := p, byte := c }, next := 256, resets := z.resets + 1 }) ∧
  (∀ (p : Nat) (c : Byte) (z : Lzw), z.ln = 8 → z.next = 256 → lzwInsert p c z = z) ∧
  (∀ (p k : Nat) (c : Byte) (z : Lzw), memWf z.dict = true → findEntry p c z = some k →
    256 ≤ k ∧ k < z.next ∧ memGet z.dict k = some { parent := p, byte := c }) ∧
  (∀ (p k : Nat) (c : Byte) (z : Lzw), memWf z.dict = true → findEntry p c z = none → 256 ≤ k → k < z.next →
    memGet z.dict k ≠ some { parent := p, byte := c })

/-- RESETS and NEXT after I Inserts from a fresh dictionary (43_lzw.md R246, R263), for LN > 8: RESETS counts the wraps modulo 2^32. -/
def Obligations.LzwInsertCounts : Prop :=
  ∀ (z : Lzw) (es : List (Nat × Byte)), 8 < z.ln.toNat → z.next = 256 → z.resets = 0 →
    (es.foldl (fun z e => lzwInsert e.1 e.2 z) z).next = 256 + es.length % (2 ^ z.ln.toNat - 256) ∧
    (es.foldl (fun z e => lzwInsert e.1 e.2 z) z).resets = BitVec.ofNat 32 (es.length / (2 ^ z.ln.toNat - 256))

/-- LZW_ENCODE (43_lzw.md R250): the codes of the stream, LN bits each, padded, then End, and the dictionary the spelling leaves;
without an End in IN the command waits. -/
def Obligations.LzwEncode : Prop :=
  ∀ (s : State) (xs : List Byte), s.lzw.lstate = .ready → PackerOk s.bs →
    (∀ rest, s.bs.inp = xs.map .byte ++ .stop :: rest →
      ∃ b, Closed true (codesBits s.lzw.ln.toNat (lzwSpell none s.lzw xs).1) (tookBytes xs true rest s.bs) b ∧
        exec .lzwEncode s = .next
          { s with bs := b, lzw := { (lzwSpell none s.lzw xs).2 with lstate := .done }, busy := false, done := true }) ∧
    (s.bs.inp = xs.map .byte → exec .lzwEncode s = .next s)

/-- What the encoder emits (43_lzw.md R244, R250, R251): codes that spell the input when the dictionary never resets, every code
fits LN bits and, for LN > 8, is below LMAX; with LN = 8 each byte is its own code. -/
def Obligations.LzwCodesFit : Prop :=
  ∀ (p : Params) (z : Lzw) (xs : List Byte), LzwOk p z → memWf z.dict = true → z.lstate = .ready →
    (∀ k ∈ (lzwSpell none z xs).1, k < 2 ^ z.ln.toNat) ∧
    (8 < z.ln.toNat → ∀ k ∈ (lzwSpell none z xs).1, k < lmax z) ∧
    (z.ln = 8 → (lzwSpell none z xs).1 = xs.map BitVec.toNat) ∧
    (xs.length < 2 ^ z.ln.toNat - 256 →
      ((lzwSpell none z xs).1.map (fun k => (seqAt (lzwSpell none z xs).2 k).getD [])).flatten = xs)

/-- What a code stands for in the decoder (43_lzw.md R247, R253 to R256), the previous code `pk` being none or a valid code: a
seed is its byte, the first code must be one, with NEXT = LMAX any other code is stale, a present code is its sequence, the
code NEXT is the KwK case, and a code above NEXT does not resolve. -/
def Obligations.LzwResolve : Prop :=
  ∀ (q : Params) (z : Lzw) (k : Nat), LzwOk q z → z.lstate ≠ .uninit →
    (k < 256 → resolveCode none z k = .bytes [BitVec.ofNat 8 k]) ∧
    (256 ≤ k → resolveCode none z k = .unresolved) ∧
    ∀ p, p < 256 ∨ p < z.next →
      (k < 256 → resolveCode (some p) z k = .bytes [BitVec.ofNat 8 k]) ∧
      (256 ≤ k → z.next = lmax z → resolveCode (some p) z k = .unresolved) ∧
      (256 ≤ k → z.next ≠ lmax z → k < z.next → ∃ e xs, memGet z.dict k = some e ∧ seqAt z e.parent = some xs ∧
        resolveCode (some p) z k = .bytes (xs ++ [e.byte])) ∧
      (z.next ≠ lmax z → k = z.next → ∃ xs x, seqAt z p = some xs ∧ xs.head? = some x ∧
        resolveCode (some p) z k = .bytes (xs ++ [x]) ∧
        (8 < z.ln.toNat → seqAt (lzwInsert p x z) k = some (xs ++ [x]))) ∧
      (z.next < k → resolveCode (some p) z k = .unresolved)

/-- LZW_DECODE (43_lzw.md R253): the bytes of the codes in the stream, then End, and the dictionary they leave; at the first code
that does not resolve, E_LZW_CODE with the bytes of the earlier codes already put. -/
def Obligations.LzwDecode : Prop :=
  ∀ (s : State) (ks : List Nat) (ys : List Byte) (z : Lzw) (r : List Bool),
    s.lzw.lstate = .ready → PackerOk s.bs → 0 < s.lzw.ln.toNat → (∀ k ∈ ks, k < 2 ^ s.lzw.ln.toNat) →
    lzwRead none s.lzw ks = some (ys, z) →
    (inBits (rdRestart s.bs) = codesBits s.lzw.ln.toNat ks ++ r → r.length < s.lzw.ln.toNat →
      (inClosed (rdRestart s.bs) = true → ∃ b b', ReachedEnd (rdRestart s.bs) b ∧ Closed true (bytesBits ys) b b' ∧
        exec .lzwDecode s = .next
          { s with bs := b', lzw := { z with lstate := .done }, busy := false, done := true }) ∧
      (inClosed (rdRestart s.bs) = false → exec .lzwDecode s = .next s)) ∧
    (∀ k, k < 2 ^ s.lzw.ln.toNat → inBits (rdRestart s.bs) = codesBits s.lzw.ln.toNat (ks ++ [k]) ++ r →
      resolveCode ks.getLast? z k = .unresolved →
      ∃ b b', Took (s.lzw.ln.toNat * (ks.length + 1)) (rdRestart s.bs) b ∧ Wrote (bytesBits ys) b b' ∧
        exec .lzwDecode s = .next
          { s with bs := b', lzw := { z with lstate := .error }, err := .eLzwCode, errInfo := BitVec.ofNat 32 k,
                   busy := false, done := true })

/-- LZW round trip (43_lzw.md R261): an encoder job and a decoder job with the same legal DICT_BITS, over its OUT stream, give the
input and End, with no error and the same NEXT and RESETS. -/
def Obligations.LzwRoundTrip : Prop :=
  ∀ (s d : State) (xs : List Byte) (rest rest' : List Token),
    s.err = .none → d.err = .none → 8 ≤ s.curCfg.toNat → s.curCfg.toNat ≤ s.params.lzwNmax →
    d.curCfg = s.curCfg → d.curCfg.toNat ≤ d.params.lzwNmax →
    memWf s.lzw.dict = true → memWf d.lzw.dict = true →
    s.bs.inp = xs.map .byte ++ .stop :: rest →
    ∃ (t u : State) (zs : List Byte),
      execAll [.lzwInit, .lzwEncode] s = .next t ∧
      t.err = .none ∧ t.bs.inp = rest ∧ t.bs.out = s.bs.out ++ zs.map .byte ++ [.stop] ∧
      (d.bs.inp = zs.map .byte ++ .stop :: rest' →
        execAll [.lzwInit, .lzwDecode] d = .next u ∧
        u.err = .none ∧ u.bs.inp = rest' ∧ u.bs.out = d.bs.out ++ xs.map .byte ++ [.stop] ∧
        u.lzw.next = t.lzw.next ∧ u.lzw.resets = t.lzw.resets)

/-! ## Invariants -/

/-- The state right after reset meets every invariant, whatever the parameters. -/
def Obligations.ResetIsOk : Prop := ∀ p : Params, (State.resetWith p).Ok

/-- Every step keeps the parameters, the packer's and the unpacker's invariants (10_state.md R41, R42), the canonical form of the
memories, and the errors' invariant (60_exceptions.md R300, R310, R311). -/
def Obligations.StreamMemoriesAndErrorsKept : Prop :=
  ∀ s t : State, step s = .next t →
    t.params = s.params ∧ (StreamOk s.bs → StreamOk t.bs) ∧ (MemoriesOk s → MemoriesOk t) ∧ (ErrorOk s → ErrorOk t)

/-- Every step keeps the LZW unit's invariant (10_state.md R50 to R53; 43_lzw.md R241, R244, R247). -/
def Obligations.LzwKept : Prop := ∀ s t : State, LzwOk s.params s.lzw → step s = .next t → LzwOk t.params t.lzw

/-- Every step keeps the Huffman unit's invariant (10_state.md R43, R44, R46, R47, R48). -/
def Obligations.HuffmanKept : Prop := ∀ s t : State, HufOk s.params s.huf → step s = .next t → HufOk t.params t.huf

/-- No step from a state that meets the invariants ends in a fault: the model's faults are for states no run reaches
(notes/assumptions/6.md). -/
def Obligations.OkStatesNeverFault : Prop := ∀ (s : State) (f : Fault), s.Ok → step s ≠ .fault f
end

