-- ==== Sys2Proof/Laws/State.lean ====
section
/-! SUPPORT. What each named state update does to each field: one lemma per field per update, true by rfl. -/

namespace Sys2Proof.Machine

/-! ## State.withBs -/

@[simp] theorem State.withBs_params (s : State) (b : Stream) : (s.withBs b).params = s.params := rfl
@[simp] theorem State.withBs_ie (s : State) (b : Stream) : (s.withBs b).ie = s.ie := rfl
@[simp] theorem State.withBs_dictBits (s : State) (b : Stream) : (s.withBs b).dictBits = s.dictBits := rfl
@[simp] theorem State.withBs_arg (s : State) (b : Stream) : (s.withBs b).arg = s.arg := rfl
@[simp] theorem State.withBs_result (s : State) (b : Stream) : (s.withBs b).result = s.result := rfl
@[simp] theorem State.withBs_done (s : State) (b : Stream) : (s.withBs b).done = s.done := rfl
@[simp] theorem State.withBs_ovr (s : State) (b : Stream) : (s.withBs b).ovr = s.ovr := rfl
@[simp] theorem State.withBs_err (s : State) (b : Stream) : (s.withBs b).err = s.err := rfl
@[simp] theorem State.withBs_errInfo (s : State) (b : Stream) : (s.withBs b).errInfo = s.errInfo := rfl
@[simp] theorem State.withBs_codeLen (s : State) (b : Stream) : (s.withBs b).codeLen = s.codeLen := rfl
@[simp] theorem State.withBs_busy (s : State) (b : Stream) : (s.withBs b).busy = s.busy := rfl
@[simp] theorem State.withBs_curCmd (s : State) (b : Stream) : (s.withBs b).curCmd = s.curCmd := rfl
@[simp] theorem State.withBs_curArg (s : State) (b : Stream) : (s.withBs b).curArg = s.curArg := rfl
@[simp] theorem State.withBs_curCfg (s : State) (b : Stream) : (s.withBs b).curCfg = s.curCfg := rfl
@[simp] theorem State.withBs_bs (s : State) (b : Stream) : (s.withBs b).bs = b := rfl
@[simp] theorem State.withBs_huf (s : State) (b : Stream) : (s.withBs b).huf = s.huf := rfl
@[simp] theorem State.withBs_lzw (s : State) (b : Stream) : (s.withBs b).lzw = s.lzw := rfl
@[simp] theorem State.withBs_host (s : State) (b : Stream) : (s.withBs b).host = s.host := rfl
@[simp] theorem State.withBs_draws (s : State) (b : Stream) : (s.withBs b).draws = s.draws := rfl

/-! ## State.withHuf -/

@[simp] theorem State.withHuf_params (s : State) (h : Huf) : (s.withHuf h).params = s.params := rfl
@[simp] theorem State.withHuf_ie (s : State) (h : Huf) : (s.withHuf h).ie = s.ie := rfl
@[simp] theorem State.withHuf_dictBits (s : State) (h : Huf) : (s.withHuf h).dictBits = s.dictBits := rfl
@[simp] theorem State.withHuf_arg (s : State) (h : Huf) : (s.withHuf h).arg = s.arg := rfl
@[simp] theorem State.withHuf_result (s : State) (h : Huf) : (s.withHuf h).result = s.result := rfl
@[simp] theorem State.withHuf_done (s : State) (h : Huf) : (s.withHuf h).done = s.done := rfl
@[simp] theorem State.withHuf_ovr (s : State) (h : Huf) : (s.withHuf h).ovr = s.ovr := rfl
@[simp] theorem State.withHuf_err (s : State) (h : Huf) : (s.withHuf h).err = s.err := rfl
@[simp] theorem State.withHuf_errInfo (s : State) (h : Huf) : (s.withHuf h).errInfo = s.errInfo := rfl
@[simp] theorem State.withHuf_codeLen (s : State) (h : Huf) : (s.withHuf h).codeLen = s.codeLen := rfl
@[simp] theorem State.withHuf_busy (s : State) (h : Huf) : (s.withHuf h).busy = s.busy := rfl
@[simp] theorem State.withHuf_curCmd (s : State) (h : Huf) : (s.withHuf h).curCmd = s.curCmd := rfl
@[simp] theorem State.withHuf_curArg (s : State) (h : Huf) : (s.withHuf h).curArg = s.curArg := rfl
@[simp] theorem State.withHuf_curCfg (s : State) (h : Huf) : (s.withHuf h).curCfg = s.curCfg := rfl
@[simp] theorem State.withHuf_bs (s : State) (h : Huf) : (s.withHuf h).bs = s.bs := rfl
@[simp] theorem State.withHuf_huf (s : State) (h : Huf) : (s.withHuf h).huf = h := rfl
@[simp] theorem State.withHuf_lzw (s : State) (h : Huf) : (s.withHuf h).lzw = s.lzw := rfl
@[simp] theorem State.withHuf_host (s : State) (h : Huf) : (s.withHuf h).host = s.host := rfl
@[simp] theorem State.withHuf_draws (s : State) (h : Huf) : (s.withHuf h).draws = s.draws := rfl

/-! ## State.withLzw -/

@[simp] theorem State.withLzw_params (s : State) (z : Lzw) : (s.withLzw z).params = s.params := rfl
@[simp] theorem State.withLzw_ie (s : State) (z : Lzw) : (s.withLzw z).ie = s.ie := rfl
@[simp] theorem State.withLzw_dictBits (s : State) (z : Lzw) : (s.withLzw z).dictBits = s.dictBits := rfl
@[simp] theorem State.withLzw_arg (s : State) (z : Lzw) : (s.withLzw z).arg = s.arg := rfl
@[simp] theorem State.withLzw_result (s : State) (z : Lzw) : (s.withLzw z).result = s.result := rfl
@[simp] theorem State.withLzw_done (s : State) (z : Lzw) : (s.withLzw z).done = s.done := rfl
@[simp] theorem State.withLzw_ovr (s : State) (z : Lzw) : (s.withLzw z).ovr = s.ovr := rfl
@[simp] theorem State.withLzw_err (s : State) (z : Lzw) : (s.withLzw z).err = s.err := rfl
@[simp] theorem State.withLzw_errInfo (s : State) (z : Lzw) : (s.withLzw z).errInfo = s.errInfo := rfl
@[simp] theorem State.withLzw_codeLen (s : State) (z : Lzw) : (s.withLzw z).codeLen = s.codeLen := rfl
@[simp] theorem State.withLzw_busy (s : State) (z : Lzw) : (s.withLzw z).busy = s.busy := rfl
@[simp] theorem State.withLzw_curCmd (s : State) (z : Lzw) : (s.withLzw z).curCmd = s.curCmd := rfl
@[simp] theorem State.withLzw_curArg (s : State) (z : Lzw) : (s.withLzw z).curArg = s.curArg := rfl
@[simp] theorem State.withLzw_curCfg (s : State) (z : Lzw) : (s.withLzw z).curCfg = s.curCfg := rfl
@[simp] theorem State.withLzw_bs (s : State) (z : Lzw) : (s.withLzw z).bs = s.bs := rfl
@[simp] theorem State.withLzw_huf (s : State) (z : Lzw) : (s.withLzw z).huf = s.huf := rfl
@[simp] theorem State.withLzw_lzw (s : State) (z : Lzw) : (s.withLzw z).lzw = z := rfl
@[simp] theorem State.withLzw_host (s : State) (z : Lzw) : (s.withLzw z).host = s.host := rfl
@[simp] theorem State.withLzw_draws (s : State) (z : Lzw) : (s.withLzw z).draws = s.draws := rfl

/-! ## State.withResult -/

@[simp] theorem State.withResult_params (s : State) (v : Word) : (s.withResult v).params = s.params := rfl
@[simp] theorem State.withResult_ie (s : State) (v : Word) : (s.withResult v).ie = s.ie := rfl
@[simp] theorem State.withResult_dictBits (s : State) (v : Word) : (s.withResult v).dictBits = s.dictBits := rfl
@[simp] theorem State.withResult_arg (s : State) (v : Word) : (s.withResult v).arg = s.arg := rfl
@[simp] theorem State.withResult_result (s : State) (v : Word) : (s.withResult v).result = v := rfl
@[simp] theorem State.withResult_done (s : State) (v : Word) : (s.withResult v).done = s.done := rfl
@[simp] theorem State.withResult_ovr (s : State) (v : Word) : (s.withResult v).ovr = s.ovr := rfl
@[simp] theorem State.withResult_err (s : State) (v : Word) : (s.withResult v).err = s.err := rfl
@[simp] theorem State.withResult_errInfo (s : State) (v : Word) : (s.withResult v).errInfo = s.errInfo := rfl
@[simp] theorem State.withResult_codeLen (s : State) (v : Word) : (s.withResult v).codeLen = s.codeLen := rfl
@[simp] theorem State.withResult_busy (s : State) (v : Word) : (s.withResult v).busy = s.busy := rfl
@[simp] theorem State.withResult_curCmd (s : State) (v : Word) : (s.withResult v).curCmd = s.curCmd := rfl
@[simp] theorem State.withResult_curArg (s : State) (v : Word) : (s.withResult v).curArg = s.curArg := rfl
@[simp] theorem State.withResult_curCfg (s : State) (v : Word) : (s.withResult v).curCfg = s.curCfg := rfl
@[simp] theorem State.withResult_bs (s : State) (v : Word) : (s.withResult v).bs = s.bs := rfl
@[simp] theorem State.withResult_huf (s : State) (v : Word) : (s.withResult v).huf = s.huf := rfl
@[simp] theorem State.withResult_lzw (s : State) (v : Word) : (s.withResult v).lzw = s.lzw := rfl
@[simp] theorem State.withResult_host (s : State) (v : Word) : (s.withResult v).host = s.host := rfl
@[simp] theorem State.withResult_draws (s : State) (v : Word) : (s.withResult v).draws = s.draws := rfl

/-! ## State.withCodeLen -/

@[simp] theorem State.withCodeLen_params (s : State) (v : BitVec 8) : (s.withCodeLen v).params = s.params := rfl
@[simp] theorem State.withCodeLen_ie (s : State) (v : BitVec 8) : (s.withCodeLen v).ie = s.ie := rfl
@[simp] theorem State.withCodeLen_dictBits (s : State) (v : BitVec 8) : (s.withCodeLen v).dictBits = s.dictBits := rfl
@[simp] theorem State.withCodeLen_arg (s : State) (v : BitVec 8) : (s.withCodeLen v).arg = s.arg := rfl
@[simp] theorem State.withCodeLen_result (s : State) (v : BitVec 8) : (s.withCodeLen v).result = s.result := rfl
@[simp] theorem State.withCodeLen_done (s : State) (v : BitVec 8) : (s.withCodeLen v).done = s.done := rfl
@[simp] theorem State.withCodeLen_ovr (s : State) (v : BitVec 8) : (s.withCodeLen v).ovr = s.ovr := rfl
@[simp] theorem State.withCodeLen_err (s : State) (v : BitVec 8) : (s.withCodeLen v).err = s.err := rfl
@[simp] theorem State.withCodeLen_errInfo (s : State) (v : BitVec 8) : (s.withCodeLen v).errInfo = s.errInfo := rfl
@[simp] theorem State.withCodeLen_codeLen (s : State) (v : BitVec 8) : (s.withCodeLen v).codeLen = v := rfl
@[simp] theorem State.withCodeLen_busy (s : State) (v : BitVec 8) : (s.withCodeLen v).busy = s.busy := rfl
@[simp] theorem State.withCodeLen_curCmd (s : State) (v : BitVec 8) : (s.withCodeLen v).curCmd = s.curCmd := rfl
@[simp] theorem State.withCodeLen_curArg (s : State) (v : BitVec 8) : (s.withCodeLen v).curArg = s.curArg := rfl
@[simp] theorem State.withCodeLen_curCfg (s : State) (v : BitVec 8) : (s.withCodeLen v).curCfg = s.curCfg := rfl
@[simp] theorem State.withCodeLen_bs (s : State) (v : BitVec 8) : (s.withCodeLen v).bs = s.bs := rfl
@[simp] theorem State.withCodeLen_huf (s : State) (v : BitVec 8) : (s.withCodeLen v).huf = s.huf := rfl
@[simp] theorem State.withCodeLen_lzw (s : State) (v : BitVec 8) : (s.withCodeLen v).lzw = s.lzw := rfl
@[simp] theorem State.withCodeLen_host (s : State) (v : BitVec 8) : (s.withCodeLen v).host = s.host := rfl
@[simp] theorem State.withCodeLen_draws (s : State) (v : BitVec 8) : (s.withCodeLen v).draws = s.draws := rfl

/-! ## complete -/

@[simp] theorem complete_params (s : State) : (complete s).params = s.params := rfl
@[simp] theorem complete_ie (s : State) : (complete s).ie = s.ie := rfl
@[simp] theorem complete_dictBits (s : State) : (complete s).dictBits = s.dictBits := rfl
@[simp] theorem complete_arg (s : State) : (complete s).arg = s.arg := rfl
@[simp] theorem complete_result (s : State) : (complete s).result = s.result := rfl
@[simp] theorem complete_done (s : State) : (complete s).done = true := rfl
@[simp] theorem complete_ovr (s : State) : (complete s).ovr = s.ovr := rfl
@[simp] theorem complete_err (s : State) : (complete s).err = s.err := rfl
@[simp] theorem complete_errInfo (s : State) : (complete s).errInfo = s.errInfo := rfl
@[simp] theorem complete_codeLen (s : State) : (complete s).codeLen = s.codeLen := rfl
@[simp] theorem complete_busy (s : State) : (complete s).busy = false := rfl
@[simp] theorem complete_curCmd (s : State) : (complete s).curCmd = s.curCmd := rfl
@[simp] theorem complete_curArg (s : State) : (complete s).curArg = s.curArg := rfl
@[simp] theorem complete_curCfg (s : State) : (complete s).curCfg = s.curCfg := rfl
@[simp] theorem complete_bs (s : State) : (complete s).bs = s.bs := rfl
@[simp] theorem complete_huf (s : State) : (complete s).huf = s.huf := rfl
@[simp] theorem complete_lzw (s : State) : (complete s).lzw = s.lzw := rfl
@[simp] theorem complete_host (s : State) : (complete s).host = s.host := rfl
@[simp] theorem complete_draws (s : State) : (complete s).draws = s.draws := rfl

/-! ## raiseError -/

@[simp] theorem raiseError_params (c : ErrCode) (v : Word) (s : State) : (raiseError c v s).params = s.params := rfl
@[simp] theorem raiseError_ie (c : ErrCode) (v : Word) (s : State) : (raiseError c v s).ie = s.ie := rfl
@[simp] theorem raiseError_dictBits (c : ErrCode) (v : Word) (s : State) : (raiseError c v s).dictBits = s.dictBits := rfl
@[simp] theorem raiseError_arg (c : ErrCode) (v : Word) (s : State) : (raiseError c v s).arg = s.arg := rfl
@[simp] theorem raiseError_result (c : ErrCode) (v : Word) (s : State) : (raiseError c v s).result = s.result := rfl
@[simp] theorem raiseError_done (c : ErrCode) (v : Word) (s : State) : (raiseError c v s).done = true := rfl
@[simp] theorem raiseError_ovr (c : ErrCode) (v : Word) (s : State) : (raiseError c v s).ovr = s.ovr := rfl
@[simp] theorem raiseError_err (c : ErrCode) (v : Word) (s : State) : (raiseError c v s).err = c := rfl
@[simp] theorem raiseError_errInfo (c : ErrCode) (v : Word) (s : State) : (raiseError c v s).errInfo = v := rfl
@[simp] theorem raiseError_codeLen (c : ErrCode) (v : Word) (s : State) : (raiseError c v s).codeLen = s.codeLen := rfl
@[simp] theorem raiseError_busy (c : ErrCode) (v : Word) (s : State) : (raiseError c v s).busy = false := rfl
@[simp] theorem raiseError_curCmd (c : ErrCode) (v : Word) (s : State) : (raiseError c v s).curCmd = s.curCmd := rfl
@[simp] theorem raiseError_curArg (c : ErrCode) (v : Word) (s : State) : (raiseError c v s).curArg = s.curArg := rfl
@[simp] theorem raiseError_curCfg (c : ErrCode) (v : Word) (s : State) : (raiseError c v s).curCfg = s.curCfg := rfl
@[simp] theorem raiseError_bs (c : ErrCode) (v : Word) (s : State) : (raiseError c v s).bs = s.bs := rfl
@[simp] theorem raiseError_huf (c : ErrCode) (v : Word) (s : State) : (raiseError c v s).huf = s.huf := rfl
@[simp] theorem raiseError_lzw (c : ErrCode) (v : Word) (s : State) : (raiseError c v s).lzw = s.lzw := rfl
@[simp] theorem raiseError_host (c : ErrCode) (v : Word) (s : State) : (raiseError c v s).host = s.host := rfl
@[simp] theorem raiseError_draws (c : ErrCode) (v : Word) (s : State) : (raiseError c v s).draws = s.draws := rfl

/-! ## dropCommand -/

@[simp] theorem dropCommand_params (s : State) : (dropCommand s).params = s.params := rfl
@[simp] theorem dropCommand_ie (s : State) : (dropCommand s).ie = s.ie := rfl
@[simp] theorem dropCommand_dictBits (s : State) : (dropCommand s).dictBits = s.dictBits := rfl
@[simp] theorem dropCommand_arg (s : State) : (dropCommand s).arg = s.arg := rfl
@[simp] theorem dropCommand_result (s : State) : (dropCommand s).result = s.result := rfl
@[simp] theorem dropCommand_done (s : State) : (dropCommand s).done = s.done := rfl
@[simp] theorem dropCommand_ovr (s : State) : (dropCommand s).ovr = true := rfl
@[simp] theorem dropCommand_err (s : State) : (dropCommand s).err = s.err := rfl
@[simp] theorem dropCommand_errInfo (s : State) : (dropCommand s).errInfo = s.errInfo := rfl
@[simp] theorem dropCommand_codeLen (s : State) : (dropCommand s).codeLen = s.codeLen := rfl
@[simp] theorem dropCommand_busy (s : State) : (dropCommand s).busy = s.busy := rfl
@[simp] theorem dropCommand_curCmd (s : State) : (dropCommand s).curCmd = s.curCmd := rfl
@[simp] theorem dropCommand_curArg (s : State) : (dropCommand s).curArg = s.curArg := rfl
@[simp] theorem dropCommand_curCfg (s : State) : (dropCommand s).curCfg = s.curCfg := rfl
@[simp] theorem dropCommand_bs (s : State) : (dropCommand s).bs = s.bs := rfl
@[simp] theorem dropCommand_huf (s : State) : (dropCommand s).huf = s.huf := rfl
@[simp] theorem dropCommand_lzw (s : State) : (dropCommand s).lzw = s.lzw := rfl
@[simp] theorem dropCommand_host (s : State) : (dropCommand s).host = s.host := rfl
@[simp] theorem dropCommand_draws (s : State) : (dropCommand s).draws = s.draws := rfl

/-! ## takeCommand -/

@[simp] theorem takeCommand_params (c : Word) (s : State) : (takeCommand c s).params = s.params := rfl
@[simp] theorem takeCommand_ie (c : Word) (s : State) : (takeCommand c s).ie = s.ie := rfl
@[simp] theorem takeCommand_dictBits (c : Word) (s : State) : (takeCommand c s).dictBits = s.dictBits := rfl
@[simp] theorem takeCommand_arg (c : Word) (s : State) : (takeCommand c s).arg = s.arg := rfl
@[simp] theorem takeCommand_result (c : Word) (s : State) : (takeCommand c s).result = s.result := rfl
@[simp] theorem takeCommand_done (c : Word) (s : State) : (takeCommand c s).done = false := rfl
@[simp] theorem takeCommand_ovr (c : Word) (s : State) : (takeCommand c s).ovr = s.ovr := rfl
@[simp] theorem takeCommand_err (c : Word) (s : State) : (takeCommand c s).err = s.err := rfl
@[simp] theorem takeCommand_errInfo (c : Word) (s : State) : (takeCommand c s).errInfo = s.errInfo := rfl
@[simp] theorem takeCommand_codeLen (c : Word) (s : State) : (takeCommand c s).codeLen = s.codeLen := rfl
@[simp] theorem takeCommand_busy (c : Word) (s : State) : (takeCommand c s).busy = true := rfl
@[simp] theorem takeCommand_curCmd (c : Word) (s : State) : (takeCommand c s).curCmd = c := rfl
@[simp] theorem takeCommand_curArg (c : Word) (s : State) : (takeCommand c s).curArg = s.arg := rfl
@[simp] theorem takeCommand_curCfg (c : Word) (s : State) : (takeCommand c s).curCfg = s.dictBits := rfl
@[simp] theorem takeCommand_bs (c : Word) (s : State) : (takeCommand c s).bs = s.bs := rfl
@[simp] theorem takeCommand_huf (c : Word) (s : State) : (takeCommand c s).huf = s.huf := rfl
@[simp] theorem takeCommand_lzw (c : Word) (s : State) : (takeCommand c s).lzw = s.lzw := rfl
@[simp] theorem takeCommand_host (c : Word) (s : State) : (takeCommand c s).host = s.host := rfl
@[simp] theorem takeCommand_draws (c : Word) (s : State) : (takeCommand c s).draws = s.draws := rfl

/-! ## clearFlags -/

@[simp] theorem clearFlags_params (v : Word) (s : State) : (clearFlags v s).params = s.params := rfl
@[simp] theorem clearFlags_ie (v : Word) (s : State) : (clearFlags v s).ie = s.ie := rfl
@[simp] theorem clearFlags_dictBits (v : Word) (s : State) : (clearFlags v s).dictBits = s.dictBits := rfl
@[simp] theorem clearFlags_arg (v : Word) (s : State) : (clearFlags v s).arg = s.arg := rfl
@[simp] theorem clearFlags_result (v : Word) (s : State) : (clearFlags v s).result = s.result := rfl
@[simp] theorem clearFlags_done (v : Word) (s : State) : (clearFlags v s).done = (s.done && !v.getLsbD 1) := rfl
@[simp] theorem clearFlags_ovr (v : Word) (s : State) : (clearFlags v s).ovr = (s.ovr && !v.getLsbD 2) := rfl
@[simp] theorem clearFlags_err (v : Word) (s : State) : (clearFlags v s).err = s.err := rfl
@[simp] theorem clearFlags_errInfo (v : Word) (s : State) : (clearFlags v s).errInfo = s.errInfo := rfl
@[simp] theorem clearFlags_codeLen (v : Word) (s : State) : (clearFlags v s).codeLen = s.codeLen := rfl
@[simp] theorem clearFlags_busy (v : Word) (s : State) : (clearFlags v s).busy = s.busy := rfl
@[simp] theorem clearFlags_curCmd (v : Word) (s : State) : (clearFlags v s).curCmd = s.curCmd := rfl
@[simp] theorem clearFlags_curArg (v : Word) (s : State) : (clearFlags v s).curArg = s.curArg := rfl
@[simp] theorem clearFlags_curCfg (v : Word) (s : State) : (clearFlags v s).curCfg = s.curCfg := rfl
@[simp] theorem clearFlags_bs (v : Word) (s : State) : (clearFlags v s).bs = s.bs := rfl
@[simp] theorem clearFlags_huf (v : Word) (s : State) : (clearFlags v s).huf = s.huf := rfl
@[simp] theorem clearFlags_lzw (v : Word) (s : State) : (clearFlags v s).lzw = s.lzw := rfl
@[simp] theorem clearFlags_host (v : Word) (s : State) : (clearFlags v s).host = s.host := rfl
@[simp] theorem clearFlags_draws (v : Word) (s : State) : (clearFlags v s).draws = s.draws := rfl

/-! ## advance -/

@[simp] theorem advance_params (s : State) : (advance s).params = s.params := rfl
@[simp] theorem advance_ie (s : State) : (advance s).ie = s.ie := rfl
@[simp] theorem advance_dictBits (s : State) : (advance s).dictBits = s.dictBits := rfl
@[simp] theorem advance_arg (s : State) : (advance s).arg = s.arg := rfl
@[simp] theorem advance_result (s : State) : (advance s).result = s.result := rfl
@[simp] theorem advance_done (s : State) : (advance s).done = s.done := rfl
@[simp] theorem advance_ovr (s : State) : (advance s).ovr = s.ovr := rfl
@[simp] theorem advance_err (s : State) : (advance s).err = s.err := rfl
@[simp] theorem advance_errInfo (s : State) : (advance s).errInfo = s.errInfo := rfl
@[simp] theorem advance_codeLen (s : State) : (advance s).codeLen = s.codeLen := rfl
@[simp] theorem advance_busy (s : State) : (advance s).busy = s.busy := rfl
@[simp] theorem advance_curCmd (s : State) : (advance s).curCmd = s.curCmd := rfl
@[simp] theorem advance_curArg (s : State) : (advance s).curArg = s.curArg := rfl
@[simp] theorem advance_curCfg (s : State) : (advance s).curCfg = s.curCfg := rfl
@[simp] theorem advance_bs (s : State) : (advance s).bs = s.bs := rfl
@[simp] theorem advance_huf (s : State) : (advance s).huf = s.huf := rfl
@[simp] theorem advance_lzw (s : State) : (advance s).lzw = s.lzw := rfl
@[simp] theorem advance_host (s : State) : (advance s).host = { s.host with index := s.host.index + 1 } := rfl
@[simp] theorem advance_draws (s : State) : (advance s).draws = s.draws := rfl

/-! ## observe -/

@[simp] theorem observe_params (xs : List Obs) (s : State) : (observe xs s).params = s.params := rfl
@[simp] theorem observe_ie (xs : List Obs) (s : State) : (observe xs s).ie = s.ie := rfl
@[simp] theorem observe_dictBits (xs : List Obs) (s : State) : (observe xs s).dictBits = s.dictBits := rfl
@[simp] theorem observe_arg (xs : List Obs) (s : State) : (observe xs s).arg = s.arg := rfl
@[simp] theorem observe_result (xs : List Obs) (s : State) : (observe xs s).result = s.result := rfl
@[simp] theorem observe_done (xs : List Obs) (s : State) : (observe xs s).done = s.done := rfl
@[simp] theorem observe_ovr (xs : List Obs) (s : State) : (observe xs s).ovr = s.ovr := rfl
@[simp] theorem observe_err (xs : List Obs) (s : State) : (observe xs s).err = s.err := rfl
@[simp] theorem observe_errInfo (xs : List Obs) (s : State) : (observe xs s).errInfo = s.errInfo := rfl
@[simp] theorem observe_codeLen (xs : List Obs) (s : State) : (observe xs s).codeLen = s.codeLen := rfl
@[simp] theorem observe_busy (xs : List Obs) (s : State) : (observe xs s).busy = s.busy := rfl
@[simp] theorem observe_curCmd (xs : List Obs) (s : State) : (observe xs s).curCmd = s.curCmd := rfl
@[simp] theorem observe_curArg (xs : List Obs) (s : State) : (observe xs s).curArg = s.curArg := rfl
@[simp] theorem observe_curCfg (xs : List Obs) (s : State) : (observe xs s).curCfg = s.curCfg := rfl
@[simp] theorem observe_bs (xs : List Obs) (s : State) : (observe xs s).bs = s.bs := rfl
@[simp] theorem observe_huf (xs : List Obs) (s : State) : (observe xs s).huf = s.huf := rfl
@[simp] theorem observe_lzw (xs : List Obs) (s : State) : (observe xs s).lzw = s.lzw := rfl
@[simp] theorem observe_host (xs : List Obs) (s : State) : (observe xs s).host = { s.host with trace := s.host.trace ++ xs } := rfl
@[simp] theorem observe_draws (xs : List Obs) (s : State) : (observe xs s).draws = s.draws := rfl

/-! ## withOut -/

@[simp] theorem withOut_params (ts : List Token) (s : State) : (withOut ts s).params = s.params := rfl
@[simp] theorem withOut_ie (ts : List Token) (s : State) : (withOut ts s).ie = s.ie := rfl
@[simp] theorem withOut_dictBits (ts : List Token) (s : State) : (withOut ts s).dictBits = s.dictBits := rfl
@[simp] theorem withOut_arg (ts : List Token) (s : State) : (withOut ts s).arg = s.arg := rfl
@[simp] theorem withOut_result (ts : List Token) (s : State) : (withOut ts s).result = s.result := rfl
@[simp] theorem withOut_done (ts : List Token) (s : State) : (withOut ts s).done = s.done := rfl
@[simp] theorem withOut_ovr (ts : List Token) (s : State) : (withOut ts s).ovr = s.ovr := rfl
@[simp] theorem withOut_err (ts : List Token) (s : State) : (withOut ts s).err = s.err := rfl
@[simp] theorem withOut_errInfo (ts : List Token) (s : State) : (withOut ts s).errInfo = s.errInfo := rfl
@[simp] theorem withOut_codeLen (ts : List Token) (s : State) : (withOut ts s).codeLen = s.codeLen := rfl
@[simp] theorem withOut_busy (ts : List Token) (s : State) : (withOut ts s).busy = s.busy := rfl
@[simp] theorem withOut_curCmd (ts : List Token) (s : State) : (withOut ts s).curCmd = s.curCmd := rfl
@[simp] theorem withOut_curArg (ts : List Token) (s : State) : (withOut ts s).curArg = s.curArg := rfl
@[simp] theorem withOut_curCfg (ts : List Token) (s : State) : (withOut ts s).curCfg = s.curCfg := rfl
@[simp] theorem withOut_bs (ts : List Token) (s : State) : (withOut ts s).bs = { s.bs with out := ts } := rfl
@[simp] theorem withOut_huf (ts : List Token) (s : State) : (withOut ts s).huf = s.huf := rfl
@[simp] theorem withOut_lzw (ts : List Token) (s : State) : (withOut ts s).lzw = s.lzw := rfl
@[simp] theorem withOut_host (ts : List Token) (s : State) : (withOut ts s).host = s.host := rfl
@[simp] theorem withOut_draws (ts : List Token) (s : State) : (withOut ts s).draws = s.draws := rfl

/-! ## placeCommand -/

@[simp] theorem placeCommand_params (c : Word) (s : State) : (placeCommand c s).params = s.params := rfl
@[simp] theorem placeCommand_ie (c : Word) (s : State) : (placeCommand c s).ie = s.ie := rfl
@[simp] theorem placeCommand_dictBits (c : Word) (s : State) : (placeCommand c s).dictBits = s.dictBits := rfl
@[simp] theorem placeCommand_arg (c : Word) (s : State) : (placeCommand c s).arg = s.arg := rfl
@[simp] theorem placeCommand_result (c : Word) (s : State) : (placeCommand c s).result = s.result := rfl
@[simp] theorem placeCommand_done (c : Word) (s : State) : (placeCommand c s).done = false := rfl
@[simp] theorem placeCommand_ovr (c : Word) (s : State) : (placeCommand c s).ovr = s.ovr := rfl
@[simp] theorem placeCommand_err (c : Word) (s : State) : (placeCommand c s).err = s.err := rfl
@[simp] theorem placeCommand_errInfo (c : Word) (s : State) : (placeCommand c s).errInfo = s.errInfo := rfl
@[simp] theorem placeCommand_codeLen (c : Word) (s : State) : (placeCommand c s).codeLen = s.codeLen := rfl
@[simp] theorem placeCommand_busy (c : Word) (s : State) : (placeCommand c s).busy = true := rfl
@[simp] theorem placeCommand_curCmd (c : Word) (s : State) : (placeCommand c s).curCmd = c := rfl
@[simp] theorem placeCommand_curArg (c : Word) (s : State) : (placeCommand c s).curArg = s.arg := rfl
@[simp] theorem placeCommand_curCfg (c : Word) (s : State) : (placeCommand c s).curCfg = s.dictBits := rfl
@[simp] theorem placeCommand_bs (c : Word) (s : State) : (placeCommand c s).bs = s.bs := rfl
@[simp] theorem placeCommand_huf (c : Word) (s : State) : (placeCommand c s).huf = s.huf := rfl
@[simp] theorem placeCommand_lzw (c : Word) (s : State) : (placeCommand c s).lzw = s.lzw := rfl
@[simp] theorem placeCommand_host (c : Word) (s : State) : (placeCommand c s).host = { s.host with index := s.host.prog.length } := rfl
@[simp] theorem placeCommand_draws (c : Word) (s : State) : (placeCommand c s).draws = s.draws := rfl

/-! ## pushTokens -/

@[simp] theorem pushTokens_params (ts : List Token) (s : State) : (pushTokens ts s).params = s.params := rfl
@[simp] theorem pushTokens_ie (ts : List Token) (s : State) : (pushTokens ts s).ie = s.ie := rfl
@[simp] theorem pushTokens_dictBits (ts : List Token) (s : State) : (pushTokens ts s).dictBits = s.dictBits := rfl
@[simp] theorem pushTokens_arg (ts : List Token) (s : State) : (pushTokens ts s).arg = s.arg := rfl
@[simp] theorem pushTokens_result (ts : List Token) (s : State) : (pushTokens ts s).result = s.result := rfl
@[simp] theorem pushTokens_done (ts : List Token) (s : State) : (pushTokens ts s).done = s.done := rfl
@[simp] theorem pushTokens_ovr (ts : List Token) (s : State) : (pushTokens ts s).ovr = s.ovr := rfl
@[simp] theorem pushTokens_err (ts : List Token) (s : State) : (pushTokens ts s).err = s.err := rfl
@[simp] theorem pushTokens_errInfo (ts : List Token) (s : State) : (pushTokens ts s).errInfo = s.errInfo := rfl
@[simp] theorem pushTokens_codeLen (ts : List Token) (s : State) : (pushTokens ts s).codeLen = s.codeLen := rfl
@[simp] theorem pushTokens_busy (ts : List Token) (s : State) : (pushTokens ts s).busy = s.busy := rfl
@[simp] theorem pushTokens_curCmd (ts : List Token) (s : State) : (pushTokens ts s).curCmd = s.curCmd := rfl
@[simp] theorem pushTokens_curArg (ts : List Token) (s : State) : (pushTokens ts s).curArg = s.curArg := rfl
@[simp] theorem pushTokens_curCfg (ts : List Token) (s : State) : (pushTokens ts s).curCfg = s.curCfg := rfl
@[simp] theorem pushTokens_bs (ts : List Token) (s : State) : (pushTokens ts s).bs = pushed ts s.bs := rfl
@[simp] theorem pushTokens_huf (ts : List Token) (s : State) : (pushTokens ts s).huf = s.huf := rfl
@[simp] theorem pushTokens_lzw (ts : List Token) (s : State) : (pushTokens ts s).lzw = s.lzw := rfl
@[simp] theorem pushTokens_host (ts : List Token) (s : State) : (pushTokens ts s).host = s.host := rfl
@[simp] theorem pushTokens_draws (ts : List Token) (s : State) : (pushTokens ts s).draws = s.draws := rfl

/-! ## softResetTo -/

@[simp] theorem softResetTo_params (ie : Bool) (inp out : List Token) (s : State) : (softResetTo ie inp out s).params = s.params := rfl
@[simp] theorem softResetTo_ie (ie : Bool) (inp out : List Token) (s : State) : (softResetTo ie inp out s).ie = ie := rfl
@[simp] theorem softResetTo_dictBits (ie : Bool) (inp out : List Token) (s : State) : (softResetTo ie inp out s).dictBits = s.dictBits := rfl
@[simp] theorem softResetTo_arg (ie : Bool) (inp out : List Token) (s : State) : (softResetTo ie inp out s).arg = 0 := rfl
@[simp] theorem softResetTo_result (ie : Bool) (inp out : List Token) (s : State) : (softResetTo ie inp out s).result = 0 := rfl
@[simp] theorem softResetTo_done (ie : Bool) (inp out : List Token) (s : State) : (softResetTo ie inp out s).done = false := rfl
@[simp] theorem softResetTo_ovr (ie : Bool) (inp out : List Token) (s : State) : (softResetTo ie inp out s).ovr = false := rfl
@[simp] theorem softResetTo_err (ie : Bool) (inp out : List Token) (s : State) : (softResetTo ie inp out s).err = .none := rfl
@[simp] theorem softResetTo_errInfo (ie : Bool) (inp out : List Token) (s : State) : (softResetTo ie inp out s).errInfo = 0 := rfl
@[simp] theorem softResetTo_codeLen (ie : Bool) (inp out : List Token) (s : State) : (softResetTo ie inp out s).codeLen = 0 := rfl
@[simp] theorem softResetTo_busy (ie : Bool) (inp out : List Token) (s : State) : (softResetTo ie inp out s).busy = false := rfl
@[simp] theorem softResetTo_curCmd (ie : Bool) (inp out : List Token) (s : State) : (softResetTo ie inp out s).curCmd = 0 := rfl
@[simp] theorem softResetTo_curArg (ie : Bool) (inp out : List Token) (s : State) : (softResetTo ie inp out s).curArg = 0 := rfl
@[simp] theorem softResetTo_curCfg (ie : Bool) (inp out : List Token) (s : State) : (softResetTo ie inp out s).curCfg = 0 := rfl
@[simp] theorem softResetTo_bs (ie : Bool) (inp out : List Token) (s : State) : (softResetTo ie inp out s).bs = { Stream.reset with inp := inp, out := out } := rfl
@[simp] theorem softResetTo_huf (ie : Bool) (inp out : List Token) (s : State) : (softResetTo ie inp out s).huf = Huf.reset := rfl
@[simp] theorem softResetTo_lzw (ie : Bool) (inp out : List Token) (s : State) : (softResetTo ie inp out s).lzw = Lzw.reset := rfl
@[simp] theorem softResetTo_host (ie : Bool) (inp out : List Token) (s : State) : (softResetTo ie inp out s).host = s.host := rfl
@[simp] theorem softResetTo_draws (ie : Bool) (inp out : List Token) (s : State) : (softResetTo ie inp out s).draws = s.draws := rfl

/-! ## hardResetCore -/

@[simp] theorem hardResetCore_params (s : State) : (hardResetCore s).params = s.params := rfl
@[simp] theorem hardResetCore_ie (s : State) : (hardResetCore s).ie = false := rfl
@[simp] theorem hardResetCore_dictBits (s : State) : (hardResetCore s).dictBits = 9 := rfl
@[simp] theorem hardResetCore_arg (s : State) : (hardResetCore s).arg = 0 := rfl
@[simp] theorem hardResetCore_result (s : State) : (hardResetCore s).result = 0 := rfl
@[simp] theorem hardResetCore_done (s : State) : (hardResetCore s).done = false := rfl
@[simp] theorem hardResetCore_ovr (s : State) : (hardResetCore s).ovr = false := rfl
@[simp] theorem hardResetCore_err (s : State) : (hardResetCore s).err = .none := rfl
@[simp] theorem hardResetCore_errInfo (s : State) : (hardResetCore s).errInfo = 0 := rfl
@[simp] theorem hardResetCore_codeLen (s : State) : (hardResetCore s).codeLen = 0 := rfl
@[simp] theorem hardResetCore_busy (s : State) : (hardResetCore s).busy = false := rfl
@[simp] theorem hardResetCore_curCmd (s : State) : (hardResetCore s).curCmd = 0 := rfl
@[simp] theorem hardResetCore_curArg (s : State) : (hardResetCore s).curArg = 0 := rfl
@[simp] theorem hardResetCore_curCfg (s : State) : (hardResetCore s).curCfg = 0 := rfl
@[simp] theorem hardResetCore_bs (s : State) : (hardResetCore s).bs = Stream.reset := rfl
@[simp] theorem hardResetCore_huf (s : State) : (hardResetCore s).huf = Huf.reset := rfl
@[simp] theorem hardResetCore_lzw (s : State) : (hardResetCore s).lzw = Lzw.reset := rfl
@[simp] theorem hardResetCore_host (s : State) : (hardResetCore s).host = s.host := rfl
@[simp] theorem hardResetCore_draws (s : State) : (hardResetCore s).draws = s.draws := rfl

/-! ## rdRestart -/

@[simp] theorem rdRestart_inp (b : Stream) : (rdRestart b).inp = b.inp := rfl
@[simp] theorem rdRestart_out (b : Stream) : (rdRestart b).out = b.out := rfl
@[simp] theorem rdRestart_wbuf (b : Stream) : (rdRestart b).wbuf = b.wbuf := rfl
@[simp] theorem rdRestart_wcnt (b : Stream) : (rdRestart b).wcnt = b.wcnt := rfl
@[simp] theorem rdRestart_rbuf (b : Stream) : (rdRestart b).rbuf = b.rbuf := rfl
@[simp] theorem rdRestart_rcnt (b : Stream) : (rdRestart b).rcnt = 0 := rfl
@[simp] theorem rdRestart_eodf (b : Stream) : (rdRestart b).eodf = false := rfl
@[simp] theorem rdRestart_cntIn (b : Stream) : (rdRestart b).cntIn = b.cntIn := rfl
@[simp] theorem rdRestart_cntOut (b : Stream) : (rdRestart b).cntOut = b.cntOut := rfl

/-! ## streamInit -/

@[simp] theorem streamInit_inp (b : Stream) : (streamInit b).inp = b.inp := rfl
@[simp] theorem streamInit_out (b : Stream) : (streamInit b).out = b.out := rfl
@[simp] theorem streamInit_wbuf (b : Stream) : (streamInit b).wbuf = 0 := rfl
@[simp] theorem streamInit_wcnt (b : Stream) : (streamInit b).wcnt = 0 := rfl
@[simp] theorem streamInit_rbuf (b : Stream) : (streamInit b).rbuf = b.rbuf := rfl
@[simp] theorem streamInit_rcnt (b : Stream) : (streamInit b).rcnt = 0 := rfl
@[simp] theorem streamInit_eodf (b : Stream) : (streamInit b).eodf = false := rfl
@[simp] theorem streamInit_cntIn (b : Stream) : (streamInit b).cntIn = 0 := rfl
@[simp] theorem streamInit_cntOut (b : Stream) : (streamInit b).cntOut = 0 := rfl

/-! ## outPut -/

@[simp] theorem outPut_inp (t : Token) (b : Stream) : (outPut t b).inp = b.inp := rfl
@[simp] theorem outPut_out (t : Token) (b : Stream) : (outPut t b).out = b.out ++ [t] := rfl
@[simp] theorem outPut_wbuf (t : Token) (b : Stream) : (outPut t b).wbuf = b.wbuf := rfl
@[simp] theorem outPut_wcnt (t : Token) (b : Stream) : (outPut t b).wcnt = b.wcnt := rfl
@[simp] theorem outPut_rbuf (t : Token) (b : Stream) : (outPut t b).rbuf = b.rbuf := rfl
@[simp] theorem outPut_rcnt (t : Token) (b : Stream) : (outPut t b).rcnt = b.rcnt := rfl
@[simp] theorem outPut_eodf (t : Token) (b : Stream) : (outPut t b).eodf = b.eodf := rfl
@[simp] theorem outPut_cntIn (t : Token) (b : Stream) : (outPut t b).cntIn = b.cntIn := rfl
@[simp] theorem outPut_cntOut (t : Token) (b : Stream) : (outPut t b).cntOut = b.cntOut := rfl

/-! ## refill -/

@[simp] theorem refill_inp (x : Byte) (rest : List Token) (b : Stream) : (refill x rest b).inp = rest := rfl
@[simp] theorem refill_out (x : Byte) (rest : List Token) (b : Stream) : (refill x rest b).out = b.out := rfl
@[simp] theorem refill_wbuf (x : Byte) (rest : List Token) (b : Stream) : (refill x rest b).wbuf = b.wbuf := rfl
@[simp] theorem refill_wcnt (x : Byte) (rest : List Token) (b : Stream) : (refill x rest b).wcnt = b.wcnt := rfl
@[simp] theorem refill_rbuf (x : Byte) (rest : List Token) (b : Stream) : (refill x rest b).rbuf = x := rfl
@[simp] theorem refill_rcnt (x : Byte) (rest : List Token) (b : Stream) : (refill x rest b).rcnt = 8 := rfl
@[simp] theorem refill_eodf (x : Byte) (rest : List Token) (b : Stream) : (refill x rest b).eodf = b.eodf := rfl
@[simp] theorem refill_cntIn (x : Byte) (rest : List Token) (b : Stream) : (refill x rest b).cntIn = b.cntIn + 1 := rfl
@[simp] theorem refill_cntOut (x : Byte) (rest : List Token) (b : Stream) : (refill x rest b).cntOut = b.cntOut := rfl

/-! ## hufInitUnit -/

@[simp] theorem hufInitUnit_freq (h : Huf) : (hufInitUnit h).freq = Vector.replicate 256 0 := rfl
@[simp] theorem hufInitUnit_total (h : Huf) : (hufInitUnit h).total = 0 := rfl
@[simp] theorem hufInitUnit_hstate (h : Huf) : (hufInitUnit h).hstate = .idle := rfl
@[simp] theorem hufInitUnit_hmode (h : Huf) : (hufInitUnit h).hmode = .encode := rfl
@[simp] theorem hufInitUnit_cvalid (h : Huf) : (hufInitUnit h).cvalid = false := rfl
@[simp] theorem hufInitUnit_trunc (h : Huf) : (hufInitUnit h).trunc = false := rfl
@[simp] theorem hufInitUnit_node (h : Huf) : (hufInitUnit h).node = h.node := rfl
@[simp] theorem hufInitUnit_nnodes (h : Huf) : (hufInitUnit h).nnodes = 0 := rfl
@[simp] theorem hufInitUnit_root (h : Huf) : (hufInitUnit h).root = 0 := rfl
@[simp] theorem hufInitUnit_tkind (h : Huf) : (hufInitUnit h).tkind = .empty := rfl
@[simp] theorem hufInitUnit_code (h : Huf) : (hufInitUnit h).code = h.code := rfl

/-! ## resetDict, writeEntry, lzwInitUnit -/

@[simp] theorem resetDict_ln (z : Lzw) : (resetDict z).ln = z.ln := rfl
@[simp] theorem resetDict_next (z : Lzw) : (resetDict z).next = 256 := rfl
@[simp] theorem resetDict_dict (z : Lzw) : (resetDict z).dict = z.dict := rfl
@[simp] theorem resetDict_resets (z : Lzw) : (resetDict z).resets = z.resets := rfl
@[simp] theorem resetDict_lstate (z : Lzw) : (resetDict z).lstate = z.lstate := rfl
@[simp] theorem writeEntry_ln (p : Nat) (c : Byte) (z : Lzw) : (writeEntry p c z).ln = z.ln := rfl
@[simp] theorem writeEntry_next (p : Nat) (c : Byte) (z : Lzw) : (writeEntry p c z).next = z.next + 1 := rfl
@[simp] theorem writeEntry_dict (p : Nat) (c : Byte) (z : Lzw) : (writeEntry p c z).dict = memSet z.dict z.next { parent := p, byte := c } := rfl
@[simp] theorem writeEntry_resets (p : Nat) (c : Byte) (z : Lzw) : (writeEntry p c z).resets = z.resets := rfl
@[simp] theorem writeEntry_lstate (p : Nat) (c : Byte) (z : Lzw) : (writeEntry p c z).lstate = z.lstate := rfl
@[simp] theorem lzwInitUnit_ln (n : BitVec 6) (z : Lzw) : (lzwInitUnit n z).ln = n := rfl
@[simp] theorem lzwInitUnit_next (n : BitVec 6) (z : Lzw) : (lzwInitUnit n z).next = 256 := rfl
@[simp] theorem lzwInitUnit_dict (n : BitVec 6) (z : Lzw) : (lzwInitUnit n z).dict = z.dict := rfl
@[simp] theorem lzwInitUnit_resets (n : BitVec 6) (z : Lzw) : (lzwInitUnit n z).resets = 0 := rfl
@[simp] theorem lzwInitUnit_lstate (n : BitVec 6) (z : Lzw) : (lzwInitUnit n z).lstate = .ready := rfl

end Sys2Proof.Machine
end

