-- ==== Sys2Proof/Laws/Engine.lean ====
section
/-! SUPPORT. The engine step as the finish of a run, what a finish is, and everything a step can be. -/

namespace Sys2Proof.Machine

/-! ## Runs and their finish -/

/-- The engine step of a command is the finish of its pseudocode. -/
theorem exec_eq_finish (i : Instr) (s : State) : exec i s = (runCommand i s).finish s := by cases i <;> rfl

@[simp] theorem finish_ok (s t : State) : (Run.ok t).finish s = .next (complete t) := rfl

@[simp] theorem finish_raise (s t : State) (code : ErrCode) (info : Word) :
    (Run.raise code info t).finish s = .next (raiseError code info t) := rfl

@[simp] theorem finish_wait (s : State) (b : Stream) : (Run.wait b).finish s = .next s := rfl

@[simp] theorem finish_fault (s : State) (f : Fault) : (Run.fault f).finish s = .fault f := rfl

/-- Everything a command's engine step to a next state can be. -/
theorem exec_next_cases {i : Instr} {s t : State} (h : exec i s = .next t) :
    (∃ u, runCommand i s = .ok u ∧ t = complete u) ∨
    (∃ code info u, runCommand i s = .raise code info u ∧ t = raiseError code info u) ∨
    (∃ b, runCommand i s = .wait b ∧ t = s) := by
  rw [exec_eq_finish] at h
  cases hr : runCommand i s with
  | ok u => rw [hr] at h; cases h; exact .inl ⟨u, rfl, rfl⟩
  | raise c n u => rw [hr] at h; cases h; exact .inr (.inl ⟨c, n, u, rfl, rfl⟩)
  | wait b => rw [hr] at h; cases h; exact .inr (.inr ⟨b, rfl, rfl⟩)
  | fault f => rw [hr] at h; cases h

theorem checkPre_true {pre : Bool} {s : State} {body : Run} (h : pre = true) : checkPre pre s body = body := by
  simp [checkPre, h]

theorem checkPre_false {pre : Bool} {s : State} {body : Run} (h : pre = false) :
    checkPre pre s body = .raise .eSeq s.curCmd s := by simp [checkPre, h]

/-! ## The engine step -/

theorem engineStep_ok {s : State} {i : Instr} (h : decode s.curCmd = .ok i) : engineStep s = exec i s := by
  simp [engineStep, h]

theorem engineStep_error {s : State} {e : Illegal} (h : decode s.curCmd = .error e) :
    engineStep s = .next (raiseError .eCmd s.curCmd s) := by
  simp [engineStep, h, runIllegal]

/-! ## The register window -/

/-- An address in the window has its offset. -/
theorem windowOffset_base_add (p : Params) {off : Nat} (h : off < 64) : windowOffset p (p.base + off) = some off := by
  simp [windowOffset, h]

theorem windowOffset_outside {p : Params} {addr : Nat} (h : addr < p.base ∨ p.base + 64 ≤ addr) :
    windowOffset p addr = none := by
  simp only [windowOffset]
  rw [if_neg (by omega)]

/-- An address with an offset lies that far above BASE. -/
theorem addr_of_windowOffset {p : Params} {addr off : Nat} (h : windowOffset p addr = some off) :
    addr = p.base + off ∧ off < 64 := by
  simp only [windowOffset] at h
  split at h
  · cases h; omega
  · cases h

/-- The sixteen legal offsets. -/
theorem offset_cases {off : Nat} (h : off < 64) (h4 : off % 4 = 0) :
    off = 0x00 ∨ off = 0x04 ∨ off = 0x08 ∨ off = 0x0C ∨ off = 0x10 ∨ off = 0x14 ∨ off = 0x18 ∨ off = 0x1C ∨
    off = 0x20 ∨ off = 0x24 ∨ off = 0x28 ∨ off = 0x2C ∨ off = 0x30 ∨ off = 0x34 ∨ off = 0x38 ∨ off = 0x3C := by omega

/-- The register CTRL is reached at offset 0 alone, with an access of 4 bytes. -/
theorem accessedReg_ctrl {off size : Nat} (h : accessedReg off size = some .ctrl) : off = 0 ∧ size = 4 := by
  unfold accessedReg at h
  split at h
  · rename_i h4
    refine ⟨?_, h4⟩
    unfold regAtOffset at h
    split at h <;> first | rfl | cases h
  · cases h

/-- A read leaves the state as it is, but for a free value drawn. -/
theorem readReg_state (r : Reg) (s : State) :
    (readReg r s).2 = s ∨ (readReg r s).2 = { s with draws := s.draws + 1 } := by
  unfold readReg
  split
  · exact .inr rfl
  · exact .inl rfl

theorem windowRead_state (off size : Nat) (s : State) :
    (windowRead off size s).2 = s ∨ (windowRead off size s).2 = { s with draws := s.draws + 1 } := by
  unfold windowRead
  split
  · exact readReg_state _ s
  · exact .inl rfl

/-- Everything a soft reset can be (70_reset_and_hazards.md R352, R353). -/
theorem softReset_cases (ie : Bool) (s : State) :
    (s.busy = false ∧ softReset ie s = softResetTo ie s.bs.inp s.bs.out s) ∨
    (s.busy = true ∧ ∃ rest n m, n ≤ wouldTake (pushTokens rest s) ∧ n ≤ s.bs.inp.length ∧
      m ≤ (wouldPut (pushTokens rest s)).length ∧
      softReset ie s =
        softResetTo ie (s.bs.inp.drop n) (s.bs.out ++ (wouldPut (pushTokens rest s)).take m) { s with draws := s.draws + 1 }) := by
  unfold softReset
  by_cases h : s.busy = true
  · rw [if_pos h]
    exact .inr ⟨h, _, _, _, Nat.le_trans (Nat.min_le_right _ _) (Nat.min_le_left _ _),
      Nat.le_trans (Nat.min_le_right _ _) (Nat.min_le_right _ _), Nat.min_le_right _ _, rfl⟩
  · rw [if_neg h]
    exact .inl ⟨by simpa using h, rfl⟩

/-- What a register write can do to the core. -/
inductive Written (s : State) : State → Prop where
  | same : Written s s
  | ie (v : Bool) : Written s { s with ie := v }
  | dictBits (v : BitVec 6) : Written s { s with dictBits := v }
  | arg (v : Word) : Written s { s with arg := v }
  | flags (d o : Bool) (hd : d = true → s.done = true) : Written s { s with done := d, ovr := o }
  | dropped : Written s (dropCommand s)
  | taken (c : Word) (hb : s.busy = false) (he : s.err = .none) : Written s (takeCommand c s)
  | reset (ie : Bool) (inp out : List Token) (d : Nat) : Written s (softResetTo ie inp out { s with draws := d })

theorem writeReg_written (r : Reg) (v : Word) (s : State) : Written s (writeReg r v s) := by
  cases r with
  | ctrl =>
    unfold writeReg
    dsimp only
    split
    · rcases softReset_cases (v.getLsbD 1) s with ⟨_, e⟩ | ⟨_, _, n, m, _, _, _, e⟩
      · rw [e]; exact .reset _ _ _ s.draws
      · rw [e]; exact .reset _ _ _ _
    · exact .ie _
  | cfg => exact .dictBits _
  | cmd =>
    unfold writeReg
    dsimp only [acceptCommand]
    split
    · exact .dropped
    · rename_i hb
      split
      · exact .dropped
      · rename_i he
        exact .taken v (by simpa using hb) (by simpa using he)
  | arg => exact .arg _
  | status => exact .flags _ _ (by intro h; simp at h; exact h.1)
  | _ => exact .same

/-! ## Everything a step can be -/

/-- The core after a host operation, but for the host's own side. -/
inductive HostMoved (s : State) : State → Prop where
  | same : HostMoved s s
  | drawn : HostMoved s { s with draws := s.draws + 1 }
  | written (t : State) (h : Written s t) : HostMoved s t
  | pushed (tok : Token) : HostMoved s (pushTokens [tok] s)
  | popped (n : Nat) : HostMoved s (s.withBs { s.bs with out := s.bs.out.drop n })
  | hardReset : HostMoved s (hardResetCore s)

/-- Everything a host operation to a next state can be. -/
theorem hostStep_cases {op : HostOp} {s t : State} (h : hostStep op s = .next t) :
    t = s ∨ ∃ u, HostMoved s u ∧ ∃ g, t = { u with host := g } := by
  cases op with
  | memRead addr size =>
    simp only [hostStep] at h
    split at h
    · cases h
    · rename_i off _
      cases h
      right
      rcases windowRead_state off size s with e | e
      · exact ⟨s, .same, _, by rw [e]; rfl⟩
      · exact ⟨_, .drawn, _, by rw [e]; rfl⟩
  | memWrite addr size v =>
    simp only [hostStep] at h
    split at h
    · cases h
    · rename_i off _
      cases h
      right
      unfold windowWrite
      split
      · exact ⟨_, .written _ (writeReg_written _ v s), _, rfl⟩
      · exact ⟨s, .same, _, rfl⟩
  | inPush tok => cases h; exact .inr ⟨_, .pushed tok, _, rfl⟩
  | outPop =>
    simp only [hostStep] at h
    split at h
    · cases h; exact .inl rfl
    · rename_i tok ts ho
      cases h
      refine .inr ⟨_, .popped 1, (advance (observe [.token tok] (withOut ts s))).host, ?_⟩
      rw [ho]
      rfl
  | outPopAll =>
    cases h
    refine .inr ⟨_, .popped s.bs.out.length, (advance (observe (s.bs.out.map .token) (withOut [] s))).host, ?_⟩
    rw [List.drop_length]
    rfl
  | waitIdle =>
    simp only [hostStep] at h
    split at h
    · cases h; exact .inl rfl
    · cases h; exact .inr ⟨s, .same, _, rfl⟩
  | hardReset => cases h; exact .inr ⟨_, .hardReset, _, rfl⟩

/-- Everything a step to a next state can be: nothing, a host operation, or the engine step of the accepted word; the state
it starts from is `s`, or `s` with a free value drawn. -/
theorem step_cases {s t : State} (h : step s = .next t) :
    t = s ∨
    (∃ op s₀, nextOp s = some op ∧ (s₀ = s ∨ s₀ = { s with draws := s.draws + 1 }) ∧ hostStep op s₀ = .next t) ∨
    (∃ s₀, s.busy = true ∧ (s₀ = s ∨ s₀ = { s with draws := s.draws + 1 }) ∧ engineStep s₀ = .next t) := by
  unfold step whoseTurn at h
  cases hn : nextOp s with
  | none =>
    simp only [hn, engineTurn] at h
    cases hb : s.busy with
    | false => simp [hb] at h; exact .inl h.symm
    | true => simp [hb] at h; exact .inr (.inr ⟨s, rfl, .inl rfl, h⟩)
  | some op =>
    simp only [hn] at h
    cases he : engineEnabled s with
    | false => simp [he] at h; exact .inr (.inl ⟨op, s, rfl, .inl rfl, h⟩)
    | true =>
      have hb : s.busy = true := by simp only [engineEnabled, Bool.and_eq_true] at he; exact he.1
      cases ho : opEnabled op s with
      | false => simp [he, ho, engineTurn, hb] at h; exact .inr (.inr ⟨s, hb, .inl rfl, h⟩)
      | true =>
        simp only [he, ho, if_true] at h
        cases hf : Config.engineFirst s.draws with
        | false => simp [hf] at h; exact .inr (.inl ⟨op, _, rfl, .inr rfl, h⟩)
        | true =>
          rw [hf] at h
          simp only [if_true, engineTurn] at h
          rw [if_pos hb] at h
          exact .inr (.inr ⟨_, hb, .inr rfl, h⟩)

end Sys2Proof.Machine
end

