-- ==== Sys2Proof/Laws/Stream.lean ====
section
/-! SUPPORT. What each bit-stream primitive does, said once over bit strings: `Wrote` and `Closed` for the packer, `Took`
for the unpacker. -/

namespace Sys2Proof.Machine

/-! ## Bit strings and numbers -/

@[simp] theorem natBits_length (w v : Nat) : (natBits w v).length = w := by
  induction w with
  | zero => rfl
  | succ w ih => simp [natBits, ih]

@[simp] theorem byteBits_length (c : Byte) : (byteBits c).length = 8 := natBits_length 8 _

@[simp] theorem bytesBits_length (xs : List Byte) : (bytesBits xs).length = 8 * xs.length := by
  induction xs with
  | nil => rfl
  | cons x xs ih => simp only [bytesBits, List.flatMap_cons, List.length_append, byteBits_length, List.length_cons] at *; omega

@[simp] theorem bytesBits_nil : bytesBits [] = [] := rfl

@[simp] theorem bytesBits_cons (x : Byte) (xs : List Byte) : bytesBits (x :: xs) = byteBits x ++ bytesBits xs := rfl

@[simp] theorem bytesBits_append (xs ys : List Byte) : bytesBits (xs ++ ys) = bytesBits xs ++ bytesBits ys := by
  simp [bytesBits]

@[simp] theorem pendingBits_length (b : Stream) : (pendingBits b).length = b.wcnt.val := natBits_length _ _

@[simp] theorem unreadBits_length (b : Stream) : (unreadBits b).length = b.rcnt.val := natBits_length _ _

theorem bitsToNat_foldl (acc : Nat) (l : List Bool) :
    l.foldl (fun acc b => 2 * acc + b.toNat) acc = acc * 2 ^ l.length + bitsToNat l := by
  induction l generalizing acc with
  | nil => simp [bitsToNat]
  | cons x l ih =>
    rw [bitsToNat, List.foldl_cons, List.foldl_cons, ih, ih (2 * 0 + x.toNat), List.length_cons, Nat.pow_succ]
    ring

@[simp] theorem bitsToNat_nil : bitsToNat [] = 0 := rfl

theorem bitsToNat_cons (x : Bool) (l : List Bool) : bitsToNat (x :: l) = x.toNat * 2 ^ l.length + bitsToNat l := by
  rw [bitsToNat, List.foldl_cons, bitsToNat_foldl]; simp

theorem bitsToNat_append (l m : List Bool) : bitsToNat (l ++ m) = bitsToNat l * 2 ^ m.length + bitsToNat m := by
  rw [bitsToNat, List.foldl_append, bitsToNat_foldl]; rfl

theorem bitsToNat_lt (l : List Bool) : bitsToNat l < 2 ^ l.length := by
  induction l with
  | nil => simp
  | cons x l ih =>
    rw [bitsToNat_cons, List.length_cons, Nat.pow_succ]
    cases x <;> simp <;> omega

/-- A number written in `w` bits and read back is its remainder modulo 2^w. -/
theorem bitsToNat_natBits (w v : Nat) : bitsToNat (natBits w v) = v % 2 ^ w := by
  induction w with
  | zero => simp [natBits, Nat.mod_one]
  | succ w ih =>
    rw [natBits, bitsToNat_cons, ih, natBits_length, Nat.toNat_testBit, Nat.pow_succ, Nat.mod_mul]
    ring

theorem natBits_congr {w v v' : Nat} (h : v % 2 ^ w = v' % 2 ^ w) : natBits w v = natBits w v' := by
  induction w with
  | zero => rfl
  | succ w ih =>
    have ht : v.testBit w = v'.testBit w := by
      have := congrArg (fun x => x.testBit w) h
      simpa [Nat.testBit_mod_two_pow] using this
    have hm : v % 2 ^ w = v' % 2 ^ w := by
      have := congrArg (· % 2 ^ w) h
      simpa [Nat.mod_mod_of_dvd, Nat.pow_succ] using this
    rw [natBits, natBits, ht, ih hm]

theorem natBits_mod (w v : Nat) : natBits w (v % 2 ^ w) = natBits w v := natBits_congr (Nat.mod_mod _ _)

/-- A bit string is the bits of its number. -/
theorem natBits_bitsToNat (l : List Bool) : natBits l.length (bitsToNat l) = l := by
  induction l with
  | nil => rfl
  | cons x l ih =>
    have h : natBits l.length (bitsToNat (x :: l)) = l := by
      rw [bitsToNat_cons, natBits_congr (v' := bitsToNat l), ih]
      simp
    have ht : (bitsToNat (x :: l)).testBit l.length = x := by
      rw [bitsToNat_cons]
      have hlt := bitsToNat_lt l
      rw [Nat.mul_comm, Nat.testBit_two_pow_mul_add _ hlt]
      cases x <;> simp
    rw [List.length_cons, natBits, ht, h]

theorem natBits_append (a b v : Nat) : natBits (a + b) v = natBits a (v / 2 ^ b) ++ natBits b v := by
  induction a with
  | zero => simp [natBits]
  | succ a ih =>
    rw [show a + 1 + b = (a + b) + 1 by omega, natBits, natBits, ih, List.cons_append, Nat.testBit_div_two_pow]

theorem natBits_snoc (w v : Nat) (r : Bool) : natBits (w + 1) (2 * v + r.toNat) = natBits w v ++ [r] := by
  have h1 : (2 * v + r.toNat) / 2 = v := by have := Bool.toNat_lt r; omega
  rw [natBits_append w 1, Nat.pow_one, h1]
  cases r <;> simp [natBits]

/-- A counter stepped once and then by `n` is stepped by `n + 1` (10_state.md R58: modulo 2^32). -/
theorem counter_succ (x : Word) (n : Nat) : x + 1 + BitVec.ofNat 32 n = x + BitVec.ofNat 32 (n + 1) := by
  rw [BitVec.add_assoc, Nat.add_comm n 1, BitVec.ofNat_add]
  rfl

/-! ## Writing -/

theorem append_ofBool_toNat (x : BitVec 7) (r : Bool) : (x ++ BitVec.ofBool r).toNat = 2 * x.toNat + r.toNat := by
  revert x r; decide

theorem wrote_refl (b : Stream) (h : PackerOk b) : Wrote [] b b := ⟨[], by simp, by simp, h⟩

theorem Wrote.packerOk {bits : List Bool} {b b' : Stream} (h : Wrote bits b b') : PackerOk b' := by
  obtain ⟨_, _, _, h⟩ := h
  exact h

theorem Wrote.trans {xs ys : List Bool} {b b' b'' : Stream} (h : Wrote xs b b') (h' : Wrote ys b' b'') :
    Wrote (xs ++ ys) b b'' := by
  obtain ⟨ps, e, hb, _⟩ := h
  obtain ⟨qs, e', hb', ho'⟩ := h'
  refine ⟨ps ++ qs, ?_, ?_, ho'⟩
  · rw [e', e]
    simp [BitVec.ofNat_add, BitVec.add_assoc]
  · rw [bytesBits_append, List.append_assoc, hb', ← List.append_assoc, hb, List.append_assoc]

/-- WriteBit writes one bit. -/
theorem writeBit_wrote (r : Bool) (b : Stream) (h : PackerOk b) : Wrote [r] b (writeBit r b) := by
  unfold PackerOk at h
  unfold writeBit
  have hw := b.wcnt.isLt
  split
  · rename_i h7
    have hv : b.wcnt.val = 7 := by rw [h7]; rfl
    refine ⟨[b.wbuf ++ BitVec.ofBool r], ?_, ?_, ?_⟩
    · simp [outPut]
    · simp only [bytesBits_cons, bytesBits_nil, pendingBits, byteBits, append_ofBool_toNat, hv]
      exact natBits_snoc 7 _ r
    · simp [PackerOk]
  · rename_i h7
    have hlt : b.wcnt.val < 7 := by
      have : b.wcnt.val ≠ 7 := fun e => h7 (Fin.ext e)
      omega
    have hs : (b.wcnt + 1).val = b.wcnt.val + 1 := by
      rw [Fin.val_add]
      exact Nat.mod_eq_of_lt (by simp; omega)
    have hb : b.wbuf.toNat < 64 := by
      refine Nat.lt_of_lt_of_le h ?_
      calc 2 ^ b.wcnt.val ≤ 2 ^ 6 := Nat.pow_le_pow_right (by omega) (by omega)
        _ = 64 := rfl
    have hn : ((b.wbuf ++ BitVec.ofBool r).extractLsb' 0 7).toNat = 2 * b.wbuf.toNat + r.toNat := by
      rw [BitVec.extractLsb'_toNat, append_ofBool_toNat, Nat.shiftRight_zero]
      apply Nat.mod_eq_of_lt
      cases r <;> simp <;> omega
    refine ⟨[], ?_, ?_, ?_⟩
    · simp
    · simp only [bytesBits_nil, pendingBits, hs, List.nil_append]
      show natBits _ ((b.wbuf ++ BitVec.ofBool r).extractLsb' 0 7).toNat = _
      rw [hn]
      exact natBits_snoc _ _ r
    · show ((b.wbuf ++ BitVec.ofBool r).extractLsb' 0 7).toNat < 2 ^ (b.wcnt + 1).val
      rw [hn, hs, Nat.pow_succ]
      cases r <;> simp <;> omega

/-- A bit string is written bit by bit. -/
theorem writeBools_wrote (bits : List Bool) (b : Stream) (h : PackerOk b) : Wrote bits b (writeBools bits b) := by
  induction bits generalizing b with
  | nil => exact wrote_refl b h
  | cons r rs ih => exact (writeBit_wrote r b h).trans (ih _ (writeBit_wrote r b h).packerOk)

theorem writeBits_eq_writeBools (v w : Nat) (b : Stream) : writeBits v w b = writeBools (natBits w v) b := by
  induction w generalizing b with
  | zero => rfl
  | succ w ih => rw [writeBits, ih, natBits, writeBools]

/-- WriteBits writes the low `w` bits, most significant first (41_bitstream.md R143). -/
theorem writeBits_wrote (v w : Nat) (b : Stream) (h : PackerOk b) : Wrote (natBits w v) b (writeBits v w b) := by
  rw [writeBits_eq_writeBools]; exact writeBools_wrote _ b h

/-- How many bits are pending after a write. -/
theorem Wrote.wcnt {bits : List Bool} {b b' : Stream} (h : Wrote bits b b') :
    b'.wcnt.val = (b.wcnt.val + bits.length) % 8 := by
  obtain ⟨xs, _, hb, _⟩ := h
  have := congrArg List.length hb
  simp only [List.length_append, bytesBits_length, pendingBits_length] at this
  have := b'.wcnt.isLt
  omega

theorem writeBools_append (xs ys : List Bool) (b : Stream) :
    writeBools (xs ++ ys) b = writeBools ys (writeBools xs b) := by
  induction xs generalizing b with
  | nil => rfl
  | cons x xs ih => simp [writeBools, ih]

theorem writeBit_wcnt (r : Bool) (b : Stream) : (writeBit r b).wcnt.val = (b.wcnt.val + 1) % 8 := by
  unfold writeBit
  split
  · rename_i h; simp [h]
  · rename_i h
    show (b.wcnt + 1).val = _
    rw [Fin.val_add]; rfl

/-- Align's loop writes exactly the zero bits that reach a byte boundary, given enough turns. -/
theorem alignLoop_eq (n : Nat) (b : Stream) (h : padding b.wcnt.val ≤ n) :
    alignLoop n b = writeBools (List.replicate (padding b.wcnt.val) false) b := by
  induction n generalizing b with
  | zero =>
    have : padding b.wcnt.val = 0 := by omega
    rw [this]; rfl
  | succ n ih =>
    unfold alignLoop
    have hw := b.wcnt.isLt
    split
    · rename_i h0
      have : padding b.wcnt.val = 0 := by rw [h0]; rfl
      rw [this]; rfl
    · rename_i h0
      have hne : b.wcnt.val ≠ 0 := fun e => h0 (Fin.ext e)
      have hp : padding b.wcnt.val = padding (writeBit false b).wcnt.val + 1 := by
        rw [writeBit_wcnt]; unfold padding; omega
      rw [ih _ (by omega), hp, List.replicate_succ, writeBools]

theorem align_eq (b : Stream) : align b = writeBools (List.replicate (padding b.wcnt.val) false) b :=
  alignLoop_eq 7 b (by have := b.wcnt.isLt; unfold padding; omega)

/-- Align writes the padding and nothing else. -/
theorem align_wrote (b : Stream) (h : PackerOk b) :
    Wrote (List.replicate (padding b.wcnt.val) false) b (align b) := by
  rw [align_eq]; exact writeBools_wrote _ b h

theorem align_wcnt (b : Stream) (h : PackerOk b) : (align b).wcnt = 0 := by
  have := (align_wrote b h).wcnt
  apply Fin.ext
  rw [this, List.length_replicate]
  have := b.wcnt.isLt
  show _ = 0
  unfold padding; omega

theorem align_wbuf (b : Stream) (h : PackerOk b) : (align b).wbuf = 0 := by
  have h1 := (align_wrote b h).packerOk
  unfold PackerOk at h1
  rw [align_wcnt b h] at h1
  apply BitVec.eq_of_toNat_eq
  simpa using h1

/-- After writing `bits`, Align closes the byte. -/
theorem closed_align {bits : List Bool} {b b' : Stream} (h : Wrote bits b b') : Closed false bits b (align b') := by
  have hp := h.packerOk
  have hw := h.wcnt
  obtain ⟨xs, e, hb, _⟩ := h.trans (align_wrote b' hp)
  refine ⟨xs, ?_, ?_⟩
  · rw [e, align_wcnt b' hp, align_wbuf b' hp]; simp
  · have h0 : pendingBits (align b') = [] := by
      apply List.eq_nil_of_length_eq_zero
      rw [pendingBits_length, align_wcnt b' hp]; rfl
    rw [h0, List.append_nil] at hb
    rw [hb, hw, ← List.append_assoc]
    congr 2
    unfold padding; omega

/-- After writing `bits`, Finalize closes the byte and puts End. -/
theorem closed_finalize {bits : List Bool} {b b' : Stream} (h : Wrote bits b b') : Closed true bits b (finalize b') := by
  obtain ⟨xs, e, hb⟩ := closed_align h
  refine ⟨xs, ?_, hb⟩
  unfold finalize outPut
  rw [e]
  simp

/-! ## Reading -/

theorem took_refl (b : Stream) : Took 0 b b := ⟨[], by simp, by simp, by simp, by simp, .inl rfl⟩

theorem Took.trans {m n : Nat} {b b' b'' : Stream} (h : Took m b b') (h' : Took n b' b'') : Took (m + n) b b'' := by
  obtain ⟨xs, e1, e2, e3, e4, e5⟩ := h
  obtain ⟨ys, f1, f2, f3, f4, f5⟩ := h'
  refine ⟨xs ++ ys, ?_, ?_, ?_, ?_, ?_⟩
  · rw [e1, f1]; simp
  · rw [f2, e2]
    simp only [List.getLast?_append, List.length_append, BitVec.ofNat_add, BitVec.add_assoc]
    cases ys.getLast? <;> simp
  · rw [f3, e3, List.drop_drop]
  · omega
  · rcases f5 with rfl | f5
    · rcases e5 with rfl | e5
      · exact .inl rfl
      · right
        simp only [List.map_nil, List.nil_append] at f1
        simp only [available, f1] at f4
        omega
    · exact .inr f5

theorem Took.eodf {n : Nat} {b b' : Stream} (h : Took n b b') : b'.eodf = b.eodf := by
  obtain ⟨_, _, e, _⟩ := h
  rw [e]

theorem Took.inClosed {n : Nat} {b b' : Stream} (h : Took n b b') : inClosed b' = inClosed b := by
  have he := h.eodf
  obtain ⟨xs, e, _⟩ := h
  simp only [Machine.inClosed, he, e]
  congr 1
  simp

theorem unreadBits_takeBit (b : Stream) (h : b.rcnt ≠ 0) :
    unreadBits b = b.rbuf.getLsbD (b.rcnt.val - 1) ::
      unreadBits { b with rcnt := ⟨b.rcnt.val - 1, by omega⟩ } := by
  have hne : b.rcnt.val ≠ 0 := fun e => h (Fin.ext e)
  obtain ⟨n, hn⟩ : ∃ n, b.rcnt.val = n + 1 := ⟨b.rcnt.val - 1, by omega⟩
  simp [unreadBits, hn, natBits, BitVec.getLsbD]

theorem takeBit_took (b : Stream) (h : b.rcnt ≠ 0) :
    ∃ x b', takeBit b = .ok x b' ∧ inBits b = x :: inBits b' ∧ Took 1 b b' := by
  have hne : b.rcnt.val ≠ 0 := fun e => h (Fin.ext e)
  have hu := unreadBits_takeBit b h
  refine ⟨_, _, rfl, ?_, [], ?_, ?_, ?_, ?_, .inl rfl⟩
  · simp only [inBits, hu, List.cons_append]
  · simp
  · simp
  · simp only [inBits, hu, List.cons_append, List.drop_succ_cons, List.drop_zero]
  · simp only [available]; omega

/-- ReadBit delivers the next bit of the current input stream, where there is one. -/
theorem readBit_ok {b : Stream} {x : Bool} {r : List Bool} (h : inBits b = x :: r) :
    ∃ b', readBit b = .ok x b' ∧ inBits b' = r ∧ Took 1 b b' := by
  unfold readBit
  split
  · rename_i h0
    have hu : unreadBits b = [] := by
      apply List.eq_nil_of_length_eq_zero
      rw [unreadBits_length, h0]; rfl
    cases he : b.eodf with
    | true => simp [inBits, hu, he] at h
    | false =>
      match hi : b.inp with
      | [] => simp [inBits, hu, he, hi, leadingBytes] at h
      | .stop :: _ => simp [inBits, hu, he, hi, leadingBytes] at h
      | .byte c :: rest =>
        have hin : inBits (refill c rest b) = inBits b := by
          rw [inBits, inBits, hu]
          simp [he, hi, leadingBytes, unreadBits, byteBits]
        obtain ⟨y, b', e, hb, xs, e1, e2, e3, e4, e5⟩ := takeBit_took (refill c rest b) (by simp)
        rw [hin, h] at hb
        injection hb with hxy hr
        subst hxy
        refine ⟨b', by simpa using e, hr.symm, c :: xs, ?_, ?_, ?_, ?_, ?_⟩
        · simpa [hi] using e1
        · rw [e2, refill_cntIn, counter_succ, refill_rbuf, List.getLast?_cons]
          rfl
        · rw [e3, hin]
        · simp only [available, refill_inp, refill_rcnt, hi, h0, List.length_cons] at e4 ⊢
          simp at e4 ⊢
          omega
        · right
          rcases e5 with rfl | e5
          · simp only [List.map_nil, List.nil_append] at e1
            simp only [available, refill_inp, refill_rcnt, ← e1] at e4
            simp at e4
            omega
          · exact e5
  · rename_i h0
    obtain ⟨y, b', e, hb, ht⟩ := takeBit_took b h0
    rw [h] at hb
    injection hb with hxy hr
    subst hxy
    exact ⟨b', e, hr.symm, ht⟩

/-- The bit stream after its End has been met. -/
def atEnd (b : Stream) : Stream := { b with inp := if b.eodf then b.inp else b.inp.drop 1, eodf := true }

theorem inBits_eq_nil {b : Stream} (h : inBits b = []) :
    b.rcnt = 0 ∧ (b.eodf = true ∨ leadingBytes b.inp = []) := by
  unfold inBits at h
  rw [List.append_eq_nil_iff] at h
  constructor
  · apply Fin.ext
    rw [← unreadBits_length, h.1]; rfl
  · cases he : b.eodf with
    | true => simp
    | false =>
      right
      have h2 := h.2
      rw [he] at h2
      have hl := congrArg List.length h2
      rw [if_neg (by simp), bytesBits_length] at hl
      apply List.eq_nil_of_length_eq_zero
      simp at hl
      simp [hl]

/-- With no bit left, ReadBit meets the End, or waits for a token. -/
theorem readBit_end {b : Stream} (h : inBits b = []) :
    readBit b = if inClosed b then .eod (atEnd b) else .wait b := by
  obtain ⟨h0, h1⟩ := inBits_eq_nil h
  unfold readBit
  rw [if_pos h0]
  cases he : b.eodf with
  | true => simp only [inClosed, he, Bool.true_or, if_true, atEnd]; congr; cases b; simp_all
  | false =>
    rcases h1 with h1 | h1
    · simp [he] at h1
    · match hi : b.inp with
      | [] => simp [inClosed, he, hi]
      | .stop :: rest => simp [inClosed, he, hi, atEnd]
      | .byte c :: rest => simp [hi, leadingBytes] at h1

theorem readBitsFrom_ok {w acc : Nat} {b : Stream} (h : w ≤ (inBits b).length) :
    ∃ b', readBitsFrom w acc b = .ok (acc * 2 ^ w + bitsToNat ((inBits b).take w)) b' ∧ Took w b b' := by
  induction w generalizing acc b with
  | zero => exact ⟨b, by simp [readBitsFrom], took_refl b⟩
  | succ w ih =>
    match hi : inBits b with
    | [] => rw [hi] at h; simp at h
    | x :: r =>
      obtain ⟨b₁, e, hr, ht⟩ := readBit_ok hi
      have hlen : w ≤ (inBits b₁).length := by rw [hr]; rw [hi] at h; simpa using h
      obtain ⟨b', e', ht'⟩ := ih (acc := 2 * acc + x.toNat) hlen
      refine ⟨b', ?_, by rw [Nat.add_comm]; exact ht.trans ht'⟩
      rw [readBitsFrom, e]
      simp only
      rw [e', hr, List.take_succ_cons, bitsToNat_cons, List.length_take, Nat.min_eq_left (by rw [← hr]; exact hlen)]
      congr 1
      rw [Nat.pow_succ]; ring

/-- ReadBits(w) with `w` bits at hand delivers them as a number, first bit most significant (41_bitstream.md R142). -/
theorem readBits_ok {w : Nat} {b : Stream} (h : w ≤ (inBits b).length) :
    ∃ b', readBits w b = .ok (bitsToNat ((inBits b).take w)) b' ∧ Took w b b' := by
  obtain ⟨b', e, ht⟩ := readBitsFrom_ok (acc := 0) h
  exact ⟨b', by simpa [readBits] using e, ht⟩

theorem readBitsFrom_end {w acc : Nat} {b : Stream} (h : (inBits b).length < w) :
    ∃ b', Took (inBits b).length b b' ∧ inBits b' = [] ∧
      readBitsFrom w acc b = if inClosed b then .eod (atEnd b') else .wait b' := by
  induction w generalizing acc b with
  | zero => simp at h
  | succ w ih =>
    match hi : inBits b with
    | [] =>
      refine ⟨b, by simpa using took_refl b, hi, ?_⟩
      rw [readBitsFrom, readBit_end hi]
      cases inClosed b <;> simp
    | x :: r =>
      obtain ⟨b₁, e, hr, ht⟩ := readBit_ok hi
      have hlen : (inBits b₁).length < w := by rw [hr]; rw [hi] at h; simpa using h
      obtain ⟨b', ht', hn, e'⟩ := ih (acc := 2 * acc + x.toNat) hlen
      refine ⟨b', ?_, hn, ?_⟩
      · rw [hr] at ht'
        rw [List.length_cons, Nat.add_comm]
        exact ht.trans ht'
      · rw [readBitsFrom, e]
        simp only
        rw [e', ht.inClosed]

/-- ReadBits(w) with fewer than `w` bits at hand takes them all and meets the End, or waits (R142, 20_memory.md R76). -/
theorem readBits_end {w : Nat} {b : Stream} (h : (inBits b).length < w) :
    ∃ b', Took (inBits b).length b b' ∧ inBits b' = [] ∧
      readBits w b = if inClosed b then .eod (atEnd b') else .wait b' := readBitsFrom_end h

/-- A whole byte read from a byte boundary. -/
theorem readBits_byte {b : Stream} {c : Byte} {rest : List Token} (h0 : b.rcnt = 0) (he : b.eodf = false)
    (hi : b.inp = .byte c :: rest) :
    readBits 8 b = .ok c.toNat { b with inp := rest, rbuf := c, rcnt := 0, cntIn := b.cntIn + 1 } := by
  have hu : unreadBits b = [] := by
    apply List.eq_nil_of_length_eq_zero
    rw [unreadBits_length, h0]; rfl
  have hin : inBits b = byteBits c ++ bytesBits (leadingBytes rest) := by simp [inBits, hu, he, hi, leadingBytes]
  have hc : c = BitVec.ofNat 8 c.toNat := by simp
  have hlt := c.isLt
  revert hlt
  rw [readBits]
  simp only [readBitsFrom, readBit, h0, he, hi, takeBit, refill, if_true, Bool.false_eq_true, if_false]
  intro _
  have key : ∀ c : Byte, 2 * (2 * (2 * (2 * (2 * (2 * (2 * (2 * 0 + (c.getLsbD 7).toNat) + (c.getLsbD 6).toNat) +
      (c.getLsbD 5).toNat) + (c.getLsbD 4).toNat) + (c.getLsbD 3).toNat) + (c.getLsbD 2).toNat) + (c.getLsbD 1).toNat) +
      (c.getLsbD 0).toNat = c.toNat := by decide
  have k := key c
  simp at k ⊢
  exact k

/-- The End met from a byte boundary. -/
theorem readBits_stop {w : Nat} {b : Stream} {rest : List Token} (h0 : b.rcnt = 0) (he : b.eodf = false)
    (hi : b.inp = .stop :: rest) :
    readBits (w + 1) b = .eod { b with inp := rest, eodf := true } := by
  simp [readBits, readBitsFrom, readBit, h0, he, hi]

/-- Drain takes the rest of the stream through its End (41_bitstream.md R149). -/
theorem drainFrom_eq (ts : List Token) (b : Stream) :
    drainFrom ts b =
      if ts.contains .stop then
        .ok () { b with inp := (ts.dropWhile (· != .stop)).drop 1, eodf := true,
                        cntIn := b.cntIn + BitVec.ofNat 32 (leadingBytes ts).length }
      else .wait { b with inp := [], cntIn := b.cntIn + BitVec.ofNat 32 ts.length } := by
  induction ts generalizing b with
  | nil => simp [drainFrom]
  | cons t ts ih =>
    cases t with
    | stop => simp [drainFrom, leadingBytes]
    | byte c =>
      rw [drainFrom, ih]
      simp only [counter_succ]
      simp [leadingBytes]

/-! ## The End -/

theorem leadingBytes_bytes_append (xs : List Byte) (ts : List Token) :
    leadingBytes (xs.map Token.byte ++ ts) = xs ++ leadingBytes ts := by
  induction xs with
  | nil => rfl
  | cons x xs ih => simp [leadingBytes, ih]

theorem dropWhile_bytes_append (xs : List Byte) (ts : List Token) :
    (xs.map Token.byte ++ ts).dropWhile (· != Token.stop) = ts.dropWhile (· != .stop) := by
  induction xs with
  | nil => rfl
  | cons x xs ih => simp

/-- With every bit taken and the End there, meeting it is `ReachedEnd`. -/
theorem reachedEnd_of_took {b b' : Stream} (h : Took (inBits b).length b b') (hc : inClosed b = true) :
    ReachedEnd b (atEnd b') := by
  obtain ⟨xs, e1, e2, e3, e4, e5⟩ := h
  rw [List.drop_length] at e3
  obtain ⟨h0, h1⟩ := inBits_eq_nil e3
  have he : b'.eodf = b.eodf := by rw [e2]
  cases hb : b.eodf with
  | true =>
    have hl : (inBits b).length = b.rcnt.val := by simp [inBits, hb]
    have hx : xs = [] := by
      have := congrArg List.length e1
      simp only [available, hl, h0, List.length_append, List.length_map] at e4 this
      apply List.eq_nil_of_length_eq_zero
      simp at e4
      omega
    subst hx
    simp only [List.map_nil, List.nil_append] at e1
    unfold ReachedEnd atEnd restAfterEnd bytesBeforeEnd
    rw [e2]
    simp [hb, e1, h0]
  | false =>
    rcases h1 with h1 | h1
    · rw [he, hb] at h1; cases h1
    · have hst : b'.inp.contains .stop = true := by
        simp only [inClosed, hb, Bool.false_or, e1] at hc
        simpa using hc
      match hi : b'.inp with
      | [] => rw [hi] at hst; simp at hst
      | .byte c :: _ => rw [hi] at h1; simp [leadingBytes] at h1
      | .stop :: rest =>
        rw [hi] at e1 h1
        unfold ReachedEnd atEnd restAfterEnd bytesBeforeEnd
        rw [e2]
        simp [hb, e1, h0, hi, leadingBytes_bytes_append, leadingBytes]

/-- Drain with the End there is `Drained`, and else waits (41_bitstream.md R149). -/
theorem drain_eq (b : Stream) :
    (inClosed b = true → ∃ b', drain b = .ok () b' ∧ Drained b b') ∧
    (inClosed b = false → ∃ b', drain b = .wait b') := by
  unfold drain Drained restAfterEnd bytesBeforeEnd
  cases hb : b.eodf with
  | true => exact ⟨fun _ => ⟨_, rfl, by simp⟩, by simp [inClosed, hb]⟩
  | false =>
    simp only [Bool.false_eq_true, if_false, drainFrom_eq]
    constructor
    · intro hc
      have : b.inp.contains .stop = true := by simpa [inClosed, hb] using hc
      rw [if_pos this]
      exact ⟨_, rfl, rfl⟩
    · intro hc
      have : b.inp.contains .stop = false := by simpa [inClosed, hb] using hc
      rw [this]
      exact ⟨_, rfl⟩

/-! ## Reads and writes do not meet -/

/-- A read's answer with a change made to the stream it leaves. -/
def Rd.mapStream {α : Type} (f : Stream → Stream) : Rd α → Rd α
  | .ok a b => .ok a (f b)
  | .eod b => .eod (f b)
  | .wait b => .wait (f b)

/-- Reader's fields replaced. -/
def Stream.withReader (b : Stream) (inp : List Token) (rbuf : Byte) (rcnt : Fin 9) (eodf : Bool) (cntIn : Word) : Stream :=
  { b with inp := inp, rbuf := rbuf, rcnt := rcnt, eodf := eodf, cntIn := cntIn }

theorem writeBit_withReader (r : Bool) (b : Stream) (inp : List Token) (rbuf : Byte) (rcnt : Fin 9) (eodf : Bool)
    (cntIn : Word) :
    writeBit r (b.withReader inp rbuf rcnt eodf cntIn) = (writeBit r b).withReader inp rbuf rcnt eodf cntIn := by
  unfold writeBit Stream.withReader outPut
  split <;> rfl

theorem writeBools_withReader (rs : List Bool) (b : Stream) (inp : List Token) (rbuf : Byte) (rcnt : Fin 9) (eodf : Bool)
    (cntIn : Word) :
    writeBools rs (b.withReader inp rbuf rcnt eodf cntIn) = (writeBools rs b).withReader inp rbuf rcnt eodf cntIn := by
  induction rs generalizing b with
  | nil => rfl
  | cons r rs ih => rw [writeBools, writeBit_withReader, ih, writeBools]

/-- What a write leaves of the reader. -/
theorem writeBools_reader (rs : List Bool) (b : Stream) :
    (writeBools rs b).inp = b.inp ∧ (writeBools rs b).rbuf = b.rbuf ∧ (writeBools rs b).rcnt = b.rcnt ∧
    (writeBools rs b).eodf = b.eodf ∧ (writeBools rs b).cntIn = b.cntIn := by
  have h := writeBools_withReader rs b b.inp b.rbuf b.rcnt b.eodf b.cntIn
  rw [show b.withReader b.inp b.rbuf b.rcnt b.eodf b.cntIn = b from rfl] at h
  rw [h]
  exact ⟨rfl, rfl, rfl, rfl, rfl⟩

theorem inBits_writeBools (rs : List Bool) (b : Stream) : inBits (writeBools rs b) = inBits b := by
  obtain ⟨h1, h2, h3, h4, _⟩ := writeBools_reader rs b
  simp only [inBits, unreadBits, h1, h2, h3, h4]

theorem inClosed_writeBools (rs : List Bool) (b : Stream) : inClosed (writeBools rs b) = inClosed b := by
  obtain ⟨h1, _, _, h4, _⟩ := writeBools_reader rs b
  simp only [inClosed, h1, h4]

theorem available_writeBools (rs : List Bool) (b : Stream) : available (writeBools rs b) = available b := by
  obtain ⟨h1, _, h3, _, _⟩ := writeBools_reader rs b
  simp only [available, h1, h3]

theorem readBit_writeBools (rs : List Bool) (b : Stream) :
    readBit (writeBools rs b) = (readBit b).mapStream (writeBools rs) := by
  obtain ⟨h1, h2, h3, h4, h5⟩ := writeBools_reader rs b
  unfold readBit
  rw [h3]
  split
  · rw [h4]
    split
    · rfl
    · rw [h1]
      split
      · rfl
      · rename_i rest _
        have := writeBools_withReader rs b rest b.rbuf b.rcnt true b.cntIn
        simp only [Rd.mapStream, Stream.withReader] at this ⊢
        rw [this, h2, h5]
      · rename_i x rest _
        have := writeBools_withReader rs b rest x ⟨7, by omega⟩ b.eodf (b.cntIn + 1)
        simp only [Rd.mapStream, Stream.withReader, takeBit, refill] at this ⊢
        simp only [h4, h5]
        refine congrArg₂ Rd.ok rfl ?_
        exact this.symm
  · have := writeBools_withReader rs b b.inp b.rbuf ⟨b.rcnt.val - 1, by omega⟩ b.eodf b.cntIn
    simp only [Rd.mapStream, Stream.withReader, takeBit] at this ⊢
    simp only [h1, h2, h3, h4, h5]
    refine congrArg₂ Rd.ok rfl ?_
    exact this.symm

theorem readBitsFrom_writeBools (w acc : Nat) (rs : List Bool) (b : Stream) :
    readBitsFrom w acc (writeBools rs b) = (readBitsFrom w acc b).mapStream (writeBools rs) := by
  induction w generalizing acc b with
  | zero => rfl
  | succ w ih =>
    unfold readBitsFrom
    rw [readBit_writeBools]
    cases readBit b with
    | ok x b' => exact ih _ _
    | eod b' => rfl
    | wait b' => rfl

/-- A read after writes is the read, then the writes. -/
theorem readBits_writeBools (w : Nat) (rs : List Bool) (b : Stream) :
    readBits w (writeBools rs b) = (readBits w b).mapStream (writeBools rs) := readBitsFrom_writeBools w 0 rs b

theorem tookBytes_nil (b : Stream) (h0 : b.rcnt = 0) (he : b.eodf = false) : tookBytes [] false b.inp b = b := by
  cases b
  simp_all [tookBytes]

theorem tookBytes_cons (x : Byte) (xs : List Byte) (e : Bool) (ts ts' : List Token) (b : Stream) :
    tookBytes xs e ts { b with inp := ts', rbuf := x, rcnt := 0, cntIn := b.cntIn + 1 } = tookBytes (x :: xs) e ts b := by
  simp only [tookBytes, counter_succ, List.length_cons, List.getLast?_cons]
  rfl

theorem tookBytes_writeBools (rs : List Bool) (xs : List Byte) (e : Bool) (ts : List Token) (b : Stream) :
    tookBytes xs e ts (writeBools rs b) = writeBools rs (tookBytes xs e ts b) := by
  obtain ⟨_, h2, _, _, h5⟩ := writeBools_reader rs b
  have := writeBools_withReader rs b ts (xs.getLast?.getD b.rbuf) 0 e (b.cntIn + BitVec.ofNat 32 xs.length)
  simp only [Stream.withReader] at this
  simp only [tookBytes, h2, h5]
  exact this.symm

theorem byte_ofNat_toNat (c : Byte) : BitVec.ofNat 8 c.toNat = c := by simp

end Sys2Proof.Machine
end

