-- ==== Sys2Proof/Laws/Moves.lean ====
section
/-! SUPPORT. What any command can do to the bit stream, whatever its data: `Moved` for everything but putting End. -/

namespace Sys2Proof.Machine

/-- `b'` comes from `b` by taking tokens from the head of IN and putting data bytes at the end of OUT, both counted, keeping
the invariants of the bit stream. -/
structure Moved (b b' : Stream) : Prop where
  inp : ∃ taken, b.inp = taken ++ b'.inp ∧ b'.cntIn = b.cntIn + BitVec.ofNat 32 (dataCount taken)
  out : ∃ put : List Byte, b'.out = b.out ++ put.map .byte ∧ b'.cntOut = b.cntOut + BitVec.ofNat 32 put.length
  packer : PackerOk b → PackerOk b'
  unpacker : (b.eodf = true → b.rcnt = 0) → b'.eodf = true → b'.rcnt = 0

theorem moved_refl (b : Stream) : Moved b b :=
  ⟨⟨[], by simp [dataCount]⟩, ⟨[], by simp⟩, id, id⟩

theorem dataCount_append (xs ys : List Token) : dataCount (xs ++ ys) = dataCount xs + dataCount ys := List.countP_append

@[simp] theorem dataCount_bytes (xs : List Byte) : dataCount (xs.map .byte) = xs.length := by
  induction xs with
  | nil => rfl
  | cons x xs ih => simp [dataCount] at ih ⊢

theorem Moved.trans {b b' b'' : Stream} (h : Moved b b') (h' : Moved b' b'') : Moved b b'' := by
  obtain ⟨⟨t, e1, e2⟩, ⟨p, e3, e4⟩, hp, hu⟩ := h
  obtain ⟨⟨t', f1, f2⟩, ⟨p', f3, f4⟩, hp', hu'⟩ := h'
  refine ⟨⟨t ++ t', ?_, ?_⟩, ⟨p ++ p', ?_, ?_⟩, hp' ∘ hp, fun h => hu' (hu h)⟩
  · rw [e1, f1, List.append_assoc]
  · rw [f2, e2, dataCount_append, BitVec.ofNat_add, BitVec.add_assoc]
  · rw [f3, e3, List.map_append, List.append_assoc]
  · rw [f4, e4, List.length_append, BitVec.ofNat_add, BitVec.add_assoc]

/-- Steps of the unpacker alone. -/
theorem moved_of_read {b b' : Stream} (taken : List Token) (hi : b.inp = taken ++ b'.inp)
    (hc : b'.cntIn = b.cntIn + BitVec.ofNat 32 (dataCount taken)) (ho : b'.out = b.out) (hn : b'.cntOut = b.cntOut)
    (hw : b'.wbuf = b.wbuf) (hk : b'.wcnt = b.wcnt)
    (hu : (b.eodf = true → b.rcnt = 0) → b'.eodf = true → b'.rcnt = 0) : Moved b b' :=
  ⟨⟨taken, hi, hc⟩, ⟨[], by simp [ho], by simp [hn]⟩, by unfold PackerOk; rw [hw, hk]; exact id, hu⟩

theorem rdRestart_moved (b : Stream) : Moved b (rdRestart b) :=
  moved_of_read [] rfl (by simp [dataCount]) rfl rfl rfl rfl (by simp)

/-- Every stream a read can answer with. -/
def RdMoved {α : Type} (b : Stream) (r : Rd α) : Prop :=
  match r with
  | .ok _ b' => Moved b b'
  | .eod b' => Moved b b'
  | .wait b' => Moved b b'

theorem RdMoved.trans {α : Type} {b b' : Stream} {r : Rd α} (h : Moved b b') (h' : RdMoved b' r) : RdMoved b r := by
  cases r with
  | ok x c => exact Moved.trans h h'
  | eod c => exact Moved.trans h h'
  | wait c => exact Moved.trans h h'

/-- What ReadBit leaves, whatever it answers. -/
theorem readBit_moved (b : Stream) : RdMoved b (readBit b) := by
  unfold readBit
  split
  · rename_i h0
    split
    · exact moved_refl _
    · rename_i he
      split
      · exact moved_refl _
      · rename_i rest hi
        exact moved_of_read [.stop] hi (by simp [dataCount]) rfl rfl rfl rfl (fun _ _ => h0)
      · rename_i x rest hi
        exact moved_of_read [.byte x] hi (by simp [dataCount, refill]) rfl rfl rfl rfl (fun _ h => absurd h he)
  · rename_i h0
    exact moved_of_read [] rfl (by simp [dataCount]) rfl rfl rfl rfl (fun h1 h2 => absurd (h1 h2) h0)

theorem readBitsFrom_moved (w acc : Nat) (b : Stream) : RdMoved b (readBitsFrom w acc b) := by
  induction w generalizing acc b with
  | zero => exact moved_refl _
  | succ w ih =>
    have h := readBit_moved b
    unfold readBitsFrom
    split <;> rename_i e <;> rw [e] at h
    · exact RdMoved.trans h (ih _ _)
    · exact h
    · exact h

/-- What ReadBits leaves, whatever it answers. -/
theorem readBits_moved (w : Nat) (b : Stream) : RdMoved b (readBits w b) := readBitsFrom_moved w 0 b

theorem writeBit_moved (r : Bool) (b : Stream) : Moved b (writeBit r b) := by
  have hp : PackerOk b → PackerOk (writeBit r b) := fun h => (writeBit_wrote r b h).packerOk
  revert hp
  unfold writeBit
  split
  · intro hp
    exact ⟨⟨[], by simp [dataCount, outPut]⟩, ⟨[b.wbuf ++ BitVec.ofBool r], by simp [outPut]⟩, hp, id⟩
  · intro hp
    exact ⟨⟨[], by simp [dataCount]⟩, ⟨[], by simp⟩, hp, id⟩

theorem writeBools_moved (rs : List Bool) (b : Stream) : Moved b (writeBools rs b) := by
  induction rs generalizing b with
  | nil => exact moved_refl _
  | cons r rs ih => exact (writeBit_moved r b).trans (ih _)

theorem writeBits_moved (v w : Nat) (b : Stream) : Moved b (writeBits v w b) := by
  rw [writeBits_eq_writeBools]; exact writeBools_moved _ b

theorem align_moved (b : Stream) : Moved b (align b) := by
  rw [align_eq]; exact writeBools_moved _ b

theorem drainFrom_moved (ts : List Token) (b : Stream) (hi : b.inp = ts) (h0 : b.rcnt = 0) :
    RdMoved b (drainFrom ts b) := by
  rw [drainFrom_eq]
  split
  · rename_i hs
    have hts : ts = ((leadingBytes ts).map .byte ++ [.stop]) ++ (ts.dropWhile (· != .stop)).drop 1 := by
      clear hi
      induction ts with
      | nil => simp at hs
      | cons t ts ih =>
        cases t with
        | stop => simp [leadingBytes]
        | byte c =>
          have : ts.contains .stop = true := by simpa using hs
          simpa [leadingBytes] using ih this
    refine moved_of_read ((leadingBytes ts).map .byte ++ [.stop]) (hi.trans hts) ?_ rfl rfl rfl rfl (fun _ _ => h0)
    rw [dataCount_append, dataCount_bytes]
    simp [dataCount]
  · rename_i hs
    refine moved_of_read ts (by simp [hi]) ?_ rfl rfl rfl rfl (fun _ _ => h0)
    have : dataCount ts = ts.length := by
      unfold dataCount
      rw [List.countP_eq_length]
      intro t ht
      have : t ≠ .stop := by
        rintro rfl
        exact hs (by simpa using ht)
      simpa using this
    simp [this]

theorem drain_moved (b : Stream) : RdMoved b (drain b) := by
  have h0 : Moved b { b with rcnt := 0 } := moved_of_read [] rfl (by simp [dataCount]) rfl rfl rfl rfl (fun _ _ => rfl)
  unfold drain
  split
  · exact h0
  · exact RdMoved.trans h0 (drainFrom_moved b.inp { b with rcnt := 0 } rfl rfl)

/-! ## The loops -/

/-- Every stream a loop can answer with. -/
def LoopMoved {β : Type} (b : Stream) (l : Loop β) : Prop :=
  match l with
  | .done _ b' => Moved b b'
  | .raise _ _ _ b' => Moved b b'
  | .wait b' => Moved b b'
  | .fault _ => True

theorem LoopMoved.trans {β : Type} {b b' : Stream} {l : Loop β} (h : Moved b b') (h' : LoopMoved b' l) : LoopMoved b l := by
  cases l with
  | done x c => exact Moved.trans h h'
  | raise x y z c => exact Moved.trans h h'
  | wait c => exact Moved.trans h h'
  | fault f => trivial

theorem countLoop_moved (limit n : Nat) (f : Vector Nat 256) (b : Stream) : LoopMoved b (countLoop limit n f b) := by
  induction n generalizing f b with
  | zero => trivial
  | succ n ih =>
    have h := readBits_moved 8 b
    unfold countLoop
    split <;> rename_i e <;> rw [e] at h
    · exact h
    · exact h
    · dsimp only
      split
      · exact h
      · exact LoopMoved.trans h (ih _ _)

theorem headerLoop_moved (w : Nat) (cs : List Byte) (f : Vector Nat 256) (b : Stream) :
    LoopMoved b (headerLoop w cs f b) := by
  induction cs generalizing f b with
  | nil => exact moved_refl _
  | cons c cs ih =>
    have h := readBits_moved w b
    unfold headerLoop
    split <;> rename_i e <;> rw [e] at h
    · exact h
    · exact h
    · exact LoopMoved.trans h (ih _ _)

theorem encodeLoop_moved (code : Vector (List Bool) 256) (total n k : Nat) (b : Stream) :
    LoopMoved b (encodeLoop code total n k b) := by
  induction n generalizing k b with
  | zero => trivial
  | succ n ih =>
    have h := readBits_moved 8 b
    unfold encodeLoop
    split <;> rename_i e <;> rw [e] at h
    · exact h
    · exact h
    · dsimp only
      split
      · exact h
      · split
        · exact h
        · exact LoopMoved.trans (Moved.trans h (writeBools_moved _ _)) (ih _ _)

theorem writeHeader_moved (w : Nat) (f : Vector Nat 256) (b : Stream) : Moved b (writeHeader w f b) := by
  unfold writeHeader
  generalize allSymbols = cs
  induction cs generalizing b with
  | nil => exact moved_refl _
  | cons c cs ih => exact (writeBits_moved _ _ b).trans (ih _)

/-- Every stream the decoding of a symbol can answer with. -/
def SymMoved (b : Stream) (r : SymRead) : Prop :=
  match r with
  | .sym _ b' => Moved b b'
  | .eod b' => Moved b b'
  | .wait b' => Moved b b'
  | .fault _ => True

theorem SymMoved.trans {b b' : Stream} {r : SymRead} (h : Moved b b') (h' : SymMoved b' r) : SymMoved b r := by
  cases r with
  | sym c x => exact Moved.trans h h'
  | eod x => exact Moved.trans h h'
  | wait x => exact Moved.trans h h'
  | fault f => trivial

theorem descend_moved (h : Huf) (n i : Nat) (b : Stream) : SymMoved b (descend h n i b) := by
  induction n generalizing i b with
  | zero => trivial
  | succ n ih =>
    unfold descend
    split
    · trivial
    · exact moved_refl _
    · have hr := readBit_moved b
      split <;> rename_i e <;> rw [e] at hr
      · exact SymMoved.trans hr (ih _ _)
      · exact hr
      · exact hr

theorem decodeSymbol_moved (h : Huf) (b : Stream) : SymMoved b (decodeSymbol h b) := by
  unfold decodeSymbol
  split
  · split
    · have hr := readBit_moved b
      split <;> rename_i e <;> rw [e] at hr
      · exact hr
      · exact hr
      · exact hr
    · trivial
  · exact descend_moved _ _ _ _

theorem decodeLoop_moved (h : Huf) (n k : Nat) (b : Stream) : LoopMoved b (decodeLoop h n k b) := by
  induction n generalizing k b with
  | zero =>
    unfold decodeLoop
    split
    · trivial
    · exact moved_refl _
  | succ n ih =>
    unfold decodeLoop
    split
    · have hs := decodeSymbol_moved h b
      split <;> rename_i e <;> rw [e] at hs
      · exact LoopMoved.trans (Moved.trans hs (writeBits_moved _ _ _)) (ih _ _)
      · exact hs
      · exact hs
      · trivial
    · exact moved_refl _

theorem emitCode_moved (z : Lzw) (k : Nat) (b : Stream) : Moved b (emitCode z k b) := writeBits_moved _ _ b

theorem lzwEncodeLoop_moved (n : Nat) (p : Option Nat) (z : Lzw) (b : Stream) : LoopMoved b (lzwEncodeLoop n p z b) := by
  induction n generalizing p z b with
  | zero => trivial
  | succ n ih =>
    have h := readBits_moved 8 b
    unfold lzwEncodeLoop
    split <;> rename_i e <;> rw [e] at h
    · exact h
    · exact h
    · dsimp only
      split
      · exact LoopMoved.trans h (ih _ _ _)
      · split
        · exact LoopMoved.trans h (ih _ _ _)
        · exact LoopMoved.trans (Moved.trans h (emitCode_moved _ _ _)) (ih _ _ _)

theorem writeSymbols_moved (cs : List Byte) (b : Stream) : Moved b (writeSymbols cs b) := by
  induction cs generalizing b with
  | nil => exact moved_refl _
  | cons c cs ih => exact (writeBits_moved _ _ b).trans (ih _)

theorem lzwDecodeLoop_moved (n : Nat) (pk : Option Nat) (z : Lzw) (b : Stream) : LoopMoved b (lzwDecodeLoop n pk z b) := by
  induction n generalizing pk z b with
  | zero => trivial
  | succ n ih =>
    have h := readBits_moved z.ln.toNat b
    unfold lzwDecodeLoop
    split <;> rename_i e <;> rw [e] at h
    · exact h
    · exact h
    · split
      · exact h
      · trivial
      · exact LoopMoved.trans (Moved.trans h (writeSymbols_moved _ _)) (ih _ _ _)

/-! ## Commands -/

/-- The state a run has come to, where it ends. -/
def RunEnds (P : State → Prop) (Q : State → Prop) (r : Run) : Prop :=
  match r with
  | .ok t => P t
  | .raise _ _ t => Q t
  | .wait _ => True
  | .fault _ => True

theorem checkPre_ends {P Q : State → Prop} {pre : Bool} {s : State} {body : Run} (hq : Q s)
    (h : pre = true → RunEnds P Q body) : RunEnds P Q (checkPre pre s body) := by
  unfold checkPre
  split
  · exact h ‹_›
  · exact hq

/-- The bit stream after a command that completes normally. -/
def BsAfter (i : Instr) (s t : State) : Prop :=
  (startsStream i = true ∧ t.bs = streamInit s.bs) ∨
  (startsStream i = false ∧ (endsOutput i = true ∨ (i = .hufRdhdr ∧ t.huf.hstate = .done)) ∧
    ∃ b, Moved s.bs b ∧ t.bs = finalize b) ∨
  (startsStream i = false ∧ endsOutput i = false ∧ ¬(i = .hufRdhdr ∧ t.huf.hstate = .done) ∧ Moved s.bs t.bs)

/-- What every command does to the bit stream. -/
theorem runCommand_bs (i : Instr) (s : State) :
    RunEnds (BsAfter i s) (fun t => Moved s.bs t.bs) (runCommand i s) := by
  cases i with
  | nop => exact .inr (.inr ⟨rfl, rfl, by simp, moved_refl _⟩)
  | bsInit => exact .inl ⟨rfl, rfl⟩
  | bsWrbits w =>
    show RunEnds _ _ (runBsWrbits w s)
    unfold runBsWrbits checkWidth
    split
    · exact moved_refl _
    · exact .inr (.inr ⟨rfl, rfl, by simp, writeBits_moved _ _ _⟩)
  | bsRdbits w =>
    show RunEnds _ _ (runBsRdbits w s)
    unfold runBsRdbits checkWidth
    split
    · exact moved_refl _
    · have h := readBits_moved (widthOperand w) s.bs
      unfold readIntoResult
      split <;> rename_i e <;> rw [e] at h
      · exact .inr (.inr ⟨rfl, rfl, by simp, h⟩)
      · exact .inr (.inr ⟨rfl, rfl, by simp, h⟩)
      · trivial
  | bsWrbit r => exact .inr (.inr ⟨rfl, rfl, by simp, writeBit_moved _ _⟩)
  | bsRdbit =>
    have h := readBit_moved s.bs
    show RunEnds _ _ (runBsRdbit s)
    unfold runBsRdbit
    split <;> rename_i e <;> rw [e] at h
    · exact .inr (.inr ⟨rfl, rfl, by simp, h⟩)
    · exact .inr (.inr ⟨rfl, rfl, by simp, h⟩)
    · trivial
  | bsAlign => exact .inr (.inr ⟨rfl, rfl, by simp, align_moved _⟩)
  | bsEnd => exact .inr (.inl ⟨rfl, .inl rfl, _, moved_refl _, rfl⟩)
  | bsDrain =>
    have h := drain_moved s.bs
    show RunEnds _ _ (runBsDrain s)
    unfold runBsDrain
    split <;> rename_i e <;> rw [e] at h
    · exact .inr (.inr ⟨rfl, rfl, by simp, h⟩)
    · exact .inr (.inr ⟨rfl, rfl, by simp, h⟩)
    · trivial
  | hufInit => exact .inl ⟨rfl, rfl⟩
  | hufCount =>
    refine checkPre_ends (moved_refl _) (fun _ => ?_)
    have h := LoopMoved.trans (rdRestart_moved s.bs)
      (countLoop_moved (2 ^ s.params.freqW - 1) (available (rdRestart s.bs) + 1) s.huf.freq (rdRestart s.bs))
    dsimp only
    split <;> rename_i e <;> rw [e] at h
    · exact .inr (.inr ⟨rfl, rfl, by simp, h⟩)
    · exact h
    · trivial
    · trivial
  | hufRdhdr =>
    refine checkPre_ends (moved_refl _) (fun _ => ?_)
    have h := LoopMoved.trans (rdRestart_moved s.bs)
      (headerLoop_moved s.params.freqW allSymbols s.huf.freq (rdRestart s.bs))
    split <;> rename_i e <;> rw [e] at h
    · exact .inr (.inl ⟨rfl, .inr ⟨rfl, rfl⟩, _, h, rfl⟩)
    · exact .inr (.inr ⟨rfl, rfl, by simp, h⟩)
    · exact h
    · trivial
    · trivial
  | hufBuild => exact checkPre_ends (moved_refl _) (fun _ => .inr (.inr ⟨rfl, rfl, by simp, moved_refl _⟩))
  | hufCodes =>
    refine checkPre_ends (moved_refl _) (fun _ => ?_)
    split
    · exact .inr (.inr ⟨rfl, rfl, by simp, moved_refl _⟩)
    · trivial
  | hufEncode =>
    refine checkPre_ends (moved_refl _) (fun _ => ?_)
    have h := LoopMoved.trans ((rdRestart_moved s.bs).trans (writeHeader_moved s.params.freqW s.huf.freq (rdRestart s.bs)))
      (encodeLoop_moved s.huf.code s.huf.total
        (available (writeHeader s.params.freqW s.huf.freq (rdRestart s.bs)) + 1) 0
        (writeHeader s.params.freqW s.huf.freq (rdRestart s.bs)))
    dsimp only
    split <;> rename_i e <;> rw [e] at h
    · split
      · exact h
      · exact .inr (.inl ⟨rfl, .inl rfl, _, h, rfl⟩)
    · exact h
    · trivial
    · trivial
  | hufDecode =>
    refine checkPre_ends (moved_refl _) (fun _ => ?_)
    have h := decodeLoop_moved s.huf (available s.bs + 1) 0 s.bs
    split <;> rename_i e <;> rw [e] at h
    · exact .inr (.inl ⟨rfl, .inl rfl, _, h, rfl⟩)
    · rename_i b
      have h' := RdMoved.trans h (drain_moved b)
      split <;> rename_i e' <;> rw [e'] at h'
      · exact .inr (.inl ⟨rfl, .inl rfl, _, h', rfl⟩)
      · exact .inr (.inl ⟨rfl, .inl rfl, _, h', rfl⟩)
      · trivial
    · exact h
    · trivial
    · trivial
  | hufGetfreq c => exact .inr (.inr ⟨rfl, rfl, by simp, moved_refl _⟩)
  | hufLookup c k => exact checkPre_ends (moved_refl _) (fun _ => .inr (.inr ⟨rfl, rfl, by simp, moved_refl _⟩))
  | lzwInit =>
    show RunEnds _ _ (runLzwInit s)
    unfold runLzwInit checkCodeWidth
    dsimp only
    split
    · exact moved_refl _
    · exact .inl ⟨rfl, rfl⟩
  | lzwEncode =>
    refine checkPre_ends (moved_refl _) (fun _ => ?_)
    have h := LoopMoved.trans (rdRestart_moved s.bs)
      (lzwEncodeLoop_moved (available (rdRestart s.bs) + 1) none s.lzw (rdRestart s.bs))
    split <;> rename_i e <;> rw [e] at h
    · exact .inr (.inl ⟨rfl, .inl rfl, _, h, rfl⟩)
    · exact .inr (.inl ⟨rfl, .inl rfl, _, Moved.trans h (emitCode_moved _ _ _), rfl⟩)
    · exact h
    · trivial
    · trivial
  | lzwDecode =>
    refine checkPre_ends (moved_refl _) (fun _ => ?_)
    have h := LoopMoved.trans (rdRestart_moved s.bs)
      (lzwDecodeLoop_moved (available (rdRestart s.bs) + 1) none s.lzw (rdRestart s.bs))
    split <;> rename_i e <;> rw [e] at h
    · exact .inr (.inl ⟨rfl, .inl rfl, _, h, rfl⟩)
    · exact h
    · trivial
    · trivial

end Sys2Proof.Machine
end

