-- ==== Sys2Proof/Laws/Huffman.lean ====
section
/-! SUPPORT. The tables by symbol and the loops of the Huffman commands, each said once. -/

namespace Sys2Proof.Machine

/-! ## Tables by symbol -/

section tables
variable {α : Type}

theorem symGet_symSet (t : Vector α 256) (c d : Byte) (x : α) :
    symGet (symSet t c x) d = if c = d then x else symGet t d := by
  unfold symGet symSet
  rw [Vector.getElem_set]
  by_cases h : c = d
  · subst h; simp
  · have : c.toNat ≠ d.toNat := fun e => h (BitVec.eq_of_toNat_eq e)
    simp [h, this]

@[simp] theorem symGet_replicate (x : α) (c : Byte) : symGet (Vector.replicate 256 x) c = x := by simp [symGet]

theorem table_ext {t u : Vector α 256} (h : ∀ c, symGet t c = symGet u c) : t = u := by
  apply Vector.ext
  intro i hi
  have := h (BitVec.ofNat 8 i)
  simp only [symGet, BitVec.toNat_ofNat, Nat.reducePow, Nat.mod_eq_of_lt hi] at this
  exact this

end tables

theorem allSymbols_length : allSymbols.length = 256 := by simp [allSymbols]

theorem mem_allSymbols (c : Byte) : c ∈ allSymbols := by
  unfold allSymbols
  rw [List.mem_map]
  exact ⟨c.toNat, by simpa using c.isLt, by simp⟩

theorem allSymbols_getElem (i : Nat) (h : i < allSymbols.length) : allSymbols[i] = BitVec.ofNat 8 i := by
  simp [allSymbols]

theorem allSymbols_nodup : allSymbols.Nodup := by
  unfold allSymbols
  rw [List.nodup_map_iff_inj_on List.nodup_range]
  intro x hx y hy h
  have := congrArg BitVec.toNat h
  simp only [List.mem_range] at hx hy
  simpa [Nat.mod_eq_of_lt hx, Nat.mod_eq_of_lt hy] using this

theorem allSymbols_sorted : allSymbols.Pairwise (fun a b => a.toNat < b.toNat) := by
  unfold allSymbols
  rw [List.pairwise_map]
  refine List.Pairwise.imp_of_mem ?_ List.pairwise_lt_range
  intro a b ha hb h
  simp only [List.mem_range] at ha hb
  simpa [Nat.mod_eq_of_lt ha, Nat.mod_eq_of_lt hb] using h

/-- TOTAL as the sum over the symbols. -/
theorem freqSum_eq (f : Vector Nat 256) : freqSum f = (allSymbols.map (symGet f)).sum := by
  unfold freqSum
  congr 1
  apply List.ext_getElem
  · simp [allSymbols_length]
  · intro i h1 h2
    have hi : i < 256 := by simpa using h1
    rw [List.getElem_map, allSymbols_getElem]
    simp only [symGet, BitVec.toNat_ofNat, Nat.reducePow, Nat.mod_eq_of_lt hi]
    exact Vector.getElem_toList _

/-! ## HUF_COUNT's loop -/

/-- The counters after the bytes `xs`. -/
def countAll (f : Vector Nat 256) (xs : List Byte) : Vector Nat 256 :=
  xs.foldl (fun f c => symSet f c (symGet f c + 1)) f

theorem symGet_countAll (f : Vector Nat 256) (xs : List Byte) (c : Byte) :
    symGet (countAll f xs) c = symGet f c + xs.count c := by
  induction xs generalizing f with
  | nil => simp [countAll]
  | cons x xs ih =>
    show symGet (countAll (symSet f x (symGet f x + 1)) xs) c = _
    rw [ih, symGet_symSet, List.count_cons]
    by_cases h : x = c
    · subst h; simp; omega
    · simp [h]

/-- The loop over bytes none of which overflows its counter. -/
theorem countLoop_bytes (limit n : Nat) (xs : List Byte) (f : Vector Nat 256) (b : Stream) (ts : List Token)
    (hf : ∀ c, symGet f c + xs.count c ≤ limit) (h0 : b.rcnt = 0) (he : b.eodf = false)
    (hi : b.inp = xs.map .byte ++ ts) :
    countLoop limit (xs.length + n) f b = countLoop limit n (countAll f xs) (tookBytes xs false ts b) := by
  induction xs generalizing f b with
  | nil =>
    simp only [List.map_nil, List.nil_append] at hi
    subst hi
    rw [tookBytes_nil b h0 he, List.length_nil, Nat.zero_add]
    rfl
  | cons x xs ih =>
    rw [List.length_cons, show xs.length + 1 + n = (xs.length + n) + 1 by omega, countLoop,
      readBits_byte h0 he (by simpa using hi)]
    simp only [byte_ofNat_toNat]
    have hx := hf x
    rw [List.count_cons_self] at hx
    rw [if_neg (by omega), ih (symSet f x (symGet f x + 1))
      { b with inp := xs.map .byte ++ ts, rbuf := x, rcnt := 0, cntIn := b.cntIn + 1 } ?_ rfl he rfl]
    · exact congrArg (countLoop limit n _) (tookBytes_cons x xs false ts (xs.map .byte ++ ts) b)
    · intro c
      have := hf c
      rw [List.count_cons] at this
      rw [symGet_symSet]
      by_cases h : x = c
      · subst h; simp at this ⊢; omega
      · simp [h] at this ⊢; omega

/-- A whole stream (42_huffman.md R181). -/
theorem countLoop_end (limit n : Nat) (xs : List Byte) (f : Vector Nat 256) (b : Stream) (rest : List Token)
    (hf : ∀ c, symGet f c + xs.count c ≤ limit) (h0 : b.rcnt = 0) (he : b.eodf = false)
    (hi : b.inp = xs.map .byte ++ .stop :: rest) (hn : xs.length < n) :
    countLoop limit n f b = .done (countAll f xs) (tookBytes xs true rest b) := by
  obtain ⟨m, rfl⟩ : ∃ m, n = xs.length + (m + 1) := ⟨n - xs.length - 1, by omega⟩
  rw [countLoop_bytes limit _ xs f b _ hf h0 he hi, countLoop, readBits_stop rfl rfl rfl]
  rfl

/-- The byte whose counter is full (R181). -/
theorem countLoop_overflow (limit n : Nat) (xs : List Byte) (c : Byte) (f : Vector Nat 256) (b : Stream) (rest : List Token)
    (hf : ∀ d, symGet f d + xs.count d ≤ limit) (h0 : b.rcnt = 0) (he : b.eodf = false)
    (hi : b.inp = xs.map .byte ++ .byte c :: rest) (hc : symGet f c + xs.count c = limit) (hn : xs.length < n) :
    countLoop limit n f b =
      .raise .eFreqOvf (c.setWidth 32) (countAll f xs) (tookBytes (xs ++ [c]) false rest b) := by
  obtain ⟨m, rfl⟩ : ∃ m, n = xs.length + (m + 1) := ⟨n - xs.length - 1, by omega⟩
  rw [countLoop_bytes limit _ xs f b _ hf h0 he hi, countLoop, readBits_byte rfl rfl rfl]
  simp only [byte_ofNat_toNat]
  rw [if_pos (by rw [symGet_countAll]; exact hc)]
  simp only [tookBytes, counter_append xs [c]]
  simp
where
  counter_append (xs ys : List Byte) (x : Word) : x + BitVec.ofNat 32 (xs ++ ys).length =
      x + BitVec.ofNat 32 xs.length + BitVec.ofNat 32 ys.length := by
    rw [List.length_append, BitVec.ofNat_add, BitVec.add_assoc]

/-- No End in IN: the loop waits (20_memory.md R76). -/
theorem countLoop_wait (limit n : Nat) (xs : List Byte) (f : Vector Nat 256) (b : Stream)
    (hf : ∀ c, symGet f c + xs.count c ≤ limit) (h0 : b.rcnt = 0) (he : b.eodf = false)
    (hi : b.inp = xs.map .byte) (hn : xs.length < n) : ∃ b', countLoop limit n f b = .wait b' := by
  obtain ⟨m, rfl⟩ : ∃ m, n = xs.length + (m + 1) := ⟨n - xs.length - 1, by omega⟩
  rw [countLoop_bytes limit _ xs f b [] hf h0 he (by simpa using hi), countLoop]
  have h : inBits (tookBytes xs false [] b) = [] := by simp [inBits, tookBytes, unreadBits, natBits, leadingBytes]
  obtain ⟨b', _, _, e⟩ := readBits_end (w := 8) (b := tookBytes xs false [] b) (by rw [h]; simp)
  rw [e]
  simp [inClosed, tookBytes]

/-! ## HUF_RDHDR's loop -/

/-- The counters after loading one field of `w` bits per symbol of `cs`. -/
def loadAll (w : Nat) : List Byte → List Bool → Vector Nat 256 → Vector Nat 256
  | [], _, f => f
  | c :: cs, bits, f => loadAll w cs (bits.drop w) (symSet f c (bitsToNat (bits.take w)))

/-- A whole header (42_huffman.md R182). -/
theorem headerLoop_full (w : Nat) (cs : List Byte) (f : Vector Nat 256) (b : Stream)
    (h : cs.length * w ≤ (inBits b).length) :
    ∃ b', headerLoop w cs f b = .done (loadAll w cs (inBits b) f, false) b' ∧ Took (cs.length * w) b b' := by
  induction cs generalizing f b with
  | nil => exact ⟨b, rfl, by simpa using took_refl b⟩
  | cons c cs ih =>
    rw [List.length_cons, Nat.succ_mul] at h
    obtain ⟨b₁, e, ht⟩ := readBits_ok (w := w) (b := b) (by omega)
    have hb : inBits b₁ = (inBits b).drop w := by obtain ⟨_, _, _, h3, _⟩ := ht; exact h3
    obtain ⟨b', e', ht'⟩ := ih (symSet f c (bitsToNat ((inBits b).take w))) b₁ (by rw [hb, List.length_drop]; omega)
    refine ⟨b', ?_, ?_⟩
    · rw [headerLoop, e]
      simp only
      rw [e', hb, loadAll]
    · rw [List.length_cons, Nat.succ_mul, Nat.add_comm]
      exact ht.trans ht'

/-- A truncated header, or one whose rest has not come yet (R182, 20_memory.md R76). -/
theorem headerLoop_short (w : Nat) (cs : List Byte) (f : Vector Nat 256) (b : Stream)
    (h : (inBits b).length < cs.length * w) :
    ∃ b', Took (inBits b).length b b' ∧ inBits b' = [] ∧
      headerLoop w cs f b =
        if inClosed b then .done (loadAll w (cs.take ((inBits b).length / w)) (inBits b) f, true) (atEnd b')
        else .wait b' := by
  induction cs generalizing f b with
  | nil => simp at h
  | cons c cs ih =>
    rw [List.length_cons, Nat.succ_mul] at h
    by_cases hw : w ≤ (inBits b).length
    · obtain ⟨b₁, e, ht⟩ := readBits_ok hw
      have hb : inBits b₁ = (inBits b).drop w := by obtain ⟨_, _, _, h3, _⟩ := ht; exact h3
      have hw0 : 0 < w := by
        rcases Nat.eq_zero_or_pos w with rfl | h0
        · simp at h
        · exact h0
      obtain ⟨b', ht', hn, e'⟩ := ih (symSet f c (bitsToNat ((inBits b).take w))) b₁ (by rw [hb, List.length_drop]; omega)
      refine ⟨b', ?_, hn, ?_⟩
      · rw [hb, List.length_drop] at ht'
        have := ht.trans ht'
        rwa [show w + ((inBits b).length - w) = (inBits b).length by omega] at this
      · rw [headerLoop, e]
        simp only
        rw [e', ht.inClosed, hb, List.length_drop]
        have : (inBits b).length / w = ((inBits b).length - w) / w + 1 := by
          rw [Nat.div_eq_sub_div hw0 hw]
        rw [this, List.take_succ_cons, loadAll]
    · obtain ⟨b', ht, hn, e⟩ := readBits_end (w := w) (b := b) (by omega)
      refine ⟨b', ht, hn, ?_⟩
      rw [headerLoop, e]
      have : (inBits b).length / w = 0 := Nat.div_eq_of_lt (by omega)
      rw [this]
      cases inClosed b <;> rfl
end Sys2Proof.Machine
end

