-- ==== Sys2Proof/Laws/Memory.lean ====
section
/-! SUPPORT. The internal memories: a read after a write, and the canonical form, which every memory operation keeps. -/

namespace Sys2Proof.Machine

variable {α : Type}

@[simp] theorem memGet_nil (i : Nat) : memGet ([] : Mem α) i = none := rfl

theorem memGet_memSet_self (m : Mem α) (i : Nat) (x : α) : memGet (memSet m i x) i = some x := by
  induction m with
  | nil => simp [memSet, memGet]
  | cons e m ih =>
    obtain ⟨k, y⟩ := e
    unfold memSet
    split
    · simp [memGet]
    · split
      · simp [memGet]
      · rename_i h1 h2
        have : k ≠ i := fun h => h2 h.symm
        simp [memGet, this, ih]

theorem memGet_memSet_ne (m : Mem α) {i j : Nat} (x : α) (h : i ≠ j) : memGet (memSet m i x) j = memGet m j := by
  induction m with
  | nil => simp [memSet, memGet, h]
  | cons e m ih =>
    obtain ⟨k, y⟩ := e
    unfold memSet
    split
    · simp [memGet, h]
    · split
      · rename_i h1 h2
        subst h2
        simp [memGet, h]
      · simp [memGet, ih]

/-- A read after a write gives the value written, and a write leaves every other place alone. -/
theorem memGet_memSet (m : Mem α) (i j : Nat) (x : α) :
    memGet (memSet m i x) j = if i = j then some x else memGet m j := by
  split
  · rename_i h
    subst h
    exact memGet_memSet_self m i x
  · rename_i h
    exact memGet_memSet_ne m x h

theorem memGet_memSetFrom (m : Mem α) (i j : Nat) (xs : List α) :
    memGet (memSetFrom m i xs) j = if i ≤ j ∧ j < i + xs.length then xs[j - i]? else memGet m j := by
  induction xs generalizing m i with
  | nil =>
    rw [memSetFrom, if_neg (by simp)]
  | cons x xs ih =>
    rw [memSetFrom, ih, memGet_memSet]
    by_cases h : i = j
    · subst h
      rw [if_neg (by omega), if_pos rfl, if_pos (by simp)]
      simp
    · by_cases h' : i ≤ j ∧ j < i + (x :: xs).length
      · have h1 : i + 1 ≤ j ∧ j < i + 1 + xs.length := by
          simp only [List.length_cons] at h'; omega
        rw [if_pos h1, if_pos h', show j - i = (j - (i + 1)) + 1 by omega, List.getElem?_cons_succ]
      · have h1 : ¬(i + 1 ≤ j ∧ j < i + 1 + xs.length) := by
          simp only [List.length_cons] at h'; omega
        rw [if_neg h1, if_neg h', if_neg h]

/-- The canonical form, said of the keys. -/
theorem memWf_iff (m : Mem α) : memWf m = true ↔ (m.map Prod.fst).Pairwise (· < ·) := by
  induction m with
  | nil => simp [memWf]
  | cons e m ih =>
    cases m with
    | nil => simp [memWf]
    | cons e' m =>
      obtain ⟨i, x⟩ := e
      obtain ⟨j, y⟩ := e'
      simp only [memWf, Bool.and_eq_true, decide_eq_true_eq, ih, List.map_cons, List.pairwise_cons, List.mem_cons,
        List.mem_map]
      constructor
      · rintro ⟨hij, h1, h2⟩
        refine ⟨?_, h1, h2⟩
        rintro a (rfl | h)
        · exact hij
        · exact Nat.lt_trans hij (h1 a h)
      · rintro ⟨h0, h1, h2⟩
        exact ⟨h0 j (.inl rfl), h1, h2⟩

theorem mem_keys_memSet (m : Mem α) (i : Nat) (x : α) (k : Nat) :
    k ∈ (memSet m i x).map Prod.fst ↔ k = i ∨ k ∈ m.map Prod.fst := by
  induction m with
  | nil => simp [memSet]
  | cons e m ih =>
    obtain ⟨j, y⟩ := e
    unfold memSet
    split
    · simp
    · split
      · rename_i _ h
        subst h
        simp
      · simp only [List.map_cons, List.mem_cons, ih]
        tauto

/-- Writing keeps the canonical form. -/
theorem memWf_memSet (m : Mem α) (i : Nat) (x : α) (h : memWf m = true) : memWf (memSet m i x) = true := by
  rw [memWf_iff] at h ⊢
  induction m with
  | nil => simp [memSet]
  | cons e m ih =>
    obtain ⟨k, y⟩ := e
    rw [List.map_cons, List.pairwise_cons] at h
    unfold memSet
    split
    · rename_i hik
      simp only [List.map_cons, List.pairwise_cons, List.mem_cons]
      refine ⟨?_, h.1, h.2⟩
      rintro a (rfl | ha)
      · exact hik
      · exact Nat.lt_trans hik (h.1 a ha)
    · split
      · rename_i _ hik
        subst hik
        simp only [List.map_cons, List.pairwise_cons]
        exact h
      · rename_i h1 h2
        rw [List.map_cons, List.pairwise_cons]
        refine ⟨?_, ih h.2⟩
        intro a ha
        rcases (mem_keys_memSet m i x a).1 ha with rfl | ha
        · show k < a; omega
        · exact h.1 a ha

theorem memWf_memSetFrom (m : Mem α) (i : Nat) (xs : List α) (h : memWf m = true) :
    memWf (memSetFrom m i xs) = true := by
  induction xs generalizing m i with
  | nil => exact h
  | cons x xs ih => exact ih _ _ (memWf_memSet m i x h)

/-- A listed entry is what the memory reads at its index, in canonical form. -/
theorem memGet_of_mem (m : Mem α) (h : memWf m = true) {k : Nat} {x : α} (hm : (k, x) ∈ m) : memGet m k = some x := by
  rw [memWf_iff] at h
  induction m with
  | nil => simp at hm
  | cons e m ih =>
    obtain ⟨j, y⟩ := e
    rw [List.map_cons, List.pairwise_cons] at h
    rcases List.mem_cons.1 hm with he | hm'
    · cases he; simp [memGet]
    · have : j < k := h.1 k (List.mem_map.2 ⟨(k, x), hm', rfl⟩)
      simp [memGet, Nat.ne_of_lt this, ih h.2 hm']

/-- What the memory reads is a listed entry. -/
theorem mem_of_memGet (m : Mem α) {k : Nat} {x : α} (h : memGet m k = some x) : (k, x) ∈ m := by
  induction m with
  | nil => simp at h
  | cons e m ih =>
    obtain ⟨j, y⟩ := e
    unfold memGet at h
    split at h
    · rename_i hj
      cases h
      subst hj
      exact List.mem_cons_self
    · exact List.mem_cons_of_mem _ (ih h)

end Sys2Proof.Machine
end

