-- ==== Sys2Proof/Laws/Tree.lean ====
section
/-! SUPPORT. The tree that HUF_BUILD makes, as a list of nodes: the queue's order, what one turn of the combining loop adds,
and the shape the loop ends in. -/

namespace Sys2Proof.Machine

/-! ## The queue's order -/

theorem keyBefore_iff (a b : Key) : keyBefore a b = true ↔ a.freq < b.freq ∨ (a.freq = b.freq ∧ a.id < b.id) := by
  simp [keyBefore]

theorem keyBefore_trans {a b c : Key} (h : keyBefore a b = true) (h' : keyBefore b c = true) : keyBefore a c = true := by
  rw [keyBefore_iff] at *
  omega

theorem keyBefore_total {a b : Key} (h : a.id ≠ b.id) (h' : ¬ keyBefore a b = true) : keyBefore b a = true := by
  rw [keyBefore_iff] at *
  omega

/-- The least key is one of the keys, and no other comes before it. -/
theorem leastKey_spec (k : Key) (q : List Key) :
    leastKey k q ∈ k :: q ∧ ∀ x ∈ k :: q, x = leastKey k q ∨ ¬ keyBefore x (leastKey k q) = true := by
  induction q generalizing k with
  | nil => simp [leastKey]
  | cons y q ih =>
    have e : leastKey k (y :: q) = leastKey (if keyBefore y k then y else k) q := rfl
    rw [e]
    obtain ⟨hm, hl⟩ := ih (if keyBefore y k then y else k)
    constructor
    · rcases List.mem_cons.1 hm with h | h
      · rw [h]; split <;> simp
      · exact List.mem_cons_of_mem _ (List.mem_cons_of_mem _ h)
    · intro x hx
      have hmin := hl _ List.mem_cons_self
      by_cases hy : keyBefore y k = true
      · rw [if_pos hy] at hmin hl ⊢
        rcases List.mem_cons.1 hx with rfl | hx
        · right
          intro hk
          rcases hmin with h | h
          · rw [← h] at hk
            rw [keyBefore_iff] at hy hk
            omega
          · exact h (keyBefore_trans hy hk)
        · exact hl x hx
      · rw [if_neg hy] at hmin hl ⊢
        rcases List.mem_cons.1 hx with rfl | hx
        · exact hmin
        · rcases List.mem_cons.1 hx with rfl | hx
          · right
            intro hk
            rcases hmin with h | h
            · rw [← h] at hk; exact hy hk
            · rw [keyBefore_iff] at hy hk h
              omega
          · exact hl x (List.mem_cons_of_mem _ hx)

/-- PopLeast on a queue of distinct nodes (42_huffman.md R190, R192). -/
theorem popLeast_spec {q q' : List Key} {a : Key} (hd : (q.map Key.id).Nodup) (h : popLeast q = some (a, q')) :
    a ∈ q ∧ q' = q.erase a ∧ ∀ x ∈ q', keyBefore a x = true := by
  cases q with
  | nil => simp [popLeast] at h
  | cons k q =>
    simp only [popLeast, Option.some.injEq, Prod.mk.injEq] at h
    obtain ⟨rfl, rfl⟩ := h
    obtain ⟨hm, hl⟩ := leastKey_spec k q
    refine ⟨hm, rfl, fun x hx => ?_⟩
    have hnd : (k :: q).Nodup := List.Nodup.of_map _ hd
    rw [hnd.mem_erase_iff] at hx
    obtain ⟨hne, hx⟩ := hx
    have hid : (leastKey k q).id ≠ x.id := fun e => hne (List.inj_on_of_nodup_map hd hx hm e.symm)
    by_contra hb
    have := keyBefore_total hid hb
    rcases hl x hx with e | e
    · exact hne e
    · exact e this

theorem popLeast_none {q : List Key} (h : popLeast q = none) : q = [] := by
  cases q with
  | nil => rfl
  | cons k q => simp [popLeast] at h

/-! ## Trees as lists of nodes -/

/-- The frequency of the node at place `i` of `ns`. -/
def freqIn (ns : List Node) (i : Nat) : Nat := ((ns[i]?).map Node.freq).getD 0

/-- The node at `j` is in the queue when the node at `k` is made (42_huffman.md R190). -/
def waits (ns : List Node) (k j : Nat) : Prop :=
  j < k ∧ ∀ i f l r, i < k → ns[i]? = some (.internal f l r) → j ≠ l ∧ j ≠ r

/-- The order of places (R192). -/
def placeBefore (ns : List Node) (i j : Nat) : Prop :=
  freqIn ns i < freqIn ns j ∨ (freqIn ns i = freqIn ns j ∧ i < j)

/-- The node at `k` is the one the queue of its time gives (R190, R194). -/
def MadeAt (ns : List Node) (k : Nat) : Prop :=
  ∃ a b, ns[k]? = some (.internal (freqIn ns a + freqIn ns b) a b) ∧ a ≠ b ∧ waits ns k a ∧ waits ns k b ∧
    (∀ j, waits ns k j → j ≠ a → placeBefore ns a j) ∧
    (∀ j, waits ns k j → j ≠ a → j ≠ b → placeBefore ns b j)

theorem freqIn_append {ns : List Node} {i : Nat} (h : i < ns.length) (ms : List Node) : freqIn (ns ++ ms) i = freqIn ns i := by
  unfold freqIn
  rw [List.getElem?_append_left h]

theorem waits_append {ns : List Node} {k : Nat} (h : k ≤ ns.length) (ms : List Node) (j : Nat) :
    waits (ns ++ ms) k j ↔ waits ns k j := by
  unfold waits
  constructor
  · rintro ⟨h1, h2⟩
    exact ⟨h1, fun i f l r hi e => h2 i f l r hi (by rw [List.getElem?_append_left (by omega)]; exact e)⟩
  · rintro ⟨h1, h2⟩
    exact ⟨h1, fun i f l r hi e => h2 i f l r hi (by rw [List.getElem?_append_left (by omega)] at e; exact e)⟩

theorem placeBefore_append {ns : List Node} {i j : Nat} (hi : i < ns.length) (hj : j < ns.length) (ms : List Node) :
    placeBefore (ns ++ ms) i j ↔ placeBefore ns i j := by
  unfold placeBefore
  rw [freqIn_append hi, freqIn_append hj]

theorem MadeAt.append {ns : List Node} {k : Nat} (h : MadeAt ns k) (hk : k < ns.length) (ms : List Node) : MadeAt (ns ++ ms) k := by
  obtain ⟨a, b, e, hne, ha, hb, h1, h2⟩ := h
  have ha' := ha.1
  have hb' := hb.1
  refine ⟨a, b, ?_, hne, (waits_append (by omega) ms a).2 ha, (waits_append (by omega) ms b).2 hb, ?_, ?_⟩
  · rw [List.getElem?_append_left hk, e, freqIn_append (by omega), freqIn_append (by omega)]
  · intro j hj hja
    have hj' := (waits_append (by omega) ms j).1 hj
    have := hj'.1
    exact (placeBefore_append (by omega) (by omega) ms).2 (h1 j hj' hja)
  · intro j hj hja hjb
    have hj' := (waits_append (by omega) ms j).1 hj
    have := hj'.1
    exact (placeBefore_append (by omega) (by omega) ms).2 (h2 j hj' hja hjb)

/-! ## The combining loop -/

/-- The queue holds the nodes of `ns` that are no node's child, each with its frequency. -/
def QueueOf (ns : List Node) (q : List Key) : Prop :=
  (q.map Key.id).Nodup ∧ (∀ x ∈ q, x.freq = freqIn ns x.id) ∧ ∀ j, j ∈ q.map Key.id ↔ waits ns ns.length j

/-- Children come before their parent. -/
def ChildrenBelow (ns : List Node) : Prop := ∀ i f l r : Nat, ns[i]? = some (.internal f l r) → l < i ∧ r < i

theorem erase_ids {q : List Key} {a : Key} (hd : (q.map Key.id).Nodup) (ha : a ∈ q) (j : Nat) :
    j ∈ (q.erase a).map Key.id ↔ j ∈ q.map Key.id ∧ j ≠ a.id := by
  have hnd : q.Nodup := List.Nodup.of_map _ hd
  simp only [List.mem_map]
  constructor
  · rintro ⟨x, hx, rfl⟩
    rw [hnd.mem_erase_iff] at hx
    exact ⟨⟨x, hx.2, rfl⟩, fun e => hx.1 (List.inj_on_of_nodup_map hd hx.2 ha e)⟩
  · rintro ⟨⟨x, hx, rfl⟩, hne⟩
    exact ⟨x, by rw [hnd.mem_erase_iff]; exact ⟨fun e => hne (by rw [e]), hx⟩, rfl⟩

theorem erase_ids_nodup {q : List Key} (a : Key) (hd : (q.map Key.id).Nodup) : ((q.erase a).map Key.id).Nodup :=
  hd.sublist (List.erase_sublist.map _)

/-- One turn: the two least nodes of the queue become the children of the next node (R190, R193, R194). -/
theorem combine_turn {ns : List Node} {q q₁ q₂ : List Key} {a b : Key} (hc : ChildrenBelow ns) (hq : QueueOf ns q) (h1 : popLeast q = some (a, q₁))
    (h2 : popLeast q₁ = some (b, q₂)) :
    let ns' := ns ++ [Node.internal (a.freq + b.freq) a.id b.id]
    MadeAt ns' ns.length ∧ ChildrenBelow ns' ∧ QueueOf ns' (q₂ ++ [{ freq := a.freq + b.freq, id := ns.length }]) ∧
      q₂.length + 2 = q.length := by
  intro ns'
  obtain ⟨hd, hf, hw⟩ := hq
  obtain ⟨ha, e1, hla⟩ := popLeast_spec hd h1
  have hd1 : (q₁.map Key.id).Nodup := by rw [e1]; exact erase_ids_nodup a hd
  obtain ⟨hb1, e2, hlb⟩ := popLeast_spec hd1 h2
  have hd2 : (q₂.map Key.id).Nodup := by rw [e2]; exact erase_ids_nodup b hd1
  have hb : b ∈ q := by rw [e1] at hb1; exact List.mem_of_mem_erase hb1
  have m1 : ∀ j, j ∈ q₁.map Key.id ↔ waits ns ns.length j ∧ j ≠ a.id := by
    intro j; rw [e1, erase_ids hd ha, hw]
  have m2 : ∀ j, j ∈ q₂.map Key.id ↔ (waits ns ns.length j ∧ j ≠ a.id) ∧ j ≠ b.id := by
    intro j; rw [e2, erase_ids hd1 hb1, m1]
  have wa : waits ns ns.length a.id := (hw _).1 (List.mem_map_of_mem ha)
  have wb : waits ns ns.length b.id := (hw _).1 (List.mem_map_of_mem hb)
  have hab : a.id ≠ b.id := fun e => ((m1 b.id).1 (List.mem_map_of_mem hb1)).2 e.symm
  have fa : a.freq = freqIn ns a.id := hf a ha
  have fb : b.freq = freqIn ns b.id := hf b hb
  have in1 : ∀ x ∈ q₁, x ∈ q := fun x hx => by rw [e1] at hx; exact List.mem_of_mem_erase hx
  have in2 : ∀ x ∈ q₂, x ∈ q₁ := fun x hx => by rw [e2] at hx; exact List.mem_of_mem_erase hx
  have before : ∀ (x y : Key), x ∈ q → y ∈ q → keyBefore x y = true → placeBefore ns x.id y.id := by
    intro x y hx hy h
    rw [keyBefore_iff, hf x hx, hf y hy] at h
    exact h
  have len : ns'.length = ns.length + 1 := by simp [ns']
  have hnew : ns'[ns.length]? = some (.internal (a.freq + b.freq) a.id b.id) := by simp [ns']
  have split_last : ∀ i f l r, ns'[i]? = some (.internal f l r) →
      (i < ns.length ∧ ns[i]? = some (.internal f l r)) ∨ (i = ns.length ∧ l = a.id ∧ r = b.id) := by
    intro i f l r e
    rcases Nat.lt_trichotomy i ns.length with hi | hi | hi
    · left
      refine ⟨hi, ?_⟩
      rw [← e]
      exact (List.getElem?_append_left hi).symm
    · right
      subst hi
      rw [hnew] at e
      injection e with e
      injection e with _ e3 e4
      exact ⟨rfl, e3.symm, e4.symm⟩
    · rw [List.getElem?_eq_none (by omega)] at e
      cases e
  have wa' := wa.1
  have wb' := wb.1
  refine ⟨⟨a.id, b.id, ?_, hab, ?_, ?_, ?_, ?_⟩, ?_, ⟨?_, ?_, ?_⟩, ?_⟩
  · rw [hnew, fa, fb, freqIn_append wa.1, freqIn_append wb.1]
  · exact (waits_append (Nat.le_refl _) _ _).2 wa
  · exact (waits_append (Nat.le_refl _) _ _).2 wb
  · intro j hj hja
    have hj' := (waits_append (Nat.le_refl _) _ _).1 hj
    rw [placeBefore_append wa.1 hj'.1]
    obtain ⟨x, hx, rfl⟩ := List.mem_map.1 ((m1 j).2 ⟨hj', hja⟩)
    exact before a x ha (in1 x hx) (hla x hx)
  · intro j hj hja hjb
    have hj' := (waits_append (Nat.le_refl _) _ _).1 hj
    rw [placeBefore_append wb.1 hj'.1]
    obtain ⟨x, hx, rfl⟩ := List.mem_map.1 ((m2 j).2 ⟨⟨hj', hja⟩, hjb⟩)
    exact before b x hb (in1 x (in2 x hx)) (hlb x hx)
  · intro i f l r e
    rcases split_last i f l r e with ⟨hi', e'⟩ | ⟨rfl, rfl, rfl⟩
    · exact hc i f l r e'
    · exact ⟨wa', wb'⟩
  · rw [List.map_append, List.nodup_append]
    refine ⟨hd2, by simp, ?_⟩
    intro x hx y hy
    have hx' := ((m2 x).1 hx).1.1.1
    simp only [List.map_cons, List.map_nil, List.mem_singleton] at hy
    omega
  · intro x hx
    rcases List.mem_append.1 hx with hx | hx
    · have hx' := ((m2 x.id).1 (List.mem_map_of_mem hx)).1.1.1
      rw [freqIn_append hx']
      exact hf x (in1 x (in2 x hx))
    · rw [List.mem_singleton] at hx
      subst hx
      simp only [freqIn]
      rw [hnew]
      rfl
  · intro j
    rw [List.map_append, List.mem_append, m2, len]
    simp only [List.map_cons, List.map_nil, List.mem_singleton]
    constructor
    · rintro (⟨⟨hj, hja⟩, hjb⟩ | rfl)
      · refine ⟨by have := hj.1; omega, fun i f l r hi e => ?_⟩
        rcases split_last i f l r e with ⟨hi', e'⟩ | ⟨_, rfl, rfl⟩
        · exact hj.2 i f l r hi' e'
        · exact ⟨hja, hjb⟩
      · refine ⟨by omega, fun i f l r hi e => ?_⟩
        rcases split_last i f l r e with ⟨hi', e'⟩ | ⟨_, rfl, rfl⟩
        · have := hc i f l r e'
          omega
        · omega
    · rintro ⟨hj, hj2⟩
      by_cases e : j = ns.length
      · exact .inr e
      · left
        have hlast := hj2 ns.length _ _ _ (by omega) hnew
        exact ⟨⟨⟨by omega, fun i f l r hi e' =>
          hj2 i f l r (by omega) (by rw [← e']; exact List.getElem?_append_left hi)⟩, hlast.1⟩, hlast.2⟩
  · have l1 := List.length_erase_of_mem ha
    have l2 := List.length_erase_of_mem hb1
    have p1 := List.length_pos_of_mem ha
    have p2 := List.length_pos_of_mem hb1
    rw [e2, l2]
    rw [e1] at p2 ⊢
    omega

theorem combine_sum {q q₁ q₂ : List Key} {a b : Key} (hd : (q.map Key.id).Nodup) (h1 : popLeast q = some (a, q₁))
    (h2 : popLeast q₁ = some (b, q₂)) (i : Nat) :
    ((q₂ ++ [({ freq := a.freq + b.freq, id := i } : Key)]).map Key.freq).sum = (q.map Key.freq).sum := by
  obtain ⟨ha, e1, _⟩ := popLeast_spec hd h1
  obtain ⟨hb, e2, _⟩ := popLeast_spec (by rw [e1]; exact erase_ids_nodup a hd) h2
  have p1 := ((List.perm_cons_erase ha).map Key.freq).sum_eq
  have p2 := ((List.perm_cons_erase hb).map Key.freq).sum_eq
  rw [← e1] at p1
  rw [← e2] at p2
  simp only [List.map_cons, List.sum_cons, List.map_append, List.sum_append, List.map_nil, List.sum_nil] at p1 p2 ⊢
  omega

/-- What the combining loop leaves: one node in the queue, every node but the first `m` made by the queue of its time (R190, R193, R194). -/
theorem combineLoop_spec (m n : Nat) (ns : List Node) (q : List Key) (hc : ChildrenBelow ns) (hq : QueueOf ns q)
    (hn : q.length ≤ n) (h0 : 0 < q.length) (hm : ∀ k, m ≤ k → k < ns.length → MadeAt ns k) :
    ∃ x, (combineLoop n ns q).2 = [x] ∧ ns <+: (combineLoop n ns q).1 ∧
      (combineLoop n ns q).1.length + 1 = ns.length + q.length ∧
      ChildrenBelow (combineLoop n ns q).1 ∧ QueueOf (combineLoop n ns q).1 [x] ∧
      (∀ k, m ≤ k → k < (combineLoop n ns q).1.length → MadeAt (combineLoop n ns q).1 k) ∧
      x.freq = (q.map Key.freq).sum := by
  induction n generalizing ns q with
  | zero => omega
  | succ n ih =>
    unfold combineLoop
    match e1 : popLeast q with
    | none => rw [popLeast_none e1] at h0; simp at h0
    | some (a, q₁) =>
      simp only
      obtain ⟨ha, eq1, _⟩ := popLeast_spec hq.1 e1
      match e2 : popLeast q₁ with
      | none =>
        have hlen := List.length_erase_of_mem ha
        rw [← eq1, popLeast_none e2] at hlen
        have hl : q.length = 1 := by simp at hlen; omega
        obtain ⟨x, rfl⟩ := List.length_eq_one_iff.1 hl
        refine ⟨x, rfl, List.prefix_refl _, rfl, hc, hq, hm, by simp⟩
      | some (b, q₂) =>
        simp only
        obtain ⟨hmk, hc', hq', hl⟩ := combine_turn hc hq e1 e2
        have hm' : ∀ k, m ≤ k → k < (ns ++ [Node.internal (a.freq + b.freq) a.id b.id]).length →
            MadeAt (ns ++ [Node.internal (a.freq + b.freq) a.id b.id]) k := by
          intro k hk hk'
          by_cases e : k = ns.length
          · rw [e]; exact hmk
          · have hlt : k < ns.length := by rw [List.length_append] at hk'; simp at hk'; omega
            exact (hm k hk hlt).append hlt _
        obtain ⟨x, h1, h2, h3, h4, h5, h6, h7⟩ := ih _ _ hc' hq' (by simp; omega) (by simp) hm'
        refine ⟨x, h1, (List.prefix_append _ _).trans h2, ?_, h4, h5, h6, ?_⟩
        · simp only [List.length_append, List.length_cons, List.length_nil] at h3
          omega
        · rw [h7, combine_sum hq.1 e1 e2]

/-! ## The leaves -/

theorem leafNodes_eq (f : Vector Nat 256) : leafNodes f = (leafSymbols f).map (fun c => Node.leaf c (symGet f c)) := by
  unfold leafNodes leafSymbols
  induction allSymbols with
  | nil => rfl
  | cons c cs ih =>
    by_cases h : symGet f c > 0
    · rw [List.filterMap_cons_some (by rw [if_pos h]), List.filter_cons_of_pos (by simpa using h), List.map_cons, ih]
    · rw [List.filterMap_cons_none (by rw [if_neg h]), List.filter_cons_of_neg (by simpa using h), ih]

theorem mem_leafSymbols (f : Vector Nat 256) (c : Byte) : c ∈ leafSymbols f ↔ symGet f c ≠ 0 := by
  simp [leafSymbols, mem_allSymbols, Nat.pos_iff_ne_zero]

theorem leafSymbols_nodup (f : Vector Nat 256) : (leafSymbols f).Nodup := allSymbols_nodup.filter _

theorem leafSymbols_length (f : Vector Nat 256) : (leafSymbols f).length ≤ 256 := by
  rw [← allSymbols_length]
  exact List.length_filter_le _ _

/-- No leaf is a parent, so the leaves' own queue holds them all. -/
theorem leaves_queue (ls : List Node) (hl : ∀ i f l r : Nat, ls[i]? ≠ some (.internal f l r)) :
    ChildrenBelow ls ∧ QueueOf ls (queueOf ls) ∧ (queueOf ls).length = ls.length := by
  have hids : (queueOf ls).map Key.id = List.range ls.length := by
    unfold queueOf
    rw [List.map_map]
    show ls.zipIdx.map Prod.snd = _
    rw [List.zipIdx_map_snd, List.range_eq_range']
  refine ⟨fun i f l r e => absurd e (hl i f l r), ⟨?_, ?_, ?_⟩, ?_⟩
  · rw [hids]; exact List.nodup_range
  · intro x hx
    unfold queueOf at hx
    obtain ⟨⟨y, i⟩, hy, rfl⟩ := List.mem_map.1 hx
    have := List.mem_zipIdx_iff_getElem?.1 hy
    simp only at this
    simp only [freqIn]
    rw [this]
    rfl
  · intro j
    rw [hids, List.mem_range]
    exact ⟨fun h => ⟨h, fun i f l r _ e => absurd e (hl i f l r)⟩, fun h => h.1⟩
  · simp [queueOf]

theorem queueOf_sum (ls : List Node) : ((queueOf ls).map Key.freq).sum = (ls.map Node.freq).sum := by
  unfold queueOf
  rw [List.map_map]
  show (ls.zipIdx.map (Node.freq ∘ Prod.fst)).sum = _
  rw [← List.map_map, List.zipIdx_map_fst]

/-- The sum of the leaves is the sum of all counters (42_huffman.md R195). -/
theorem leafNodes_sum (f : Vector Nat 256) : ((leafNodes f).map Node.freq).sum = (allSymbols.map (symGet f)).sum := by
  rw [leafNodes_eq, List.map_map]
  unfold leafSymbols
  induction allSymbols with
  | nil => rfl
  | cons c cs ih =>
    by_cases h : 0 < symGet f c
    · rw [List.filter_cons_of_pos (by simpa using h), List.map_cons, List.sum_cons, ih]
      rfl
    · have h0 : symGet f c = 0 := by omega
      rw [List.filter_cons_of_neg (by simpa using h), ih]
      simp [h0]

/-- The tree of counters with at least two non-zero ones (42_huffman.md R190 to R195). -/
theorem buildTree_full (f : Vector Nat 256) (h : 2 ≤ (leafSymbols f).length) :
    (buildTree f).tkind = .full ∧ leafNodes f <+: (buildTree f).nodes ∧
      (buildTree f).nodes.length + 1 = 2 * (leafSymbols f).length ∧ (buildTree f).root + 1 = (buildTree f).nodes.length ∧
      ChildrenBelow (buildTree f).nodes ∧
      (∀ k, (leafSymbols f).length ≤ k → k < (buildTree f).nodes.length → MadeAt (buildTree f).nodes k) ∧
      (∀ j, waits (buildTree f).nodes (buildTree f).nodes.length j ↔ j = (buildTree f).root) ∧
      freqIn (buildTree f).nodes (buildTree f).root = (allSymbols.map (symGet f)).sum := by
  have hlen : (leafNodes f).length = (leafSymbols f).length := by rw [leafNodes_eq, List.length_map]
  have hleaf : ∀ i g l r : Nat, (leafNodes f)[i]? ≠ some (.internal g l r) := by
    intro i g l r
    rw [leafNodes_eq, List.getElem?_map]
    cases (leafSymbols f)[i]? <;> simp
  obtain ⟨hc, hq, hql⟩ := leaves_queue (leafNodes f) hleaf
  obtain ⟨x, h1, h2, h3, h4, h5, h6, h7⟩ := combineLoop_spec (leafSymbols f).length (leafNodes f).length (leafNodes f)
    (queueOf (leafNodes f)) hc hq (by omega) (by omega) (fun k hk hk' => by omega)
  have hb : buildTree f = { nodes := (combineLoop (leafNodes f).length (leafNodes f) (queueOf (leafNodes f))).1,
                            root := x.id, tkind := .full } := by
    unfold buildTree
    split
    · rename_i e; rw [e] at hlen; simp at hlen; omega
    · rename_i e; rw [e] at hlen; simp at hlen; omega
    · simp only
      rw [h1]
      rfl
  rw [hb]
  simp only
  have hw : ∀ j, waits (combineLoop (leafNodes f).length (leafNodes f) (queueOf (leafNodes f))).1
      (combineLoop (leafNodes f).length (leafNodes f) (queueOf (leafNodes f))).1.length j ↔ j = x.id := by
    intro j
    rw [← h5.2.2 j]
    simp
  refine ⟨trivial, h2, by omega, ?_, h4, h6, hw, ?_⟩
  · have hlast := (hw ((combineLoop (leafNodes f).length (leafNodes f) (queueOf (leafNodes f))).1.length - 1)).1
      ⟨by omega, fun i g l r hi e => by have := h4 i g l r e; omega⟩
    omega
  · rw [← h5.2.1 x (by simp), h7, queueOf_sum, leafNodes_sum]

theorem buildTree_empty (f : Vector Nat 256) (h : (leafSymbols f).length = 0) :
    buildTree f = { nodes := [], root := 0, tkind := .empty } := by
  have : leafNodes f = [] := by rw [leafNodes_eq, List.eq_nil_of_length_eq_zero h]; rfl
  unfold buildTree
  rw [this]

theorem buildTree_single (f : Vector Nat 256) (c : Byte) (h : leafSymbols f = [c]) :
    buildTree f = { nodes := [.leaf c (symGet f c)], root := 0, tkind := .single } := by
  have : leafNodes f = [.leaf c (symGet f c)] := by rw [leafNodes_eq, h]; rfl
  unfold buildTree
  rw [this]

/-! ## The tree memory -/

/-- The unit with a tree written to its memory, as HUF_BUILD writes it (42_huffman.md R190). -/
def withTree (h : Huf) (t : Tree) : Huf :=
  { h with node := memSetFrom h.node 0 t.nodes, nnodes := t.nodes.length, root := t.root, tkind := t.tkind }

theorem nodeAt_withTree (h : Huf) (t : Tree) (i : Nat) : nodeAt (withTree h t) i = t.nodes[i]? := by
  unfold nodeAt withTree
  simp only
  split
  · rename_i hi
    rw [memGet_memSetFrom, if_pos (by omega), Nat.sub_zero]
  · rename_i hi
    exact (List.getElem?_eq_none (by omega)).symm

theorem memGet_withTree (h : Huf) (t : Tree) (i : Nat) (hi : t.nodes.length ≤ i) :
    memGet (withTree h t).node i = memGet h.node i := by
  unfold withTree
  simp only
  rw [memGet_memSetFrom, if_neg (by omega)]

/-- The tree of the counters is one that HUF_CODES and HUF_DECODE can use. -/
theorem buildTree_treeOk (h : Huf) (f : Vector Nat 256) (ht : h.total = freqSum f) : TreeOk (withTree h (buildTree f)) := by
  rcases Nat.lt_or_ge (leafSymbols f).length 2 with hl | hl
  · rcases Nat.lt_or_ge 0 (leafSymbols f).length with h1 | h1
    · obtain ⟨c, hc⟩ := List.length_eq_one_iff.1 (show (leafSymbols f).length = 1 by omega)
      rw [buildTree_single f c hc]
      refine ⟨fun e => (by simp [withTree] at e), fun _ => ⟨c, symGet f c, ?_⟩, fun e => (by simp [withTree] at e)⟩
      rw [nodeAt_withTree]
      rfl
    · rw [buildTree_empty f (by omega)]
      refine ⟨fun _ => ?_, fun e => (by simp [withTree] at e), fun e => (by simp [withTree] at e)⟩
      show h.total = 0
      rw [ht, freqSum_eq, ← leafNodes_sum, leafNodes_eq, List.eq_nil_of_length_eq_zero (show (leafSymbols f).length = 0 by omega)]
      rfl
  · obtain ⟨hk, hp, hn, hr, hc, hm, _, _⟩ := buildTree_full f hl
    refine ⟨fun e => ?_, fun e => ?_, fun _ => ⟨?_, fun i hi => ⟨?_, fun g l r e => ?_⟩⟩⟩
    · have e' : (buildTree f).tkind = .empty := e
      rw [hk] at e'
      cases e'
    · have e' : (buildTree f).tkind = .single := e
      rw [hk] at e'
      cases e'
    · obtain ⟨a, b, e, _⟩ := hm (buildTree f).root (by omega) (by omega)
      exact ⟨_, a, b, by rw [nodeAt_withTree]; exact e⟩
    · have hi' : i < (buildTree f).nodes.length := hi
      exact ⟨(buildTree f).nodes[i], by rw [nodeAt_withTree, List.getElem?_eq_getElem hi']⟩
    · rw [nodeAt_withTree] at e
      exact hc i g l r e

theorem buildTree_length (f : Vector Nat 256) : (buildTree f).nodes.length ≤ 511 := by
  have hle := leafSymbols_length f
  rcases Nat.lt_or_ge (leafSymbols f).length 2 with hl | hl
  · rcases Nat.lt_or_ge 0 (leafSymbols f).length with h1 | h1
    · obtain ⟨c, hc⟩ := List.length_eq_one_iff.1 (show (leafSymbols f).length = 1 by omega)
      rw [buildTree_single f c hc]
      simp
    · rw [buildTree_empty f (by omega)]
      simp
  · have := (buildTree_full f hl).2.2.1
    omega

end Sys2Proof.Machine
end

