-- ==== Sys2Proof/Laws/Codes.lean ====
section
/-! SUPPORT. Walking a tree: where paths lead, and what the walk of HUF_CODES leaves in the code table. -/

namespace Sys2Proof.Machine

/-! ## Paths -/

/-- The end of a path is a leaf that no longer path passes. -/
theorem follow_prefix {h : Huf} {i : Nat} {p q : List Bool} {c d : Byte} {f g : Nat} (hp : follow h i p = some (.leaf c f))
    (hq : follow h i q = some (.leaf d g)) (hpq : p <+: q) : p = q := by
  induction p generalizing i q with
  | nil =>
    cases q with
    | nil => rfl
    | cons y q =>
      simp only [follow] at hp hq
      rw [hp] at hq
      cases hq
  | cons x p ih =>
    cases q with
    | nil => simp at hpq
    | cons y q =>
      rw [List.cons_prefix_cons] at hpq
      obtain ⟨rfl, hpq⟩ := hpq
      simp only [follow] at hp hq
      split at hp
      · rename_i e
        rw [e] at hq
        rw [ih hp hq hpq]
      · cases hp

/-! ## The walk -/

/-- What the walk from node `i` makes of a table: each leaf below `i` has written its path, and nothing else is written
(42_huffman.md R200, R202). -/
theorem walk_spec {h : Huf} (ht : ∀ i, i < h.nnodes → (∃ n, nodeAt h i = some n) ∧
      ∀ f l r, nodeAt h i = some (.internal f l r) → l < i ∧ r < i)
    (n i : Nat) (path : List Bool) (t : Vector (List Bool) 256) (hi : i < h.nnodes) (hn : i < n) :
    ∃ t', walk h n i path t = some t' ∧ ∀ c,
      ((∃ p f, follow h i p = some (.leaf c f) ∧ symGet t' c = path ++ p) ∨
       ((∀ p f, follow h i p ≠ some (.leaf c f)) ∧ symGet t' c = symGet t c)) := by
  induction n generalizing i path t with
  | zero => omega
  | succ n ih =>
    obtain ⟨⟨x, hx⟩, hc⟩ := ht i hi
    unfold walk
    rw [hx]
    cases x with
    | leaf d f =>
      refine ⟨_, rfl, fun c => ?_⟩
      by_cases e : d = c
      · subst e
        exact .inl ⟨[], f, by simpa [follow] using hx, by rw [symGet_symSet, if_pos rfl, List.append_nil]⟩
      · right
        refine ⟨fun p g hg => ?_, by rw [symGet_symSet, if_neg e]⟩
        cases p with
        | nil => simp only [follow] at hg; rw [hx] at hg; cases hg; exact e rfl
        | cons y p => simp only [follow] at hg; rw [hx] at hg; cases hg
    | internal g l r =>
      obtain ⟨hl, hr⟩ := hc g l r hx
      obtain ⟨t₁, e₁, h₁⟩ := ih l (path ++ [false]) t (by omega) (by omega)
      obtain ⟨t₂, e₂, h₂⟩ := ih r (path ++ [true]) t₁ (by omega) (by omega)
      refine ⟨t₂, by simp only; rw [e₁]; exact e₂, fun c => ?_⟩
      rcases h₂ c with ⟨p, f, hp, e⟩ | ⟨hno, e⟩
      · exact .inl ⟨true :: p, f, by simp only [follow]; rw [hx]; exact hp, by rw [e]; simp⟩
      · rcases h₁ c with ⟨p, f, hp, e'⟩ | ⟨hno', e'⟩
        · exact .inl ⟨false :: p, f, by simp only [follow]; rw [hx]; exact hp, by rw [e, e']; simp⟩
        · right
          refine ⟨fun p f hp => ?_, by rw [e, e']⟩
          cases p with
          | nil => simp only [follow] at hp; rw [hx] at hp; cases hp
          | cons y p =>
            simp only [follow] at hp
            rw [hx] at hp
            cases y
            · exact hno' p f hp
            · exact hno p f hp

/-- HUF_CODES finds a code table for every usable tree (R200 to R204). -/
theorem codeTable_some {h : Huf} (ht : TreeOk h) : ∃ t, codeTable h = some t := by
  unfold codeTable
  match hk : h.tkind with
  | .empty => exact ⟨_, rfl⟩
  | .single =>
    obtain ⟨c, f, e⟩ := ht.2.1 hk
    exact ⟨_, by simp only; rw [e]⟩
  | .full =>
    obtain ⟨f, l, r, hroot⟩ := (ht.2.2 hk).1
    have hi : h.root < h.nnodes := by
      unfold nodeAt at hroot
      split at hroot
      · assumption
      · cases hroot
    obtain ⟨t, e, _⟩ := walk_spec (ht.2.2 hk).2 h.nnodes h.root [] (Vector.replicate 256 []) hi hi
    exact ⟨t, e⟩

end Sys2Proof.Machine
end

