-- ==== Sys2Proof/Laws/Frames.lean ====
section
/-! SUPPORT. What every command leaves as it is. -/

namespace Sys2Proof.Machine

/-- Only RESULT, CODE_LEN, the bit stream and the units differ. -/
def Kept (s t : State) : Prop :=
  t = { s with result := t.result, codeLen := t.codeLen, bs := t.bs, huf := t.huf, lzw := t.lzw }

/-- The commands that write RESULT (10_state.md R28). -/
def writesResult : Instr → Bool
  | .bsRdbits _ | .bsRdbit | .hufGetfreq _ | .hufLookup _ _ => true
  | .nop | .bsInit | .bsWrbits _ | .bsWrbit _ | .bsAlign | .bsEnd | .bsDrain | .hufInit | .hufCount | .hufRdhdr => false
  | .hufBuild | .hufCodes | .hufEncode | .hufDecode | .lzwInit | .lzwEncode | .lzwDecode => false

/-- The commands that write CODE_LEN (10_state.md R37). -/
def writesCodeLen : Instr → Bool
  | .hufLookup _ _ => true
  | .nop | .bsInit | .bsWrbits _ | .bsRdbits _ | .bsWrbit _ | .bsRdbit | .bsAlign | .bsEnd | .bsDrain | .hufInit => false
  | .hufCount | .hufRdhdr | .hufBuild | .hufCodes | .hufEncode | .hufDecode | .hufGetfreq _ | .lzwInit => false
  | .lzwEncode | .lzwDecode => false

/-- The commands that write the Huffman unit. -/
def writesHuf : Instr → Bool
  | .hufInit | .hufCount | .hufRdhdr | .hufBuild | .hufCodes | .hufEncode | .hufDecode => true
  | .nop | .bsInit | .bsWrbits _ | .bsRdbits _ | .bsWrbit _ | .bsRdbit | .bsAlign | .bsEnd | .bsDrain => false
  | .hufGetfreq _ | .hufLookup _ _ | .lzwInit | .lzwEncode | .lzwDecode => false

/-- The commands that write the LZW unit. -/
def writesLzw : Instr → Bool
  | .lzwInit | .lzwEncode | .lzwDecode => true
  | .nop | .bsInit | .bsWrbits _ | .bsRdbits _ | .bsWrbit _ | .bsRdbit | .bsAlign | .bsEnd | .bsDrain => false
  | .hufInit | .hufCount | .hufRdhdr | .hufBuild | .hufCodes | .hufEncode | .hufDecode => false
  | .hufGetfreq _ | .hufLookup _ _ => false

/-- What the command `i` leaves as it is. -/
structure Frame (i : Instr) (s t : State) : Prop where
  kept : Kept s t
  result : writesResult i = false → t.result = s.result
  codeLen : writesCodeLen i = false → t.codeLen = s.codeLen
  huf : writesHuf i = false → t.huf = s.huf
  lzw : writesLzw i = false → t.lzw = s.lzw

theorem frame_refl (i : Instr) (s : State) : Frame i s s := ⟨rfl, fun _ => rfl, fun _ => rfl, fun _ => rfl, fun _ => rfl⟩

theorem frame_withBs (i : Instr) (s : State) (b : Stream) : Frame i s (s.withBs b) :=
  ⟨rfl, fun _ => rfl, fun _ => rfl, fun _ => rfl, fun _ => rfl⟩

theorem frame_read (i : Instr) (s : State) (b : Stream) (v : Word) (h : writesResult i = true) :
    Frame i s ((s.withBs b).withResult v) :=
  ⟨rfl, by simp [h], fun _ => rfl, fun _ => rfl, fun _ => rfl⟩

theorem frame_huf (i : Instr) (s : State) (b : Stream) (h : Huf) (hw : writesHuf i = true) :
    Frame i s ((s.withBs b).withHuf h) :=
  ⟨rfl, fun _ => rfl, fun _ => rfl, by simp [hw], fun _ => rfl⟩

theorem frame_lzw (i : Instr) (s : State) (b : Stream) (z : Lzw) (hw : writesLzw i = true) :
    Frame i s ((s.withBs b).withLzw z) :=
  ⟨rfl, fun _ => rfl, fun _ => rfl, fun _ => rfl, by simp [hw]⟩

/-- The frame of every command, before completion. -/
theorem runCommand_frame (i : Instr) (s : State) : RunEnds (Frame i s) (Frame i s) (runCommand i s) := by
  cases i with
  | nop => exact frame_refl _ _
  | bsInit => exact frame_withBs _ _ _
  | bsWrbits w =>
    show RunEnds _ _ (runBsWrbits w s)
    unfold runBsWrbits checkWidth
    split
    · exact frame_refl _ _
    · exact frame_withBs _ _ _
  | bsRdbits w =>
    show RunEnds _ _ (runBsRdbits w s)
    unfold runBsRdbits checkWidth
    split
    · exact frame_refl _ _
    · unfold readIntoResult
      split
      · exact frame_read _ _ _ _ rfl
      · exact frame_read _ _ _ _ rfl
      · trivial
  | bsWrbit r => exact frame_withBs _ _ _
  | bsRdbit =>
    show RunEnds _ _ (runBsRdbit s)
    unfold runBsRdbit
    split
    · exact frame_read _ _ _ _ rfl
    · exact frame_read _ _ _ _ rfl
    · trivial
  | bsAlign => exact frame_withBs _ _ _
  | bsEnd => exact frame_withBs _ _ _
  | bsDrain =>
    show RunEnds _ _ (runBsDrain s)
    unfold runBsDrain
    split
    · exact frame_withBs _ _ _
    · exact frame_withBs _ _ _
    · trivial
  | hufInit => exact frame_huf _ _ _ _ rfl
  | hufCount =>
    refine checkPre_ends (frame_refl _ _) (fun _ => ?_)
    dsimp only
    split
    · exact frame_huf _ _ _ _ rfl
    · exact frame_huf _ _ _ _ rfl
    · trivial
    · trivial
  | hufRdhdr =>
    refine checkPre_ends (frame_refl _ _) (fun _ => ?_)
    split
    · exact frame_huf _ _ _ _ rfl
    · exact frame_huf _ _ _ _ rfl
    · exact frame_withBs _ _ _
    · trivial
    · trivial
  | hufBuild => exact checkPre_ends (frame_refl _ _) (fun _ => frame_huf _ s s.bs _ rfl)
  | hufCodes =>
    refine checkPre_ends (frame_refl _ _) (fun _ => ?_)
    split
    · exact frame_huf _ s s.bs _ rfl
    · trivial
  | hufEncode =>
    refine checkPre_ends (frame_refl _ _) (fun _ => ?_)
    dsimp only
    split
    · split
      · exact frame_huf _ _ _ _ rfl
      · exact frame_huf _ _ _ _ rfl
    · exact frame_huf _ _ _ _ rfl
    · trivial
    · trivial
  | hufDecode =>
    refine checkPre_ends (frame_refl _ _) (fun _ => ?_)
    split
    · exact frame_huf _ _ _ _ rfl
    · split
      · exact frame_huf _ _ _ _ rfl
      · exact frame_huf _ _ _ _ rfl
      · trivial
    · exact frame_withBs _ _ _
    · trivial
    · trivial
  | hufGetfreq c => exact frame_read _ s s.bs _ rfl
  | hufLookup c k =>
    exact checkPre_ends (frame_refl _ _) (fun _ => ⟨rfl, nofun, nofun, fun _ => rfl, fun _ => rfl⟩)
  | lzwInit =>
    show RunEnds _ _ (runLzwInit s)
    unfold runLzwInit checkCodeWidth
    dsimp only
    split
    · exact frame_refl _ _
    · exact frame_lzw _ _ _ _ rfl
  | lzwEncode =>
    refine checkPre_ends (frame_refl _ _) (fun _ => ?_)
    split
    · exact frame_lzw _ _ _ _ rfl
    · exact frame_lzw _ _ _ _ rfl
    · exact frame_withBs _ _ _
    · trivial
    · trivial
  | lzwDecode =>
    refine checkPre_ends (frame_refl _ _) (fun _ => ?_)
    split
    · exact frame_lzw _ _ _ _ rfl
    · exact frame_lzw _ _ _ _ rfl
    · trivial
    · trivial

/-- The frame of every command's engine step to a next state (10_state.md R28, R37; 20_memory.md R87): but for what `Frame`
lists, only BUSY, DONE and, with an error, ERR and ERRINFO change. -/
theorem exec_frame {i : Instr} {s t : State} (h : exec i s = .next t) :
    Frame i s { t with busy := s.busy, done := s.done, err := s.err, errInfo := s.errInfo } := by
  have hf := runCommand_frame i s
  rcases exec_next_cases h with ⟨u, e, rfl⟩ | ⟨c, n, u, e, rfl⟩ | ⟨b, e, rfl⟩
  · rw [e] at hf
    obtain ⟨hk, h1, h2, h3, h4⟩ := hf
    refine ⟨?_, h1, h2, h3, h4⟩
    unfold Kept at hk ⊢
    rw [hk]
    rfl
  · rw [e] at hf
    obtain ⟨hk, h1, h2, h3, h4⟩ := hf
    refine ⟨?_, h1, h2, h3, h4⟩
    unfold Kept at hk ⊢
    rw [hk]
    rfl
  · exact frame_refl _ _

end Sys2Proof.Machine
end

