-- ==== Sys2Proof/Laws/Input.lean ====
section
/-! SUPPORT. More tokens behind those now in IN: a read or a loop that ends does the same with them, and one that waits goes on
from where it waits. -/

namespace Sys2Proof.Machine

@[simp] theorem pushed_inp (ts : List Token) (b : Stream) : (pushed ts b).inp = b.inp ++ ts := rfl
@[simp] theorem pushed_out (ts : List Token) (b : Stream) : (pushed ts b).out = b.out := rfl
@[simp] theorem pushed_rcnt (ts : List Token) (b : Stream) : (pushed ts b).rcnt = b.rcnt := rfl
@[simp] theorem pushed_eodf (ts : List Token) (b : Stream) : (pushed ts b).eodf = b.eodf := rfl
@[simp] theorem pushed_wcnt (ts : List Token) (b : Stream) : (pushed ts b).wcnt = b.wcnt := rfl
@[simp] theorem rdRestart_pushed (ts : List Token) (b : Stream) : rdRestart (pushed ts b) = pushed ts (rdRestart b) := rfl

theorem available_pushed (ts : List Token) (b : Stream) : available b ≤ available (pushed ts b) := by
  simp only [available, pushed_inp, pushed_rcnt, List.length_append]
  omega

/-! ## Writing does not look at IN -/

theorem writeBools_pushed (ts : List Token) (rs : List Bool) (b : Stream) :
    writeBools rs (pushed ts b) = pushed ts (writeBools rs b) := by
  obtain ⟨h1, h2, h3, h4, h5⟩ := writeBools_reader rs b
  have := writeBools_withReader rs b (b.inp ++ ts) b.rbuf b.rcnt b.eodf b.cntIn
  simp only [Stream.withReader] at this
  refine this.trans ?_
  simp only [pushed, h1, h2, h3, h4, h5]

theorem writeBits_pushed (v w : Nat) (ts : List Token) (b : Stream) :
    writeBits v w (pushed ts b) = pushed ts (writeBits v w b) := by
  rw [writeBits_eq_writeBools, writeBits_eq_writeBools, writeBools_pushed]

theorem align_pushed (ts : List Token) (b : Stream) : align (pushed ts b) = pushed ts (align b) := by
  rw [align_eq, align_eq, pushed_wcnt, writeBools_pushed]

theorem finalize_pushed (ts : List Token) (b : Stream) : finalize (pushed ts b) = pushed ts (finalize b) := by
  unfold finalize
  rw [align_pushed]
  rfl

theorem writeHeader_pushed (w : Nat) (f : Vector Nat 256) (ts : List Token) (b : Stream) :
    writeHeader w f (pushed ts b) = pushed ts (writeHeader w f b) := by
  unfold writeHeader
  generalize allSymbols = cs
  induction cs generalizing b with
  | nil => rfl
  | cons c cs ih => rw [List.foldl_cons, List.foldl_cons, writeBits_pushed, ih]

theorem writeSymbols_pushed (cs : List Byte) (ts : List Token) (b : Stream) :
    writeSymbols cs (pushed ts b) = pushed ts (writeSymbols cs b) := by
  induction cs generalizing b with
  | nil => rfl
  | cons c cs ih => rw [writeSymbols, writeBits_pushed, ih, writeSymbols]

/-! ## Reads -/

/-- How the answer `r'` with more tokens follows the answer `r` without them. -/
def RdPushed {α : Type} (ts : List Token) (r r' : Rd α) : Prop :=
  match r with
  | .ok x b => r' = .ok x (pushed ts b)
  | .eod b => r' = .eod (pushed ts b)
  | .wait b => b.inp = [] ∧ RdMoved (pushed ts b) r'

theorem readBit_pushed (ts : List Token) (b : Stream) : RdPushed ts (readBit b) (readBit (pushed ts b)) := by
  by_cases h0 : b.rcnt = 0
  · cases he : b.eodf with
    | true => simp [readBit, h0, he, RdPushed]
    | false =>
      match hi : b.inp with
      | [] =>
        have e : readBit b = .wait b := by simp [readBit, h0, he, hi]
        rw [e]
        exact ⟨hi, readBit_moved _⟩
      | .stop :: rest => simp [readBit, h0, he, hi, RdPushed, pushed]
      | .byte x :: rest => simp [readBit, h0, he, hi, RdPushed, pushed, takeBit, refill]
  · simp [readBit, h0, RdPushed, takeBit, pushed]

theorem readBitsFrom_pushed (w acc : Nat) (ts : List Token) (b : Stream) :
    RdPushed ts (readBitsFrom w acc b) (readBitsFrom w acc (pushed ts b)) := by
  induction w generalizing acc b with
  | zero => rfl
  | succ w ih =>
    have h := readBit_pushed ts b
    unfold readBitsFrom
    cases hr : readBit b with
    | ok x b' => rw [hr] at h; simp only [RdPushed] at h; rw [h]; exact ih _ _
    | eod b' => rw [hr] at h; simp only [RdPushed] at h; rw [h]; rfl
    | wait b' =>
      rw [hr] at h
      obtain ⟨hi, hm⟩ := h
      refine ⟨hi, ?_⟩
      cases hr' : readBit (pushed ts b) with
      | ok x c => rw [hr'] at hm; exact RdMoved.trans hm (readBitsFrom_moved _ _ _)
      | eod c => rw [hr'] at hm; exact hm
      | wait c => rw [hr'] at hm; exact hm

/-- ReadBits with more tokens (20_memory.md R76, 41_bitstream.md R142). -/
theorem readBits_pushed (w : Nat) (ts : List Token) (b : Stream) :
    RdPushed ts (readBits w b) (readBits w (pushed ts b)) := readBitsFrom_pushed w 0 ts b

theorem drainFrom_pushed (us ts : List Token) (b : Stream) (hi : b.inp = us) (h0 : b.rcnt = 0) :
    RdPushed ts (drainFrom us b) (drainFrom (us ++ ts) (pushed ts b)) := by
  induction us generalizing b with
  | nil =>
    refine ⟨rfl, ?_⟩
    have := drainFrom_moved ts (pushed ts b) (by simp [hi]) h0
    simpa [pushed, hi] using this
  | cons t us ih =>
    cases t with
    | stop => rfl
    | byte c =>
      have := ih { b with inp := us, cntIn := b.cntIn + 1 } rfl h0
      simp only [List.cons_append, drainFrom]
      have key : ∀ (vs : List Token) (c : Stream) (i : List Token), drainFrom vs { c with inp := i } = drainFrom vs c := by
        intro vs
        induction vs with
        | nil => intro c i; rfl
        | cons v vs ih =>
          intro c i
          cases v with
          | stop => rfl
          | byte y => exact ih { c with cntIn := c.cntIn + 1 } i
      rw [key us { b with cntIn := b.cntIn + 1 } us] at this
      rw [show pushed ts { b with inp := us, cntIn := b.cntIn + 1 } =
        { { b with cntIn := b.cntIn + 1 } with inp := us ++ ts } from rfl, key] at this
      rw [show ({ pushed ts b with cntIn := (pushed ts b).cntIn + 1 } : Stream) =
        { { b with cntIn := b.cntIn + 1 } with inp := b.inp ++ ts } from rfl, key]
      exact this

/-- Drain with more tokens (41_bitstream.md R149). -/
theorem drain_pushed (ts : List Token) (b : Stream) : RdPushed ts (drain b) (drain (pushed ts b)) := by
  unfold drain
  rw [pushed_eodf]
  split
  · rfl
  · exact drainFrom_pushed b.inp ts { b with rcnt := 0 } rfl rfl

/-! ## Loops -/

/-- How what a loop comes to with more tokens, `l'`, follows what it comes to without them. -/
def LoopPushed {β : Type} (ts : List Token) (l l' : Loop β) : Prop :=
  match l with
  | .done x b => l' = .done x (pushed ts b)
  | .raise c i x b => l' = .raise c i x (pushed ts b)
  | .wait b => b.inp = [] ∧ LoopMoved (pushed ts b) l'
  | .fault _ => True

theorem countLoop_pushed (limit n n' : Nat) (hn : n ≤ n') (f : Vector Nat 256) (ts : List Token) (b : Stream) :
    LoopPushed ts (countLoop limit n f b) (countLoop limit n' f (pushed ts b)) := by
  induction n generalizing n' f b with
  | zero => trivial
  | succ n ih =>
    obtain ⟨m, rfl⟩ : ∃ m, n' = m + 1 := ⟨n' - 1, by omega⟩
    have h := readBits_pushed 8 ts b
    unfold countLoop
    cases hr : readBits 8 b with
    | ok x b' =>
      rw [hr] at h; simp only [RdPushed] at h; rw [h]
      dsimp only
      split
      · rfl
      · exact ih _ (by omega) _ _
    | eod b' => rw [hr] at h; simp only [RdPushed] at h; rw [h]; rfl
    | wait b' =>
      rw [hr] at h
      obtain ⟨hi, hm⟩ := h
      refine ⟨hi, ?_⟩
      cases hr' : readBits 8 (pushed ts b) with
      | ok x c =>
        rw [hr'] at hm
        dsimp only
        split
        · exact hm
        · exact LoopMoved.trans hm (countLoop_moved _ _ _ _)
      | eod c => rw [hr'] at hm; exact hm
      | wait c => rw [hr'] at hm; exact hm

theorem headerLoop_pushed (w : Nat) (cs : List Byte) (f : Vector Nat 256) (ts : List Token) (b : Stream) :
    LoopPushed ts (headerLoop w cs f b) (headerLoop w cs f (pushed ts b)) := by
  induction cs generalizing f b with
  | nil => rfl
  | cons c cs ih =>
    have h := readBits_pushed w ts b
    unfold headerLoop
    cases hr : readBits w b with
    | ok x b' => rw [hr] at h; simp only [RdPushed] at h; rw [h]; exact ih _ _
    | eod b' => rw [hr] at h; simp only [RdPushed] at h; rw [h]; rfl
    | wait b' =>
      rw [hr] at h
      obtain ⟨hi, hm⟩ := h
      refine ⟨hi, ?_⟩
      cases hr' : readBits w (pushed ts b) with
      | ok x c => rw [hr'] at hm; exact LoopMoved.trans hm (headerLoop_moved _ _ _ _)
      | eod c => rw [hr'] at hm; exact hm
      | wait c => rw [hr'] at hm; exact hm

theorem encodeLoop_pushed (code : Vector (List Bool) 256) (total n n' k : Nat) (hn : n ≤ n') (ts : List Token) (b : Stream) :
    LoopPushed ts (encodeLoop code total n k b) (encodeLoop code total n' k (pushed ts b)) := by
  induction n generalizing n' k b with
  | zero => trivial
  | succ n ih =>
    obtain ⟨m, rfl⟩ : ∃ m, n' = m + 1 := ⟨n' - 1, by omega⟩
    have h := readBits_pushed 8 ts b
    unfold encodeLoop
    cases hr : readBits 8 b with
    | ok x b' =>
      rw [hr] at h; simp only [RdPushed] at h; rw [h]
      dsimp only
      split
      · rfl
      · split
        · rfl
        · rw [writeBools_pushed]; exact ih _ _ (by omega) _
    | eod b' => rw [hr] at h; simp only [RdPushed] at h; rw [h]; rfl
    | wait b' =>
      rw [hr] at h
      obtain ⟨hi, hm⟩ := h
      refine ⟨hi, ?_⟩
      cases hr' : readBits 8 (pushed ts b) with
      | ok x c =>
        rw [hr'] at hm
        dsimp only
        split
        · exact hm
        · split
          · exact hm
          · exact LoopMoved.trans (Moved.trans hm (writeBools_moved _ _)) (encodeLoop_moved _ _ _ _ _)
      | eod c => rw [hr'] at hm; exact hm
      | wait c => rw [hr'] at hm; exact hm

theorem lzwEncodeLoop_pushed (n n' : Nat) (hn : n ≤ n') (p : Option Nat) (z : Lzw) (ts : List Token) (b : Stream) :
    LoopPushed ts (lzwEncodeLoop n p z b) (lzwEncodeLoop n' p z (pushed ts b)) := by
  induction n generalizing n' p z b with
  | zero => trivial
  | succ n ih =>
    obtain ⟨m, rfl⟩ : ∃ m, n' = m + 1 := ⟨n' - 1, by omega⟩
    have h := readBits_pushed 8 ts b
    unfold lzwEncodeLoop
    cases hr : readBits 8 b with
    | ok x b' =>
      rw [hr] at h; simp only [RdPushed] at h; rw [h]
      dsimp only
      split
      · exact ih _ (by omega) _ _ _
      · split
        · exact ih _ (by omega) _ _ _
        · rw [emitCode, emitCode, writeBits_pushed]; exact ih _ (by omega) _ _ _
    | eod b' => rw [hr] at h; simp only [RdPushed] at h; rw [h]; rfl
    | wait b' =>
      rw [hr] at h
      obtain ⟨hi, hm⟩ := h
      refine ⟨hi, ?_⟩
      cases hr' : readBits 8 (pushed ts b) with
      | ok x c =>
        rw [hr'] at hm
        dsimp only
        split
        · exact LoopMoved.trans hm (lzwEncodeLoop_moved _ _ _ _)
        · split
          · exact LoopMoved.trans hm (lzwEncodeLoop_moved _ _ _ _)
          · exact LoopMoved.trans (Moved.trans hm (emitCode_moved _ _ _)) (lzwEncodeLoop_moved _ _ _ _)
      | eod c => rw [hr'] at hm; exact hm
      | wait c => rw [hr'] at hm; exact hm

theorem lzwDecodeLoop_pushed (n n' : Nat) (hn : n ≤ n') (pk : Option Nat) (z : Lzw) (ts : List Token) (b : Stream) :
    LoopPushed ts (lzwDecodeLoop n pk z b) (lzwDecodeLoop n' pk z (pushed ts b)) := by
  induction n generalizing n' pk z b with
  | zero => trivial
  | succ n ih =>
    obtain ⟨m, rfl⟩ : ∃ m, n' = m + 1 := ⟨n' - 1, by omega⟩
    have h := readBits_pushed z.ln.toNat ts b
    unfold lzwDecodeLoop
    cases hr : readBits z.ln.toNat b with
    | ok x b' =>
      rw [hr] at h; simp only [RdPushed] at h; rw [h]
      dsimp only
      split
      · rfl
      · trivial
      · rw [writeSymbols_pushed]; exact ih _ (by omega) _ _ _
    | eod b' => rw [hr] at h; simp only [RdPushed] at h; rw [h]; rfl
    | wait b' =>
      rw [hr] at h
      obtain ⟨hi, hm⟩ := h
      refine ⟨hi, ?_⟩
      cases hr' : readBits z.ln.toNat (pushed ts b) with
      | ok x c =>
        rw [hr'] at hm
        dsimp only
        split
        · exact hm
        · trivial
        · exact LoopMoved.trans (Moved.trans hm (writeSymbols_moved _ _)) (lzwDecodeLoop_moved _ _ _ _)
      | eod c => rw [hr'] at hm; exact hm
      | wait c => rw [hr'] at hm; exact hm

/-- How the decoding of a symbol with more tokens follows the one without them. -/
def SymPushed (ts : List Token) (r r' : SymRead) : Prop :=
  match r with
  | .sym c b => r' = .sym c (pushed ts b)
  | .eod b => r' = .eod (pushed ts b)
  | .wait b => b.inp = [] ∧ SymMoved (pushed ts b) r'
  | .fault _ => True

theorem descend_pushed (h : Huf) (n n' i : Nat) (hn : n ≤ n') (ts : List Token) (b : Stream) :
    SymPushed ts (descend h n i b) (descend h n' i (pushed ts b)) := by
  induction n generalizing n' i b with
  | zero => trivial
  | succ n ih =>
    obtain ⟨m, rfl⟩ : ∃ m, n' = m + 1 := ⟨n' - 1, by omega⟩
    unfold descend
    split
    · trivial
    · rfl
    · have hp := readBit_pushed ts b
      cases hr : readBit b with
      | ok x b' => rw [hr] at hp; simp only [RdPushed] at hp; rw [hp]; exact ih _ _ (by omega) _
      | eod b' => rw [hr] at hp; simp only [RdPushed] at hp; rw [hp]; rfl
      | wait b' =>
        rw [hr] at hp
        obtain ⟨hi, hm⟩ := hp
        refine ⟨hi, ?_⟩
        cases hr' : readBit (pushed ts b) with
        | ok x c => rw [hr'] at hm; exact SymMoved.trans hm (descend_moved _ _ _ _)
        | eod c => rw [hr'] at hm; exact hm
        | wait c => rw [hr'] at hm; exact hm

theorem decodeSymbol_pushed (h : Huf) (ts : List Token) (b : Stream) :
    SymPushed ts (decodeSymbol h b) (decodeSymbol h (pushed ts b)) := by
  unfold decodeSymbol
  split
  · split
    · have hp := readBit_pushed ts b
      cases hr : readBit b with
      | ok x b' => rw [hr] at hp; simp only [RdPushed] at hp; rw [hp]; rfl
      | eod b' => rw [hr] at hp; simp only [RdPushed] at hp; rw [hp]; rfl
      | wait b' =>
        rw [hr] at hp
        obtain ⟨hi, hm⟩ := hp
        refine ⟨hi, ?_⟩
        cases hr' : readBit (pushed ts b) with
        | ok x c => rw [hr'] at hm; exact hm
        | eod c => rw [hr'] at hm; exact hm
        | wait c => rw [hr'] at hm; exact hm
    · trivial
  · exact descend_pushed h _ _ _ (by have := available_pushed ts b; omega) ts b

theorem decodeLoop_pushed (h : Huf) (n n' k : Nat) (hn : n ≤ n') (ts : List Token) (b : Stream) :
    LoopPushed ts (decodeLoop h n k b) (decodeLoop h n' k (pushed ts b)) := by
  induction n generalizing n' k b with
  | zero =>
    unfold decodeLoop
    split
    · trivial
    · rename_i hk
      cases n' with
      | zero => exact if_neg hk
      | succ m => exact if_neg hk
  | succ n ih =>
    obtain ⟨m, rfl⟩ : ∃ m, n' = m + 1 := ⟨n' - 1, by omega⟩
    unfold decodeLoop
    split
    · have hp := decodeSymbol_pushed h ts b
      cases hr : decodeSymbol h b with
      | sym c b' =>
        rw [hr] at hp; simp only [SymPushed] at hp; rw [hp]
        dsimp only
        rw [writeBits_pushed]
        exact ih _ _ (by omega) _
      | eod b' => rw [hr] at hp; simp only [SymPushed] at hp; rw [hp]; rfl
      | wait b' =>
        rw [hr] at hp
        obtain ⟨hi, hm⟩ := hp
        refine ⟨hi, ?_⟩
        cases hr' : decodeSymbol h (pushed ts b) with
        | sym c x => rw [hr'] at hm; exact LoopMoved.trans (Moved.trans hm (writeBits_moved _ _ _)) (decodeLoop_moved _ _ _ _)
        | eod x => rw [hr'] at hm; exact hm
        | wait x => rw [hr'] at hm; exact hm
        | fault e => trivial
      | fault e => trivial
    · rfl

end Sys2Proof.Machine
end

