-- ==== Sys2Proof/Laws/Progress.lean ====
section
/-! SUPPORT. The loops of the commands end within their bounds: with as many turns as there are bits at hand, and one more,
none ends in a fault on a tree or a dictionary of the shape the unit keeps. -/

namespace Sys2Proof.Machine

/-! ## Each read takes its bits -/

theorem readBits_available {w v : Nat} {b b' : Stream} (h : readBits w b = .ok v b') : available b = available b' + w := by
  by_cases hw : w ≤ (inBits b).length
  · obtain ⟨b₁, e, _, _, _, _, ha, _⟩ := readBits_ok hw
    rw [e] at h
    cases h
    exact ha
  · obtain ⟨b₁, _, _, e⟩ := readBits_end (w := w) (b := b) (by omega)
    rw [e] at h
    split at h <;> cases h

theorem readBit_available {x : Bool} {b b' : Stream} (h : readBit b = .ok x b') : available b = available b' + 1 := by
  match hi : inBits b with
  | [] =>
    rw [readBit_end hi] at h
    split at h <;> cases h
  | y :: r =>
    obtain ⟨b₁, e, _, _, _, _, _, ha, _⟩ := readBit_ok hi
    rw [e] at h
    cases h
    exact ha

/-! ## The loops over bytes -/

theorem countLoop_ne_fault (limit n : Nat) (f : Vector Nat 256) (b : Stream) (e : Fault) (h : available b < n) :
    countLoop limit n f b ≠ .fault e := by
  induction n generalizing f b with
  | zero => omega
  | succ n ih =>
    unfold countLoop
    split
    · simp
    · simp
    · rename_i r b' hr
      have := readBits_available hr
      simp only
      split
      · simp
      · exact ih _ _ (by omega)

theorem headerLoop_ne_fault (w : Nat) (cs : List Byte) (f : Vector Nat 256) (b : Stream) (e : Fault) :
    headerLoop w cs f b ≠ .fault e := by
  induction cs generalizing f b with
  | nil => simp [headerLoop]
  | cons c cs ih =>
    unfold headerLoop
    split
    · simp
    · simp
    · exact ih _ _

theorem encodeLoop_ne_fault (code : Vector (List Bool) 256) (total n k : Nat) (b : Stream) (e : Fault)
    (h : available b < n) : encodeLoop code total n k b ≠ .fault e := by
  induction n generalizing k b with
  | zero => omega
  | succ n ih =>
    unfold encodeLoop
    split
    · simp
    · simp
    · rename_i r b' hr
      have := readBits_available hr
      simp only
      split
      · simp
      · split
        · simp
        · exact ih _ _ (by rw [available_writeBools]; omega)

theorem available_writeBits (v w : Nat) (b : Stream) : available (writeBits v w b) = available b := by
  rw [writeBits_eq_writeBools, available_writeBools]

theorem lzwEncodeLoop_ne_fault (n : Nat) (p : Option Nat) (z : Lzw) (b : Stream) (e : Fault) (h : available b < n) :
    lzwEncodeLoop n p z b ≠ .fault e := by
  induction n generalizing p z b with
  | zero => omega
  | succ n ih =>
    unfold lzwEncodeLoop
    split
    · simp
    · simp
    · rename_i r b' hr
      have := readBits_available hr
      simp only
      split
      · exact ih _ _ _ (by omega)
      · split
        · exact ih _ _ _ (by omega)
        · exact ih _ _ _ (by rw [emitCode, available_writeBits]; omega)

/-! ## HUF_DECODE's loop -/

/-- Nothing to be put along the way from a node of a full tree; a symbol takes a bit unless the node is its leaf. -/
theorem descend_full {h : Huf} (ht : TreeOk h) (hk : h.tkind = .full) (n i : Nat) (b : Stream) (hi : i < h.nnodes)
    (hn : available b < n) :
    match descend h n i b with
    | .sym c b' => (∃ f, nodeAt h i = some (.leaf c f) ∧ b' = b) ∨ available b' < available b
    | .eod _ => True
    | .wait _ => True
    | .fault _ => False := by
  obtain ⟨hnode, hchild⟩ := (ht.2.2 hk).2 i hi
  induction n generalizing i b with
  | zero => omega
  | succ n ih =>
    obtain ⟨x, hx⟩ := hnode
    unfold descend
    rw [hx]
    cases x with
    | leaf c f => exact .inl ⟨f, rfl, rfl⟩
    | internal f l r =>
      simp only
      match hr : readBit b with
      | .ok y b' =>
        have ha := readBit_available hr
        have hc := hchild f l r hx
        have hj : (if y then r else l) < h.nnodes := by split <;> omega
        obtain ⟨hnode', hchild'⟩ := (ht.2.2 hk).2 _ hj
        have := ih (if y then r else l) b' hj (by omega) hnode' hchild'
        simp only
        generalize descend h n (if y then r else l) b' = x at this ⊢
        cases x with
        | sym c b₁ =>
          right
          rcases this with ⟨_, _, rfl⟩ | this <;> omega
        | eod b₁ => trivial
        | wait b₁ => trivial
        | fault e => exact this
      | .eod b' => trivial
      | .wait b' => trivial

/-- What decoding one symbol comes to on a usable tree with symbols to decode (42_huffman.md R215, R216). -/
theorem decodeSymbol_ok {h : Huf} (ht : TreeOk h) (h0 : 0 < h.total) (b : Stream) :
    match decodeSymbol h b with
    | .sym _ b' => available b' < available b
    | .eod _ => True
    | .wait _ => True
    | .fault _ => False := by
  unfold decodeSymbol
  match hk : h.tkind with
  | .empty => have := ht.1 hk; omega
  | .single =>
    obtain ⟨c, f, hc⟩ := ht.2.1 hk
    rw [if_pos rfl, hc]
    simp only
    match hr : readBit b with
    | .ok y b' => have ha := readBit_available hr; simp only; omega
    | .eod b' => trivial
    | .wait b' => trivial
  | .full =>
    rw [if_neg (by simp)]
    obtain ⟨f, l, r, hroot⟩ := (ht.2.2 hk).1
    have hi : h.root < h.nnodes := by
      unfold nodeAt at hroot
      split at hroot
      · assumption
      · cases hroot
    have := descend_full ht hk (available b + 1) h.root b hi (by omega)
    generalize descend h (available b + 1) h.root b = x at this ⊢
    cases x with
    | sym c b' =>
      rcases this with ⟨_, e', _⟩ | this
      · rw [hroot] at e'; cases e'
      · exact this
    | eod b' => trivial
    | wait b' => trivial
    | fault e => exact this

theorem decodeLoop_ne_fault {h : Huf} (ht : TreeOk h) (n k : Nat) (b : Stream) (e : Fault) (hn : available b < n) :
    decodeLoop h n k b ≠ .fault e := by
  induction n generalizing k b with
  | zero => omega
  | succ n ih =>
    unfold decodeLoop
    split
    · rename_i hk
      have := decodeSymbol_ok ht (by omega) b
      generalize decodeSymbol h b = x at this ⊢
      cases x with
      | sym c b' =>
        simp only at this
        exact ih _ _ (by rw [available_writeBits]; omega)
      | eod b' => simp
      | wait b' => simp
      | fault e' => exact this.elim
    · simp

end Sys2Proof.Machine
end

