-- ==== Sys2Proof/Laws/Lzw.lean ====
section
/-! SUPPORT. The dictionary of the LZW unit: what Insert and the sequences of codes do to a dictionary of the shape the unit
keeps, and that LZW_DECODE's loop keeps it. -/

namespace Sys2Proof.Machine

/-- The code `k` stands for a sequence now: a seed or a valid entry (43_lzw.md R247). -/
def ValidCode (z : Lzw) (k : Nat) : Prop := k < 256 ∨ k < z.next

/-- The dictionary's own part of `LzwOk`. -/
def DictOk (z : Lzw) : Prop :=
  256 ≤ z.next ∧ (8 < z.ln.toNat → z.next ≤ lmax z) ∧ (z.ln.toNat ≤ 8 → z.next = 256) ∧
  ∀ k, 256 ≤ k → k < z.next → ∃ e, memGet z.dict k = some e ∧ e.parent < k

theorem LzwOk.dictOk {p : Params} {z : Lzw} (h : LzwOk p z) : DictOk z := ⟨h.2.2.1, h.2.2.2.1, h.2.2.2.2.1, h.2.2.2.2.2.1⟩

theorem lmax_ge {z : Lzw} (h : 8 < z.ln.toNat) : 511 ≤ lmax z := by
  have := Nat.pow_le_pow_right (show 0 < 2 by omega) (show 9 ≤ z.ln.toNat by omega)
  unfold lmax
  omega

theorem lmax_le {z : Lzw} (h : z.ln.toNat ≤ 8) : lmax z ≤ 255 := by
  have := Nat.pow_le_pow_right (show 0 < 2 by omega) h
  unfold lmax
  omega

/-! ## Insert -/

theorem lzwInsert_below {p : Nat} {c : Byte} {z : Lzw} (h : z.next < lmax z) : lzwInsert p c z = writeEntry p c z := by
  have h1 : z.next ≤ lmax z := by omega
  have h2 : ¬ (writeEntry p c z).next > lmax z := by simp only [writeEntry]; omega
  simp only [lzwInsert, h1, decide_true, if_true]
  rw [if_neg h2]

theorem lzwInsert_full {p : Nat} {c : Byte} {z : Lzw} (h : z.next = lmax z) :
    lzwInsert p c z = { writeEntry p c z with next := 256, resets := z.resets + 1 } := by
  have h1 : z.next ≤ lmax z := by omega
  have h2 : (writeEntry p c z).next > lmax z := by simp only [writeEntry]; omega
  simp only [lzwInsert, h1, decide_true, if_true]
  rw [if_pos h2]
  rfl

theorem lzwInsert_over {p : Nat} {c : Byte} {z : Lzw} (h : lmax z < z.next) : lzwInsert p c z = resetDict z := by
  have h1 : ¬ z.next ≤ lmax z := by omega
  simp only [lzwInsert, h1, decide_false]
  rw [if_pos (by simpa using h)]
  simp

theorem lzwInsert_kept (p : Nat) (c : Byte) (z : Lzw) :
    (lzwInsert p c z).ln = z.ln ∧ (lzwInsert p c z).lstate = z.lstate := by
  rcases Nat.lt_trichotomy z.next (lmax z) with h | h | h
  · rw [lzwInsert_below h]; exact ⟨rfl, rfl⟩
  · rw [lzwInsert_full h]; exact ⟨rfl, rfl⟩
  · rw [lzwInsert_over h]; exact ⟨rfl, rfl⟩

/-- With LN = 8 nothing is inserted (43_lzw.md R244). -/
theorem lzwInsert_narrow {p : Nat} {c : Byte} {z : Lzw} (h : DictOk z) (hl : z.ln.toNat ≤ 8) : lzwInsert p c z = z := by
  have hn := h.2.2.1 hl
  have := lmax_le hl
  rw [lzwInsert_over (by omega)]
  cases z
  simp_all [resetDict]

theorem lzwInsert_dictOk {p : Nat} {c : Byte} {z : Lzw} (h : DictOk z) (hp : ValidCode z p) : DictOk (lzwInsert p c z) := by
  by_cases hl : z.ln.toNat ≤ 8
  · rw [lzwInsert_narrow h hl]; exact h
  · obtain ⟨h1, h2, _, h4⟩ := h
    have hle := h2 (by omega)
    have hp' : p < z.next := by rcases hp with hp | hp <;> omega
    have entry : ∀ k, 256 ≤ k → k < z.next + 1 →
        ∃ e, memGet (memSet z.dict z.next { parent := p, byte := c }) k = some e ∧ e.parent < k := by
      intro k hk hk'
      rw [memGet_memSet]
      split
      · rename_i e; subst e; exact ⟨_, rfl, hp'⟩
      · exact h4 k hk (by omega)
    rcases Nat.lt_or_ge z.next (lmax z) with hlt | hge
    · rw [lzwInsert_below hlt]
      refine ⟨?_, fun _ => ?_, fun hl' => absurd hl' hl, entry⟩
      · simp only [writeEntry]; omega
      · show z.next + 1 ≤ lmax z; omega
    · rw [lzwInsert_full (by omega)]
      refine ⟨Nat.le_refl _, fun hl' => ?_, fun _ => rfl, fun k hk hk' => ?_⟩
      · exact Nat.le_trans (show 256 ≤ 511 by omega) (lmax_ge hl')
      · simp only at hk'; omega

/-! ## Sequences -/

/-- The bound on a chain does not matter once it passes the code. -/
theorem seqOf_bound {z : Lzw} (h : DictOk z) (n m k : Nat) (hn : k < n) (hm : k < m) (hk : ValidCode z k) :
    seqOf z n k = seqOf z m k := by
  induction n generalizing m k with
  | zero => omega
  | succ n ih =>
    obtain ⟨m, rfl⟩ : ∃ m', m = m' + 1 := ⟨m - 1, by omega⟩
    unfold seqOf
    split
    · rfl
    · rename_i hk8
      have hk' : k < z.next := by rcases hk with hk | hk <;> omega
      obtain ⟨e, he, hlt⟩ := h.2.2.2 k (by omega) hk'
      rw [he]
      simp only
      rw [ih m e.parent (by omega) (by omega) (.inr (by omega))]

theorem seqAt_seed {z : Lzw} {k : Nat} (h : k < 256) : seqAt z k = some [BitVec.ofNat 8 k] := by
  unfold seqAt seqOf
  rw [if_pos h]

theorem seqAt_entry {z : Lzw} (h : DictOk z) {k : Nat} {e : DictEntry} (hk : 256 ≤ k) (hk' : k < z.next)
    (he : memGet z.dict k = some e) : seqAt z k = (seqAt z e.parent).map (fun xs => xs ++ [e.byte]) := by
  obtain ⟨e', he', hlt⟩ := h.2.2.2 k hk hk'
  rw [he] at he'
  cases he'
  unfold seqAt
  rw [seqOf, if_neg (by omega), he]
  simp only
  rw [seqOf_bound h k (e.parent + 1) e.parent hlt (by omega) (.inr (by omega))]

/-- A valid code stands for a non-empty sequence (43_lzw.md R247). -/
theorem seqAt_some {z : Lzw} (h : DictOk z) (k : Nat) (hk : ValidCode z k) : ∃ x xs, seqAt z k = some (x :: xs) := by
  induction k using Nat.strongRecOn with
  | ind k ih =>
    by_cases h8 : k < 256
    · exact ⟨_, _, seqAt_seed h8⟩
    · have hk' : k < z.next := by rcases hk with hk | hk <;> omega
      obtain ⟨e, he, hlt⟩ := h.2.2.2 k (by omega) hk'
      obtain ⟨x, xs, hx⟩ := ih e.parent hlt (.inr (by omega))
      exact ⟨x, xs ++ [e.byte], by rw [seqAt_entry h (by omega) hk' he, hx]; rfl⟩

/-- A dictionary that agrees on the valid codes below `k` gives them the same sequences. -/
theorem seqAt_congr {z z' : Lzw} (h : DictOk z) (h' : DictOk z') (hd : ∀ j, 256 ≤ j → j < z.next → memGet z'.dict j = memGet z.dict j)
    (hn : z.next ≤ z'.next) (k : Nat) (hk : ValidCode z k) : seqAt z' k = seqAt z k := by
  induction k using Nat.strongRecOn with
  | ind k ih =>
    by_cases h8 : k < 256
    · rw [seqAt_seed h8, seqAt_seed h8]
    · have hk' : k < z.next := by rcases hk with hk | hk <;> omega
      obtain ⟨e, he, hlt⟩ := h.2.2.2 k (by omega) hk'
      rw [seqAt_entry h (by omega) hk' he, seqAt_entry h' (by omega) (by omega) (by rw [hd k (by omega) hk', he]),
        ih e.parent hlt (.inr (by omega))]

/-- What the new entry stands for (43_lzw.md R243, R247). -/
theorem seqAt_inserted {p : Nat} {c : Byte} {z : Lzw} (h : DictOk z) (hp : ValidCode z p) (hl : 8 < z.ln.toNat)
    (hn : z.next ≠ lmax z) : seqAt (lzwInsert p c z) z.next = (seqAt z p).map (fun xs => xs ++ [c]) := by
  have hlt : z.next < lmax z := Nat.lt_of_le_of_ne (h.2.1 hl) hn
  have h' := lzwInsert_dictOk (c := c) h hp
  rw [lzwInsert_below hlt] at h' ⊢
  have hg : memGet (writeEntry p c z).dict z.next = some { parent := p, byte := c } := memGet_memSet_self _ _ _
  have hnx : (writeEntry p c z).next = z.next + 1 := rfl
  rw [seqAt_entry h' h.1 (by omega) hg]
  simp only
  rw [seqAt_congr h h' (fun j _ hj => memGet_memSet_ne _ _ (by omega)) (by omega) p hp]

/-- Insert leaves the sequences of the valid codes, unless it resets the dictionary. -/
theorem seqAt_lzwInsert {p k : Nat} {c : Byte} {z : Lzw} (h : DictOk z) (hp : ValidCode z p) (hn : z.next ≠ lmax z)
    (hk : ValidCode z k) : seqAt (lzwInsert p c z) k = seqAt z k := by
  by_cases hl : z.ln.toNat ≤ 8
  · rw [lzwInsert_narrow h hl]
  · have hlt : z.next < lmax z := Nat.lt_of_le_of_ne (h.2.1 (by omega)) hn
    have h' := lzwInsert_dictOk (c := c) h hp
    rw [lzwInsert_below hlt] at h' ⊢
    exact seqAt_congr h h' (fun j _ hj => memGet_memSet_ne _ _ (by omega)) (Nat.le_succ _) k hk

/-! ## The search -/

theorem findEntry_valid {p k : Nat} {c : Byte} {z : Lzw} (h : findEntry p c z = some k) : ValidCode z k := by
  unfold findEntry at h
  rw [Option.map_eq_some_iff] at h
  obtain ⟨⟨j, e⟩, hf, rfl⟩ := h
  have hp := List.find?_some hf
  simp only [Bool.and_eq_true, decide_eq_true_eq] at hp
  exact .inr hp.1.2

theorem findEntry_some {p k : Nat} {c : Byte} {z : Lzw} (hw : memWf z.dict = true) (h : findEntry p c z = some k) :
    256 ≤ k ∧ k < z.next ∧ memGet z.dict k = some { parent := p, byte := c } := by
  unfold findEntry at h
  rw [Option.map_eq_some_iff] at h
  obtain ⟨⟨j, e⟩, hf, rfl⟩ := h
  have hm := List.mem_of_find?_eq_some hf
  have hp := List.find?_some hf
  simp only [Bool.and_eq_true, decide_eq_true_eq, beq_iff_eq] at hp
  obtain ⟨⟨h1, h2⟩, rfl⟩ := hp
  exact ⟨h1, h2, memGet_of_mem _ hw hm⟩

theorem findEntry_none {p k : Nat} {c : Byte} {z : Lzw} (h : findEntry p c z = none) (h1 : 256 ≤ k) (h2 : k < z.next) :
    memGet z.dict k ≠ some { parent := p, byte := c } := by
  intro hm
  unfold findEntry at h
  rw [Option.map_eq_none_iff, List.find?_eq_none] at h
  have := h _ (mem_of_memGet _ hm)
  simp [h1, h2] at this

/-! ## Codes -/

theorem resolveCode_valid {q : Option Nat} {z : Lzw} {k : Nat} {cur : List Byte} (hk : k < 2 ^ z.ln.toNat)
    (h : resolveCode q z k = .bytes cur) (hd : DictOk z) : ValidCode (insertAfter q cur z) k := by
  by_cases h8 : k < 256
  · exact .inl h8
  · have hl : 8 < z.ln.toNat := by
      rcases Nat.lt_or_ge 8 z.ln.toNat with h1 | h1
      · exact h1
      · have := Nat.pow_le_pow_right (show 0 < 2 by omega) h1
        omega
    cases q with
    | none => simp [resolveCode, Nat.le_of_not_lt h8] at h
    | some p =>
      simp only [resolveCode] at h
      split at h
      · cases h
      · rename_i hne
        have hn : z.next ≠ lmax z := fun e => hne ⟨e, by omega⟩
        have hlt : z.next < lmax z := Nat.lt_of_le_of_ne (hd.2.1 hl) hn
        right
        rw [insertAfter, lzwInsert_below hlt]
        show k < z.next + 1
        split at h
        · omega
        · split at h
          · omega
          · cases h

/-- On a dictionary of the unit's shape no code is broken, and the code after it finds one too. -/
theorem resolveCode_ok {q : Option Nat} {z : Lzw} (k : Nat) (hd : DictOk z) (hq : ∀ p, q = some p → ValidCode z p) :
    resolveCode q z k = .unresolved ∨ ∃ x xs, resolveCode q z k = .bytes (x :: xs) := by
  cases q with
  | none =>
    by_cases h8 : k ≥ 256
    · exact .inl (by simp [resolveCode, h8])
    · exact .inr ⟨_, _, by rw [resolveCode, if_neg h8]⟩
  | some p =>
    simp only [resolveCode]
    split
    · exact .inl rfl
    · split
      · rename_i hk
        obtain ⟨x, xs, e⟩ := seqAt_some hd k (.inr hk)
        exact .inr ⟨x, xs, by rw [e]; rfl⟩
      · split
        · obtain ⟨x, xs, e⟩ := seqAt_some hd p (hq p rfl)
          exact .inr ⟨x, xs ++ [x], by rw [e]; rfl⟩
        · exact .inl rfl

theorem insertAfter_dictOk {q : Option Nat} {cur : List Byte} {z : Lzw} (hd : DictOk z) (hq : ∀ p, q = some p → ValidCode z p) :
    DictOk (insertAfter q cur z) := by
  cases q with
  | none => exact hd
  | some p => exact lzwInsert_dictOk hd (hq p rfl)

theorem insertAfter_kept (q : Option Nat) (cur : List Byte) (z : Lzw) :
    (insertAfter q cur z).ln = z.ln ∧ (insertAfter q cur z).lstate = z.lstate := by
  cases q with
  | none => exact ⟨rfl, rfl⟩
  | some p => exact lzwInsert_kept _ _ _

theorem readBits_lt {w v : Nat} {b b' : Stream} (h : readBits w b = .ok v b') : v < 2 ^ w := by
  by_cases hw : w ≤ (inBits b).length
  · obtain ⟨b₁, e, _⟩ := readBits_ok hw
    rw [e] at h
    cases h
    have := bitsToNat_lt ((inBits b).take w)
    rwa [List.length_take, Nat.min_eq_left hw] at this
  · obtain ⟨b₁, _, _, e⟩ := readBits_end (w := w) (b := b) (by omega)
    rw [e] at h
    split at h <;> cases h

theorem available_writeSymbols (cs : List Byte) (b : Stream) : available (writeSymbols cs b) = available b := by
  induction cs generalizing b with
  | nil => rfl
  | cons c cs ih => rw [writeSymbols, ih, available_writeBits]

/-- What LZW_DECODE's loop leaves: a dictionary of the unit's shape and the same LN, and never a fault (43_lzw.md R247, R253). -/
theorem lzwDecodeLoop_ok (n : Nat) (q : Option Nat) (z : Lzw) (b : Stream) (hd : DictOk z)
    (hq : ∀ p, q = some p → ValidCode z p) (h0 : 0 < z.ln.toNat) (hn : available b < n) :
    match lzwDecodeLoop n q z b with
    | .done z' _ => DictOk z' ∧ z'.ln = z.ln ∧ z'.lstate = z.lstate
    | .raise _ _ z' _ => DictOk z' ∧ z'.ln = z.ln ∧ z'.lstate = z.lstate
    | .wait _ => True
    | .fault _ => False := by
  induction n generalizing q z b with
  | zero => omega
  | succ n ih =>
    unfold lzwDecodeLoop
    match hr : readBits z.ln.toNat b with
    | .eod b' => exact ⟨hd, rfl, rfl⟩
    | .wait b' => trivial
    | .ok k b' =>
      have ha := readBits_available hr
      have hk := readBits_lt hr
      simp only
      rcases resolveCode_ok k hd hq with e | ⟨x, xs, e⟩
      · rw [e]; exact ⟨hd, rfl, rfl⟩
      · rw [e]
        simp only
        obtain ⟨e1, e2⟩ := insertAfter_kept q (x :: xs) z
        have := ih (some k) (insertAfter q (x :: xs) z) (writeSymbols (x :: xs) b') (insertAfter_dictOk hd hq)
          (fun p hp => by cases hp; exact resolveCode_valid hk e hd) (by rw [e1]; exact h0)
          (by rw [available_writeSymbols]; omega)
        rw [e1, e2] at this
        exact this

/-- What LZW_ENCODE's loop leaves (43_lzw.md R250). -/
theorem lzwEncodeLoop_ok (n : Nat) (q : Option Nat) (z : Lzw) (b : Stream) (hd : DictOk z)
    (hq : ∀ p, q = some p → ValidCode z p) :
    match lzwEncodeLoop n q z b with
    | .done (q', z') _ => DictOk z' ∧ z'.ln = z.ln ∧ z'.lstate = z.lstate ∧ ∀ p, q' = some p → ValidCode z' p
    | .raise _ _ _ _ => False
    | .wait _ => True
    | .fault _ => True := by
  induction n generalizing q z b with
  | zero => trivial
  | succ n ih =>
    unfold lzwEncodeLoop
    match hr : readBits 8 b with
    | .eod b' => exact ⟨hd, rfl, rfl, hq⟩
    | .wait b' => trivial
    | .ok r b' =>
      simp only
      have hseed : ∀ (z : Lzw) p, some (BitVec.ofNat 8 r).toNat = some p → ValidCode z p := by
        intro z p hp
        cases hp
        exact .inl (BitVec.ofNat 8 r).isLt
      cases q with
      | none => exact ih _ _ _ hd (hseed z)
      | some p =>
        simp only
        match hf : findEntry p (BitVec.ofNat 8 r) z with
        | some k => exact ih _ _ _ hd (fun p hp => by cases hp; exact findEntry_valid hf)
        | none =>
          simp only
          obtain ⟨e1, e2⟩ := lzwInsert_kept p (BitVec.ofNat 8 r) z
          have := ih (some (BitVec.ofNat 8 r).toNat) (lzwInsert p (BitVec.ofNat 8 r) z) (emitCode z p b')
            (lzwInsert_dictOk hd (hq p rfl)) (hseed _)
          rw [e1, e2] at this
          exact this

end Sys2Proof.Machine
end

