-- ==== Sys2Proof/Laws/PerInstr.lean ====
section
/-! SUPPORT. Statements made of every command, one lemma per constructor. -/

namespace Sys2Proof.Laws

/-- The word the encoder gives a command is legal by the masks of the opcode map (30_encoding.md R102, R103). -/
def EncodeLegal.Statement (i : Instr) : Prop := legalWord (encode i) = true

theorem EncodeLegal.nop : EncodeLegal.Statement .nop := by
  unfold EncodeLegal.Statement
  decide +kernel

theorem EncodeLegal.bsInit : EncodeLegal.Statement .bsInit := by
  unfold EncodeLegal.Statement
  decide +kernel

theorem EncodeLegal.bsWrbits (w : BitVec 6) : EncodeLegal.Statement (.bsWrbits w) := by
  unfold EncodeLegal.Statement
  revert w
  decide +kernel

theorem EncodeLegal.bsRdbits (w : BitVec 6) : EncodeLegal.Statement (.bsRdbits w) := by
  unfold EncodeLegal.Statement
  revert w
  decide +kernel

theorem EncodeLegal.bsWrbit (b : Bool) : EncodeLegal.Statement (.bsWrbit b) := by
  unfold EncodeLegal.Statement
  revert b
  decide +kernel

theorem EncodeLegal.bsRdbit : EncodeLegal.Statement .bsRdbit := by
  unfold EncodeLegal.Statement
  decide +kernel

theorem EncodeLegal.bsAlign : EncodeLegal.Statement .bsAlign := by
  unfold EncodeLegal.Statement
  decide +kernel

theorem EncodeLegal.bsEnd : EncodeLegal.Statement .bsEnd := by
  unfold EncodeLegal.Statement
  decide +kernel

theorem EncodeLegal.bsDrain : EncodeLegal.Statement .bsDrain := by
  unfold EncodeLegal.Statement
  decide +kernel

theorem EncodeLegal.hufInit : EncodeLegal.Statement .hufInit := by
  unfold EncodeLegal.Statement
  decide +kernel

theorem EncodeLegal.hufCount : EncodeLegal.Statement .hufCount := by
  unfold EncodeLegal.Statement
  decide +kernel

theorem EncodeLegal.hufRdhdr : EncodeLegal.Statement .hufRdhdr := by
  unfold EncodeLegal.Statement
  decide +kernel

theorem EncodeLegal.hufBuild : EncodeLegal.Statement .hufBuild := by
  unfold EncodeLegal.Statement
  decide +kernel

theorem EncodeLegal.hufCodes : EncodeLegal.Statement .hufCodes := by
  unfold EncodeLegal.Statement
  decide +kernel

theorem EncodeLegal.hufEncode : EncodeLegal.Statement .hufEncode := by
  unfold EncodeLegal.Statement
  decide +kernel

theorem EncodeLegal.hufDecode : EncodeLegal.Statement .hufDecode := by
  unfold EncodeLegal.Statement
  decide +kernel

theorem EncodeLegal.hufGetfreq (s : Byte) : EncodeLegal.Statement (.hufGetfreq s) := by
  unfold EncodeLegal.Statement
  revert s
  decide +kernel

theorem EncodeLegal.hufLookup (s : Byte) (k : BitVec 3) : EncodeLegal.Statement (.hufLookup s k) := by
  unfold EncodeLegal.Statement
  revert s k
  decide +kernel

theorem EncodeLegal.lzwInit : EncodeLegal.Statement .lzwInit := by
  unfold EncodeLegal.Statement
  decide +kernel

theorem EncodeLegal.lzwEncode : EncodeLegal.Statement .lzwEncode := by
  unfold EncodeLegal.Statement
  decide +kernel

theorem EncodeLegal.lzwDecode : EncodeLegal.Statement .lzwDecode := by
  unfold EncodeLegal.Statement
  decide +kernel

end Sys2Proof.Laws
end

