-- ==== Sys2Proof/Tests/Slice0.lean ====
section
/-! SUPPORT. The model's own tests. Expected values come from spec/: the words from the patterns of 30_encoding.md R103, the
results from the examples of the rules and the vectors of 95_test_vectors.md, named in each comment. The second half gives,
for every statement with hypotheses, states and operands that meet them. -/

namespace Sys2Proof.Tests

open Sys2Proof.Machine

/-! ## Helpers -/

/-- Data tokens. -/
def bytes (xs : List Nat) : List Token := xs.map (fun n => .byte (BitVec.ofNat 8 n))

/-- A core from reset with the tokens `ts` in IN and a command accepted. -/
def begun (ts : List Token) : State := { State.reset with busy := true, bs := { Stream.reset with inp := ts } }

/-- The state after one engine step, where there is one. -/
def after (i : Instr) (s : State) : Option State :=
  match exec i s with
  | .next t => some t
  | _ => none

/-- The same core with FREQ_W = 1. -/
def narrow (s : State) : State := { s with params := { s.params with freqWm1 := 0 } }

/-- The counters of "ab". -/
def abFreq : Vector Nat 256 := symSet (symSet (Vector.replicate 256 0) 0x61 1) 0x62 1

/-- The Huffman unit of an "ab" job after HUF_BUILD (V-H3: a is `0`, b is `1`). -/
def abTree : Huf :=
  { Huf.reset with
    freq := abFreq, total := 2, hstate := .tree,
    node := [(0, .leaf 0x61 1), (1, .leaf 0x62 1), (2, .internal 2 0 1)], nnodes := 3, root := 2, tkind := .full }

/-- The same unit after HUF_CODES, in the direction `m`. -/
def abCodes (m : HMode) : Huf :=
  { abTree with
    hstate := .codes, hmode := m, cvalid := true,
    code := symSet (symSet (Vector.replicate 256 []) 0x61 [false]) 0x62 [true] }

/-- The unit of a "zzz" job after HUF_BUILD (V-H5: a single leaf). -/
def zTree : Huf :=
  { Huf.reset with
    freq := symSet (Vector.replicate 256 0) 0x7A 3, total := 3, hstate := .tree,
    node := [(0, .leaf 0x7A 3)], nnodes := 1, root := 0, tkind := .single }

/-- An LZW unit right after LZW_INIT with width `n`. -/
def fresh (n : BitVec 6) : Lzw := { Lzw.reset with ln := n, lstate := .ready }

/-- A host that waits for BUSY = 0. -/
def waiting (c : Word) : State :=
  { State.reset with busy := true, curCmd := c, host := { prog := [.waitIdle], index := 0, trace := [] } }

/-! ## Ill-formed words: each check of the opcode map refuses one -/

/-- V-C2: a reserved opcode. -/
theorem test_illformed_reserved : legalWord 0x00000001#32 = false := by decide
/-- V-C3: IMM8[7:1] of BS_WRBIT. -/
theorem test_illformed_wrbit : legalWord 0x00000213#32 = false := by decide
/-- V-C4: RSV. -/
theorem test_illformed_rsv : legalWord 0x80000000#32 = false := by decide
/-- V-C5: WIDTH[5:3] of HUF_LOOKUP. -/
theorem test_illformed_lookup : legalWord 0x00080028#32 = false := by decide
/-- R102: IMM8 of BS_WRBITS. -/
theorem test_illformed_imm8 : legalWord 0x00030111#32 = false := by decide
/-- R102: WIDTH of HUF_GETFREQ. -/
theorem test_illformed_width : legalWord 0x00016127#32 = false := by decide

/-! ## Words written out bit by bit from the patterns of R103 -/

theorem test_word_nop : decode 0b00000000000000000000000000000000#32 = .ok .nop := by decide
theorem test_word_bsInit : decode 0b00000000000000000000000000010000#32 = .ok .bsInit := by decide
theorem test_word_bsWrbits : decode 0b00000000000011000000000000010001#32 = .ok (.bsWrbits 12) := by decide
theorem test_word_bsRdbits : decode 0b00000000000000110000000000010010#32 = .ok (.bsRdbits 3) := by decide
theorem test_word_bsWrbit : decode 0b00000000000000000000000100010011#32 = .ok (.bsWrbit true) := by decide
theorem test_word_bsRdbit : decode 0b00000000000000000000000000010100#32 = .ok .bsRdbit := by decide
theorem test_word_bsAlign : decode 0b00000000000000000000000000010101#32 = .ok .bsAlign := by decide
theorem test_word_bsEnd : decode 0b00000000000000000000000000010110#32 = .ok .bsEnd := by decide
theorem test_word_bsDrain : decode 0b00000000000000000000000000010111#32 = .ok .bsDrain := by decide
theorem test_word_hufInit : decode 0b00000000000000000000000000100000#32 = .ok .hufInit := by decide
theorem test_word_hufCount : decode 0b00000000000000000000000000100001#32 = .ok .hufCount := by decide
theorem test_word_hufRdhdr : decode 0b00000000000000000000000000100010#32 = .ok .hufRdhdr := by decide
theorem test_word_hufBuild : decode 0b00000000000000000000000000100011#32 = .ok .hufBuild := by decide
theorem test_word_hufCodes : decode 0b00000000000000000000000000100100#32 = .ok .hufCodes := by decide
theorem test_word_hufEncode : decode 0b00000000000000000000000000100101#32 = .ok .hufEncode := by decide
theorem test_word_hufDecode : decode 0b00000000000000000000000000100110#32 = .ok .hufDecode := by decide
theorem test_word_hufGetfreq : decode 0b00000000000000000110001000100111#32 = .ok (.hufGetfreq 0x62) := by decide
theorem test_word_hufLookup : decode 0b00000000000001010110001100101000#32 = .ok (.hufLookup 0x63 5) := by decide
theorem test_word_lzwInit : decode 0b00000000000000000000000000110000#32 = .ok .lzwInit := by decide
theorem test_word_lzwEncode : decode 0b00000000000000000000000000110001#32 = .ok .lzwEncode := by decide
theorem test_word_lzwDecode : decode 0b00000000000000000000000000110010#32 = .ok .lzwDecode := by decide

/-- A word the encoder gives is the word the pattern gives. -/
theorem test_encode_lookup : encode (.hufLookup 0x63 5) = 0b00000000000001010110001100101000#32 := by decide

/-! ## One step of each command -/

/-- V-C1. -/
theorem test_nop : (after .nop (begun [])).map statusWord = some 0x00000002#32 := by decide +kernel
/-- V-B14: BS_INIT drops three pending bits. -/
theorem test_bsInit : (after .bsInit { begun [] with bs := { Stream.reset with wbuf := 5, wcnt := 3 } }).map
    (fun t => (statusWord t, t.bs.out)) = some (0x00000002#32, []) := by decide +kernel
/-- V-B13: 32 bits after 7 complete four bytes and leave seven. -/
theorem test_bsWrbits : (after (.bsWrbits 32)
      { begun [] with bs := { Stream.reset with wbuf := 0x7F, wcnt := 7 }, curArg := 0x12345678 }).map
    (fun t => (t.bs.out, t.bs.wbuf, t.bs.wcnt)) = some (bytes [0xFE, 0x24, 0x68, 0xAC], 0b1111000, 7) := by decide +kernel
/-- V-C6. -/
theorem test_bsWrbits_width : (after (.bsWrbits 33) { begun [] with curCmd := 0x00210011 }).map
    (fun t => (statusWord t, t.err, t.errInfo, t.bs.out)) = some (0x0000000A#32, .eWidth, 0x00210011#32, []) := by
  decide +kernel
/-- V-B15. -/
theorem test_bsRdbits : (after (.bsRdbits 3) (begun (bytes [0xB5, 0x78] ++ [.stop]))).map
    (fun t => (t.result, statusWord t, t.bs.cntIn)) = some (5#32, 0x00500002#32, 1#32) := by decide +kernel
/-- V-B17: End after one bit. -/
theorem test_bsRdbits_end : (after (.bsRdbits 8)
      { begun [.stop] with bs := { Stream.reset with inp := [.stop], rbuf := 0x78, rcnt := 1 }, result := 7 }).map
    (fun t => (t.result, statusWord t, t.bs.inp)) = some (0#32, 0x00000012#32, []) := by decide +kernel
/-- V-B3. -/
theorem test_bsWrbit : (after (.bsWrbit true) { begun [] with bs := { Stream.reset with wbuf := 0b0111100, wcnt := 7 } }).map
    (fun t => (t.bs.out, t.bs.wcnt)) = some (bytes [0x79], 0) := by decide +kernel
/-- V-B23. -/
theorem test_bsRdbit : (after .bsRdbit (begun (bytes [0x80] ++ [.stop]))).map
    (fun t => (t.result, statusWord t)) = some (1#32, 0x00700002#32) := by decide +kernel
/-- V-B4. -/
theorem test_bsAlign : (after .bsAlign { begun [] with bs := { Stream.reset with wbuf := 0b0111100, wcnt := 7 } }).map
    (fun t => (t.bs.out, t.bs.wcnt)) = some (bytes [0x78], 0) := by decide +kernel
/-- V-B6. -/
theorem test_bsEnd : (after .bsEnd { begun [] with bs := { Stream.reset with wbuf := 5, wcnt := 3 } }).map
    (fun t => (t.bs.out, t.bs.cntOut)) = some (bytes [0xA0] ++ [.stop], 1#32) := by decide +kernel
/-- V-B24. -/
theorem test_bsDrain : (after .bsDrain (begun (bytes [1, 2] ++ .stop :: bytes [3]))).map
    (fun t => (t.bs.cntIn, statusWord t, t.bs.inp)) = some (2#32, 0x00000012#32, bytes [3]) := by decide +kernel
/-- R180: STATUS 0x002 after HUF_INIT. -/
theorem test_hufInit : (after .hufInit { begun [] with huf := abCodes .decode }).map
    (fun t => (statusWord t, t.huf.total, symGet t.huf.freq 0x61)) = some (0x00000002#32, 0, 0) := by decide +kernel
/-- R181, on "aab". -/
theorem test_hufCount : (after .hufCount (begun (bytes [0x61, 0x61, 0x62] ++ [.stop]))).map
    (fun t => (symGet t.huf.freq 0x61, t.huf.total, statusWord t)) = some (2, 3, 0x00000112#32) := by decide +kernel
/-- V-H15: FREQ_W = 1, "aab". -/
theorem test_hufCount_overflow : (after .hufCount (narrow (begun (bytes [0x61, 0x61, 0x62] ++ [.stop])))).map
    (fun t => (t.err, t.errInfo, statusWord t, t.bs.cntIn, t.bs.inp)) =
    some (.eFreqOvf, 0x61#32, 0x0000050A#32, 2#32, bytes [0x62] ++ [.stop]) := by decide +kernel
/-- R182, R183: FREQ_W = 1, the 32-byte header with only FREQ[0x61] = 1 (bit 97 of it, byte 12, bit 6). -/
theorem test_hufRdhdr : (after .hufRdhdr
      (narrow (begun (bytes (List.replicate 12 0 ++ 0x40 :: List.replicate 19 0) ++ bytes [0x80])))).map
    (fun t => (symGet t.huf.freq 0x61, t.huf.total, t.huf.hstate, t.bs.inp)) = some (1, 1, .freq, bytes [0x80]) := by
  decide +kernel
/-- V-H11 with FREQ_W = 1: a header cut after 13 bytes. -/
theorem test_hufRdhdr_truncated : (after .hufRdhdr
      (narrow (begun (bytes (List.replicate 12 0 ++ [0x40]) ++ [.stop])))).map
    (fun t => (statusWord t, t.huf.total, t.bs.out, t.bs.cntIn)) = some (0x00000472#32, 1, [.stop], 13#32) := by
  decide +kernel
/-- V-H4: "aab", b is the left child. -/
theorem test_hufBuild : (after .hufBuild
      { begun [] with huf := { Huf.reset with freq := symSet abFreq 0x61 2, total := 3, hstate := .freq } }).map
    (fun t => (t.huf.node, t.huf.nnodes, t.huf.root, t.huf.tkind)) =
    some ([(0, .leaf 0x61 2), (1, .leaf 0x62 1), (2, .internal 3 1 0)], 3, 2, .full) := by decide +kernel
/-- V-H3: a is `0`, b is `1`. -/
theorem test_hufCodes : (after .hufCodes { begun [] with huf := abTree }).map
    (fun t => (symGet t.huf.code 0x61, symGet t.huf.code 0x62, symGet t.huf.code 0x63, t.huf.cvalid)) =
    some ([false], [true], [], true) := by decide +kernel
/-- V-H5, R203: the single leaf has the code `0`. -/
theorem test_hufCodes_single : (after .hufCodes { begun [] with huf := zTree }).map
    (fun t => (symGet t.huf.code 0x7A, symGet t.huf.code 0x61)) = some ([false], []) := by decide +kernel
/-- V-H3 with FREQ_W = 1: the 32-byte header of "ab" (bits 97 and 98), then `40` and End. -/
theorem test_hufEncode : (after .hufEncode
      (narrow { begun (bytes [0x61, 0x62] ++ [.stop]) with huf := abCodes .encode })).map
    (fun t => (t.bs.out, t.huf.hstate)) =
    some (bytes (List.replicate 12 0 ++ 0x60 :: List.replicate 19 0) ++ bytes [0x40] ++ [.stop], .done) := by decide +kernel
/-- V-H12: "ac" on the second pass. -/
theorem test_hufEncode_symbol : (after .hufEncode
      (narrow { begun (bytes [0x61, 0x63] ++ [.stop]) with huf := abCodes .encode })).map
    (fun t => (t.err, t.errInfo, statusWord t)) = some (.eHufSym, 0x63#32, 0x0001058A#32) := by decide +kernel
/-- V-H3 decoded: payload `40`, padding drained. -/
theorem test_hufDecode : (after .hufDecode { begun (bytes [0x40] ++ [.stop]) with huf := abCodes .decode }).map
    (fun t => (t.bs.out, statusWord t)) = some (bytes [0x61, 0x62] ++ [.stop], 0x000004D2#32) := by decide +kernel
/-- V-H9's case: the stream ends before TOTAL symbols. The same where an earlier read has met the End already, with
nothing in IN (R141, R215). -/
theorem test_hufDecode_truncated :
    (after .hufDecode { begun [.stop] with huf := abCodes .decode }).map (fun t => (t.bs.out, statusWord t)) =
      some ([.stop], 0x000004F2#32) ∧
    (after .hufDecode { begun [] with bs := { Stream.reset with eodf := true }, huf := abCodes .decode }).map
      (fun t => (t.bs.out, statusWord t)) = some ([.stop], 0x000004F2#32) := by decide +kernel
/-- R220. -/
theorem test_hufGetfreq : (after (.hufGetfreq 0x62) { begun [] with huf := abTree }).map (fun t => t.result) = some 1#32 := by
  decide +kernel
/-- V-H8's word 1 of a 34-bit code of ones. -/
theorem test_hufLookup : (after (.hufLookup 1 1)
      { begun [] with huf := { abCodes .decode with code := symSet (Vector.replicate 256 []) 1 (List.replicate 34 true) } }).map
    (fun t => (t.codeLen, t.result)) = some (34#8, 0xC0000000#32) := by decide +kernel
/-- V-L28. -/
theorem test_lzwInit : (after .lzwInit { begun [] with curCfg := 9 }).map
    (fun t => (statusWord t, t.lzw.ln, t.lzw.next)) = some (0x00001002#32, 9, 256) := by decide +kernel
/-- V-L22. -/
theorem test_lzwInit_config : (after .lzwInit { begun [] with curCfg := 7 }).map
    (fun t => (t.err, t.errInfo, statusWord t)) = some (.eCfg, 7#32, 0x0000000A#32) := by decide +kernel
/-- V-L2: "ABABABA" with 9-bit codes. -/
theorem test_lzwEncode : (after .lzwEncode
      { begun (bytes [0x41, 0x42, 0x41, 0x42, 0x41, 0x42, 0x41] ++ [.stop]) with lzw := fresh 9 }).map
    (fun t => (t.bs.out, t.lzw.next, statusWord t)) =
    some (bytes [0x20, 0x90, 0xA0, 0x10, 0x20] ++ [.stop], 259, 0x00002012#32) := by decide +kernel
/-- V-L15: the KwK case. -/
theorem test_lzwDecode : (after .lzwDecode { begun (bytes [0x20, 0xC0, 0x00] ++ [.stop]) with lzw := fresh 9 }).map
    (fun t => (t.bs.out, t.lzw.next, statusWord t)) = some (bytes [0x41, 0x41, 0x41] ++ [.stop], 257, 0x00002012#32) := by
  decide +kernel
/-- V-L14: a code above NEXT. -/
theorem test_lzwDecode_error : (after .lzwDecode { begun (bytes [0x20, 0x90, 0xA0, 0x40] ++ [.stop]) with lzw := fresh 9 }).map
    (fun t => (t.bs.out, t.err, t.errInfo, statusWord t)) =
    some (bytes [0x41, 0x42], .eLzwCode, 0x102#32, 0x0050300A#32) := by decide +kernel

/-! ## The host's side and the step -/

/-- V-C2: an illegal word. -/
theorem test_illegal_word : (match step (State.reset.withFetchWord 32 1) with | .next t => some (statusWord t, t.errInfo) | _ => none) =
    some (0x0000000A#32, 1#32) := by decide +kernel
/-- V-C8: a command write with an error recorded is dropped. -/
theorem test_dropped : statusWord (writeReg .cmd 0 { State.reset with done := true, err := .eCmd }) = 0x0000000E#32 := by
  decide +kernel
/-- V-C10. -/
theorem test_irq : irq { State.reset with ie := true, done := true } = true := by decide
/-- R23, R57: the window of the reset core reads CFG = 9 and LZW_NEXT = 256. -/
theorem test_reset_reads : (readReg .cfg State.reset).1 = 9 ∧ (readReg .lzwNext State.reset).1 = 0x100 := by decide +kernel
/-- Every row's word runs as the first command after reset. -/
theorem test_rows_run : [0x00, 0x10, 0x11, 0x12, 0x13, 0x14, 0x15, 0x16, 0x17, 0x20, 0x21, 0x22, 0x23, 0x24, 0x25, 0x26, 0x27,
    0x28, 0x30, 0x31, 0x32].all (fun w => match step (State.reset.withFetchWord 32 w) with | .next _ => true | _ => false) =
    true := by decide +kernel

/-! ## Witnesses: states and operands that meet the hypotheses of each statement -/

theorem hostWaits_of_waiting (c : Word) : hostWaits (waiting c) := by
  intro op h
  cases h
  rfl

theorem hostWaits_of_empty (s : State) (h : s.host.prog = []) : hostWaits s := by
  intro op h'
  simp [nextOp, h] at h'

/-- OpcodeMapSelectsTheRow: the first and the last row. -/
theorem witness_rows : opcodeRows[0]? = some ⟨0, 0xFFFFFFFF⟩ ∧ opcodeRows[20]? = some ⟨0x32, 0xFFFFFFFF⟩ ∧
    (OpcodeRow.mk 0x32 0xFFFFFFFF).selects 0x32#32 = true := by decide

/-- OperandsAreFields: each operand at its largest value. -/
theorem witness_operands :
    decode 0x003F0011#32 = .ok (.bsWrbits 63) ∧ decode 0x003F0012#32 = .ok (.bsRdbits 63) ∧
    decode 0x00000113#32 = .ok (.bsWrbit true) ∧ decode 0x0000FF27#32 = .ok (.hufGetfreq 255) ∧
    decode 0x0007FF28#32 = .ok (.hufLookup 255 7) := by decide

/-- OffMapWordsRaiseECmd, with a host that waits and with one at its end. -/
theorem witness_offMap :
    ((waiting 1).busy = true ∧ legalWord (waiting 1).curCmd = false ∧ hostWaits (waiting 1)) ∧
    (let s : State := { State.reset with busy := true, curCmd := 0x80000000 }
     s.busy = true ∧ legalWord s.curCmd = false ∧ hostWaits s) :=
  ⟨⟨rfl, by decide, hostWaits_of_waiting 1⟩, rfl, by decide, hostWaits_of_empty _ rfl⟩

/-- ReservedWordsAreIllegal: the ends of every range, and RSV ≠ 0. -/
theorem witness_reserved :
    [0x01#32, 0x0F, 0x18, 0x1F, 0x29, 0x2F, 0x33, 0xFF].all (fun c => decode c == .error .reservedOpcode) = true ∧
    rsvField 0x00400010#32 ≠ 0 ∧ rsvField 0x80000000#32 ≠ 0 := by decide

/-- StepRunsTheAcceptedCommand. -/
theorem witness_stepRuns : (waiting 0x10).busy = true ∧ decode (waiting 0x10).curCmd = .ok .bsInit ∧ hostWaits (waiting 0x10) :=
  ⟨rfl, by decide, hostWaits_of_waiting _⟩

/-- WhoMoves: no agent, the host alone, the engine alone, both. -/
theorem witness_whoMoves :
    (nextOp State.reset = none ∧ State.reset.busy = false) ∧
    (let s := { State.reset with host := { prog := [.inPush .stop], index := 0, trace := [] } }
     nextOp s = some (.inPush .stop) ∧ engineEnabled s = false) ∧
    (nextOp (waiting 0) = some .waitIdle ∧ engineEnabled (waiting 0) = true ∧ opEnabled .waitIdle (waiting 0) = false) ∧
    (let s := { waiting 0 with host := { prog := [.inPush .stop], index := 0, trace := [] } }
     nextOp s = some (.inPush .stop) ∧ engineEnabled s = true ∧ opEnabled (.inPush .stop) s = true) := by decide +kernel

/-- PreconditionTable: both sides (V-L24). -/
theorem witness_precondition :
    preTable .lzwEncode (begun []) = false ∧
    (preTable .lzwEncode { begun [.stop] with lzw := fresh 9 } = true ∧ (begun [.stop]).err = .none ∧
      ∃ t, exec .lzwEncode { begun [.stop] with lzw := fresh 9 } = .next t) := ⟨by decide, by decide, by decide, _, rfl⟩

/-- CommandErrors: E_SEQ here; the other codes are raised in the tests above. -/
theorem witness_errors : (begun []).err = .none ∧ ∃ t, exec .hufBuild (begun []) = .next t ∧ t.err ≠ .none :=
  ⟨rfl, _, rfl, by decide⟩

/-- MoreInputChangesNothing. -/
theorem witness_moreInput : (runCommand .bsRdbit (begun [.stop])).enabled = true ∧ ∃ t, exec .bsRdbit (begun [.stop]) = .next t :=
  ⟨by decide +kernel, _, rfl⟩

/-- CommandFrames and PortTransfers: a command that writes everything it may, and one that starts a stream. -/
theorem witness_next : (∃ t, exec (.hufLookup 0x61 0) { begun [] with huf := abCodes .encode } = .next t) ∧
    (∃ t, exec .bsEnd (begun []) = .next t) ∧ startsStream .bsEnd = false ∧
    (∃ t, exec .hufInit (begun [.stop]) = .next t) ∧ startsStream .hufInit = true :=
  ⟨⟨_, rfl⟩, ⟨_, rfl⟩, rfl, ⟨_, rfl⟩, rfl⟩

/-- EndTokens and UnitStateMachines: an error, a command that ends its output, one that does not, a truncated header. -/
theorem witness_ends :
    (∃ t, exec .hufBuild (begun []) = .next t ∧ t.busy = false ∧ t.err ≠ .none ∧ t.bs.out = [] ++ []) ∧
    (∃ t, exec .bsEnd (begun []) = .next t ∧ t.busy = false ∧ t.err = .none ∧ t.bs.out = [] ++ [.stop]) ∧
    (∃ t, exec .bsAlign (begun []) = .next t ∧ t.busy = false ∧ t.err = .none ∧ t.bs.out = [] ++ []) ∧
    (∃ t, exec .hufRdhdr (narrow (begun [.stop])) = .next t ∧ t.busy = false ∧ t.err = .none ∧ t.huf.hstate = .done) :=
  ⟨⟨_, rfl, by decide⟩, ⟨_, rfl, by decide⟩, ⟨_, rfl, by decide⟩, ⟨_, rfl, by decide +kernel⟩⟩

/-- PortOperations: OUT empty and not, BUSY and not. -/
theorem witness_ports : State.reset.bs.out = [] ∧ (begun []).busy = true ∧ State.reset.busy = false ∧
    { Stream.reset with out := [.stop] }.out = .stop :: [] := by decide

/-- IdleRegisterReads, BusyReads, IllegalAccesses, RegisterWrites: the ends of the window, and each kind of illegal access. -/
theorem witness_window :
    (State.reset.busy = false ∧ State.reset.huf.total < 2 ^ 40 ∧ State.reset.lzw.next < 2 ^ 32) ∧ (begun []).busy = true ∧
    ((0 < 64 ∧ 0 % 4 = 0) ∧ 60 < 64 ∧ 60 % 4 = 0) ∧ (63 < 64 ∧ ¬(4 = 4 ∧ 63 % 4 = 0)) ∧ (0 < 64 ∧ ¬(2 = 4 ∧ 0 % 4 = 0)) ∧
    ¬(0x00 = 0x00 ∧ (2 : Word).getLsbD 0 = true) := by decide

/-- OutsideTheWindow: just below and just above. -/
theorem witness_outside :
    let s := { State.reset with params := { Params.default with window := 1 } }
    63 < s.params.base ∧ s.params.base + 64 ≤ 128 := by decide

/-- ERR reads the code numbers of 60_exceptions.md R300, through a host's read at offset 0x18. -/
theorem test_err_numbers :
    [ErrCode.none, .eCmd, .eSeq, .eWidth, .eCfg, .eFreqOvf, .eHufSym, .eHufLen, .eLzwCode].map
      (fun e => (windowRead 0x18 4 { State.reset with err := e }).1) =
    [0x0#32, 0x1#32, 0x2#32, 0x3#32, 0x4#32, 0x5#32, 0x6#32, 0x7#32, 0x8#32] := by decide

/-- STATUS bits 10:8 and 13:12 read the state numbers of 10_state.md R30 and R31. -/
theorem test_state_numbers :
    [HState.idle, .freq, .tree, .codes, .done, .error].map
      (fun h => (windowRead 0x14 4 { State.reset with huf := { Huf.reset with hstate := h } }).1) =
    [0x000#32, 0x100#32, 0x200#32, 0x300#32, 0x400#32, 0x500#32] ∧
    [LState.uninit, .ready, .done, .error].map
      (fun l => (windowRead 0x14 4 { State.reset with lzw := { Lzw.reset with lstate := l } }).1) =
    [0x0000#32, 0x1000#32, 0x2000#32, 0x3000#32] := by decide

/-- HUF_DECODE of `40` before its End comes (V-H3's payload). -/
def midDecode : State := { begun (bytes [0x40]) with curCmd := encode .hufDecode, huf := abCodes .decode }

/-- It waits, with the byte taken and both symbols put (20_memory.md R76); with the End it waits for it would have put End too
(70_reset_and_hazards.md R353). -/
theorem test_waiting_transfers :
    engineEnabled midDecode = false ∧ wouldTake midDecode = 1 ∧ wouldPut midDecode = bytes [0x61, 0x62] ∧
    wouldPut (pushTokens [.stop] midDecode) = bytes [0x61, 0x62] ++ [.stop] := by decide +kernel

/-- SoftResetWhenIdle, SoftResetDuringACommand: an idle core, an enabled command, and one that waits and that an End
enables. -/
theorem witness_softReset : State.reset.busy = false ∧ (3 : Word).getLsbD 0 = true ∧ (waiting 0x16).busy = true ∧
    (engineEnabled (waiting 0x16) = true ∧ ∃ t, engineStep (waiting 0x16) = .next t) ∧
    midDecode.busy = true ∧ engineEnabled midDecode = false ∧
    engineEnabled (pushTokens [.stop] midDecode) = true ∧ ∃ t, engineStep (pushTokens [.stop] midDecode) = .next t :=
  ⟨by decide, by decide, by decide, ⟨by decide +kernel, _, rfl⟩, by decide, by decide +kernel, by decide +kernel, _, rfl⟩

/-- InterruptLine and ErrorsAreSticky: a recorded error with the interrupt enabled. -/
theorem witness_sticky :
    let s := { State.reset with ie := true, done := true, err := .eCmd }
    ErrorOk s ∧ s.err ≠ .none ∧ irq s = true ∧ ∃ t, step s = .next t :=
  ⟨⟨by decide, by decide, by decide, by decide⟩, by decide, by decide, _, rfl⟩

/-- InterruptLine's clauses on writes. -/
theorem witness_irq_writes : State.reset.err = .none ∧ (2 : Word).getLsbD 1 = true ∧ State.reset.busy = false ∧
    (0 : Word).getLsbD 0 = false ∧ (0 : Word).getLsbD 1 = false := by decide

/-- HuffmanQueries: with and without a code table. -/
theorem witness_lookup : (abCodes .encode).cvalid = true ∧ Huf.reset.cvalid = false := by decide

/-- LzwInit: the least and the greatest legal width, and those just outside. -/
theorem witness_lzwInit :
    (8 ≤ (8 : BitVec 6).toNat ∧ (8 : BitVec 6).toNat ≤ State.reset.params.lzwNmax) ∧
    (8 ≤ (16 : BitVec 6).toNat ∧ (16 : BitVec 6).toNat ≤ State.reset.params.lzwNmax) ∧
    (7 : BitVec 6).toNat < 8 ∧ State.reset.params.lzwNmax < (17 : BitVec 6).toNat := by decide

theorem packerOk_reset (ts : List Token) : PackerOk { Stream.reset with inp := ts } := by
  show (0 : Nat) < 2 ^ 0
  decide

/-- BsWrbits: the widths 32 and 33. -/
theorem witness_wrbits : ((32 : BitVec 6).toNat ≤ 32 ∧ PackerOk (begun []).bs) ∧ 32 < (33 : BitVec 6).toNat :=
  ⟨⟨by decide, packerOk_reset _⟩, by decide⟩

/-- BsRdbits and BsSingleBits: enough bits, too few with End, too few without. -/
theorem witness_rdbits :
    (8 ≤ (inBits (begun (bytes [0x80])).bs).length ∧ inBits (begun (bytes [0x80])).bs = true :: List.replicate 7 false) ∧
    ((inBits (begun (bytes [1] ++ [.stop])).bs).length < 9 ∧ inClosed (begun (bytes [1] ++ [.stop])).bs = true) ∧
    ((inBits (begun []).bs).length < 1 ∧ inClosed (begun []).bs = false) ∧
    (inBits (begun [.stop]).bs = [] ∧ inClosed (begun [.stop]).bs = true) ∧ 32 < (63 : BitVec 6).toNat := by decide

/-- BsAlignAndEnd. -/
theorem witness_align : PackerOk (begun []).bs ∧ (begun []).bs.wcnt = 0 := ⟨packerOk_reset _, rfl⟩

/-- BsDrain: after End, with End in IN, without. -/
theorem witness_drain : ({ Stream.reset with eodf := true }).eodf = true ∧
    ((begun (bytes [7] ++ [.stop])).bs.eodf = false ∧ (begun (bytes [7] ++ [.stop])).bs.inp = [(7 : Byte)].map .byte ++ .stop :: []) ∧
    ((begun (bytes [7])).bs.eodf = false ∧ (begun (bytes [7])).bs.inp = [(7 : Byte)].map .byte) := by decide

/-- BitStreamRoundTrip: a read that fits the padding and one that does not. -/
theorem witness_padding : padding 3 = 5 ∧ 5 ≤ padding 3 ∧ padding 3 < 6 ∧ padding 8 < 1 := by decide

/-- HufCount: a whole stream, an overflow, no End. -/
theorem witness_hufCount :
    let s := narrow (begun ([(0x61 : Byte)].map .byte ++ .stop :: []))
    let o := narrow (begun ([(0x61 : Byte)].map .byte ++ .byte 0x61 :: []))
    let w := narrow (begun ([(0x61 : Byte)].map .byte))
    (∀ c : Byte, symGet s.huf.freq c + [(0x61 : Byte)].count c ≤ 2 ^ s.params.freqW - 1) ∧
    s.huf.hstate = .idle ∧ s.bs.inp = [(0x61 : Byte)].map .byte ++ .stop :: [] ∧
    o.bs.inp = [(0x61 : Byte)].map .byte ++ .byte 0x61 :: [] ∧
    symGet o.huf.freq 0x61 + [(0x61 : Byte)].count 0x61 = 2 ^ o.params.freqW - 1 ∧
    w.bs.inp = [(0x61 : Byte)].map .byte := by
  refine ⟨?_, by decide, by decide, by decide, by decide, by decide⟩
  intro c
  have h0 : symGet (Vector.replicate 256 0) c = 0 := by simp [symGet]
  show symGet (Vector.replicate 256 0) c + List.count c [(0x61 : Byte)] ≤ 2 ^ 1 - 1
  rw [h0]
  have := List.count_le_length (a := c) (l := [(0x61 : Byte)])
  simpa using this

/-- HufRdhdr: a whole header of 256 bits, a truncated one, one that waits. -/
theorem witness_hufRdhdr :
    let s := narrow (begun (bytes (List.replicate 32 0)))
    (s.huf.hstate = .idle ∧ PackerOk s.bs ∧ 256 * s.params.freqW ≤ (inBits (rdRestart s.bs)).length) ∧
    ((inBits (rdRestart (begun [.stop]).bs)).length < 256 * 1 ∧ inClosed (rdRestart (begun [.stop]).bs) = true) ∧
    ((inBits (rdRestart (begun []).bs)).length < 256 * 1 ∧ inClosed (rdRestart (begun []).bs) = false) := by
  refine ⟨⟨rfl, packerOk_reset _, by decide +kernel⟩, by decide, by decide⟩

/-- HufBuild, TreeInvariants, CodeTableProperties and CodeLengths: a unit in FREQ, from which both commands complete. -/
theorem witness_build :
    let s := { begun [] with huf := { Huf.reset with hstate := .freq, freq := abFreq, total := 2 } }
    s.huf.hstate = .freq ∧ (∃ t, exec .hufBuild s = .next t) ∧
    ((match execAll [.hufBuild, .hufCodes] s with | .next t => some t.huf.tkind | _ => none) = some .full) :=
  ⟨rfl, ⟨_, rfl⟩, by decide +kernel⟩

theorem treeOk_ab (m : HMode) : TreeOk (abCodes m) := by
  refine ⟨(by intro h; cases h), (by intro h; cases h), fun _ => ⟨⟨2, 0, 1, rfl⟩, ?_⟩⟩
  intro i hi
  have hi' : i < 3 := hi
  have h3 : i = 0 ∨ i = 1 ∨ i = 2 := by omega
  rcases h3 with rfl | rfl | rfl
  · exact ⟨⟨_, rfl⟩, by intro f l r h; cases h⟩
  · exact ⟨⟨_, rfl⟩, by intro f l r h; cases h⟩
  · exact ⟨⟨_, rfl⟩, by intro f l r h; cases h; decide⟩

theorem treeOk_z : TreeOk zTree :=
  ⟨(by intro h; cases h), fun _ => ⟨0x7A, 3, rfl⟩, (by intro h; cases h)⟩

/-- HufCodes: the three kinds of tree. -/
theorem witness_hufCodes :
    (Huf.reset.tkind = .empty ∧ TreeOk Huf.reset) ∧
    (zTree.hstate = .tree ∧ TreeOk zTree ∧ zTree.tkind = .single ∧ nodeAt zTree 0 = some (.leaf 0x7A 3)) ∧
    (abTree.hstate = .tree ∧ TreeOk abTree ∧ abTree.tkind = .full) :=
  ⟨⟨rfl, fun _ => rfl, (by intro h; cases h), (by intro h; cases h)⟩, ⟨rfl, treeOk_z, rfl, rfl⟩, rfl, treeOk_ab .encode, rfl⟩

/-- HufEncode: a whole pass, a short one, a byte with no code, an extra byte, no End. -/
theorem witness_hufEncode :
    let h := abCodes .encode
    (h.hstate = .codes ∧ h.hmode = .encode ∧ PackerOk (begun []).bs ∧
      (∀ x ∈ [(0x61 : Byte), 0x62], symGet h.code x ≠ []) ∧ [(0x61 : Byte), 0x62].length = h.total) ∧
    ([(0x61 : Byte)].length < h.total ∧ [(0x61 : Byte), 0x62].length ≤ h.total) ∧
    symGet h.code 0x63 = [] ∧ symGet h.code 0x61 ≠ [] := by
  refine ⟨⟨rfl, rfl, packerOk_reset _, by decide +kernel, rfl⟩, by decide, by decide +kernel, by decide +kernel⟩

/-- HufDecode, a full tree: TOTAL symbols and the rest, a truncated stream, no End. -/
theorem witness_hufDecode :
    let s := { begun (bytes [0x40] ++ [.stop]) with huf := abCodes .decode }
    let ps : List (List Bool × Byte) := [([false], 0x61), ([true], 0x62)]
    (s.huf.hstate = .codes ∧ s.huf.hmode = .decode ∧ PackerOk s.bs ∧ TreeOk s.huf ∧ inClosed s.bs = true ∧
      s.huf.tkind ≠ .single ∧ (∀ p ∈ ps, leafPath s.huf p.1 p.2) ∧
      inBits s.bs = ps.flatMap Prod.fst ++ List.replicate 6 false ∧ ps.length = s.huf.total) ∧
    (inBits (begun [.stop]).bs = ([] : List (List Bool × Byte)).flatMap Prod.fst ++ [] ∧ 0 < s.huf.total ∧
      ∃ f i j, follow s.huf s.huf.root [] = some (.internal f i j)) ∧
    inClosed (begun []).bs = false := by
  refine ⟨⟨rfl, rfl, packerOk_reset _, treeOk_ab _, by decide, by decide, ?_, by decide, rfl⟩,
    ⟨by decide, by decide, 2, 0, 1, rfl⟩, by decide⟩
  intro p hp
  simp only [List.mem_cons, List.not_mem_nil, or_false] at hp
  rcases hp with rfl | rfl
  · exact ⟨1, rfl⟩
  · exact ⟨1, rfl⟩

/-- HufDecode, a single leaf: enough bits and too few. -/
theorem witness_hufDecode_single :
    let h := { zTree with hstate := .codes, hmode := .decode }
    h.tkind = .single ∧ TreeOk h ∧ nodeAt h 0 = some (.leaf 0x7A 3) ∧
    h.total ≤ (inBits (begun (bytes [0xFF] ++ [.stop])).bs).length ∧ (inBits (begun [.stop]).bs).length < h.total :=
  ⟨rfl, treeOk_z, rfl, by decide, by decide⟩

/-- HuffmanRoundTrip: the empty stream and "ab", with FREQ_W = 1 and the least counters. -/
theorem witness_huffmanRoundTrip :
    let xs : List Byte := [0x61, 0x62]
    let s := narrow (begun (xs.map .byte ++ .stop :: (xs.map .byte ++ .stop :: [])))
    s.err = .none ∧ (narrow State.reset).params.freqWm1 = s.params.freqWm1 ∧
    (∀ c ∈ xs, xs.count c ≤ 2 ^ s.params.freqW - 1) ∧ (∀ c, ([] : List Byte).count c ≤ 2 ^ s.params.freqW - 1) ∧
    s.bs.inp = xs.map .byte ++ .stop :: (xs.map .byte ++ .stop :: []) :=
  ⟨rfl, rfl, by decide, by simp, rfl⟩

/-- LzwInsertAndSearch: below the ceiling, at it, LN = 8, an entry found and one not found. -/
theorem witness_insert :
    (fresh 9).next < lmax (fresh 9) ∧ ({ fresh 9 with next := 511 }).next = lmax { fresh 9 with next := 511 } ∧
    ((fresh 8).ln = 8 ∧ (fresh 8).next = 256) ∧
    (let z := { fresh 9 with dict := [(256, { parent := 65, byte := 66 })], next := 257 }
     memWf z.dict = true ∧ findEntry 65 66 z = some 256 ∧ findEntry 65 67 z = none ∧ 256 < z.next) := by decide

/-- LzwInsertCounts and LzwCodesFit: widths 9 and 8, ready. -/
theorem witness_counts :
    (8 < (fresh 9).ln.toNat ∧ (fresh 9).next = 256 ∧ (fresh 9).resets = 0) ∧ (fresh 8).ln = 8 ∧
    (fresh 9).lstate = .ready ∧ memWf (fresh 9).dict = true ∧ [(65 : Byte)].length < 2 ^ (fresh 9).ln.toNat - 256 := by decide

theorem lzwOk_fresh (n : BitVec 6) (h1 : 8 ≤ n.toNat) (h2 : n.toNat ≤ 16) : LzwOk Params.default (fresh n) := by
  refine ⟨(by intro h; cases h), fun _ => ⟨h1, h2⟩, Nat.le_refl _, fun h => ?_, fun _ => rfl, ?_, fun _ => ⟨rfl, rfl⟩⟩
  · show 256 ≤ 2 ^ n.toNat - 1
    have h : 9 ≤ n.toNat := h
    have := Nat.pow_le_pow_right (n := 2) (by omega) h
    omega
  · intro k h3 h4
    have h4 : k < 256 := h4
    omega

/-- LzwResolve and LzwCodesFit: a unit that meets the invariant; its clauses at 255, 256, NEXT and NEXT + 1, and a full one. -/
theorem witness_resolve :
    (LzwOk Params.default (fresh 9) ∧ (fresh 9).lstate ≠ .uninit ∧ LzwOk Params.default (fresh 8)) ∧
    (255 < 256 ∧ 256 ≤ 256 ∧ 65 < 256 ∧ (fresh 9).next ≠ lmax (fresh 9) ∧ 256 = (fresh 9).next ∧ (fresh 9).next < 257) ∧
    (let z := { fresh 9 with dict := [(256, { parent := 65, byte := 66 })], next := 257, lstate := .done }
     LzwOk Params.default z ∧ 256 < z.next ∧ z.next ≠ lmax z) := by
  refine ⟨⟨lzwOk_fresh 9 (by decide) (by decide), by decide, lzwOk_fresh 8 (by decide) (by decide)⟩, by decide, ?_, by decide,
    by decide⟩
  refine ⟨(by intro h; cases h), fun _ => by decide, by decide, fun _ => by decide, fun h => absurd h (by decide), ?_,
    (by intro h; cases h)⟩
  intro k h3 h4
  have h4 : k < 257 := h4
  have : k = 256 := by omega
  subst this
  exact ⟨_, rfl, by decide⟩

/-- LzwEncode: a whole stream and one that waits. -/
theorem witness_lzwEncode :
    (fresh 9).lstate = .ready ∧ PackerOk (begun []).bs ∧ (begun [.stop]).bs.inp = ([] : List Byte).map .byte ++ .stop :: [] ∧
    (begun [.byte 65]).bs.inp = [(65 : Byte)].map .byte := ⟨rfl, packerOk_reset _, rfl, rfl⟩

/-- LzwDecode: V-L15's codes 65 and 256 read whole; after 65 the code 257 does not resolve; no End. -/
theorem witness_lzwDecode :
    let s := { begun (bytes [0x20, 0xC0, 0x00] ++ [.stop]) with lzw := fresh 9 }
    (s.lzw.lstate = .ready ∧ PackerOk s.bs ∧ 0 < s.lzw.ln.toNat ∧ (∀ k ∈ [65, 256], k < 2 ^ s.lzw.ln.toNat) ∧
      (∃ ys z, lzwRead none s.lzw [65, 256] = some (ys, z)) ∧
      inBits (rdRestart s.bs) = codesBits s.lzw.ln.toNat [65, 256] ++ List.replicate 6 false ∧
      (List.replicate 6 false).length < s.lzw.ln.toNat ∧ inClosed (rdRestart s.bs) = true) ∧
    (lzwRead none s.lzw [65] = some ([65], s.lzw) ∧ 257 < 2 ^ s.lzw.ln.toNat ∧
      inBits (rdRestart (begun (bytes [0x20, 0xC0, 0x40])).bs) = codesBits 9 ([65] ++ [257]) ++ List.replicate 6 false ∧
      resolveCode [65].getLast? s.lzw 257 = .unresolved) ∧
    (lzwRead none s.lzw [] = some ([], s.lzw) ∧ inBits (rdRestart (begun []).bs) = codesBits 9 [] ++ [] ∧
      inClosed (rdRestart (begun []).bs) = false) := by
  refine ⟨⟨rfl, packerOk_reset _, by decide, by decide, ⟨_, _, rfl⟩, by decide, by decide, by decide⟩,
    ⟨by decide, by decide, by decide, by decide⟩, by decide, by decide, by decide⟩

/-- LzwRoundTrip: the least and the greatest width of the reset core. -/
theorem witness_lzwRoundTrip :
    let s := { begun ([(65 : Byte)].map .byte ++ .stop :: []) with curCfg := 8 }
    s.err = .none ∧ 8 ≤ s.curCfg.toNat ∧ s.curCfg.toNat ≤ s.params.lzwNmax ∧ (16 : BitVec 6).toNat ≤ s.params.lzwNmax ∧
    memWf s.lzw.dict = true ∧ s.bs.inp = [(65 : Byte)].map .byte ++ .stop :: [] := by decide

theorem ok_reset : State.reset.Ok := by
  refine ⟨⟨packerOk_reset _, by decide⟩, ⟨?_, fun _ => ⟨rfl, rfl⟩, ?_, by decide, by decide, by decide, ?_⟩,
    ⟨fun _ => ⟨rfl, rfl, rfl⟩, by decide, by decide, by decide, by decide, ?_, (by intro h; cases h)⟩,
    ⟨by decide, by decide, by decide, by decide⟩, rfl, rfl⟩
  · intro c
    have : symGet State.reset.huf.freq c = 0 := by
      show symGet (Vector.replicate 256 0) c = 0
      simp [symGet]
    rw [this]
    decide
  · rintro (h | h | h | h) <;> cases h
  · rintro (h | h) <;> cases h
  · intro k h1 h2
    have h2 : k < 256 := h2
    omega

/-- The invariants kept by every step: a state that meets them all, with a step to a next state. -/
theorem witness_invariants : State.reset.Ok ∧ ∃ t, step State.reset = .next t := ⟨ok_reset, _, rfl⟩

end Sys2Proof.Tests
end

/-! PROOF LAYER. What each command does to the units, said once: the job commands as a loop over the input and what is made
of its end, then the Huffman unit, the LZW unit and the error codes after every command. -/

namespace Sys2Proof.Machine

/-! ## A command as its loop -/

section loops
variable {β : Type}

/-- The run of a job command: its loop over the input, with what is made of the loop's end. -/
def Loop.toRun (l : Loop β) (done : β → Stream → Run) (raise : ErrCode → Word → β → Stream → Run) : Run :=
  match l with
  | .done x b => done x b
  | .raise c n x b => raise c n x b
  | .wait b => .wait b
  | .fault e => .fault e

/-- What holds of a loop's own result where it ends: `P` at the end of the input, `R` with the code of an error. -/
def LoopEnds (P : β → Prop) (R : ErrCode → β → Prop) (l : Loop β) : Prop :=
  match l with
  | .done x _ => P x
  | .raise c _ x _ => R c x
  | .wait _ => True
  | .fault _ => True

theorem Loop.toRun_ends {A B : State → Prop} {P : β → Prop} {R : ErrCode → β → Prop} {l : Loop β}
    {done : β → Stream → Run} {raise : ErrCode → Word → β → Stream → Run} (h : LoopEnds P R l)
    (hd : ∀ x b, P x → RunEnds A B (done x b)) (hr : ∀ c n x b, R c x → RunEnds A B (raise c n x b)) :
    RunEnds A B (l.toRun done raise) := by
  cases l with
  | done x b => exact hd x b h
  | raise c n x b => exact hr c n x b h
  | wait b => trivial
  | fault e => trivial

end loops

/-- What HUF_COUNT makes of the End (42_huffman.md R181). -/
def countDone (s : State) (f : Vector Nat 256) (b : Stream) : Run :=
  .ok ((s.withBs b).withHuf { s.huf with freq := f, total := freqSum f, hmode := .encode, hstate := .freq })

/-- What HUF_COUNT makes of a full counter (R181). -/
def countRaise (s : State) (code : ErrCode) (info : Word) (f : Vector Nat 256) (b : Stream) : Run :=
  .raise code info ((s.withBs b).withHuf { s.huf with freq := f, hstate := .error })

theorem runHufCount_eq (s : State) :
    runHufCount s = checkPre (s.huf.hstate == .idle) s
      ((countLoop (2 ^ s.params.freqW - 1) (available (rdRestart s.bs) + 1) s.huf.freq (rdRestart s.bs)).toRun
        (countDone s) (countRaise s)) := by
  unfold runHufCount
  dsimp only
  cases countLoop (2 ^ s.params.freqW - 1) (available (rdRestart s.bs) + 1) s.huf.freq (rdRestart s.bs) <;> rfl

/-- What HUF_RDHDR makes of a truncated and of a whole header (R182). -/
def headerDone (s : State) : Vector Nat 256 × Bool → Stream → Run
  | (f, true), b =>
    .ok ((s.withBs (finalize b)).withHuf
      { s.huf with freq := f, total := freqSum f, hmode := .decode, cvalid := false, trunc := true, hstate := .done })
  | (f, false), b =>
    .ok ((s.withBs b).withHuf { s.huf with freq := f, total := freqSum f, hmode := .decode, hstate := .freq })

/-- An error that changes no unit: the answer of the loops that never raise one. -/
def raiseKept {β : Type} (s : State) (code : ErrCode) (info : Word) (_ : β) (b : Stream) : Run :=
  .raise code info (s.withBs b)

theorem runHufRdhdr_eq (s : State) :
    runHufRdhdr s = checkPre (s.huf.hstate == .idle) s
      ((headerLoop s.params.freqW allSymbols s.huf.freq (rdRestart s.bs)).toRun (headerDone s) (raiseKept s)) := by
  unfold runHufRdhdr
  match headerLoop s.params.freqW allSymbols s.huf.freq (rdRestart s.bs) with
  | .done (f, true) b => rfl
  | .done (f, false) b => rfl
  | .raise c n x b => rfl
  | .wait b => rfl
  | .fault e => rfl

/-- What HUF_ENCODE makes of the End after `k` bytes (R210). -/
def encodeDone (s : State) (k : Nat) (b : Stream) : Run :=
  if k ≠ s.huf.total then
    .raise .eHufLen (BitVec.ofNat 32 k) ((s.withBs b).withHuf { s.huf with hstate := .error })
  else .ok ((s.withBs (finalize b)).withHuf { s.huf with hstate := .done })

/-- What HUF_ENCODE makes of a byte without a code and of an extra byte (R210). -/
def encodeRaise (s : State) (code : ErrCode) (info : Word) (_ : Nat) (b : Stream) : Run :=
  .raise code info ((s.withBs b).withHuf { s.huf with hstate := .error })

theorem runHufEncode_eq (s : State) :
    runHufEncode s = checkPre (s.huf.hstate == .codes && s.huf.hmode == .encode) s
      ((encodeLoop s.huf.code s.huf.total
        (available (writeHeader s.params.freqW s.huf.freq (rdRestart s.bs)) + 1) 0
        (writeHeader s.params.freqW s.huf.freq (rdRestart s.bs))).toRun (encodeDone s) (encodeRaise s)) := by
  unfold runHufEncode
  dsimp only
  cases encodeLoop s.huf.code s.huf.total (available (writeHeader s.params.freqW s.huf.freq (rdRestart s.bs)) + 1) 0
    (writeHeader s.params.freqW s.huf.freq (rdRestart s.bs)) <;> rfl

/-- What HUF_DECODE makes of a truncated stream and of TOTAL symbols (R215). -/
def decodeDone (s : State) : Bool → Stream → Run
  | true, b => .ok ((s.withBs (finalize b)).withHuf { s.huf with trunc := true, hstate := .done })
  | false, b =>
    match drain b with
    | .ok _ b' => .ok ((s.withBs (finalize b')).withHuf { s.huf with hstate := .done })
    | .eod b' => .ok ((s.withBs (finalize b')).withHuf { s.huf with hstate := .done })
    | .wait b' => .wait b'

theorem runHufDecode_eq (s : State) :
    runHufDecode s = checkPre (s.huf.hstate == .codes && s.huf.hmode == .decode) s
      ((decodeLoop s.huf (available s.bs + 1) 0 s.bs).toRun (decodeDone s) (raiseKept s)) := by
  unfold runHufDecode
  match decodeLoop s.huf (available s.bs + 1) 0 s.bs with
  | .done true b => rfl
  | .done false b => rfl
  | .raise c n x b => rfl
  | .wait b => rfl
  | .fault e => rfl

/-- What LZW_ENCODE makes of the End (43_lzw.md R250). -/
def lzwEncodeDone (s : State) : Option Nat × Lzw → Stream → Run
  | (none, z), b => .ok ((s.withBs (finalize b)).withLzw { z with lstate := .done })
  | (some p, z), b => .ok ((s.withBs (finalize (emitCode z p b))).withLzw { z with lstate := .done })

theorem runLzwEncode_eq (s : State) :
    runLzwEncode s = checkPre (s.lzw.lstate == .ready) s
      ((lzwEncodeLoop (available (rdRestart s.bs) + 1) none s.lzw (rdRestart s.bs)).toRun
        (lzwEncodeDone s) (raiseKept s)) := by
  unfold runLzwEncode
  dsimp only
  match lzwEncodeLoop (available (rdRestart s.bs) + 1) none s.lzw (rdRestart s.bs) with
  | .done (none, z) b => rfl
  | .done (some p, z) b => rfl
  | .raise c n x b => rfl
  | .wait b => rfl
  | .fault e => rfl

/-- What LZW_DECODE makes of the End (R253). -/
def lzwDecodeDone (s : State) (z : Lzw) (b : Stream) : Run :=
  .ok ((s.withBs (finalize b)).withLzw { z with lstate := .done })

/-- What LZW_DECODE makes of a code that does not resolve (R253). -/
def lzwDecodeRaise (s : State) (code : ErrCode) (info : Word) (z : Lzw) (b : Stream) : Run :=
  .raise code info ((s.withBs b).withLzw { z with lstate := .error })

theorem runLzwDecode_eq (s : State) :
    runLzwDecode s = checkPre (s.lzw.lstate == .ready) s
      ((lzwDecodeLoop (available (rdRestart s.bs) + 1) none s.lzw (rdRestart s.bs)).toRun
        (lzwDecodeDone s) (lzwDecodeRaise s)) := by
  unfold runLzwDecode
  dsimp only
  cases lzwDecodeLoop (available (rdRestart s.bs) + 1) none s.lzw (rdRestart s.bs) <;> rfl

/-! ## What the loops leave -/

/-- The counters `g` stay at most `m` where the counters `f` are. -/
def CountersKept (m : Nat) (f g : Vector Nat 256) : Prop := (∀ c, symGet f c ≤ m) → ∀ c, symGet g c ≤ m

theorem countersKept_refl (m : Nat) (f : Vector Nat 256) : CountersKept m f f := id

theorem CountersKept.symSet {m v : Nat} {f g : Vector Nat 256} (h : CountersKept m f g) (c : Byte)
    (hv : symGet g c ≤ m → v ≤ m) : CountersKept m f (symSet g c v) := by
  intro hf d
  rw [symGet_symSet]
  split
  · exact hv (h hf c)
  · exact h hf d

/-- HUF_COUNT's loop lets no counter pass the limit, and raises E_FREQ_OVF alone (42_huffman.md R181). -/
theorem countLoop_ends (limit n : Nat) (f g : Vector Nat 256) (b : Stream) (hg : CountersKept limit f g) :
    LoopEnds (CountersKept limit f) (fun c g => c = .eFreqOvf ∧ CountersKept limit f g) (countLoop limit n g b) := by
  induction n generalizing g b with
  | zero => trivial
  | succ n ih =>
    unfold countLoop
    cases readBits 8 b with
    | eod b' => exact hg
    | wait b' => trivial
    | ok r b' =>
      dsimp only
      split
      · exact ⟨rfl, hg⟩
      · exact ih _ _ (hg.symSet _ (by omega))

/-- HUF_RDHDR's loop loads fields of FREQ_W bits, and raises no error (R182). -/
theorem headerLoop_ends (w : Nat) (cs : List Byte) (f g : Vector Nat 256) (b : Stream)
    (hg : CountersKept (2 ^ w - 1) f g) :
    LoopEnds (fun x => CountersKept (2 ^ w - 1) f x.1) (fun _ _ => False) (headerLoop w cs g b) := by
  induction cs generalizing g b with
  | nil => exact hg
  | cons c cs ih =>
    unfold headerLoop
    cases hr : readBits w b with
    | eod b' => exact hg
    | wait b' => trivial
    | ok r b' =>
      have := readBits_lt hr
      exact ih _ _ (hg.symSet _ (by omega))

/-- HUF_ENCODE's loop raises E_HUF_SYM and E_HUF_LEN alone (R210). -/
theorem encodeLoop_ends (code : Vector (List Bool) 256) (total n k : Nat) (b : Stream) :
    LoopEnds (fun _ => True) (fun c _ => c = .eHufSym ∨ c = .eHufLen) (encodeLoop code total n k b) := by
  induction n generalizing k b with
  | zero => trivial
  | succ n ih =>
    unfold encodeLoop
    cases readBits 8 b with
    | eod b' => trivial
    | wait b' => trivial
    | ok r b' =>
      dsimp only
      split
      · exact .inl rfl
      · split
        · exact .inr rfl
        · exact ih _ _

/-- HUF_DECODE's loop raises no error (R215). -/
theorem decodeLoop_ends (h : Huf) (n k : Nat) (b : Stream) :
    LoopEnds (fun _ => True) (fun _ _ => False) (decodeLoop h n k b) := by
  induction n generalizing k b with
  | zero => unfold decodeLoop; split <;> trivial
  | succ n ih =>
    unfold decodeLoop
    split
    · cases decodeSymbol h b with
      | sym c b' => exact ih _ _
      | eod b' => trivial
      | wait b' => trivial
      | fault e => trivial
    · trivial

section keeps
variable {P : Lzw → Prop} (hP : ∀ p c z, P z → P (lzwInsert p c z))
include hP

/-- LZW_ENCODE's loop keeps what Insert keeps, and raises no error (43_lzw.md R250). -/
theorem lzwEncodeLoop_ends (n : Nat) (q : Option Nat) (z : Lzw) (b : Stream) (hz : P z) :
    LoopEnds (fun x => P x.2) (fun _ _ => False) (lzwEncodeLoop n q z b) := by
  induction n generalizing q z b with
  | zero => trivial
  | succ n ih =>
    unfold lzwEncodeLoop
    cases readBits 8 b with
    | eod b' => exact hz
    | wait b' => trivial
    | ok r b' =>
      dsimp only
      split
      · exact ih _ _ _ hz
      · split
        · exact ih _ _ _ hz
        · exact ih _ _ _ (hP _ _ _ hz)

/-- LZW_DECODE's loop keeps what Insert keeps, and raises E_LZW_CODE alone (R253). -/
theorem lzwDecodeLoop_ends (n : Nat) (q : Option Nat) (z : Lzw) (b : Stream) (hz : P z) :
    LoopEnds P (fun c z => c = .eLzwCode ∧ P z) (lzwDecodeLoop n q z b) := by
  induction n generalizing q z b with
  | zero => trivial
  | succ n ih =>
    unfold lzwDecodeLoop
    cases readBits z.ln.toNat b with
    | eod b' => exact hz
    | wait b' => trivial
    | ok k b' =>
      dsimp only
      split
      · exact ⟨rfl, hz⟩
      · trivial
      · refine ih _ _ _ ?_
        cases q with
        | none => exact hz
        | some p => exact hP _ _ _ hz

end keeps

/-! ## The units after every command -/

theorem RunEnds.mono {A B A' B' : State → Prop} {r : Run} (h : RunEnds A B r) (ha : ∀ t, A t → A' t)
    (hb : ∀ t, B t → B' t) : RunEnds A' B' r := by
  cases r with
  | ok t => exact ha t h
  | raise c n t => exact hb t h
  | wait b => trivial
  | fault e => trivial

/-- Everything a command that completes without an error leaves in the Huffman unit (42_huffman.md R180 to R217). -/
inductive HufAfter (s : State) : Instr → Huf → Prop where
  | kept (i : Instr) (hi : writesHuf i = false) : HufAfter s i s.huf
  | init : HufAfter s .hufInit (hufInitUnit s.huf)
  | counted (f : Vector Nat 256) (hs : s.huf.hstate = .idle)
      (hf : CountersKept (2 ^ s.params.freqW - 1) s.huf.freq f) :
      HufAfter s .hufCount { s.huf with freq := f, total := freqSum f, hmode := .encode, hstate := .freq }
  | loaded (f : Vector Nat 256) (hs : s.huf.hstate = .idle)
      (hf : CountersKept (2 ^ s.params.freqW - 1) s.huf.freq f) :
      HufAfter s .hufRdhdr { s.huf with freq := f, total := freqSum f, hmode := .decode, hstate := .freq }
  | cutHeader (f : Vector Nat 256) (hs : s.huf.hstate = .idle)
      (hf : CountersKept (2 ^ s.params.freqW - 1) s.huf.freq f) :
      HufAfter s .hufRdhdr { s.huf with freq := f, total := freqSum f, hmode := .decode, cvalid := false, trunc := true,
                                        hstate := .done }
  | built (hs : s.huf.hstate = .freq) :
      HufAfter s .hufBuild { withTree s.huf (buildTree s.huf.freq) with hstate := .tree }
  | coded (t : Vector (List Bool) 256) (hs : s.huf.hstate = .tree) :
      HufAfter s .hufCodes { s.huf with code := t, cvalid := true, hstate := .codes }
  | encoded (hs : s.huf.hstate = .codes) : HufAfter s .hufEncode { s.huf with hstate := .done }
  | decoded (hs : s.huf.hstate = .codes) : HufAfter s .hufDecode { s.huf with hstate := .done }
  | cutDecode (hs : s.huf.hstate = .codes) : HufAfter s .hufDecode { s.huf with trunc := true, hstate := .done }

/-- Everything a command that ends with an error leaves in the Huffman unit (60_exceptions.md R310). -/
inductive HufRaised (s : State) : Huf → Prop where
  | kept : HufRaised s s.huf
  | counted (f : Vector Nat 256) (hs : s.huf.hstate = .idle)
      (hf : CountersKept (2 ^ s.params.freqW - 1) s.huf.freq f) :
      HufRaised s { s.huf with freq := f, hstate := .error }
  | encoded (hs : s.huf.hstate = .codes) : HufRaised s { s.huf with hstate := .error }

/-- The Huffman unit after every command. -/
theorem runCommand_huf (i : Instr) (s : State) :
    RunEnds (fun t => HufAfter s i t.huf) (fun t => HufRaised s t.huf) (runCommand i s) := by
  by_cases hw : writesHuf i = false
  · exact (runCommand_frame i s).mono (fun t h => by rw [h.huf hw]; exact .kept i hw)
      (fun t h => by rw [h.huf hw]; exact .kept)
  cases i with
  | hufInit => exact .init
  | hufCount =>
    show RunEnds _ _ (runHufCount s)
    rw [runHufCount_eq]
    refine checkPre_ends .kept fun hp => Loop.toRun_ends (countLoop_ends _ _ _ _ _ (countersKept_refl _ _)) ?_ ?_
    · exact fun f b hf => .counted f (by simpa using hp) hf
    · exact fun c n f b hf => .counted f (by simpa using hp) hf.2
  | hufRdhdr =>
    show RunEnds _ _ (runHufRdhdr s)
    rw [runHufRdhdr_eq]
    refine checkPre_ends .kept fun hp => Loop.toRun_ends (headerLoop_ends _ _ _ _ _ (countersKept_refl _ _)) ?_ ?_
    · rintro ⟨f, cut⟩ b hf
      cases cut
      · exact .loaded f (by simpa using hp) hf
      · exact .cutHeader f (by simpa using hp) hf
    · exact fun _ _ _ _ h => h.elim
  | hufBuild => exact checkPre_ends .kept fun hp => .built (by simpa using hp)
  | hufCodes =>
    refine checkPre_ends .kept fun hp => ?_
    cases codeTable s.huf with
    | some t => exact .coded t (by simpa using hp)
    | none => trivial
  | hufEncode =>
    show RunEnds _ _ (runHufEncode s)
    rw [runHufEncode_eq]
    refine checkPre_ends .kept fun hp => ?_
    simp only [Bool.and_eq_true, beq_iff_eq] at hp
    refine Loop.toRun_ends (encodeLoop_ends _ _ _ _ _) (fun k b _ => ?_) (fun c n k b _ => .encoded hp.1)
    unfold encodeDone
    split
    · exact .encoded hp.1
    · exact .encoded hp.1
  | hufDecode =>
    show RunEnds _ _ (runHufDecode s)
    rw [runHufDecode_eq]
    refine checkPre_ends .kept fun hp => ?_
    simp only [Bool.and_eq_true, beq_iff_eq] at hp
    refine Loop.toRun_ends (decodeLoop_ends _ _ _ _) (fun cut b _ => ?_) (fun _ _ _ _ h => h.elim)
    cases cut
    · rw [decodeDone]
      cases drain b with
      | ok x b' => exact .decoded hp.1
      | eod b' => exact .decoded hp.1
      | wait b' => trivial
    · exact .cutDecode hp.1
  | _ => exact absurd rfl hw

/-- The unit `z'` comes from `z` by Inserts: they keep LN and LSTATE and the canonical form of the dictionary, and where LN is
latched its shape (43_lzw.md R243, R247). -/
structure LzwGrown (z z' : Lzw) : Prop where
  ln : z'.ln = z.ln
  lstate : z'.lstate = z.lstate
  memory : memWf z.dict = true → memWf z'.dict = true
  dict : 0 < z.ln.toNat → DictOk z → DictOk z'

/-- Everything a command that completes without an error leaves in the LZW unit (43_lzw.md R241 to R253). -/
inductive LzwAfter (s : State) : Instr → Lzw → Prop where
  | kept (i : Instr) (hi : writesLzw i = false) : LzwAfter s i s.lzw
  | init (h8 : 8 ≤ s.curCfg.toNat) (hm : s.curCfg.toNat ≤ s.params.lzwNmax) :
      LzwAfter s .lzwInit (lzwInitUnit s.curCfg s.lzw)
  | encoded (z : Lzw) (hs : s.lzw.lstate = .ready) (hz : LzwGrown s.lzw z) :
      LzwAfter s .lzwEncode { z with lstate := .done }
  | decoded (z : Lzw) (hs : s.lzw.lstate = .ready) (hz : LzwGrown s.lzw z) :
      LzwAfter s .lzwDecode { z with lstate := .done }

/-- Everything a command that ends with an error leaves in the LZW unit (60_exceptions.md R310). -/
inductive LzwRaised (s : State) : Lzw → Prop where
  | kept : LzwRaised s s.lzw
  | decoded (z : Lzw) (hs : s.lzw.lstate = .ready) (hz : LzwGrown s.lzw z) : LzwRaised s { z with lstate := .error }

theorem memWf_lzwInsert (p : Nat) (c : Byte) (z : Lzw) (h : memWf z.dict = true) :
    memWf (lzwInsert p c z).dict = true := by
  rcases Nat.lt_trichotomy z.next (lmax z) with hl | hl | hl
  · rw [lzwInsert_below hl]; exact memWf_memSet _ _ _ h
  · rw [lzwInsert_full hl]; exact memWf_memSet _ _ _ h
  · rw [lzwInsert_over hl]; exact h

/-- The part of `LzwGrown` that every Insert has, whatever the dictionary's shape. -/
def InsertKept (z z' : Lzw) : Prop := z'.ln = z.ln ∧ z'.lstate = z.lstate ∧ (memWf z.dict = true → memWf z'.dict = true)

theorem insertKept_lzwInsert (z : Lzw) (p : Nat) (c : Byte) (z' : Lzw) (h : InsertKept z z') :
    InsertKept z (lzwInsert p c z') := by
  obtain ⟨h1, h2, h3⟩ := h
  obtain ⟨e1, e2⟩ := lzwInsert_kept p c z'
  exact ⟨e1.trans h1, e2.trans h2, fun hw => memWf_lzwInsert p c z' (h3 hw)⟩

theorem insertKept_refl (z : Lzw) : InsertKept z z := ⟨rfl, rfl, id⟩

theorem lzwEncodeLoop_grown (n : Nat) (z : Lzw) (b : Stream) :
    LoopEnds (fun x => LzwGrown z x.2) (fun _ _ => False) (lzwEncodeLoop n none z b) := by
  have hk := lzwEncodeLoop_ends (insertKept_lzwInsert z) n none z b (insertKept_refl z)
  have hd := fun h : DictOk z => lzwEncodeLoop_ok n none z b h nofun
  cases e : lzwEncodeLoop n none z b with
  | done x b' =>
    rw [e] at hk hd
    obtain ⟨h1, h2, h3⟩ := hk
    exact ⟨h1, h2, h3, fun _ h => (hd h).1⟩
  | raise c m x b' => rw [e] at hk; exact hk
  | wait b' => trivial
  | fault f => trivial

theorem lzwDecodeLoop_grown (n : Nat) (z : Lzw) (b : Stream) (hn : available b < n) :
    LoopEnds (LzwGrown z) (fun c z' => c = .eLzwCode ∧ LzwGrown z z') (lzwDecodeLoop n none z b) := by
  have hk := lzwDecodeLoop_ends (insertKept_lzwInsert z) n none z b (insertKept_refl z)
  have hd := fun (h0 : 0 < z.ln.toNat) (h : DictOk z) => lzwDecodeLoop_ok n none z b h nofun h0 hn
  cases e : lzwDecodeLoop n none z b with
  | done z' b' =>
    rw [e] at hk hd
    obtain ⟨h1, h2, h3⟩ := hk
    exact ⟨h1, h2, h3, fun h0 h => (hd h0 h).1⟩
  | raise c m z' b' =>
    rw [e] at hk hd
    obtain ⟨hc, h1, h2, h3⟩ := hk
    exact ⟨hc, h1, h2, h3, fun h0 h => (hd h0 h).1⟩
  | wait b' => trivial
  | fault f => trivial

/-- The LZW unit after every command. -/
theorem runCommand_lzw (i : Instr) (s : State) :
    RunEnds (fun t => LzwAfter s i t.lzw) (fun t => LzwRaised s t.lzw) (runCommand i s) := by
  by_cases hw : writesLzw i = false
  · exact (runCommand_frame i s).mono (fun t h => by rw [h.lzw hw]; exact .kept i hw)
      (fun t h => by rw [h.lzw hw]; exact .kept)
  cases i with
  | lzwInit =>
    show RunEnds _ _ (checkCodeWidth s _)
    unfold checkCodeWidth
    dsimp only
    split
    · exact .kept
    · rename_i h
      obtain ⟨h8, hm⟩ := not_or.1 h
      exact .init (Nat.le_of_not_lt h8) (Nat.le_of_not_lt hm)
  | lzwEncode =>
    show RunEnds _ _ (runLzwEncode s)
    rw [runLzwEncode_eq]
    refine checkPre_ends .kept fun hp => Loop.toRun_ends (lzwEncodeLoop_grown _ _ _) ?_ (fun _ _ _ _ h => h.elim)
    rintro ⟨p, z⟩ b hz
    cases p <;> exact .encoded z (by simpa using hp) hz
  | lzwDecode =>
    show RunEnds _ _ (runLzwDecode s)
    rw [runLzwDecode_eq]
    refine checkPre_ends .kept fun hp =>
      Loop.toRun_ends (lzwDecodeLoop_grown _ _ _ (Nat.lt_succ_self _)) ?_ ?_
    · exact fun z b hz => .decoded z (by simpa using hp) hz
    · exact fun c n z b hz => .decoded z (by simpa using hp) hz.2
  | _ => exact absurd rfl hw

/-! ## Error codes -/

/-- The code a run raises, where it raises one. -/
def RunRaises (R : ErrCode → Prop) (r : Run) : Prop :=
  match r with
  | .raise c _ _ => R c
  | .ok _ | .wait _ | .fault _ => True

theorem checkPre_raises {R : ErrCode → Prop} {pre : Bool} {s : State} {body : Run} (hs : R .eSeq)
    (h : RunRaises R body) : RunRaises R (checkPre pre s body) := by
  unfold checkPre
  split
  · exact h
  · exact hs

theorem Loop.toRun_raises {β : Type} {S : ErrCode → Prop} {P : β → Prop} {R : ErrCode → β → Prop} {l : Loop β}
    {done : β → Stream → Run} {raise : ErrCode → Word → β → Stream → Run} (h : LoopEnds P R l)
    (hd : ∀ x b, RunRaises S (done x b)) (hr : ∀ c n x b, R c x → RunRaises S (raise c n x b)) :
    RunRaises S (l.toRun done raise) := by
  cases l with
  | done x b => exact hd x b
  | raise c n x b => exact hr c n x b h
  | wait b => trivial
  | fault e => trivial

/-- An error a command raises has a code, never that of no error (60_exceptions.md R300). -/
theorem runCommand_raises (i : Instr) (s : State) : RunRaises (· ≠ .none) (runCommand i s) := by
  cases i with
  | bsWrbits w =>
    show RunRaises _ (checkWidth w s _)
    unfold checkWidth
    split
    · nofun
    · trivial
  | bsRdbits w =>
    show RunRaises _ (checkWidth w s _)
    unfold checkWidth
    split
    · nofun
    · cases readBits (widthOperand w) s.bs <;> trivial
  | bsRdbit =>
    show RunRaises _ (runBsRdbit s)
    unfold runBsRdbit
    cases readBit s.bs <;> trivial
  | bsDrain =>
    show RunRaises _ (runBsDrain s)
    unfold runBsDrain
    cases drain s.bs <;> trivial
  | hufCount =>
    show RunRaises _ (runHufCount s)
    rw [runHufCount_eq]
    refine checkPre_raises nofun (Loop.toRun_raises (countLoop_ends _ _ _ _ _ (countersKept_refl _ _))
      (fun _ _ => trivial) ?_)
    rintro c n f b ⟨rfl, _⟩
    nofun
  | hufRdhdr =>
    show RunRaises _ (runHufRdhdr s)
    rw [runHufRdhdr_eq]
    refine checkPre_raises nofun (Loop.toRun_raises (headerLoop_ends _ _ _ _ _ (countersKept_refl _ _)) ?_
      (fun _ _ _ _ h => h.elim))
    rintro ⟨f, cut⟩ b
    cases cut <;> trivial
  | hufBuild => exact checkPre_raises nofun trivial
  | hufCodes =>
    refine checkPre_raises nofun ?_
    cases codeTable s.huf <;> trivial
  | hufEncode =>
    show RunRaises _ (runHufEncode s)
    rw [runHufEncode_eq]
    refine checkPre_raises nofun (Loop.toRun_raises (encodeLoop_ends _ _ _ _ _) (fun k b => ?_) ?_)
    · unfold encodeDone
      split
      · nofun
      · trivial
    · rintro c n k b (rfl | rfl) <;> nofun
  | hufDecode =>
    show RunRaises _ (runHufDecode s)
    rw [runHufDecode_eq]
    refine checkPre_raises nofun (Loop.toRun_raises (decodeLoop_ends _ _ _ _) (fun cut b => ?_)
      (fun _ _ _ _ h => h.elim))
    cases cut
    · rw [decodeDone]
      cases drain b <;> trivial
    · trivial
  | hufLookup c k => exact checkPre_raises nofun trivial
  | lzwInit =>
    show RunRaises _ (checkCodeWidth s _)
    unfold checkCodeWidth
    dsimp only
    split
    · nofun
    · trivial
  | lzwEncode =>
    show RunRaises _ (runLzwEncode s)
    rw [runLzwEncode_eq]
    refine checkPre_raises nofun (Loop.toRun_raises (lzwEncodeLoop_grown _ _ _) ?_ (fun _ _ _ _ h => h.elim))
    rintro ⟨p, z⟩ b
    cases p <;> trivial
  | lzwDecode =>
    show RunRaises _ (runLzwDecode s)
    rw [runLzwDecode_eq]
    refine checkPre_raises nofun (Loop.toRun_raises (lzwDecodeLoop_grown _ _ _ (Nat.lt_succ_self _))
      (fun _ _ => trivial) ?_)
    rintro c n z b ⟨rfl, _⟩
    nofun
  | _ => trivial

end Sys2Proof.Machine

/-! PROOF LAYER. Everything a step can be, as one principle: what the host's moves and the commands keep, every step keeps;
then the units' invariants by it. -/

namespace Sys2Proof.Machine

/-! ## The engine step and the run behind it -/

theorem executeRun_ok {s : State} {i : Instr} (h : decode s.curCmd = .ok i) : executeRun s = runCommand i s := by
  simp only [executeRun, h]

theorem executeRun_error {s : State} {e : Illegal} (h : decode s.curCmd = .error e) :
    executeRun s = .raise .eCmd s.curCmd s := by
  simp only [executeRun, h, runIllegal]

/-- The engine step is the finish of the accepted word's run (20_memory.md R84). -/
theorem engineStep_eq_finish (s : State) : engineStep s = (executeRun s).finish s := by
  cases h : decode s.curCmd with
  | ok i => rw [engineStep_ok h, executeRun_ok h, exec_eq_finish]
  | error e => rw [engineStep_error h, executeRun_error h, finish_raise]

/-- What holds where a command's run ends holds where the accepted word's does, if the illegal word's error has it. -/
theorem executeRun_ends {A B : State → Prop} {s : State} (hc : ∀ i, RunEnds A B (runCommand i s)) (he : B s) :
    RunEnds A B (executeRun s) := by
  cases h : decode s.curCmd with
  | ok i => rw [executeRun_ok h]; exact hc i
  | error e => rw [executeRun_error h]; exact he

theorem executeRun_raises (s : State) : RunRaises (· ≠ .none) (executeRun s) := by
  cases h : decode s.curCmd with
  | ok i => rw [executeRun_ok h]; exact runCommand_raises i s
  | error e => rw [executeRun_error h]; nofun

/-- Everything a run's finish to a next state can be, with what holds where the run ends. -/
theorem finish_next {A B : State → Prop} {R : ErrCode → Prop} {r : Run} {s t : State} (h : r.finish s = .next t)
    (hr : RunEnds A B r) (hc : RunRaises R r) :
    t = s ∨ (∃ u, A u ∧ t = complete u) ∨ (∃ c n u, R c ∧ B u ∧ t = raiseError c n u) := by
  cases r with
  | ok u => cases h; exact .inr (.inl ⟨u, hr, rfl⟩)
  | raise c n u => cases h; exact .inr (.inr ⟨c, n, u, hc, hr, rfl⟩)
  | wait b => cases h; exact .inl rfl
  | fault e => cases h

/-- Everything a command's engine step to a next state can be, with what holds where its run ends. -/
theorem exec_next {A B : State → Prop} {i : Instr} {s t : State} (h : exec i s = .next t)
    (hr : RunEnds A B (runCommand i s)) :
    t = s ∨ (∃ u, A u ∧ t = complete u) ∨ (∃ c n u, c ≠ .none ∧ B u ∧ t = raiseError c n u) := by
  rw [exec_eq_finish] at h
  exact finish_next h hr (runCommand_raises i s)

/-- A command that has completed without an error ran to its end. -/
theorem exec_completed {A B : State → Prop} {i : Instr} {s t : State} (h : exec i s = .next t)
    (hr : RunEnds A B (runCommand i s)) (hb : s.busy = true) (hb' : t.busy = false) (he : t.err = .none) :
    ∃ u, A u ∧ t = complete u := by
  rcases exec_next h hr with rfl | hu | ⟨c, n, u, hc, _, rfl⟩
  · rw [hb] at hb'; cases hb'
  · exact hu
  · exact absurd he hc

/-! ## Steps -/

/-- What the host's moves, a completion and an error of the accepted word keep, every step keeps. -/
theorem step_keeps {P : State → Prop} (hside : ∀ s g d, P s → P { s with host := g, draws := d })
    (hmove : ∀ s t, HostMoved s t → P s → P t)
    (hrun : ∀ s, s.busy = true → P s →
      RunEnds (fun u => P (complete u)) (fun u => ∀ c n, c ≠ .none → P (raiseError c n u)) (executeRun s))
    {s t : State} (h : step s = .next t) (hs : P s) : P t := by
  have hdraw : ∀ s₀, s₀ = s ∨ s₀ = { s with draws := s.draws + 1 } → P s₀ := by
    rintro _ (rfl | rfl)
    · exact hs
    · exact hside s s.host _ hs
  rcases step_cases h with rfl | ⟨op, s₀, _, h0, hop⟩ | ⟨s₀, hb, h0, he⟩
  · exact hs
  · rcases hostStep_cases hop with rfl | ⟨u, hu, g, rfl⟩
    · exact hdraw _ h0
    · exact hside u g u.draws (hmove s₀ u hu (hdraw s₀ h0))
  · have hb' : s₀.busy = true := by rcases h0 with rfl | rfl <;> exact hb
    rw [engineStep_eq_finish] at he
    rcases finish_next he (hrun s₀ hb' (hdraw s₀ h0)) (executeRun_raises s₀) with
      rfl | ⟨u, hu, rfl⟩ | ⟨c, n, u, hc, hu, rfl⟩
    · exact hdraw _ h0
    · exact hu
    · exact hu c n hc

/-- No host move changes the parameters, and each leaves the units as they are or resets both. -/
theorem HostMoved.units {s t : State} (h : HostMoved s t) :
    t.params = s.params ∧ (t.huf = s.huf ∧ t.lzw = s.lzw ∨ t.huf = Huf.reset ∧ t.lzw = Lzw.reset) := by
  cases h with
  | hardReset => exact ⟨rfl, .inr ⟨rfl, rfl⟩⟩
  | written t hw =>
    cases hw with
    | reset ie inp out d => exact ⟨rfl, .inr ⟨rfl, rfl⟩⟩
    | _ => exact ⟨rfl, .inl ⟨rfl, rfl⟩⟩
  | _ => exact ⟨rfl, .inl ⟨rfl, rfl⟩⟩

theorem HostMoved.params {s t : State} (h : HostMoved s t) : t.params = s.params := h.units.1

/-- A property of the parameters and the Huffman unit that both resets establish is kept by the host's moves. -/
theorem HostMoved.keeps_huf {Q : Params → Huf → Prop} (hr : ∀ p, Q p Huf.reset) {s t : State} (h : HostMoved s t)
    (hs : Q s.params s.huf) : Q t.params t.huf := by
  obtain ⟨hp, ⟨hh, _⟩ | ⟨hh, _⟩⟩ := h.units
  · rw [hp, hh]; exact hs
  · rw [hh]; exact hr _

/-- A property of the parameters and the LZW unit that both resets establish is kept by the host's moves. -/
theorem HostMoved.keeps_lzw {Q : Params → Lzw → Prop} (hr : ∀ p, Q p Lzw.reset) {s t : State} (h : HostMoved s t)
    (hs : Q s.params s.lzw) : Q t.params t.lzw := by
  obtain ⟨hp, ⟨_, hz⟩ | ⟨_, hz⟩⟩ := h.units
  · rw [hp, hz]; exact hs
  · rw [hz]; exact hr _

/-- What `Kept` leaves as it is, field by field. -/
theorem Kept.fields {s t : State} (h : Kept s t) :
    t.params = s.params ∧ t.ie = s.ie ∧ t.dictBits = s.dictBits ∧ t.arg = s.arg ∧ t.done = s.done ∧ t.ovr = s.ovr ∧
    t.err = s.err ∧ t.errInfo = s.errInfo ∧ t.busy = s.busy ∧ t.curCmd = s.curCmd ∧ t.curArg = s.curArg ∧
    t.curCfg = s.curCfg ∧ t.host = s.host ∧ t.draws = s.draws := by
  unfold Kept at h
  rw [h]
  exact ⟨rfl, rfl, rfl, rfl, rfl, rfl, rfl, rfl, rfl, rfl, rfl, rfl, rfl, rfl⟩

/-- No command changes the parameters. -/
theorem runCommand_params (i : Instr) (s : State) :
    RunEnds (fun t => t.params = s.params) (fun t => t.params = s.params) (runCommand i s) :=
  (runCommand_frame i s).mono (fun _ h => h.kept.fields.1) (fun _ h => h.kept.fields.1)

theorem RunEnds.and {A B A' B' : State → Prop} {r : Run} (h : RunEnds A B r) (h' : RunEnds A' B' r) :
    RunEnds (fun t => A t ∧ A' t) (fun t => B t ∧ B' t) r := by
  cases r with
  | ok t => exact ⟨h, h'⟩
  | raise c n t => exact ⟨h, h'⟩
  | wait b => trivial
  | fault e => trivial

/-! ## The LZW unit -/

theorem lzwOk_reset (p : Params) : LzwOk p Lzw.reset :=
  ⟨fun _ => ⟨rfl, rfl, rfl⟩, nofun, Nat.le_refl _, by decide, fun _ => rfl,
    fun k h1 h2 => absurd h1 (Nat.not_le.2 h2), nofun⟩

/-- LZW_INIT with a legal width leaves a fresh dictionary (43_lzw.md R241). -/
theorem lzwOk_init {p : Params} {n : BitVec 6} (z : Lzw) (h8 : 8 ≤ n.toNat) (hm : n.toNat ≤ p.lzwNmax) :
    LzwOk p (lzwInitUnit n z) := by
  refine ⟨nofun, fun _ => ⟨h8, hm⟩, Nat.le_refl _, fun h => ?_, fun _ => rfl, fun k h1 h2 => ?_, fun _ => ⟨rfl, rfl⟩⟩
  · exact Nat.le_trans (by decide : 256 ≤ 511) (lmax_ge h)
  · exact absurd h1 (Nat.not_le.2 h2)

theorem LzwOk.width {p : Params} {z : Lzw} (h : LzwOk p z) (hs : z.lstate = .ready) :
    8 ≤ z.ln.toNat ∧ z.ln.toNat ≤ p.lzwNmax := by
  obtain ⟨_, hw, _⟩ := h
  exact hw (by rw [hs]; nofun)

/-- A job of a READY unit ends in DONE or ERROR with a dictionary of the unit's shape (43_lzw.md R247). -/
theorem lzwOk_grown {p : Params} {z z' : Lzw} (h : LzwOk p z) (hs : z.lstate = .ready) (hz : LzwGrown z z') {l : LState}
    (hu : l ≠ .uninit) (hr : l ≠ .ready) : LzwOk p { z' with lstate := l } := by
  obtain ⟨h8, hm⟩ := h.width hs
  obtain ⟨d1, d2, d3, d4⟩ := hz.dict (by omega) h.dictOk
  refine ⟨fun e => absurd e hu, fun _ => ?_, d1, d2, d3, d4, fun e => absurd e hr⟩
  show 8 ≤ z'.ln.toNat ∧ z'.ln.toNat ≤ p.lzwNmax
  rw [hz.ln]
  exact ⟨h8, hm⟩

theorem LzwAfter.lzwOk {i : Instr} {s : State} {z : Lzw} (ha : LzwAfter s i z) (h : LzwOk s.params s.lzw) :
    LzwOk s.params z := by
  cases ha with
  | kept i hi => exact h
  | init h8 hm => exact lzwOk_init _ h8 hm
  | encoded z hs hz => exact lzwOk_grown h hs hz nofun nofun
  | decoded z hs hz => exact lzwOk_grown h hs hz nofun nofun

theorem LzwRaised.lzwOk {s : State} {z : Lzw} (ha : LzwRaised s z) (h : LzwOk s.params s.lzw) : LzwOk s.params z := by
  cases ha with
  | kept => exact h
  | decoded z hs hz => exact lzwOk_grown h hs hz nofun nofun

/-- Every command keeps the LZW unit's invariant. -/
theorem runCommand_lzwOk (i : Instr) (s : State) (h : LzwOk s.params s.lzw) :
    RunEnds (fun t => LzwOk t.params t.lzw) (fun t => LzwOk t.params t.lzw) (runCommand i s) := by
  refine ((runCommand_params i s).and (runCommand_lzw i s)).mono ?_ ?_
  · rintro t ⟨hp, ha⟩
    rw [hp]
    exact ha.lzwOk h
  · rintro t ⟨hp, ha⟩
    rw [hp]
    exact ha.lzwOk h

/-- Settles O58: a command leaves the LZW unit as `LzwAfter` or `LzwRaised` say, and both resets leave it unlatched. -/
theorem lzwKept : Obligations.LzwKept := by
  unfold Obligations.LzwKept
  intro s t h hstep
  refine step_keeps (P := fun s => LzwOk s.params s.lzw) (fun _ _ _ h => h)
    (fun _ _ hm h => hm.keeps_lzw lzwOk_reset h) (fun s _ h => ?_) hstep h
  exact (executeRun_ends (fun i => runCommand_lzwOk i s h) h).mono (fun _ h => h) (fun _ h _ _ _ => h)

/-! ## The Huffman unit -/

theorem hufOk_idle {p : Params} {h : Huf} (hf : h.freq = Vector.replicate 256 0) (ht : h.total = 0) (hs : h.hstate = .idle)
    (hc : h.cvalid = false) (hn : h.nnodes = 0) : HufOk p h := by
  refine ⟨fun c => ?_, fun _ => ⟨hf, ht⟩, ?_, ?_, ?_, by omega, ?_⟩
  · rw [hf, symGet_replicate]
    exact Nat.two_pow_pos _
  · simp [hs]
  · simp [hs]
  · simp [hc]
  · simp [hs]

theorem hufOk_reset (p : Params) : HufOk p Huf.reset := hufOk_idle rfl rfl rfl rfl rfl

theorem HufOk.cvalid_false {p : Params} {h : Huf} (ho : HufOk p h)
    (hs : h.hstate = .idle ∨ h.hstate = .freq ∨ h.hstate = .tree) : h.cvalid = false := by
  obtain ⟨_, _, _, _, hc, _, _⟩ := ho
  by_contra hne
  have := hc (by simpa using hne)
  rcases hs with e | e | e <;> simp [e] at this

/-- Counters kept within FREQ_W bits (10_state.md R43). -/
theorem HufOk.counters {p : Params} {h : Huf} (ho : HufOk p h) {f : Vector Nat 256}
    (hf : CountersKept (2 ^ p.freqW - 1) h.freq f) (c : Byte) : symGet f c < 2 ^ p.freqW := by
  have := hf (fun c => Nat.le_sub_one_of_lt (ho.1 c)) c
  have := Nat.two_pow_pos p.freqW
  omega

theorem HufAfter.hufOk {i : Instr} {s : State} {h : Huf} (ha : HufAfter s i h) (ho : HufOk s.params s.huf) :
    HufOk s.params h := by
  have ⟨hf, _, ht, _, _, hn, htree⟩ := ho
  cases ha with
  | kept i _ => exact ho
  | init => exact hufOk_idle rfl rfl rfl rfl rfl
  | counted f hs hk =>
    have hc := ho.cvalid_false (.inl hs)
    exact ⟨ho.counters hk, nofun, fun _ => rfl, nofun, by simp [hc], hn, by simp⟩
  | loaded f hs hk =>
    have hc := ho.cvalid_false (.inl hs)
    exact ⟨ho.counters hk, nofun, fun _ => rfl, nofun, by simp [hc], hn, by simp⟩
  | cutHeader f hs hk => exact ⟨ho.counters hk, nofun, fun _ => rfl, nofun, nofun, hn, by simp⟩
  | built hs =>
    have hc := ho.cvalid_false (.inr (.inl hs))
    have hsum : s.huf.total = freqSum s.huf.freq := ht (.inl hs)
    refine ⟨hf, nofun, fun _ => hsum, nofun, ?_, buildTree_length _, fun _ => buildTree_treeOk s.huf _ hsum⟩
    simp [withTree, hc]
  | coded t hs =>
    exact ⟨hf, nofun, fun _ => ht (.inr (.inl hs)), fun _ => rfl, by simp, hn, fun _ => htree (.inl hs)⟩
  | encoded hs => exact ⟨hf, nofun, fun _ => ht (.inr (.inr (.inl hs))), nofun, by simp, hn, by simp⟩
  | decoded hs => exact ⟨hf, nofun, fun _ => ht (.inr (.inr (.inl hs))), nofun, by simp, hn, by simp⟩
  | cutDecode hs => exact ⟨hf, nofun, fun _ => ht (.inr (.inr (.inl hs))), nofun, by simp, hn, by simp⟩

theorem HufRaised.hufOk {s : State} {h : Huf} (ha : HufRaised s h) (ho : HufOk s.params s.huf) : HufOk s.params h := by
  have ⟨hf, _, _, _, _, hn, _⟩ := ho
  cases ha with
  | kept => exact ho
  | counted f hs hk => exact ⟨ho.counters hk, nofun, by simp, nofun, by simp, hn, by simp⟩
  | encoded hs => exact ⟨hf, nofun, by simp, nofun, by simp, hn, by simp⟩

/-- Every command keeps the Huffman unit's invariant. -/
theorem runCommand_hufOk (i : Instr) (s : State) (h : HufOk s.params s.huf) :
    RunEnds (fun t => HufOk t.params t.huf) (fun t => HufOk t.params t.huf) (runCommand i s) := by
  refine ((runCommand_params i s).and (runCommand_huf i s)).mono ?_ ?_
  · rintro t ⟨hp, ha⟩
    rw [hp]
    exact ha.hufOk h
  · rintro t ⟨hp, ha⟩
    rw [hp]
    exact ha.hufOk h

/-- Settles O59: a command leaves the Huffman unit as `HufAfter` or `HufRaised` say, and both resets leave it idle. -/
theorem huffmanKept : Obligations.HuffmanKept := by
  unfold Obligations.HuffmanKept
  intro s t h hstep
  refine step_keeps (P := fun s => HufOk s.params s.huf) (fun _ _ _ h => h)
    (fun _ _ hm h => hm.keeps_huf hufOk_reset h) (fun s _ h => ?_) hstep h
  exact (executeRun_ends (fun i => runCommand_hufOk i s h) h).mono (fun _ h => h) (fun _ h _ _ _ => h)

end Sys2Proof.Machine

/-! PROOF LAYER. No step faults from a state that meets the invariants: only an engine step can, and the loops of the commands
end within their bounds on the trees and dictionaries that the units keep. -/

namespace Sys2Proof.Machine

/-! ## Where a fault comes from -/

theorem hostStep_ne_fault (op : HostOp) (s : State) (f : Fault) : hostStep op s ≠ .fault f := by
  cases op with
  | memRead addr size => unfold hostStep; dsimp only; split <;> nofun
  | memWrite addr size v => unfold hostStep; dsimp only; split <;> nofun
  | inPush t => nofun
  | outPop => unfold hostStep; dsimp only; split <;> nofun
  | outPopAll => nofun
  | waitIdle => unfold hostStep; dsimp only; split <;> nofun
  | hardReset => nofun

theorem engineTurn_fault {s : State} {f : Fault} (h : engineTurn s = .fault f) : engineStep s = .fault f := by
  unfold engineTurn at h
  split at h
  · exact h
  · cases h

/-- A fault is the engine step's, from the state the step starts in or from that state with a free value drawn. -/
theorem step_fault {s : State} {f : Fault} (h : step s = .fault f) :
    engineStep s = .fault f ∨ engineStep { s with draws := s.draws + 1 } = .fault f := by
  unfold step at h
  split at h
  · rename_i t ht
    have he := engineTurn_fault h
    have hs : t = s ∨ t = { s with draws := s.draws + 1 } := by
      unfold whoseTurn at ht
      split at ht
      · cases ht; exact .inl rfl
      · split at ht
        · split at ht
          · dsimp only at ht
            split at ht <;> cases ht
            exact .inr rfl
          · cases ht; exact .inl rfl
        · cases ht
    rcases hs with rfl | rfl
    · exact .inl he
    · exact .inr he
  · exact absurd h (hostStep_ne_fault _ _ f)

/-! ## The commands -/

theorem ok_ne_fault {t : State} {f : Fault} : Run.ok t ≠ .fault f := nofun

theorem raise_ne_fault {c : ErrCode} {n : Word} {t : State} {f : Fault} : Run.raise c n t ≠ .fault f := nofun

theorem checkPre_ne_fault {pre : Bool} {s : State} {body : Run} {f : Fault} (h : pre = true → body ≠ .fault f) :
    checkPre pre s body ≠ .fault f := by
  unfold checkPre
  split
  · exact h ‹_›
  · nofun

theorem Loop.toRun_ne_fault {β : Type} {l : Loop β} {done : β → Stream → Run}
    {raise : ErrCode → Word → β → Stream → Run} {f : Fault} (h : l ≠ .fault f) (hd : ∀ x b, done x b ≠ .fault f)
    (hr : ∀ c n x b, raise c n x b ≠ .fault f) : l.toRun done raise ≠ .fault f := by
  cases l with
  | done x b => exact hd x b
  | raise c n x b => exact hr c n x b
  | wait b => nofun
  | fault e =>
    intro e'
    cases e'
    exact h rfl

/-- LZW_DECODE's loop ends within its bound on a dictionary that the unit keeps (43_lzw.md R247). -/
theorem lzwDecodeLoop_ne_fault {p : Params} {z : Lzw} (hz : LzwOk p z) (hs : z.lstate = .ready) (n : Nat) (b : Stream)
    (f : Fault) (hn : available b < n) : lzwDecodeLoop n none z b ≠ .fault f := by
  have h8 := (hz.width hs).1
  have h := lzwDecodeLoop_ok n none z b hz.dictOk nofun (by omega) hn
  intro e
  rw [e] at h
  exact h

/-- No command faults on units that meet their invariants. -/
theorem runCommand_ne_fault (i : Instr) {s : State} (hh : HufOk s.params s.huf) (hz : LzwOk s.params s.lzw) (f : Fault) :
    runCommand i s ≠ .fault f := by
  obtain ⟨_, _, _, _, _, _, htree⟩ := hh
  cases i with
  | bsWrbits w =>
    show checkWidth w s _ ≠ _
    unfold checkWidth
    split <;> nofun
  | bsRdbits w =>
    show checkWidth w s _ ≠ _
    unfold checkWidth
    split
    · nofun
    · cases readBits (widthOperand w) s.bs <;> nofun
  | bsRdbit =>
    show runBsRdbit s ≠ _
    unfold runBsRdbit
    cases readBit s.bs <;> nofun
  | bsDrain =>
    show runBsDrain s ≠ _
    unfold runBsDrain
    cases drain s.bs <;> nofun
  | hufCount =>
    show runHufCount s ≠ _
    rw [runHufCount_eq]
    exact checkPre_ne_fault fun _ =>
      Loop.toRun_ne_fault (countLoop_ne_fault _ _ _ _ _ (Nat.lt_succ_self _)) (fun _ _ => ok_ne_fault)
        (fun _ _ _ _ => raise_ne_fault)
  | hufRdhdr =>
    show runHufRdhdr s ≠ _
    rw [runHufRdhdr_eq]
    refine checkPre_ne_fault fun _ => Loop.toRun_ne_fault (headerLoop_ne_fault _ _ _ _ _) ?_ (fun _ _ _ _ => raise_ne_fault)
    rintro ⟨g, cut⟩ b
    cases cut <;> exact ok_ne_fault
  | hufBuild => exact checkPre_ne_fault nofun
  | hufCodes =>
    refine checkPre_ne_fault fun hp => ?_
    obtain ⟨t, ht⟩ := codeTable_some (htree (.inl (by simpa using hp)))
    rw [ht]
    nofun
  | hufEncode =>
    show runHufEncode s ≠ _
    rw [runHufEncode_eq]
    refine checkPre_ne_fault fun _ =>
      Loop.toRun_ne_fault (encodeLoop_ne_fault _ _ _ _ _ _ (Nat.lt_succ_self _)) (fun k b => ?_)
        (fun _ _ _ _ => raise_ne_fault)
    unfold encodeDone
    split <;> nofun
  | hufDecode =>
    show runHufDecode s ≠ _
    rw [runHufDecode_eq]
    refine checkPre_ne_fault fun hp => ?_
    simp only [Bool.and_eq_true, beq_iff_eq] at hp
    refine Loop.toRun_ne_fault (decodeLoop_ne_fault (htree (.inr hp.1)) _ _ _ _ (Nat.lt_succ_self _)) (fun cut b => ?_)
      (fun _ _ _ _ => raise_ne_fault)
    cases cut
    · rw [decodeDone]
      cases drain b <;> nofun
    · nofun
  | hufLookup c k => exact checkPre_ne_fault nofun
  | lzwInit =>
    show checkCodeWidth s _ ≠ _
    unfold checkCodeWidth
    dsimp only
    split <;> nofun
  | lzwEncode =>
    show runLzwEncode s ≠ _
    rw [runLzwEncode_eq]
    refine checkPre_ne_fault fun _ =>
      Loop.toRun_ne_fault (lzwEncodeLoop_ne_fault _ _ _ _ _ (Nat.lt_succ_self _)) ?_ (fun _ _ _ _ => raise_ne_fault)
    rintro ⟨p, z⟩ b
    cases p <;> exact ok_ne_fault
  | lzwDecode =>
    show runLzwDecode s ≠ _
    rw [runLzwDecode_eq]
    exact checkPre_ne_fault fun hp =>
      Loop.toRun_ne_fault (lzwDecodeLoop_ne_fault hz (by simpa using hp) _ _ _ (Nat.lt_succ_self _)) (fun _ _ => ok_ne_fault)
        (fun _ _ _ _ => raise_ne_fault)
  | _ => nofun

theorem engineStep_ne_fault {s : State} (hh : HufOk s.params s.huf) (hz : LzwOk s.params s.lzw) (f : Fault) :
    engineStep s ≠ .fault f := by
  have hr : executeRun s ≠ .fault f := by
    cases h : decode s.curCmd with
    | ok i => rw [executeRun_ok h]; exact runCommand_ne_fault i hh hz f
    | error e => rw [executeRun_error h]; nofun
  rw [engineStep_eq_finish]
  intro h
  cases hx : executeRun s with
  | fault e =>
    rw [hx] at h hr
    cases h
    exact hr rfl
  | ok t => rw [hx] at h; cases h
  | raise c n t => rw [hx] at h; cases h
  | wait b => rw [hx] at h; cases h

/-- Settles O60: the host's operations raise no fault, and the engine step raises none on units that meet their invariants. -/
theorem okStatesNeverFault : Obligations.OkStatesNeverFault := by
  unfold Obligations.OkStatesNeverFault
  rintro s f ⟨_, hh, hz, _, _⟩ h
  rcases step_fault h with he | he
  · exact engineStep_ne_fault hh hz f he
  · exact engineStep_ne_fault (s := { s with draws := s.draws + 1 }) hh hz f he

end Sys2Proof.Machine

/-! PROOF LAYER. The frame of every command, its transfers over the ports, and the moves of the units' state machines. -/

namespace Sys2Proof.Machine

/-! ## Frames -/

/-- The commands that touch no stream state (70_reset_and_hazards.md R364). -/
theorem runCommand_bs_kept {i : Instr}
    (hi : i = .nop ∨ i = .hufBuild ∨ i = .hufCodes ∨ (∃ c, i = .hufGetfreq c) ∨ (∃ c k, i = .hufLookup c k)) (s : State) :
    RunEnds (fun t => t.bs = s.bs) (fun t => t.bs = s.bs) (runCommand i s) := by
  rcases hi with rfl | rfl | rfl | ⟨c, rfl⟩ | ⟨c, k, rfl⟩
  · rfl
  · exact checkPre_ends rfl fun _ => rfl
  · refine checkPre_ends rfl fun _ => ?_
    cases codeTable s.huf with
    | some t => rfl
    | none => trivial
  · rfl
  · exact checkPre_ends rfl fun _ => rfl

theorem writesResult_false {i : Instr} (h1 : ∀ w, i ≠ .bsRdbits w) (h2 : i ≠ .bsRdbit) (h3 : ∀ c, i ≠ .hufGetfreq c)
    (h4 : ∀ c k, i ≠ .hufLookup c k) : writesResult i = false := by
  cases i with
  | bsRdbits w => exact absurd rfl (h1 w)
  | bsRdbit => exact absurd rfl h2
  | hufGetfreq c => exact absurd rfl (h3 c)
  | hufLookup c k => exact absurd rfl (h4 c k)
  | _ => rfl

theorem writesCodeLen_false {i : Instr} (h : ∀ c k, i ≠ .hufLookup c k) : writesCodeLen i = false := by
  cases i with
  | hufLookup c k => exact absurd rfl (h c k)
  | _ => rfl

theorem writesHuf_false {i : Instr} (h1 : i ≠ .hufInit) (h2 : i ≠ .hufCount) (h3 : i ≠ .hufRdhdr) (h4 : i ≠ .hufBuild)
    (h5 : i ≠ .hufCodes) (h6 : i ≠ .hufEncode) (h7 : i ≠ .hufDecode) : writesHuf i = false := by
  cases i with
  | hufInit => exact absurd rfl h1
  | hufCount => exact absurd rfl h2
  | hufRdhdr => exact absurd rfl h3
  | hufBuild => exact absurd rfl h4
  | hufCodes => exact absurd rfl h5
  | hufEncode => exact absurd rfl h6
  | hufDecode => exact absurd rfl h7
  | _ => rfl

theorem writesLzw_false {i : Instr} (h1 : i ≠ .lzwInit) (h2 : i ≠ .lzwEncode) (h3 : i ≠ .lzwDecode) :
    writesLzw i = false := by
  cases i with
  | lzwInit => exact absurd rfl h1
  | lzwEncode => exact absurd rfl h2
  | lzwDecode => exact absurd rfl h3
  | _ => rfl

/-- Settles O13: `Frame`, read field by field, and the five commands that touch no stream. -/
theorem commandFrames : Obligations.CommandFrames := by
  unfold Obligations.CommandFrames
  intro i s t h
  obtain ⟨hk, hres, hlen, hhuf, hlzw⟩ := exec_frame h
  obtain ⟨hp, hie, hdb, harg, _, hovr, _, _, _, hcmd, hcarg, hccfg, hhost, hdraws⟩ := hk.fields
  refine ⟨hp, hie, hdb, harg, hovr, hcmd, hcarg, hccfg, hhost, hdraws,
    fun h1 h2 h3 h4 => hres (writesResult_false h1 h2 h3 h4), fun h => hlen (writesCodeLen_false h),
    fun h1 h2 h3 h4 h5 h6 h7 => hhuf (writesHuf_false h1 h2 h3 h4 h5 h6 h7),
    fun h1 h2 h3 => hlzw (writesLzw_false h1 h2 h3), fun hi => ?_⟩
  rcases exec_next h (runCommand_bs_kept hi s) with rfl | ⟨u, hu, rfl⟩ | ⟨_, _, u, _, hu, rfl⟩
  · rfl
  · exact hu
  · exact hu

/-! ## The ports -/

/-- `b'` comes from `b` by taking tokens from the head of IN and putting tokens at the end of OUT, the data bytes among them
counted (20_memory.md R76, R77; 10_state.md R34, R35). -/
structure Transferred (b b' : Stream) : Prop where
  inp : ∃ taken, b.inp = taken ++ b'.inp ∧ b'.cntIn = b.cntIn + BitVec.ofNat 32 (dataCount taken)
  out : ∃ put, b'.out = b.out ++ put ∧ b'.cntOut = b.cntOut + BitVec.ofNat 32 (dataCount put)

theorem Moved.transferred {b b' : Stream} (h : Moved b b') : Transferred b b' := by
  obtain ⟨put, ho, hc⟩ := h.out
  exact ⟨h.inp, put.map .byte, ho, by rw [dataCount_bytes]; exact hc⟩

theorem Transferred.trans {b b' b'' : Stream} (h : Transferred b b') (h' : Transferred b' b'') : Transferred b b'' := by
  obtain ⟨⟨t, e1, e2⟩, p, e3, e4⟩ := h
  obtain ⟨⟨t', f1, f2⟩, p', f3, f4⟩ := h'
  refine ⟨⟨t ++ t', ?_, ?_⟩, p ++ p', ?_, ?_⟩
  · rw [e1, f1, List.append_assoc]
  · rw [f2, e2, dataCount_append, BitVec.ofNat_add, BitVec.add_assoc]
  · rw [f3, e3, List.append_assoc]
  · rw [f4, e4, dataCount_append, BitVec.ofNat_add, BitVec.add_assoc]

theorem transferred_refl (b : Stream) : Transferred b b := (moved_refl b).transferred

/-- Finalize pads and puts End, which is no data byte (41_bitstream.md R145). -/
theorem finalize_transferred (b : Stream) : Transferred b (finalize b) :=
  (align_moved b).transferred.trans ⟨⟨[], rfl, by simp [finalize, dataCount]⟩, [.stop], rfl, by simp [finalize, dataCount]⟩

theorem BsAfter.transferred {i : Instr} {s t : State} (h : BsAfter i s t) (hi : startsStream i = false) :
    Transferred s.bs t.bs := by
  rcases h with ⟨he, _⟩ | ⟨_, _, b, hm, e⟩ | ⟨_, _, _, hm⟩
  · rw [hi] at he; cases he
  · rw [e]
    exact hm.transferred.trans (finalize_transferred b)
  · exact hm.transferred

/-- Every command but those that start a stream transfers tokens and counts them, whatever it comes to. -/
theorem runCommand_transferred {i : Instr} (hi : startsStream i = false) (s : State) :
    RunEnds (fun t => Transferred s.bs t.bs) (fun t => Transferred s.bs t.bs) (runCommand i s) :=
  (runCommand_bs i s).mono (fun _ h => h.transferred hi) (fun _ h => h.transferred)

/-- The commands that start a stream: they move no token, and unless they fail they clear both counters (41_bitstream.md R148). -/
theorem runCommand_startsStream {i : Instr} (hi : startsStream i = true) (s : State) :
    (∃ u, runCommand i s = .ok u ∧ u.bs = streamInit s.bs) ∨ (∃ c n, runCommand i s = .raise c n s) := by
  cases i with
  | bsInit => exact .inl ⟨_, rfl, rfl⟩
  | hufInit => exact .inl ⟨_, rfl, rfl⟩
  | lzwInit =>
    show (∃ u, checkCodeWidth s _ = _ ∧ _) ∨ (∃ c n, checkCodeWidth s _ = _)
    unfold checkCodeWidth
    dsimp only
    split
    · exact .inr ⟨_, _, rfl⟩
    · exact .inl ⟨_, rfl, rfl⟩
  | _ => cases hi

theorem exec_startsStream {i : Instr} (hi : startsStream i = true) {s t : State} (h : exec i s = .next t) :
    t.bs.inp = s.bs.inp ∧ t.bs.out = s.bs.out ∧ (t.err = .none → t.bs.cntIn = 0 ∧ t.bs.cntOut = 0) := by
  have hc := runCommand_raises i s
  rw [exec_eq_finish] at h
  rcases runCommand_startsStream hi s with ⟨u, e, hu⟩ | ⟨c, n, e⟩
  · rw [e] at h
    cases h
    rw [complete_bs, hu]
    exact ⟨rfl, rfl, fun _ => ⟨rfl, rfl⟩⟩
  · rw [e] at h hc
    cases h
    exact ⟨rfl, rfl, fun he => absurd he hc⟩

theorem exec_transferred {i : Instr} (hi : startsStream i = false) {s t : State} (h : exec i s = .next t) :
    Transferred s.bs t.bs := by
  rcases exec_next h (runCommand_transferred hi s) with rfl | ⟨u, hu, rfl⟩ | ⟨_, _, u, _, hu, rfl⟩
  · exact transferred_refl _
  · exact hu
  · exact hu

/-- Settles O14: the commands that start a stream move no token, and all others `Transferred`. -/
theorem portTransfers : Obligations.PortTransfers := by
  unfold Obligations.PortTransfers
  intro i s t h
  cases hi : startsStream i with
  | true =>
    obtain ⟨h1, h2, h3⟩ := exec_startsStream hi h
    exact ⟨[], [], h1.symm, by rw [h2, List.append_nil], nofun, fun _ => ⟨rfl, rfl, h3⟩⟩
  | false =>
    obtain ⟨⟨taken, e1, e2⟩, put, e3, e4⟩ := exec_transferred hi h
    exact ⟨taken, put, e1, e3, fun _ => ⟨e2, e4⟩, nofun⟩

/-! ## The unit state machines -/

theorem hufMoves_kept {i : Instr} (hi : writesHuf i = false) (h : HState) : hufMoves i h = [h] := by
  cases i with
  | hufInit | hufCount | hufRdhdr | hufBuild | hufCodes | hufEncode | hufDecode => cases hi
  | _ => rfl

theorem lzwMove_kept {i : Instr} (hi : writesLzw i = false) (l : LState) : lzwMove i l = l := by
  cases i with
  | lzwInit | lzwEncode | lzwDecode => cases hi
  | _ => rfl

/-- A command that completes without an error moves HSTATE as its rule says (10_state.md R30). -/
theorem HufAfter.hstate {i : Instr} {s : State} {h : Huf} (ha : HufAfter s i h) : h.hstate ∈ hufMoves i s.huf.hstate := by
  cases ha with
  | kept i hi => rw [hufMoves_kept hi]; exact List.mem_singleton_self _
  | _ => simp [hufMoves]

/-- HMODE is set by HUF_INIT, HUF_COUNT and HUF_RDHDR (R29). -/
theorem HufAfter.hmode {i : Instr} {s : State} {h : Huf} (ha : HufAfter s i h) :
    h.hmode = if i = .hufInit ∨ i = .hufCount then .encode else if i = .hufRdhdr then .decode else s.huf.hmode := by
  cases ha with
  | kept i hi =>
    have h1 : i ≠ .hufInit := by rintro rfl; cases hi
    have h2 : i ≠ .hufCount := by rintro rfl; cases hi
    have h3 : i ≠ .hufRdhdr := by rintro rfl; cases hi
    simp [h1, h2, h3]
  | _ => rfl

/-- CVALID is set by HUF_CODES and cleared by HUF_INIT and by a truncated header (R29, R180, R182). -/
theorem HufAfter.cvalid {i : Instr} {s : State} {h : Huf} (ha : HufAfter s i h) :
    h.cvalid = true ↔
      i = .hufCodes ∨ (s.huf.cvalid = true ∧ i ≠ .hufInit ∧ ¬(i = .hufRdhdr ∧ h.hstate = .done)) := by
  cases ha with
  | kept i hi =>
    have h1 : i ≠ .hufCodes := by rintro rfl; cases hi
    have h2 : i ≠ .hufInit := by rintro rfl; cases hi
    have h3 : i ≠ .hufRdhdr := by rintro rfl; cases hi
    simp [h1, h2, h3]
  | _ => simp [withTree]

/-- TRUNC changes only by HUF_INIT, HUF_RDHDR and HUF_DECODE (R55, R180, R182, R215). -/
theorem HufAfter.trunc {i : Instr} {s : State} {h : Huf} (ha : HufAfter s i h) :
    (i ≠ .hufInit → i ≠ .hufRdhdr → i ≠ .hufDecode → h.trunc = s.huf.trunc) ∧
    (i = .hufInit → h.trunc = false) ∧ (i = .hufRdhdr → h.hstate = .done → h.trunc = true) := by
  cases ha with
  | kept i hi =>
    refine ⟨fun _ _ _ => rfl, ?_, ?_⟩
    · rintro rfl; cases hi
    · rintro rfl; cases hi
  | _ => simp [withTree]

/-- A command that completes without an error moves LSTATE as its rule says (R31). -/
theorem LzwAfter.lstate {i : Instr} {s : State} {z : Lzw} (ha : LzwAfter s i z) : z.lstate = lzwMove i s.lzw.lstate := by
  cases ha with
  | kept i hi => exact (lzwMove_kept hi _).symm
  | _ => rfl

/-- Settles O16: every way a command can complete, `HufAfter` and `LzwAfter`, moves the state machines so. -/
theorem unitStateMachines : Obligations.UnitStateMachines := by
  unfold Obligations.UnitStateMachines
  intro i s t hb _ h hb' he
  obtain ⟨u, ⟨hh, hz⟩, rfl⟩ := exec_completed h ((runCommand_huf i s).and (runCommand_lzw i s)) hb hb' he
  obtain ⟨ht, hti, htr⟩ := hh.trunc
  exact ⟨hh.hstate, hz.lstate, hh.hmode, hh.cvalid, ht, hti, htr⟩

/-! ## The stream's, memories' and errors' invariants -/

theorem streamOk_init (b : Stream) : StreamOk (streamInit b) := ⟨by simp [PackerOk], by simp⟩

theorem streamOk_reset (inp out : List Token) : StreamOk { Stream.reset with inp := inp, out := out } :=
  ⟨by simp [PackerOk, Stream.reset], nofun⟩

theorem Moved.streamOk {b b' : Stream} (h : Moved b b') (hb : StreamOk b) : StreamOk b' :=
  ⟨h.packer hb.1, h.unpacker hb.2⟩

theorem streamOk_finalize {b : Stream} (h : StreamOk b) : StreamOk (finalize b) := (align_moved b).streamOk h

theorem BsAfter.streamOk {i : Instr} {s t : State} (h : BsAfter i s t) (hs : StreamOk s.bs) : StreamOk t.bs := by
  rcases h with ⟨_, e⟩ | ⟨_, _, b, hm, e⟩ | ⟨_, _, _, hm⟩
  · rw [e]; exact streamOk_init _
  · rw [e]; exact streamOk_finalize (hm.streamOk hs)
  · exact hm.streamOk hs

theorem HostMoved.streamOk {s t : State} (h : HostMoved s t) (hs : StreamOk s.bs) : StreamOk t.bs := by
  cases h with
  | hardReset => exact streamOk_reset [] []
  | written t hw =>
    cases hw with
    | reset ie inp out d => exact streamOk_reset inp out
    | _ => exact hs
  | _ => exact hs

/-- Every step keeps the packer's and the unpacker's invariants (10_state.md R41, R42). -/
theorem step_streamOk {s t : State} (h : step s = .next t) (hs : StreamOk s.bs) : StreamOk t.bs := by
  refine step_keeps (P := fun s => StreamOk s.bs) (fun _ _ _ h => h) (fun _ _ hm h => hm.streamOk h) (fun s _ hs => ?_) h hs
  refine executeRun_ends (fun i => ?_) fun _ _ _ => hs
  exact (runCommand_bs i s).mono (fun _ h => h.streamOk hs) (fun _ h _ _ _ => h.streamOk hs)

theorem HufAfter.memory {i : Instr} {s : State} {h : Huf} (ha : HufAfter s i h) (hw : memWf s.huf.node = true) :
    memWf h.node = true := by
  cases ha with
  | built _ => exact memWf_memSetFrom _ _ _ hw
  | _ => exact hw

theorem HufRaised.memory {s : State} {h : Huf} (ha : HufRaised s h) (hw : memWf s.huf.node = true) :
    memWf h.node = true := by
  cases ha <;> exact hw

theorem LzwAfter.memory {i : Instr} {s : State} {z : Lzw} (ha : LzwAfter s i z) (hw : memWf s.lzw.dict = true) :
    memWf z.dict = true := by
  cases ha with
  | encoded z _ hz => exact hz.memory hw
  | decoded z _ hz => exact hz.memory hw
  | _ => exact hw

theorem LzwRaised.memory {s : State} {z : Lzw} (ha : LzwRaised s z) (hw : memWf s.lzw.dict = true) :
    memWf z.dict = true := by
  cases ha with
  | kept => exact hw
  | decoded z _ hz => exact hz.memory hw

theorem HostMoved.memoriesOk {s t : State} (h : HostMoved s t) (hs : MemoriesOk s) : MemoriesOk t := by
  unfold MemoriesOk
  obtain ⟨_, ⟨e1, e2⟩ | ⟨e1, e2⟩⟩ := h.units
  · rw [e1, e2]; exact hs
  · rw [e1, e2]; exact ⟨rfl, rfl⟩

/-- Every step keeps the memories in canonical form. -/
theorem step_memoriesOk {s t : State} (h : step s = .next t) (hs : MemoriesOk s) : MemoriesOk t := by
  refine step_keeps (P := MemoriesOk) (fun _ _ _ h => h) (fun _ _ hm h => hm.memoriesOk h) (fun s _ hs => ?_) h hs
  refine executeRun_ends (fun i => ?_) fun _ _ _ => hs
  exact ((runCommand_huf i s).and (runCommand_lzw i s)).mono (fun _ h => ⟨h.1.memory hs.1, h.2.memory hs.2⟩)
    (fun _ h _ _ _ => ⟨h.1.memory hs.1, h.2.memory hs.2⟩)

theorem hufMoves_error {i : Instr} {h : HState} (hi : .error ∈ hufMoves i h) : h = .error := by
  cases i <;> simp [hufMoves] at hi <;> exact hi.symm

theorem lzwMove_error {i : Instr} {l : LState} (hi : .error = lzwMove i l) : l = .error := by
  cases i <;> simp [lzwMove] at hi <;> exact hi.symm

theorem HostMoved.errorOk {s t : State} (h : HostMoved s t) (hs : ErrorOk s) : ErrorOk t := by
  have ⟨h1, h2, h3, h4⟩ := hs
  cases h with
  | hardReset => exact ⟨fun _ => rfl, nofun, nofun, nofun⟩
  | written t hw =>
    cases hw with
    | reset ie inp out d => exact ⟨fun _ => rfl, nofun, nofun, nofun⟩
    | flags d o hd =>
      refine ⟨h1, fun hb => ⟨(h2 hb).1, ?_⟩, h3, h4⟩
      cases hdv : d with
      | false => rfl
      | true => rw [(h2 hb).2] at hd; exact absurd (hd hdv) nofun
    | taken c hb he => exact ⟨h1, fun _ => ⟨he, rfl⟩, h3, h4⟩
    | _ => exact hs
  | _ => exact hs

/-- A command that completes without an error records none, and puts no unit in its ERROR state. -/
theorem runCommand_errorOk (i : Instr) {s : State} (hb : s.busy = true) (hs : ErrorOk s) :
    RunEnds (fun u => ErrorOk (complete u)) (fun u => ∀ c n, c ≠ .none → ErrorOk (raiseError c n u)) (runCommand i s) := by
  obtain ⟨h1, h2, h3, h4⟩ := hs
  refine (((runCommand_frame i s).and (runCommand_huf i s)).and (runCommand_lzw i s)).mono ?_ ?_
  · rintro u ⟨⟨hf, hh⟩, hz⟩
    obtain ⟨_, _, _, _, _, _, he, hi, _⟩ := hf.kept.fields
    have hn := (h2 hb).1
    refine ⟨fun _ => hi.trans (h1 hn), nofun, fun e => ?_, fun e => ?_⟩
    · have hm := hh.hstate
      rw [show u.huf.hstate = .error from e] at hm
      exact absurd hn (h3 (hufMoves_error hm))
    · have hm := hz.lstate
      rw [show u.lzw.lstate = .error from e] at hm
      exact absurd hn (h4 (lzwMove_error hm))
  · exact fun u _ c n hc => ⟨fun e => absurd e hc, nofun, fun _ => hc, fun _ => hc⟩

/-- Every step keeps the errors' invariant (60_exceptions.md R300, R310, R311). -/
theorem step_errorOk {s t : State} (h : step s = .next t) (hs : ErrorOk s) : ErrorOk t := by
  refine step_keeps (P := ErrorOk) (fun _ _ _ h => h) (fun _ _ hm h => hm.errorOk h) (fun s hb hs => ?_) h hs
  exact executeRun_ends (fun i => runCommand_errorOk i hb hs)
    fun c n hc => ⟨fun e => absurd e hc, nofun, fun _ => hc, fun _ => hc⟩

theorem step_params {s t : State} (h : step s = .next t) : t.params = s.params := by
  refine step_keeps (P := fun u => u.params = s.params) (fun _ _ _ h => h) (fun _ _ hm h => hm.params.trans h)
    (fun u _ hu => ?_) h rfl
  exact executeRun_ends (fun i => (runCommand_params i u).mono (fun _ h => h.trans hu) (fun _ h _ _ _ => h.trans hu))
    fun _ _ _ => hu

/-- Settles O57: each of the four is kept by the host's moves and by every command. -/
theorem streamMemoriesAndErrorsKept : Obligations.StreamMemoriesAndErrorsKept := by
  unfold Obligations.StreamMemoriesAndErrorsKept
  exact fun s t h => ⟨step_params h, step_streamOk h, step_memoriesOk h, step_errorOk h⟩

end Sys2Proof.Machine

/-! PROOF LAYER. The register window and the resets, register by register. -/

namespace Sys2Proof.Machine

/-! ## Accesses -/

theorem regAtOffset_some {off : Nat} (h : off < 64) (h4 : off % 4 = 0) : ∃ r, regAtOffset off = some r := by
  rcases offset_cases h h4 with rfl | rfl | rfl | rfl | rfl | rfl | rfl | rfl | rfl | rfl | rfl | rfl | rfl | rfl | rfl | rfl <;>
    exact ⟨_, rfl⟩

theorem hostStep_memWrite {s : State} {off : Nat} (h : off < 64) {r : Reg} (hr : regAtOffset off = some r) (v : Word) :
    hostStep (.memWrite (s.params.base + off) 4 v) s = .next (advance (writeReg r v s)) := by
  simp only [hostStep, windowOffset_base_add _ h, windowWrite, accessedReg, if_true, hr]

theorem hostStep_memRead {s : State} {off : Nat} (h : off < 64) {r : Reg} (hr : regAtOffset off = some r) :
    hostStep (.memRead (s.params.base + off) 4) s = .next (advance (observe [.value (readReg r s).1] (readReg r s).2)) := by
  simp only [hostStep, windowOffset_base_add _ h, windowRead, accessedReg, if_true, hr]

/-- While BUSY = 0 a read returns the register's value and changes nothing (10_state.md R24 to R38). -/
theorem readReg_idle {s : State} (h : s.busy = false) (r : Reg) : readReg r s = (regValue r s, s) := by
  simp [readReg, h]

/-! ## What the registers read -/

section status
variable (rc : BitVec 4) (wc : BitVec 3) (ls : BitVec 2) (hs : BitVec 3) (cv hm tr eo er ov dn bu : Bool)

/-- The single bits of a word put together as STATUS is (10_state.md R29). -/
theorem status_bits :
    let v := 0#8 ++ rc ++ 0#1 ++ wc ++ 0#2 ++ ls ++ 0#1 ++ hs ++ BitVec.ofBool cv ++ BitVec.ofBool hm ++
      BitVec.ofBool tr ++ BitVec.ofBool eo ++ BitVec.ofBool er ++ BitVec.ofBool ov ++ BitVec.ofBool dn ++ BitVec.ofBool bu
    v.getLsbD 0 = bu ∧ v.getLsbD 1 = dn ∧ v.getLsbD 2 = ov ∧ v.getLsbD 3 = er ∧ v.getLsbD 4 = eo ∧ v.getLsbD 5 = tr ∧
    v.getLsbD 6 = hm ∧ v.getLsbD 7 = cv ∧ v.getLsbD 11 = false ∧ v.getLsbD 19 = false := by
  simp only [BitVec.getLsbD_append]
  simp

/-- The wider fields of a word put together as STATUS is (R29 to R31). -/
theorem status_fields :
    let v := 0#8 ++ rc ++ 0#1 ++ wc ++ 0#2 ++ ls ++ 0#1 ++ hs ++ BitVec.ofBool cv ++ BitVec.ofBool hm ++
      BitVec.ofBool tr ++ BitVec.ofBool eo ++ BitVec.ofBool er ++ BitVec.ofBool ov ++ BitVec.ofBool dn ++ BitVec.ofBool bu
    v.extractLsb' 8 3 = hs ∧ v.extractLsb' 12 2 = ls ∧ v.extractLsb' 14 2 = 0#2 ∧ v.extractLsb' 16 3 = wc ∧
    v.extractLsb' 20 4 = rc ∧ v.extractLsb' 24 8 = 0#8 := by
  intro v
  refine ⟨?_, ?_, ?_, ?_, ?_, ?_⟩ <;> refine BitVec.eq_of_getLsbD_eq fun i hi => ?_
  all_goals
    simp only [v, BitVec.getLsbD_extractLsb', BitVec.getLsbD_append]
    interval_cases i <;> simp

end status

theorem errWord_listed (e : ErrCode) : (e, 0#28 ++ e.number) ∈ [(ErrCode.none, 0#32), (.eCmd, 1#32), (.eSeq, 2#32),
    (.eWidth, 3#32), (.eCfg, 4#32), (.eFreqOvf, 5#32), (.eHufSym, 6#32), (.eHufLen, 7#32), (.eLzwCode, 8#32)] := by
  cases e <;> decide

theorem hstate_listed (h : HState) :
    (h, h.number) ∈ [(HState.idle, 0#3), (.freq, 1#3), (.tree, 2#3), (.codes, 3#3), (.done, 4#3), (.error, 5#3)] := by
  cases h <;> decide

theorem lstate_listed (l : LState) : (l, l.number) ∈ [(LState.uninit, 0#2), (.ready, 1#2), (.done, 2#2), (.error, 3#2)] := by
  cases l <;> decide

theorem hmode_bit (m : HMode) : m.bit = (m == .decode) := by cases m <;> rfl

theorem ctrlWord_eq (b : Bool) : 0#30 ++ BitVec.ofBool b ++ 0#1 = if b then 2 else (0 : Word) := by cases b <;> rfl

theorem zero_append_eq_setWidth {n : Nat} (m : Nat) (x : BitVec n) : 0#m ++ x = x.setWidth (m + n) := by
  apply BitVec.eq_of_toNat_eq
  have := Nat.lt_of_lt_of_le x.isLt (Nat.pow_le_pow_right (by decide : 0 < 2) (Nat.le_add_left n m))
  simp [Nat.mod_eq_of_lt this]

/-- The upper half of TOTAL, of which 40 bits can be set (10_state.md R36). -/
theorem totalHi_toNat {n : Nat} (h : n < 2 ^ 40) : (0#24 ++ BitVec.ofNat 8 (n / 2 ^ 32)).toNat = n / 2 ^ 32 := by
  rw [zero_append_eq_setWidth, BitVec.toNat_setWidth, BitVec.toNat_ofNat]
  omega

/-- Settles O18: the register at the offset, by its value. -/
theorem idleRegisterReads : Obligations.IdleRegisterReads := by
  unfold Obligations.IdleRegisterReads
  intro s off hb htotal hnext h h4
  obtain ⟨r, hr⟩ := regAtOffset_some h h4
  have hread := hostStep_memRead (s := s) h hr
  rw [readReg_idle hb r] at hread
  refine ⟨regValue r s, hread, ?_, ?_, ?_, ?_, ?_, ?_, ?_, ?_, ?_, ?_, ?_, ?_, ?_, ?_, ?_, ?_⟩ <;> rintro rfl <;> cases hr
  · exact ctrlWord_eq s.ie
  · exact zero_append_eq_setWidth 26 s.dictBits
  · rfl
  · rfl
  · rfl
  · obtain ⟨b0, b1, b2, b3, b4, b5, b6, b7, b11, b19⟩ := status_bits (BitVec.ofNat 4 s.bs.rcnt.val)
      (BitVec.ofNat 3 s.bs.wcnt.val) s.lzw.lstate.number s.huf.hstate.number s.huf.cvalid s.huf.hmode.bit s.huf.trunc
      s.bs.eodf (errf s) s.ovr s.done s.busy
    obtain ⟨fh, fl, f14, fw, fr, f24⟩ := status_fields (BitVec.ofNat 4 s.bs.rcnt.val)
      (BitVec.ofNat 3 s.bs.wcnt.val) s.lzw.lstate.number s.huf.hstate.number s.huf.cvalid s.huf.hmode.bit s.huf.trunc
      s.bs.eodf (errf s) s.ovr s.done s.busy
    refine ⟨b0.trans hb, b1, b2, b3, b4, b5, b6.trans (hmode_bit _), b7, ?_, b11, ?_, f14, ?_, b19, ?_, f24⟩
    · exact (congrArg (fun x => (s.huf.hstate, x) ∈ _) fh).mpr (hstate_listed _)
    · exact (congrArg (fun x => (s.lzw.lstate, x) ∈ _) fl).mpr (lstate_listed _)
    · refine (congrArg BitVec.toNat fw).trans ?_
      rw [BitVec.toNat_ofNat, Nat.mod_eq_of_lt s.bs.wcnt.isLt]
    · refine (congrArg BitVec.toNat fr).trans ?_
      rw [BitVec.toNat_ofNat, Nat.mod_eq_of_lt (Nat.lt_trans s.bs.rcnt.isLt (by decide))]
  · exact errWord_listed s.err
  · rfl
  · rfl
  · rfl
  · exact BitVec.toNat_ofNat _ _
  · exact totalHi_toNat htotal
  · exact zero_append_eq_setWidth 24 s.codeLen
  · exact (BitVec.toNat_ofNat _ _).trans (Nat.mod_eq_of_lt hnext)
  · rfl
  · exact zero_append_eq_setWidth 26 s.lzw.ln

/-! ## What a write changes -/

theorem writeReg_ctrl_ie {v : Word} (h : v.getLsbD 0 = false) (s : State) :
    writeReg .ctrl v s = { s with ie := v.getLsbD 1 } := by
  unfold writeReg
  exact if_neg (by rw [h]; nofun)

theorem and_not_eq_ite (d x : Bool) : (d && !x) = if x = true then false else d := by cases d <;> cases x <;> rfl

/-- Settles O22: the register at the offset, by what a write to it does. -/
theorem registerWrites : Obligations.RegisterWrites := by
  unfold Obligations.RegisterWrites
  intro s off v h h4 hcmd hsrst
  obtain ⟨r, hr⟩ := regAtOffset_some h h4
  rw [hostStep_memWrite h hr]
  rcases offset_cases h h4 with rfl | rfl | rfl | rfl | rfl | rfl | rfl | rfl | rfl | rfl | rfl | rfl | rfl | rfl | rfl | rfl <;>
    cases hr
  · have h0 : v.getLsbD 0 = false := by simpa using hsrst
    rw [writeReg_ctrl_ie h0]
    rfl
  · rfl
  · exact absurd rfl hcmd
  · rfl
  · rfl
  · simp only [writeReg, clearFlags, and_not_eq_ite, true_and]
    rfl
  all_goals rfl

/-! ## Resets -/

theorem softReset_idle {s : State} (h : s.busy = false) (ie : Bool) :
    softReset ie s = softResetTo ie s.bs.inp s.bs.out s := by
  simp [softReset, h]

/-- A write to CTRL with SRST is a soft reset (10_state.md R24). -/
theorem writeReg_ctrl_srst {v : Word} (h : v.getLsbD 0 = true) (s : State) :
    writeReg .ctrl v s = softReset (v.getLsbD 1) s := by
  unfold writeReg
  exact if_pos h

theorem hostStep_srst {v : Word} (h : v.getLsbD 0 = true) (s : State) :
    hostStep (.memWrite s.params.base 4 v) s = .next (advance (softReset (v.getLsbD 1) s)) := by
  rw [← writeReg_ctrl_srst h]
  exact hostStep_memWrite (off := 0) (by decide) rfl v

/-- Settles O23: with no command running a soft reset is `softResetTo` with the ports as they are. -/
theorem softResetWhenIdle : Obligations.SoftResetWhenIdle := by
  unfold Obligations.SoftResetWhenIdle
  intro s v hb hv
  rw [hostStep_srst hv, writeReg_ctrl_srst hv, writeReg_ctrl_srst hv, softReset_idle hb]
  exact ⟨rfl, softReset_idle rfl _⟩

theorem statusWord_reset (p : Params) : statusWord (State.resetWith p) = 0 := by
  show statusWord (State.resetWith Params.default) = 0
  decide

/-- Settles O25: every field of the reset state. -/
theorem hardReset : Obligations.HardReset := by
  unfold Obligations.HardReset
  intro s
  have hfreq : ∀ c, symGet (State.resetWith s.params).huf.freq c = 0 := symGet_replicate 0
  exact ⟨State.resetWith s.params, rfl, rfl, rfl, rfl, rfl, rfl, rfl, statusWord_reset _, rfl, rfl, rfl, rfl, rfl,
    rfl, rfl, hfreq, rfl, rfl, rfl, rfl, rfl, rfl, rfl, rfl, rfl, rfl, rfl, rfl⟩

/-- Settles O56: each invariant at reset. -/
theorem resetIsOk : Obligations.ResetIsOk := by
  unfold Obligations.ResetIsOk
  exact fun p => ⟨streamOk_reset [] [], hufOk_reset p, lzwOk_reset p, ⟨fun _ => rfl, nofun, nofun, nofun⟩, rfl, rfl⟩

end Sys2Proof.Machine

/-! PROOF LAYER. Single commands over the bit stream: BS_WRBITS, BS_RDBITS and HUF_COUNT. -/

namespace Sys2Proof.Machine

theorem checkWidth_ok {w : BitVec 6} (h : w.toNat ≤ 32) (s : State) (body : Run) : checkWidth w s body = body :=
  if_neg (Nat.not_lt.2 h)

theorem checkWidth_over {w : BitVec 6} (h : 32 < w.toNat) (s : State) (body : Run) :
    checkWidth w s body = .raise .eWidth s.curCmd s := if_pos h

/-! ## BS_WRBITS -/

theorem exec_bsWrbits_ok {w : BitVec 6} (h : w.toNat ≤ 32) (s : State) :
    exec (.bsWrbits w) s = .next (complete (s.withBs (writeBits s.curArg.toNat w.toNat s.bs))) := by
  rw [exec_eq_finish]
  show (checkWidth w s _).finish s = _
  rw [checkWidth_ok h]
  rfl

/-- Settles O32: WriteBits of the sampled ARG, or the error of the width. -/
theorem bsWrbits : Obligations.BsWrbits := by
  unfold Obligations.BsWrbits
  refine fun s w => ⟨fun hw hp => ⟨_, writeBits_wrote _ _ _ hp, exec_bsWrbits_ok hw s⟩, fun hw => ?_⟩
  rw [exec_eq_finish]
  show (checkWidth w s _).finish s = _
  rw [checkWidth_over hw]
  rfl

/-! ## BS_RDBITS -/

theorem exec_bsRdbits_ok {w : BitVec 6} (h : w.toNat ≤ 32) (s : State) :
    exec (.bsRdbits w) s = (readIntoResult s (readBits w.toNat s.bs)).finish s := by
  rw [exec_eq_finish]
  show (checkWidth w s _).finish s = _
  rw [checkWidth_ok h]
  rfl

/-- Settles O33: ReadBits with enough bits, at the End, and waiting. -/
theorem bsRdbits : Obligations.BsRdbits := by
  unfold Obligations.BsRdbits
  refine fun s w => ⟨fun hw hn => ?_, fun hw hn hc => ?_, fun hw hn hc => ?_, rfl, fun hw => ?_⟩
  · obtain ⟨b, e, ht⟩ := readBits_ok hn
    refine ⟨b, ht, ?_⟩
    rw [exec_bsRdbits_ok hw, e]
    rfl
  · obtain ⟨b, ht, _, e⟩ := readBits_end hn
    refine ⟨atEnd b, reachedEnd_of_took ht hc, ?_⟩
    rw [exec_bsRdbits_ok hw, e, if_pos hc]
    rfl
  · obtain ⟨b, _, _, e⟩ := readBits_end hn
    rw [exec_bsRdbits_ok hw, e, if_neg (by rw [hc]; nofun)]
    rfl
  · rw [exec_eq_finish]
    show (checkWidth w s _).finish s = _
    rw [checkWidth_over hw]
    rfl

/-! ## HUF_COUNT -/

theorem exec_hufCount_idle {s : State} (h : s.huf.hstate = .idle) :
    exec .hufCount s =
      ((countLoop (2 ^ s.params.freqW - 1) (available (rdRestart s.bs) + 1) s.huf.freq (rdRestart s.bs)).toRun
        (countDone s) (countRaise s)).finish s := by
  rw [exec_eq_finish]
  show (runHufCount s).finish s = _
  rw [runHufCount_eq, checkPre_true (by simp [h])]

/-- HUF_COUNT's loop has a turn for every token in IN. -/
theorem length_le_available_rdRestart {b : Stream} {xs : List Byte} {ts : List Token} (h : b.inp = xs.map .byte ++ ts) :
    xs.length < available (rdRestart b) + 1 := by
  simp only [available, rdRestart_inp, h, List.length_append, List.length_map]
  omega

/-- Settles O39: the loop over the bytes before the End, before a full counter's byte, and before the wait. -/
theorem hufCount : Obligations.HufCount := by
  unfold Obligations.HufCount
  refine fun s xs hs hf => ⟨fun rest hi => ?_, fun c rest hi hc => ?_, fun hi => ?_⟩
  · refine ⟨countAll s.huf.freq xs, symGet_countAll _ _, ?_⟩
    rw [exec_hufCount_idle hs, countLoop_end _ _ xs _ (rdRestart s.bs) rest hf rfl rfl hi (length_le_available_rdRestart hi),
      ← freqSum_eq]
    rfl
  · refine ⟨countAll s.huf.freq xs, symGet_countAll _ _, ?_⟩
    rw [exec_hufCount_idle hs,
      countLoop_overflow _ _ xs c _ (rdRestart s.bs) rest hf rfl rfl hi hc (length_le_available_rdRestart hi)]
    rfl
  · have hlen : xs.length < available (rdRestart s.bs) + 1 :=
      length_le_available_rdRestart (ts := []) (by rw [hi, List.append_nil])
    obtain ⟨b, e⟩ := countLoop_wait _ _ xs _ (rdRestart s.bs) hf rfl rfl hi hlen
    rw [exec_hufCount_idle hs, e]
    rfl

end Sys2Proof.Machine

/-! PROOF LAYER. A command with more tokens behind those in IN: one that completes does the same, and one that waits has taken
all of IN and goes on from there; what an aborted command would have transferred. -/

namespace Sys2Proof.Machine

/-! ## Reads as runs -/

/-- The run of a command that makes one read, with what is made of the value and of the End. -/
def Rd.toRun {α : Type} (r : Rd α) (ok : α → Stream → Run) (eod : Stream → Run) : Run :=
  match r with
  | .ok x b => ok x b
  | .eod b => eod b
  | .wait b => .wait b

theorem readIntoResult_eq (s : State) (r : Rd Nat) :
    readIntoResult s r = r.toRun (fun v b => .ok ((s.withBs b).withResult (BitVec.ofNat 32 v)))
      (fun b => .ok ((s.withBs b).withResult 0)) := by
  cases r <;> rfl

theorem runBsRdbit_eq (s : State) :
    runBsRdbit s = (readBit s.bs).toRun (fun r b => .ok ((s.withBs b).withResult (BitVec.ofNat 32 r.toNat)))
      (fun b => .ok ((s.withBs b).withResult 0)) := by
  unfold runBsRdbit
  cases readBit s.bs <;> rfl

theorem runBsDrain_eq (s : State) :
    runBsDrain s = (drain s.bs).toRun (fun _ b => .ok (s.withBs b)) (fun b => .ok (s.withBs b)) := by
  unfold runBsDrain
  cases drain s.bs <;> rfl

theorem decodeDone_false (s : State) (b : Stream) :
    decodeDone s false b =
      (drain b).toRun (fun _ b' => .ok ((s.withBs (finalize b')).withHuf { s.huf with hstate := .done }))
        (fun b' => .ok ((s.withBs (finalize b')).withHuf { s.huf with hstate := .done })) := by
  rw [decodeDone]
  cases drain b <;> rfl

/-! ## More tokens -/

/-- Where a run ends, its bit stream comes from `b` by transfers. -/
def EndsAfter (b : Stream) (r : Run) : Prop :=
  RunEnds (fun t => Transferred b t.bs) (fun t => Transferred b t.bs) r

theorem EndsAfter.trans {b b' : Stream} {r : Run} (h : Moved b b') (hr : EndsAfter b' r) : EndsAfter b r :=
  RunEnds.mono hr (fun _ ht => h.transferred.trans ht) (fun _ ht => h.transferred.trans ht)

/-- How the run `r'` of a command from `s` with the tokens `ts` behind those in IN follows its run `r` without them: where `r`
ends, `r'` ends the same; where `r` waits, it has taken all of IN, and `r'` goes on from there. -/
def RunPushed (ts : List Token) (s : State) (r r' : Run) : Prop :=
  match r with
  | .ok t => r' = .ok (pushTokens ts t)
  | .raise c n t => r' = .raise c n (pushTokens ts t)
  | .wait b => b.inp = [] ∧ Moved s.bs b ∧ EndsAfter (pushed ts b) r'
  | .fault _ => True

section pushed
variable {ts : List Token} {s : State}

theorem checkPre_pushed {pre : Bool} {body body' : Run} (h : RunPushed ts s body body') :
    RunPushed ts s (checkPre pre s body) (checkPre pre (pushTokens ts s) body') := by
  unfold checkPre
  split
  · exact h
  · rfl

theorem Rd.toRun_pushed {α : Type} {r r' : Rd α} {ok ok' : α → Stream → Run} {eod eod' : Stream → Run}
    (hm : RdMoved s.bs r) (h : RdPushed ts r r') (hok : ∀ x b, RunPushed ts s (ok x b) (ok' x (pushed ts b)))
    (heod : ∀ b, RunPushed ts s (eod b) (eod' (pushed ts b))) (hok' : ∀ x b, EndsAfter b (ok' x b))
    (heod' : ∀ b, EndsAfter b (eod' b)) : RunPushed ts s (r.toRun ok eod) (r'.toRun ok' eod') := by
  cases r with
  | ok x b => rw [show r' = .ok x (pushed ts b) from h]; exact hok x b
  | eod b => rw [show r' = .eod (pushed ts b) from h]; exact heod b
  | wait b =>
    obtain ⟨hi, hm'⟩ := h
    refine ⟨hi, hm, ?_⟩
    cases r' with
    | ok x c => exact (hok' x c).trans hm'
    | eod c => exact (heod' c).trans hm'
    | wait c => trivial

theorem Loop.toRun_pushed {β : Type} {l l' : Loop β} {done done' : β → Stream → Run}
    {raise raise' : ErrCode → Word → β → Stream → Run} (hm : LoopMoved s.bs l) (h : LoopPushed ts l l')
    (hd : ∀ x b, Moved s.bs b → RunPushed ts s (done x b) (done' x (pushed ts b)))
    (hr : ∀ c n x b, RunPushed ts s (raise c n x b) (raise' c n x (pushed ts b)))
    (hd' : ∀ x b, EndsAfter b (done' x b)) (hr' : ∀ c n x b, EndsAfter b (raise' c n x b)) :
    RunPushed ts s (l.toRun done raise) (l'.toRun done' raise') := by
  cases l with
  | done x b => rw [show l' = .done x (pushed ts b) from h]; exact hd x b hm
  | raise c n x b => rw [show l' = .raise c n x (pushed ts b) from h]; exact hr c n x b
  | wait b =>
    obtain ⟨hi, hm'⟩ := h
    refine ⟨hi, hm, ?_⟩
    cases l' with
    | done x c => exact (hd' x c).trans hm'
    | raise c n x b' => exact (hr' c n x b').trans hm'
    | wait c => trivial
    | fault e => trivial
  | fault e => trivial

end pushed

theorem encodeDone_endsAfter (s : State) (k : Nat) (b : Stream) : EndsAfter b (encodeDone s k b) := by
  unfold encodeDone
  split
  · exact transferred_refl b
  · exact finalize_transferred b

theorem decodeDone_endsAfter (s : State) (cut : Bool) (b : Stream) : EndsAfter b (decodeDone s cut b) := by
  cases cut with
  | true => exact finalize_transferred b
  | false =>
    have h := drain_moved b
    rw [decodeDone]
    cases hd : drain b with
    | ok x b' => rw [hd] at h; exact (Moved.transferred h).trans (finalize_transferred b')
    | eod b' => rw [hd] at h; exact (Moved.transferred h).trans (finalize_transferred b')
    | wait b' => trivial

theorem lzwEncodeDone_endsAfter (s : State) (x : Option Nat × Lzw) (b : Stream) : EndsAfter b (lzwEncodeDone s x b) := by
  obtain ⟨_ | p, z⟩ := x
  · exact finalize_transferred b
  · exact (emitCode_moved z p b).transferred.trans (finalize_transferred _)

/-- Every command with more tokens behind those in IN (20_memory.md R76, R84). -/
theorem runCommand_pushed (i : Instr) (ts : List Token) (s : State) :
    RunPushed ts s (runCommand i s) (runCommand i (pushTokens ts s)) := by
  cases i with
  | bsWrbits w =>
    show RunPushed ts s (checkWidth w s _) (checkWidth w _ _)
    unfold checkWidth
    split
    · rfl
    · exact congrArg (fun b => Run.ok (s.withBs b)) (writeBits_pushed _ _ ts s.bs)
  | bsRdbits w =>
    show RunPushed ts s (checkWidth w s _) (checkWidth w _ _)
    unfold checkWidth
    split
    · rfl
    · rw [readIntoResult_eq, readIntoResult_eq]
      exact Rd.toRun_pushed (readBits_moved _ _) (readBits_pushed _ _ _) (fun _ _ => rfl) (fun _ => rfl)
        (fun _ b => transferred_refl b) transferred_refl
  | bsWrbit r => exact congrArg (fun b => Run.ok (s.withBs b)) (writeBools_pushed ts [r] s.bs)
  | bsRdbit =>
    show RunPushed ts s (runBsRdbit s) (runBsRdbit _)
    rw [runBsRdbit_eq, runBsRdbit_eq]
    exact Rd.toRun_pushed (readBit_moved _) (readBit_pushed _ _) (fun _ _ => rfl) (fun _ => rfl)
      (fun _ b => transferred_refl b) transferred_refl
  | bsAlign => exact congrArg (fun b => Run.ok (s.withBs b)) (align_pushed ts s.bs)
  | bsEnd => exact congrArg (fun b => Run.ok (s.withBs b)) (finalize_pushed ts s.bs)
  | bsDrain =>
    show RunPushed ts s (runBsDrain s) (runBsDrain _)
    rw [runBsDrain_eq, runBsDrain_eq]
    exact Rd.toRun_pushed (drain_moved _) (drain_pushed _ _) (fun _ _ => rfl) (fun _ => rfl)
      (fun _ b => transferred_refl b) transferred_refl
  | hufCount =>
    show RunPushed ts s (runHufCount s) (runHufCount _)
    rw [runHufCount_eq, runHufCount_eq]
    refine checkPre_pushed (Loop.toRun_pushed (LoopMoved.trans (rdRestart_moved _) (countLoop_moved _ _ _ _))
      (countLoop_pushed _ _ _ ?_ _ _ _) (fun _ _ _ => rfl) (fun _ _ _ _ => rfl) (fun _ b => transferred_refl b)
      (fun _ _ _ b => transferred_refl b))
    exact Nat.succ_le_succ (available_pushed ts _)
  | hufRdhdr =>
    show RunPushed ts s (runHufRdhdr s) (runHufRdhdr _)
    rw [runHufRdhdr_eq, runHufRdhdr_eq]
    refine checkPre_pushed (Loop.toRun_pushed (LoopMoved.trans (rdRestart_moved _) (headerLoop_moved _ _ _ _))
      (headerLoop_pushed _ _ _ _ _) ?_ (fun _ _ _ _ => rfl) ?_ (fun _ _ _ b => transferred_refl b))
    · rintro ⟨f, _ | _⟩ b _
      · rfl
      · exact congrArg (fun b => Run.ok ((s.withBs b).withHuf _)) (finalize_pushed ts b)
    · rintro ⟨f, _ | _⟩ b
      · exact transferred_refl b
      · exact finalize_transferred b
  | hufBuild => exact checkPre_pushed rfl
  | hufCodes =>
    refine checkPre_pushed ?_
    rw [pushTokens_huf]
    cases codeTable s.huf with
    | some t => rfl
    | none => trivial
  | hufEncode =>
    show RunPushed ts s (runHufEncode s) (runHufEncode _)
    rw [runHufEncode_eq, runHufEncode_eq, pushTokens_bs, rdRestart_pushed, writeHeader_pushed]
    refine checkPre_pushed (Loop.toRun_pushed
      (LoopMoved.trans ((rdRestart_moved _).trans (writeHeader_moved _ _ _)) (encodeLoop_moved _ _ _ _ _))
      (encodeLoop_pushed _ _ _ _ _ ?_ _ _) ?_ (fun _ _ _ _ => rfl) (encodeDone_endsAfter _)
      (fun _ _ _ b => transferred_refl b))
    · exact Nat.succ_le_succ (available_pushed ts _)
    · intro k b _
      unfold encodeDone
      rw [pushTokens_huf]
      split
      · rfl
      · exact congrArg (fun b => Run.ok ((s.withBs b).withHuf _)) (finalize_pushed ts b)
  | hufDecode =>
    show RunPushed ts s (runHufDecode s) (runHufDecode _)
    rw [runHufDecode_eq, runHufDecode_eq]
    refine checkPre_pushed (Loop.toRun_pushed (decodeLoop_moved _ _ _ _) (decodeLoop_pushed _ _ _ _ ?_ _ _) ?_
      (fun _ _ _ _ => rfl) (decodeDone_endsAfter _) (fun _ _ _ b => transferred_refl b))
    · exact Nat.succ_le_succ (available_pushed ts _)
    · rintro (_ | _) b hm
      · rw [decodeDone_false, decodeDone_false]
        have hfin := fun b => congrArg (fun b => Run.ok ((s.withBs b).withHuf { s.huf with hstate := .done }))
          (finalize_pushed ts b)
        exact Rd.toRun_pushed (RdMoved.trans hm (drain_moved b)) (drain_pushed _ _) (fun _ => hfin) hfin
          (fun _ => finalize_transferred) finalize_transferred
      · exact congrArg (fun b => Run.ok ((s.withBs b).withHuf _)) (finalize_pushed ts b)
  | hufLookup c k => exact checkPre_pushed rfl
  | lzwInit =>
    show RunPushed ts s (checkCodeWidth s _) (checkCodeWidth _ _)
    unfold checkCodeWidth
    dsimp only [codeWidthOperand, pushTokens_curCfg, pushTokens_params]
    split
    · rename_i h; exact if_pos h
    · rename_i h; exact if_neg h
  | lzwEncode =>
    show RunPushed ts s (runLzwEncode s) (runLzwEncode _)
    rw [runLzwEncode_eq, runLzwEncode_eq]
    refine checkPre_pushed (Loop.toRun_pushed (LoopMoved.trans (rdRestart_moved _) (lzwEncodeLoop_moved _ _ _ _))
      (lzwEncodeLoop_pushed _ _ ?_ _ _ _ _) ?_ (fun _ _ _ _ => rfl) (lzwEncodeDone_endsAfter _)
      (fun _ _ _ b => transferred_refl b))
    · exact Nat.succ_le_succ (available_pushed ts _)
    · rintro ⟨_ | p, z⟩ b _
      · exact congrArg (fun b => Run.ok ((s.withBs b).withLzw _)) (finalize_pushed ts b)
      · have hfin : finalize (emitCode z p (pushed ts b)) = pushed ts (finalize (emitCode z p b)) := by
          rw [emitCode, emitCode, writeBits_pushed, finalize_pushed]
        exact congrArg (fun b => Run.ok ((s.withBs b).withLzw _)) hfin
  | lzwDecode =>
    show RunPushed ts s (runLzwDecode s) (runLzwDecode _)
    rw [runLzwDecode_eq, runLzwDecode_eq]
    refine checkPre_pushed (Loop.toRun_pushed (LoopMoved.trans (rdRestart_moved _) (lzwDecodeLoop_moved _ _ _ _))
      (lzwDecodeLoop_pushed _ _ ?_ _ _ _ _) ?_ (fun _ _ _ _ => rfl) (fun _ => finalize_transferred)
      (fun _ _ _ b => transferred_refl b))
    · exact Nat.succ_le_succ (available_pushed ts _)
    · exact fun z b _ => congrArg (fun b => Run.ok ((s.withBs b).withLzw _)) (finalize_pushed ts b)
  | _ => rfl

/-! ## The accepted command -/

/-- The accepted word with more tokens behind those in IN. -/
theorem executeRun_pushed (ts : List Token) (s : State) :
    RunPushed ts s (executeRun s) (executeRun (pushTokens ts s)) := by
  cases h : decode s.curCmd with
  | ok i =>
    rw [executeRun_ok h, executeRun_ok (s := pushTokens ts s) h]
    exact runCommand_pushed i ts s
  | error e =>
    rw [executeRun_error h, executeRun_error (s := pushTokens ts s) h]
    rfl

/-- `b'` comes from `b` by taking the tokens `taken` from the head of IN and putting the tokens `put` at the end of OUT. -/
def Passed (taken put : List Token) (b b' : Stream) : Prop := b.inp = taken ++ b'.inp ∧ b'.out = b.out ++ put

/-- The tokens an engine step to a next state transfers. -/
theorem engineStep_passed {s t : State} (h : engineStep s = .next t) : ∃ taken put, Passed taken put s.bs t.bs := by
  cases hd : decode s.curCmd with
  | ok i =>
    rw [engineStep_ok hd] at h
    obtain ⟨taken, put, h1, h2, _⟩ := portTransfers i s t h
    exact ⟨taken, put, h1, h2⟩
  | error e =>
    rw [engineStep_error hd] at h
    cases h
    exact ⟨[], [], rfl, (List.append_nil _).symm⟩

/-- An enabled engine step to a next state ends its run, in that state's bit stream. -/
theorem executeRun_of_enabled {s t : State} (he : engineEnabled s = true) (h : engineStep s = .next t) :
    ∃ u, (executeRun s = .ok u ∨ ∃ c n, executeRun s = .raise c n u) ∧ u.bs = t.bs := by
  unfold engineEnabled at he
  rw [engineStep_eq_finish] at h
  cases hr : executeRun s with
  | ok u => rw [hr] at h; cases h; exact ⟨u, .inl rfl, rfl⟩
  | raise c n u => rw [hr] at h; cases h; exact ⟨u, .inr ⟨c, n, rfl⟩, rfl⟩
  | wait b => rw [hr] at he; simp [Run.enabled] at he
  | fault f => rw [hr] at h; cases h

theorem stream_of_enabled {s t : State} (he : engineEnabled s = true) (h : engineStep s = .next t) :
    (executeRun s).stream s = t.bs := by
  obtain ⟨u, hr | ⟨c, n, hr⟩, hu⟩ := executeRun_of_enabled he h <;> rw [hr] <;> exact hu

/-- A command that completes comes to the same bit stream with more tokens, but for these. -/
theorem stream_pushed_of_enabled {s t : State} (he : engineEnabled s = true) (h : engineStep s = .next t)
    (ts : List Token) : (executeRun (pushTokens ts s)).stream (pushTokens ts s) = pushed ts t.bs := by
  have hp := executeRun_pushed ts s
  obtain ⟨u, hr | ⟨c, n, hr⟩, hu⟩ := executeRun_of_enabled he h
  · rw [hr] at hp
    rw [show executeRun (pushTokens ts s) = .ok (pushTokens ts u) from hp, ← hu]
    rfl
  · rw [hr] at hp
    rw [show executeRun (pushTokens ts s) = .raise c n (pushTokens ts u) from hp, ← hu]
    rfl

theorem Passed.pushed {taken put : List Token} {b b' : Stream} (h : Passed taken put b b') (ts : List Token) :
    Passed taken put (pushed ts b) (pushed ts b') := by
  obtain ⟨h1, h2⟩ := h
  exact ⟨by rw [pushed_inp, pushed_inp, h1, List.append_assoc], h2⟩

theorem Passed.trans {t p t' p' : List Token} {b b' b'' : Stream} (h : Passed t p b b') (h' : Passed t' p' b' b'') :
    Passed (t ++ t') (p ++ p') b b'' := by
  obtain ⟨h1, h2⟩ := h
  obtain ⟨h1', h2'⟩ := h'
  exact ⟨by rw [h1, h1', List.append_assoc], by rw [h2', h2, List.append_assoc]⟩

theorem Transferred.passed {b b' : Stream} (h : Transferred b b') : ∃ taken put, Passed taken put b b' := by
  obtain ⟨⟨taken, h1, _⟩, put, h2, _⟩ := h
  exact ⟨taken, put, h1, h2⟩

/-- What the run of the accepted command has transferred is what it would take and put (70_reset_and_hazards.md R353). -/
theorem would_of_passed {s : State} {taken put : List Token} (h : Passed taken put s.bs ((executeRun s).stream s)) :
    wouldTake s = taken.length ∧ wouldPut s = put := by
  obtain ⟨h1, h2⟩ := h
  constructor
  · unfold wouldTake
    have := congrArg List.length h1
    rw [List.length_append] at this
    omega
  · unfold wouldPut
    rw [h2, List.drop_left]

/-- What an enabled command transfers is what it would transfer, with any tokens behind those in IN. -/
theorem would_of_enabled {s t : State} (he : engineEnabled s = true) (h : engineStep s = .next t) :
    ∃ taken put, Passed taken put s.bs t.bs ∧ (wouldTake s = taken.length ∧ wouldPut s = put) ∧
      ∀ ts, wouldTake (pushTokens ts s) = taken.length ∧ wouldPut (pushTokens ts s) = put := by
  obtain ⟨taken, put, hp⟩ := engineStep_passed h
  refine ⟨taken, put, hp, would_of_passed ?_, fun ts => would_of_passed ?_⟩
  · rw [stream_of_enabled he h]; exact hp
  · rw [stream_pushed_of_enabled he h]; exact hp.pushed ts

/-- A command that waits has taken all of IN. -/
theorem executeRun_of_disabled {s : State} (hb : s.busy = true) (he : engineEnabled s = false) :
    ∃ b, executeRun s = .wait b ∧ b.inp = [] ∧ ∃ put, Passed s.bs.inp put s.bs b := by
  simp only [engineEnabled, hb, Bool.true_and] at he
  cases hr : executeRun s with
  | wait b =>
    have hp := executeRun_pushed [] s
    rw [hr] at hp
    obtain ⟨hi, hm, _⟩ := hp
    obtain ⟨_, put, _, ho⟩ := hm.transferred.passed
    exact ⟨b, rfl, hi, put, by rw [hi, List.append_nil], ho⟩
  | ok u => rw [hr] at he; cases he
  | raise c n u => rw [hr] at he; cases he
  | fault f => rw [hr] at he; cases he

/-- A command that waits goes on, once the tokens that it waits for have come, from what it has transferred before. -/
theorem would_of_disabled {s : State} (hb : s.busy = true) (he : engineEnabled s = false) {ts : List Token} {t : State}
    (he' : engineEnabled (pushTokens ts s) = true) (h : engineStep (pushTokens ts s) = .next t) :
    ∃ taken put put', (wouldTake s = s.bs.inp.length ∧ wouldPut s = put) ∧
      Passed (s.bs.inp ++ taken) (put ++ put') (pushTokens ts s).bs t.bs := by
  obtain ⟨b, hr, hi, put, hp⟩ := executeRun_of_disabled hb he
  have hpush := executeRun_pushed ts s
  rw [hr] at hpush
  obtain ⟨_, _, hend⟩ := hpush
  have htr : Transferred (pushed ts b) t.bs := by
    obtain ⟨u, hu | ⟨c, n, hu⟩, e⟩ := executeRun_of_enabled he' h <;> rw [hu] at hend <;> rw [← e] <;> exact hend
  obtain ⟨taken, put', hp'⟩ := htr.passed
  exact ⟨taken, put, put', would_of_passed (by rw [hr]; exact hp), (hp.pushed ts).trans hp'⟩

/-- A fault transfers nothing. -/
theorem would_of_no_next {s : State} (he : engineEnabled s = true) (h : ∀ t, engineStep s ≠ .next t) :
    wouldTake s = 0 ∧ wouldPut s = [] := by
  refine would_of_passed (taken := []) (put := []) ?_
  unfold engineEnabled at he
  rw [engineStep_eq_finish] at h
  cases hr : executeRun s with
  | fault f => exact ⟨rfl, (List.append_nil _).symm⟩
  | ok u => rw [hr] at h; exact absurd rfl (h _)
  | raise c n u => rw [hr] at h; exact absurd rfl (h _)
  | wait b => rw [hr] at he; simp [Run.enabled] at he

/-- A command takes and puts first what it takes and puts with fewer tokens in IN (R353). -/
theorem would_le_pushed {s : State} (hb : s.busy = true) {ts : List Token} {t : State}
    (he : engineEnabled (pushTokens ts s) = true) (h : engineStep (pushTokens ts s) = .next t) :
    wouldTake s ≤ wouldTake (pushTokens ts s) ∧ wouldPut s <+: wouldPut (pushTokens ts s) := by
  cases hs : engineEnabled s with
  | false =>
    obtain ⟨taken, put, put', ⟨h1, h2⟩, hp⟩ := would_of_disabled hb hs he h
    obtain ⟨h1', h2'⟩ := would_of_passed (by rw [stream_of_enabled he h]; exact hp)
    rw [h1, h2, h1', h2', List.length_append]
    exact ⟨Nat.le_add_right _ _, List.prefix_append _ _⟩
  | true =>
    by_cases hn : ∃ u, engineStep s = .next u
    · obtain ⟨u, hu⟩ := hn
      obtain ⟨taken, put, _, ⟨h1, h2⟩, hw⟩ := would_of_enabled hs hu
      rw [h1, h2, (hw ts).1, (hw ts).2]
      exact ⟨Nat.le_refl _, List.prefix_refl _⟩
    · obtain ⟨h1, h2⟩ := would_of_no_next hs fun u hu => hn ⟨u, hu⟩
      rw [h1, h2]
      exact ⟨Nat.zero_le _, List.nil_prefix⟩

/-- Settles O24: the abandoned command's transfers by `softReset_cases`, and what it would have transferred by whether it
completes, waits or faults on the tokens in IN. -/
theorem softResetDuringACommand : Obligations.SoftResetDuringACommand := by
  unfold Obligations.SoftResetDuringACommand
  refine fun s v hb hv => ⟨?_, fun rest t he h => ?_, fun he => ?_, fun rest t he h => ?_⟩
  · rcases softReset_cases (v.getLsbD 1) s with ⟨hb', _⟩ | ⟨_, rest, n, m, hn, hn', hm, e⟩
    · rw [hb] at hb'; cases hb'
    · refine ⟨rest, n, m, s.draws + 1, hn, hn', hm, ?_⟩
      rw [hostStep_srst hv, e]
      rfl
  · obtain ⟨taken, put, ⟨hi, ho⟩, _, hw⟩ := would_of_enabled he h
    obtain ⟨ht, hp⟩ := hw rest
    rw [ht, hp, hi, List.drop_left, List.length_append]
    exact ⟨rfl, Nat.le_add_right _ _, ho⟩
  · obtain ⟨b, hr, hi, put, hp⟩ := executeRun_of_disabled hb he
    exact (would_of_passed (by rw [hr]; exact hp)).1
  · obtain ⟨_, _, ⟨_, ho⟩, ⟨_, hp⟩, _⟩ := would_of_enabled he h
    refine and_assoc.1 ⟨would_le_pushed hb he h, ?_⟩
    rw [hp]
    exact ho

end Sys2Proof.Machine

/-! PROOF LAYER. The decoder on the encoder's words, commands with more input, whose move it is, and the host's accesses to the
ports and the window. -/

namespace Sys2Proof

/-! ## The fields of a command word -/

section fields
variable (w : BitVec 6) (m op : BitVec 8)

@[simp] theorem opField_commandWord : opField (commandWord w m op) = op :=
  BitVec.extractLsb'_append_eq_right

@[simp] theorem immField_commandWord : immField (commandWord w m op) = m := by
  unfold immField commandWord
  rw [BitVec.extractLsb'_append_eq_of_le (by decide)]
  exact BitVec.extractLsb'_append_eq_right

@[simp] theorem widthField_commandWord : widthField (commandWord w m op) = w := by
  unfold widthField commandWord
  rw [BitVec.extractLsb'_append_eq_of_le (by decide), BitVec.extractLsb'_append_eq_of_le (by decide)]
  exact BitVec.extractLsb'_append_eq_right

@[simp] theorem rsvField_commandWord : rsvField (commandWord w m op) = 0#10 := by
  unfold rsvField commandWord
  rw [BitVec.extractLsb'_append_eq_of_le (by decide), BitVec.extractLsb'_append_eq_of_le (by decide),
    BitVec.extractLsb'_append_eq_of_le (by decide)]
  exact BitVec.extractLsb'_eq_self

end fields

/-- The decoder reads a command from the word the encoder gives it (30_encoding.md R101, R103). -/
theorem decode_encode (i : Instr) : decode (encode i) = .ok i := by
  cases i with
  | bsWrbits w => simp [decode, encode, ifFixed]
  | bsRdbits w => simp [decode, encode, ifFixed]
  | bsWrbit b => cases b <;> rfl
  | hufGetfreq c => simp [decode, encode, ifFixed]
  | hufLookup c k =>
    have hhigh : (0#3 ++ k).extractLsb' 3 3 = 0#3 := by
      rw [BitVec.extractLsb'_append_eq_of_le (by decide)]
      exact BitVec.extractLsb'_eq_self
    have hlow : (0#3 ++ k).extractLsb' 0 3 = k := BitVec.extractLsb'_append_eq_right
    simp [decode, encode, ifFixed, hhigh, hlow]
  | _ => rfl

end Sys2Proof

namespace Sys2Proof.Machine

/-! ## More input -/

/-- A run that completes finishes the same with more tokens, which are then still behind what it left. -/
theorem RunPushed.finish {ts : List Token} {s t : State} {r r' : Run} (hp : RunPushed ts s r r')
    (he : r.enabled = true) (h : r.finish s = .next t) : r'.finish (pushTokens ts s) = .next (pushTokens ts t) := by
  cases r with
  | ok u =>
    cases h
    rw [show r' = .ok (pushTokens ts u) from hp]
    rfl
  | raise c n u =>
    cases h
    rw [show r' = .raise c n (pushTokens ts u) from hp]
    rfl
  | wait b => cases he
  | fault f => cases h

/-- Settles O12: a command's run with more tokens follows its run without them. -/
theorem moreInputChangesNothing : Obligations.MoreInputChangesNothing := by
  unfold Obligations.MoreInputChangesNothing
  intro i s t ts he h
  rw [exec_eq_finish] at h ⊢
  exact (runCommand_pushed i ts s).finish he h

/-! ## Whose move it is -/

/-- With the host's program at its end the engine has the move (20_memory.md R84). -/
theorem step_of_no_op {s : State} (h : nextOp s = none) : step s = engineTurn s := by
  simp only [step, whoseTurn, h]

theorem engineTurn_busy {s : State} (h : s.busy = true) : engineTurn s = engineStep s := if_pos h

theorem engineTurn_idle {s : State} (h : s.busy = false) : engineTurn s = .next s :=
  if_neg (by rw [h]; nofun)

theorem busy_of_engineEnabled {s : State} (h : engineEnabled s = true) : s.busy = true :=
  (Bool.and_eq_true_iff.1 h).1

section turns
variable {s : State} {op : HostOp} (hn : nextOp s = some op)
include hn

theorem step_of_engine_disabled (he : engineEnabled s = false) : step s = hostStep op s := by
  simp [step, whoseTurn, hn, he]

theorem step_of_op_disabled (he : engineEnabled s = true) (ho : opEnabled op s = false) : step s = engineStep s := by
  simp [step, whoseTurn, hn, he, ho, engineTurn_busy (busy_of_engineEnabled he)]

/-- Where both agents can move, the free value decides (notes/assumptions/5.md). -/
theorem step_of_both_enabled (he : engineEnabled s = true) (ho : opEnabled op s = true) :
    step s = engineStep { s with draws := s.draws + 1 } ∨ step s = hostStep op { s with draws := s.draws + 1 } := by
  have hb := busy_of_engineEnabled he
  cases hf : Config.engineFirst s.draws with
  | true => exact .inl (by simp [step, whoseTurn, hn, he, ho, hf, engineTurn, hb])
  | false => exact .inr (by simp [step, whoseTurn, hn, he, ho, hf])

end turns

/-- Settles O8: the equations of `step`, by which agent can move. -/
theorem whoMoves : Obligations.WhoMoves := by
  unfold Obligations.WhoMoves
  refine ⟨fun s hn hb => ?_, fun s op hn => ⟨?_, ?_, ?_⟩⟩
  · rw [step_of_no_op hn, engineTurn_idle hb]
  · exact step_of_engine_disabled hn
  · exact step_of_op_disabled hn
  · exact step_of_both_enabled hn

/-! ## A step of the engine alone -/

/-- A host operation that cannot be performed changes nothing (notes/assumptions/9.md). -/
theorem hostStep_of_op_disabled {op : HostOp} {s : State} (h : opEnabled op s = false) : hostStep op s = .next s := by
  cases op with
  | outPop =>
    have ho : s.bs.out = [] := by simpa [opEnabled] using h
    simp [hostStep, ho]
  | waitIdle =>
    have hb : s.busy = true := by simpa [opEnabled] using h
    simp [hostStep, hb]
  | _ => cases h

/-- A command that waits changes nothing (notes/assumptions/9.md). -/
theorem engineStep_of_disabled {s : State} (hb : s.busy = true) (he : engineEnabled s = false) :
    engineStep s = .next s := by
  obtain ⟨b, hr, _⟩ := executeRun_of_disabled hb he
  rw [engineStep_eq_finish, hr, finish_wait]

/-- While the host cannot move, the step of a core with an accepted command is the engine's (20_memory.md R84). -/
theorem step_of_hostWaits {s : State} (hb : s.busy = true) (hw : hostWaits s) : step s = engineStep s := by
  cases hn : nextOp s with
  | none => rw [step_of_no_op hn, engineTurn_busy hb]
  | some op =>
    have ho := hw op hn
    cases he : engineEnabled s with
    | true => exact step_of_op_disabled hn he ho
    | false => rw [step_of_engine_disabled hn he, hostStep_of_op_disabled ho, engineStep_of_disabled hb he]

theorem withFetchWord_eq (s : State) (c : Word) : s.withFetchWord 32 c.toNat = placeCommand c s := by
  unfold State.withFetchWord
  rw [Nat.mod_eq_of_lt c.isLt, BitVec.ofNat_toNat, BitVec.setWidth_eq]

/-- After a command word is placed the host's program is at its end. -/
theorem hostWaits_placeCommand (c : Word) (s : State) : hostWaits (placeCommand c s) := by
  intro op h
  simp [nextOp] at h

/-- While the host cannot move, a step is the accepted command's own (40_control.md R131). -/
theorem step_eq_exec {s : State} {i : Instr} (hb : s.busy = true) (hd : decode s.curCmd = .ok i) (hw : hostWaits s) :
    step s = exec i s := by
  rw [step_of_hostWaits hb hw, engineStep_ok hd]

/-- Settles O7: the host waits, so that the step is the engine's, and the word decodes to the command. -/
theorem stepRunsTheAcceptedCommand : Obligations.StepRunsTheAcceptedCommand := by
  unfold Obligations.StepRunsTheAcceptedCommand
  refine ⟨fun s i => step_eq_exec, fun s i => ?_⟩
  rw [withFetchWord_eq]
  exact step_eq_exec rfl (decode_encode i) (hostWaits_placeCommand _ s)

/-! ## The ports -/

theorem hostStep_outPop_cons {s : State} {tok : Token} {rest : List Token} (h : s.bs.out = tok :: rest) :
    hostStep .outPop s = .next (advance (observe [.token tok] (withOut rest s))) := by
  simp only [hostStep, h]

theorem hostStep_waitIdle_idle {s : State} (h : s.busy = false) : hostStep .waitIdle s = .next (advance s) :=
  if_neg (by rw [h]; nofun)

/-- Settles O17: each operation performed, or waiting. -/
theorem portOperations : Obligations.PortOperations := by
  unfold Obligations.PortOperations
  refine fun s => ⟨fun _ => rfl, fun tok rest h => ?_, fun h => ?_, rfl, fun h => ?_, fun h => ?_⟩
  · exact hostStep_outPop_cons h
  · exact hostStep_of_op_disabled (by simp [opEnabled, h])
  · exact hostStep_of_op_disabled (by simp [opEnabled, h])
  · exact hostStep_waitIdle_idle h

/-! ## The window -/

/-- A read of a register that is unspecified while BUSY = 1 takes a free value, which STATUS holds in part (20_memory.md R85). -/
theorem readReg_busy {s : State} (hb : s.busy = true) {r : Reg} (hr : alwaysAccurate r = false) :
    readReg r s = (if r = .status then busyStatusWord (Config.busyRead s.draws) s else Config.busyRead s.draws,
      { s with draws := s.draws + 1 }) := by
  simp [readReg, hb, hr]

theorem readReg_accurate {r : Reg} (hr : alwaysAccurate r = true) (s : State) : readReg r s = (regValue r s, s) := by
  simp [readReg, hr]

/-- A read changes the core in nothing but the free values drawn. -/
theorem readReg_draws (r : Reg) (s : State) : ∃ d, (readReg r s).2 = { s with draws := d } := by
  rcases readReg_state r s with e | e
  · exact ⟨s.draws, e⟩
  · exact ⟨s.draws + 1, e⟩

/-- The bits of STATUS that are no free value while BUSY = 1 (20_memory.md R85). -/
theorem busyFlags_bits (o : Bool) :
    let v := 0#29 ++ BitVec.ofBool o ++ 0#1 ++ 1#1
    v.getLsbD 0 = true ∧ v.getLsbD 1 = false ∧ v.getLsbD 2 = o ∧ ∀ j, 3 ≤ j → v.getLsbD j = false := by
  simp only [BitVec.getLsbD_append]
  refine ⟨by simp, by simp, by simp, fun j hj => ?_⟩
  obtain ⟨k, rfl⟩ := Nat.exists_eq_add_of_le' hj
  simp

/-- A bit of STATUS outside the unspecified fields is OVR, BUSY or 0, whatever the free value is (R85). -/
theorem busyStatusWord_getLsbD (x : Word) (s : State) {j : Nat} (hj : busyStatusMask.getLsbD j = false) :
    (busyStatusWord x s).getLsbD j = (0#29 ++ BitVec.ofBool s.ovr ++ 0#1 ++ 1#1).getLsbD j := by
  rw [busyStatusWord, BitVec.getLsbD_or, BitVec.getLsbD_and, hj, Bool.and_false, Bool.false_or]

/-- The reserved bits of STATUS read 0 (notes/assumptions/7.md). -/
theorem busyStatusWord_reserved (x : Word) (s : State) {j : Nat} (hj : busyStatusMask.getLsbD j = false) (h3 : 3 ≤ j) :
    (busyStatusWord x s).getLsbD j = false := by
  obtain ⟨_, _, _, hhigh⟩ := busyFlags_bits s.ovr
  exact (busyStatusWord_getLsbD x s hj).trans (hhigh j h3)

/-- A field of STATUS that lies in the reserved bits reads 0. -/
theorem busyStatusWord_field (x : Word) (s : State) {start n : Nat} (h3 : 3 ≤ start)
    (hm : ∀ k < n, busyStatusMask.getLsbD (start + k) = false) : (busyStatusWord x s).extractLsb' start n = 0 := by
  refine BitVec.eq_of_getLsbD_eq fun k hk => ?_
  rw [BitVec.getLsbD_extractLsb', busyStatusWord_reserved x s (hm k hk) (by omega)]
  simp

/-- The bits of STATUS that hold whatever the free value is: BUSY, DONE, OVR, ERRF and the reserved bits (R85;
notes/assumptions/7.md). -/
theorem busyStatusWord_bits (x : Word) (s : State) :
    let v := busyStatusWord x s
    v.getLsbD 0 = true ∧ v.getLsbD 1 = false ∧ v.getLsbD 2 = s.ovr ∧ v.getLsbD 3 = false ∧
    v.getLsbD 11 = false ∧ v.extractLsb' 14 2 = 0 ∧ v.getLsbD 19 = false ∧ v.extractLsb' 24 8 = 0 := by
  obtain ⟨hbusy, hdone, hovr, _⟩ := busyFlags_bits s.ovr
  refine ⟨?_, ?_, ?_, ?_, ?_, ?_, ?_, ?_⟩
  · exact (busyStatusWord_getLsbD x s (by decide)).trans hbusy
  · exact (busyStatusWord_getLsbD x s (by decide)).trans hdone
  · exact (busyStatusWord_getLsbD x s (by decide)).trans hovr
  · exact busyStatusWord_reserved x s (by decide) (by decide)
  · exact busyStatusWord_reserved x s (by decide) (by decide)
  · exact busyStatusWord_field x s (by decide) (by decide)
  · exact busyStatusWord_reserved x s (by decide) (by decide)
  · exact busyStatusWord_field x s (by decide) (by decide)

/-- Settles O19: the register at the offset, accurate or a free value. -/
theorem busyReads : Obligations.BusyReads := by
  unfold Obligations.BusyReads
  intro s off hb h h4
  obtain ⟨r, hr⟩ := regAtOffset_some h h4
  obtain ⟨d, hd⟩ := readReg_draws r s
  have hread := hostStep_memRead (s := s) h hr
  rw [hd] at hread
  refine ⟨(readReg r s).1, d, hread, ?_, ?_, ?_, ?_, ?_⟩ <;> rintro rfl <;> cases hr
  · rw [readReg_accurate rfl]
    exact ctrlWord_eq s.ie
  · rw [readReg_accurate rfl]
    exact zero_append_eq_setWidth 26 s.dictBits
  · rw [readReg_accurate rfl]
    rfl
  · rw [readReg_accurate rfl]
    rfl
  · rw [readReg_busy hb rfl]
    exact busyStatusWord_bits _ s

theorem regAtOffset_unaligned {off : Nat} (h : off % 4 ≠ 0) : regAtOffset off = none := by
  unfold regAtOffset
  split
  on_goal 17 => rfl
  all_goals exact absurd rfl h

/-- An access of another size than 4, or at an offset that is no multiple of 4, reaches no register (R72). -/
theorem accessedReg_illegal {off size : Nat} (h : ¬(size = 4 ∧ off % 4 = 0)) : accessedReg off size = none := by
  unfold accessedReg
  split
  · exact regAtOffset_unaligned fun h4 => h ⟨‹_›, h4⟩
  · rfl

/-- Settles O20: an illegal access reaches no register, a legal one the register at its offset. -/
theorem illegalAccesses : Obligations.IllegalAccesses := by
  unfold Obligations.IllegalAccesses
  refine ⟨fun s off size v h hill => ?_, fun s off h h4 => ?_⟩
  · simp only [hostStep, windowOffset_base_add _ h, windowWrite, windowRead, accessedReg_illegal hill]
    exact ⟨rfl, rfl⟩
  · obtain ⟨r, hr⟩ := regAtOffset_some h h4
    exact ⟨r, hostStep_memWrite h hr, hostStep_memRead h hr⟩

/-- Settles O21: an address outside the window has no offset in it. -/
theorem outsideTheWindow : Obligations.OutsideTheWindow := by
  unfold Obligations.OutsideTheWindow
  intro s addr size v h
  simp only [hostStep, windowOffset_outside h, and_self]

end Sys2Proof.Machine

/-! PROOF LAYER. The decoder and the opcode map: a command word by its fields, the round trip between words and commands, the
rows of the map, and the words that are no command. -/

namespace Sys2Proof

open Machine

/-! ## Words by their fields -/

/-- A command word is its four fields, the most significant first (30_encoding.md R100). -/
theorem append_fields (c : Word) : rsvField c ++ widthField c ++ immField c ++ opField c = c := by
  unfold rsvField widthField immField opField
  rw [BitVec.extractLsb'_append_extractLsb'_eq_extractLsb' (show 22 = 16 + 6 from rfl),
    BitVec.extractLsb'_append_extractLsb'_eq_extractLsb' (show 16 = 8 + 8 from rfl),
    BitVec.extractLsb'_append_extractLsb'_eq_extractLsb' (show 8 = 0 + 8 from rfl)]
  exact BitVec.extractLsb'_eq_self

theorem eq_commandWord_iff {c : Word} {w : BitVec 6} {m op : BitVec 8} :
    c = commandWord w m op ↔ opField c = op ∧ immField c = m ∧ widthField c = w ∧ rsvField c = 0#10 := by
  constructor
  · rintro rfl
    simp
  · rintro ⟨hop, himm, hwidth, hrsv⟩
    rw [← append_fields c, hop, himm, hwidth, hrsv, commandWord]

/-- A part of a field is a part of the word. -/
theorem extractLsb'_extractLsb'_add (c : Word) (base : Nat) {start len size : Nat} (h : start + len ≤ size) :
    (c.extractLsb' base size).extractLsb' start len = c.extractLsb' (base + start) len := by
  refine BitVec.eq_of_getLsbD_eq fun j hj => ?_
  have hsize : start + j < size := by omega
  simp only [BitVec.getLsbD_extractLsb', hsize, decide_true, Bool.true_and, Nat.add_assoc]

/-- BS_WRBIT's b is IMM8's bit 0, where the others are 0 (R101, R102). -/
theorem immField_of_bit {m : BitVec 8} (h : m.extractLsb' 1 7 = 0#7) : m = 0#7 ++ BitVec.ofBool (m.getLsbD 0) := by
  rw [← h, ← BitVec.setWidth_one]
  exact (BitVec.extractLsb'_append_extractLsb' (w := 7) (len := 1)).symm

/-- HUF_LOOKUP's k is WIDTH's low three bits, where the others are 0 (R101, R102). -/
theorem widthField_of_low {w : BitVec 6} (h : w.extractLsb' 3 3 = 0#3) : w = 0#3 ++ w.extractLsb' 0 3 := by
  rw [← h]
  exact (BitVec.extractLsb'_append_extractLsb' (w := 3) (len := 3)).symm

theorem plain_iff {c : Word} : plain c = true ↔ immField c = 0#8 ∧ widthField c = 0#6 ∧ rsvField c = 0#10 := by
  simp [plain, and_assoc]

theorem ifFixed_eq_ok {ok : Bool} {i j : Instr} : ifFixed ok i = .ok j ↔ ok = true ∧ i = j := by
  cases ok <;> simp [ifFixed]

theorem ifFixed_ne_reserved (ok : Bool) (i : Instr) : ifFixed ok i ≠ .error .reservedOpcode := by
  cases ok <;> nofun

/-! ## The round trip -/

/-- A word that decodes to a command is the word the encoder gives it (30_encoding.md R101, R102). -/
theorem eq_encode_of_decode {c : Word} {i : Instr} (h : decode c = .ok i) : c = encode i := by
  unfold decode at h
  split at h
  case h_22 => cases h
  all_goals
    rename_i hop
    obtain ⟨hfixed, rfl⟩ := ifFixed_eq_ok.1 h
    refine eq_commandWord_iff.2 ⟨BitVec.eq_of_toNat_eq hop, ?_⟩
  case h_3 | h_4 | h_17 => simpa using hfixed
  case h_5 =>
    simp only [Bool.and_eq_true, beq_iff_eq] at hfixed
    obtain ⟨⟨himm, hwidth⟩, hrsv⟩ := hfixed
    exact ⟨immField_of_bit himm, hwidth, hrsv⟩
  case h_18 =>
    simp only [Bool.and_eq_true, beq_iff_eq] at hfixed
    obtain ⟨hwidth, hrsv⟩ := hfixed
    exact ⟨rfl, widthField_of_low hwidth, hrsv⟩
  all_goals exact plain_iff.1 hfixed

theorem decode_eq_ok_iff {c : Word} {i : Instr} : decode c = .ok i ↔ c = encode i := by
  refine ⟨eq_encode_of_decode, ?_⟩
  rintro rfl
  exact decode_encode i

/-- Settles O1: the decoder reads the encoder's words, and only those. -/
theorem decodeInvertsEncode : Obligations.DecodeInvertsEncode := by
  unfold Obligations.DecodeInvertsEncode
  exact fun c i => decode_eq_ok_iff

/-! ## The rows of the opcode map -/

theorem selects_iff {r : OpcodeRow} {c : Word} : r.selects c = true ↔ c &&& r.mask = r.pattern := beq_iff_eq

/-- A field that a row's mask fixes has the row's bits in every word that selects the row (30_encoding.md R102, R103). -/
theorem extractLsb'_of_selects {r : OpcodeRow} {c : Word} (h : r.selects c = true) {start len : Nat}
    (hm : r.mask.extractLsb' start len = BitVec.allOnes len) :
    c.extractLsb' start len = r.pattern.extractLsb' start len := by
  rw [← selects_iff.1 h, BitVec.extractLsb'_and, hm, BitVec.and_allOnes]

/-- A row without operand bits is its pattern alone. -/
theorem eq_of_selects_plain {p c : Word} (h : (OpcodeRow.mk p 0xFFFFFFFF#32).selects c = true) : c = p :=
  BitVec.and_allOnes.symm.trans (selects_iff.1 h)

theorem opField_mask {r : OpcodeRow} (hr : r ∈ opcodeRows) : opField r.mask = BitVec.allOnes 8 := by
  revert r
  decide

theorem opField_of_selects {r : OpcodeRow} (hr : r ∈ opcodeRows) {c : Word} (h : r.selects c = true) :
    opField c = opField r.pattern := extractLsb'_of_selects h (opField_mask hr)

/-- Every row of the map has an opcode of its own (R103). -/
theorem row_eq_of_opField : ∀ r ∈ opcodeRows, ∀ q ∈ opcodeRows, opField r.pattern = opField q.pattern → r = q := by
  decide

/-- A word that selects a row decodes to a command of that row. -/
theorem decode_of_selects {c : Word} {n : Nat} {r : OpcodeRow} (hr : opcodeRows[n]? = some r)
    (h : r.selects c = true) : ∃ i, decode c = .ok i ∧ rowOf i = n := by
  have hop : opField c = opField r.pattern := opField_of_selects (List.mem_of_getElem? hr) h
  match n, hr with
  | 2, hr =>
    cases hr
    exact ⟨.bsWrbits _, decode_eq_ok_iff.2 (eq_commandWord_iff.2 ⟨hop,
      extractLsb'_of_selects h rfl, rfl, extractLsb'_of_selects h rfl⟩), rfl⟩
  | 3, hr =>
    cases hr
    exact ⟨.bsRdbits _, decode_eq_ok_iff.2 (eq_commandWord_iff.2 ⟨hop,
      extractLsb'_of_selects h rfl, rfl, extractLsb'_of_selects h rfl⟩), rfl⟩
  | 4, hr =>
    cases hr
    have himm : (immField c).extractLsb' 1 7 = 0#7 :=
      (extractLsb'_extractLsb'_add c 8 (by decide)).trans (extractLsb'_of_selects h rfl)
    exact ⟨.bsWrbit _, decode_eq_ok_iff.2 (eq_commandWord_iff.2 ⟨hop,
      immField_of_bit himm, extractLsb'_of_selects h rfl, extractLsb'_of_selects h rfl⟩), rfl⟩
  | 16, hr =>
    cases hr
    exact ⟨.hufGetfreq _, decode_eq_ok_iff.2 (eq_commandWord_iff.2 ⟨hop,
      rfl, extractLsb'_of_selects h rfl, extractLsb'_of_selects h rfl⟩), rfl⟩
  | 17, hr =>
    cases hr
    have hwidth : (widthField c).extractLsb' 3 3 = 0#3 :=
      (extractLsb'_extractLsb'_add c 16 (by decide)).trans (extractLsb'_of_selects h rfl)
    exact ⟨.hufLookup _ _, decode_eq_ok_iff.2 (eq_commandWord_iff.2 ⟨hop,
      rfl, widthField_of_low hwidth, extractLsb'_of_selects h rfl⟩), rfl⟩
  | 0, hr | 1, hr | 5, hr | 6, hr | 7, hr | 8, hr | 9, hr | 10, hr
  | 11, hr | 12, hr | 13, hr | 14, hr | 15, hr | 18, hr | 19, hr | 20, hr =>
    cases hr
    obtain rfl := eq_of_selects_plain h
    exact ⟨_, rfl, rfl⟩
  | _ + 21, hr => cases hr

theorem legalWord_encode (i : Instr) : legalWord (encode i) = true := by
  cases i with
  | bsWrbits w => exact Laws.EncodeLegal.bsWrbits w
  | bsRdbits w => exact Laws.EncodeLegal.bsRdbits w
  | bsWrbit b => exact Laws.EncodeLegal.bsWrbit b
  | hufGetfreq x => exact Laws.EncodeLegal.hufGetfreq x
  | hufLookup x k => exact Laws.EncodeLegal.hufLookup x k
  | _ => rfl

theorem legalWord_iff_selects {c : Word} : legalWord c = true ↔ ∃ r ∈ opcodeRows, r.selects c = true := List.any_eq_true

/-- A word is legal exactly when it decodes to a command (R104). -/
theorem legalWord_iff_decode {c : Word} : legalWord c = true ↔ ∃ i, decode c = .ok i := by
  constructor
  · intro h
    obtain ⟨r, hr, hsel⟩ := legalWord_iff_selects.1 h
    obtain ⟨n, hn⟩ := List.mem_iff_getElem?.1 hr
    obtain ⟨i, hi, _⟩ := decode_of_selects hn hsel
    exact ⟨i, hi⟩
  · rintro ⟨i, hi⟩
    rw [eq_encode_of_decode hi]
    exact legalWord_encode i

/-- A command's word selects the command's row: it selects some row, and that one is the command's. -/
theorem selects_of_decode {c : Word} {i : Instr} {r : OpcodeRow} (h : decode c = .ok i)
    (hr : opcodeRows[rowOf i]? = some r) : r.selects c = true := by
  obtain ⟨q, hq, hsel⟩ := legalWord_iff_selects.1 (legalWord_iff_decode.2 ⟨i, h⟩)
  obtain ⟨n, hn⟩ := List.mem_iff_getElem?.1 hq
  obtain ⟨j, hj, rfl⟩ := decode_of_selects hn hsel
  cases h.symm.trans hj
  cases hr.symm.trans hn
  exact hsel

/-- Settles O2: a selected row is the row of the command that the word decodes to. -/
theorem opcodeMapSelectsTheRow : Obligations.OpcodeMapSelectsTheRow := by
  unfold Obligations.OpcodeMapSelectsTheRow
  refine ⟨fun c n r hr => ⟨decode_of_selects hr, ?_⟩, fun c m n r q hr hq hrsel hqsel => ?_⟩
  · rintro ⟨i, hi, rfl⟩
    exact selects_of_decode hi hr
  · obtain ⟨i, hi, rfl⟩ := decode_of_selects hr hrsel
    obtain ⟨j, hj, rfl⟩ := decode_of_selects hq hqsel
    cases hi.symm.trans hj
    rfl

/-! ## The immediates -/

theorem extractLsb'_toNat_eq (c : Word) (start len : Nat) :
    (c.extractLsb' start len).toNat = c.toNat / 2 ^ start % 2 ^ len := by
  rw [BitVec.extractLsb'_toNat, Nat.shiftRight_eq_div_pow]

theorem widthField_toNat (c : Word) : (widthField c).toNat = c.toNat / 2 ^ 16 % 64 := extractLsb'_toNat_eq c 16 6

theorem immField_toNat (c : Word) : (immField c).toNat = c.toNat / 2 ^ 8 % 256 := extractLsb'_toNat_eq c 8 8

/-- Settles O3: the fields of the word that the encoder gives the command. -/
theorem operandsAreFields : Obligations.OperandsAreFields := by
  unfold Obligations.OperandsAreFields
  simp only [decode_eq_ok_iff, encode, eq_commandWord_iff]
  refine ⟨?_, ?_, ?_, ?_, ?_⟩
  · rintro c w ⟨-, -, rfl, -⟩
    exact widthField_toNat c
  · rintro c w ⟨-, -, rfl, -⟩
    exact widthField_toNat c
  · rintro c b ⟨-, himm, -, -⟩
    have hb : (0#7 ++ BitVec.ofBool b).getLsbD 0 = b := by cases b <;> rfl
    rw [← hb, ← himm, immField, BitVec.getLsbD_extractLsb']
    rfl
  · rintro c x ⟨-, rfl, -, -⟩
    exact immField_toNat c
  · rintro c x k ⟨-, rfl, hwidth, -⟩
    have hk : c.extractLsb' 16 3 = k :=
      calc c.extractLsb' 16 3
        _ = (widthField c).extractLsb' 0 3 := (extractLsb'_extractLsb'_add c 16 (start := 0) (size := 6) (by decide)).symm
        _ = (0#3 ++ k).extractLsb' 0 3 := by rw [hwidth]
        _ = k := BitVec.extractLsb'_append_eq_right
    exact ⟨immField_toNat c, hk ▸ extractLsb'_toNat_eq c 16 3⟩

/-! ## Words that are no command -/

/-- Whether a word's opcode is reserved is a matter of its OP alone. -/
theorem decode_reserved_iff_opField (c : Word) :
    decode c = .error .reservedOpcode ↔ decode (commandWord 0 0 (opField c)) = .error .reservedOpcode := by
  simp only [decode, opField_commandWord]
  split <;> simp only [ifFixed_ne_reserved]

theorem decode_commandWord_reserved_iff : ∀ op : BitVec 8,
    decode (commandWord 0 0 op) = .error .reservedOpcode ↔ ∀ r ∈ opcodeRows, op ≠ opField r.pattern := by
  decide +kernel

theorem decode_reserved_iff {c : Word} :
    decode c = .error .reservedOpcode ↔ ∀ r ∈ opcodeRows, opField c ≠ opField r.pattern :=
  (decode_reserved_iff_opField c).trans (decode_commandWord_reserved_iff (opField c))

theorem decode_fixedBits_iff {c : Word} : decode c = .error .fixedBits ↔
    ∃ r ∈ opcodeRows, opField c = opField r.pattern ∧ c &&& r.mask ≠ r.pattern := by
  constructor
  · intro h
    have hres : ¬ decode c = .error .reservedOpcode := by rw [h]; nofun
    have hill : ¬ legalWord c = true := fun hl => by
      obtain ⟨i, hi⟩ := legalWord_iff_decode.1 hl
      cases h.symm.trans hi
    simp only [decode_reserved_iff, not_forall, not_not] at hres
    obtain ⟨r, hr, hop⟩ := hres
    exact ⟨r, hr, hop, fun hsel => hill (legalWord_iff_selects.2 ⟨r, hr, selects_iff.2 hsel⟩)⟩
  · rintro ⟨r, hr, hop, hbits⟩
    cases hd : decode c with
    | ok i =>
      obtain ⟨q, hq, hsel⟩ := legalWord_iff_selects.1 (legalWord_iff_decode.2 ⟨i, hd⟩)
      obtain rfl := row_eq_of_opField r hr q hq (hop.symm.trans (opField_of_selects hq hsel))
      exact absurd (selects_iff.1 hsel) hbits
    | error e =>
      cases e with
      | reservedOpcode => exact absurd hop (decode_reserved_iff.1 hd r hr)
      | fixedBits => rfl

/-- Settles O4: a word that is not legal does not decode, and the engine answers that with E_CMD. -/
theorem offMapWordsRaiseECmd : Obligations.OffMapWordsRaiseECmd := by
  unfold Obligations.OffMapWordsRaiseECmd
  refine ⟨fun c => legalWord_iff_decode.symm, fun c => decode_reserved_iff, fun c => decode_fixedBits_iff,
    fun s hb hill hw => ?_⟩
  rw [step_of_hostWaits hb hw]
  cases hd : decode s.curCmd with
  | ok i => cases hill.symm.trans (legalWord_iff_decode.2 ⟨i, hd⟩)
  | error e => exact engineStep_error hd

theorem rsvField_encode (i : Instr) : rsvField (encode i) = 0#10 := by
  cases i <;> exact rsvField_commandWord _ _ _

/-- The opcodes of no row are the four ranges of R106. -/
theorem reserved_ranges : ∀ op : BitVec 8,
    ((0x01 ≤ op.toNat ∧ op.toNat ≤ 0x0F) ∨ (0x18 ≤ op.toNat ∧ op.toNat ≤ 0x1F) ∨
      (0x29 ≤ op.toNat ∧ op.toNat ≤ 0x2F) ∨ 0x33 ≤ op.toNat) ↔ ∀ r ∈ opcodeRows, op ≠ opField r.pattern := by
  decide +kernel

/-- Settles O5: the opcodes of no row, and the fields of the words that the encoder gives. -/
theorem reservedWordsAreIllegal : Obligations.ReservedWordsAreIllegal := by
  unfold Obligations.ReservedWordsAreIllegal
  refine ⟨fun c => (reserved_ranges (opField c)).trans decode_reserved_iff.symm, fun c hrsv => ?_,
    fun c => decode_eq_ok_iff⟩
  cases hd : decode c with
  | ok i => exact absurd (eq_encode_of_decode hd ▸ rsvField_encode i) hrsv
  | error e => exact ⟨e, rfl⟩

/-- Settles O6: each word is the encoder's for its command. -/
theorem handWrittenWords : Obligations.HandWrittenWords := by
  unfold Obligations.HandWrittenWords
  exact ⟨decode_encode .nop, decode_encode (.bsWrbits 32), decode_encode (.bsRdbits 3), decode_encode (.bsWrbit true),
    decode_encode .hufCount, decode_encode (.hufGetfreq 0x62), decode_encode (.hufLookup 0x63 5),
    decode_encode .lzwDecode⟩

end Sys2Proof

/-! PROOF LAYER. The control family: the check of a command's precondition, what a write to CMD does, and NOP. -/

namespace Sys2Proof.Machine

/-! ## Preconditions -/

/-- The codes a command can raise once its precondition holds (60_exceptions.md R300). -/
def errorsOf : Instr → List ErrCode
  | .bsWrbits _ | .bsRdbits _ => [.eWidth]
  | .hufCount => [.eFreqOvf]
  | .hufEncode => [.eHufSym, .eHufLen]
  | .lzwInit => [.eCfg]
  | .lzwDecode => [.eLzwCode]
  | .nop | .bsInit | .bsWrbit _ | .bsRdbit | .bsAlign | .bsEnd | .bsDrain | .hufInit | .hufRdhdr | .hufBuild
  | .hufCodes | .hufDecode | .hufGetfreq _ | .hufLookup _ _ | .lzwEncode => []

theorem eSeq_not_mem_errorsOf (i : Instr) : .eSeq ∉ errorsOf i := by cases i <;> simp [errorsOf]

/-- A command whose precondition is false only raises E_SEQ with its word (40_control.md R131, R132). -/
theorem runCommand_of_pre_false {i : Instr} {s : State} (h : preTable i s = false) :
    runCommand i s = .raise .eSeq s.curCmd s := by
  cases i with
  | hufCount | hufRdhdr | hufBuild | hufCodes | hufEncode | hufDecode | hufLookup | lzwEncode | lzwDecode =>
    exact checkPre_false h
  | _ => cases h

theorem checkWidth_raises {R : ErrCode → Prop} {w : BitVec 6} {s : State} {body : Run} (hw : R .eWidth)
    (h : RunRaises R body) : RunRaises R (checkWidth w s body) := by
  unfold checkWidth
  split
  · exact hw
  · exact h

theorem checkCodeWidth_raises {R : ErrCode → Prop} {s : State} {body : Run} (hn : R .eCfg)
    (h : RunRaises R body) : RunRaises R (checkCodeWidth s body) := by
  unfold checkCodeWidth
  dsimp only
  split
  · exact hn
  · exact h

theorem checkPre_raises_of_true {R : ErrCode → Prop} {pre : Bool} {s : State} {body : Run} (hp : pre = true)
    (h : RunRaises R body) : RunRaises R (checkPre pre s body) := by
  rw [checkPre_true hp]
  exact h

/-- A command whose precondition is true raises no code but its own. -/
theorem runCommand_raises_errorsOf {i : Instr} {s : State} (h : preTable i s = true) :
    RunRaises (· ∈ errorsOf i) (runCommand i s) := by
  cases i with
  | bsWrbits w => exact checkWidth_raises (.head _) trivial
  | bsRdbits w =>
    refine checkWidth_raises (.head _) ?_
    cases readBits (widthOperand w) s.bs <;> trivial
  | bsRdbit =>
    show RunRaises _ (runBsRdbit s)
    unfold runBsRdbit
    cases readBit s.bs <;> trivial
  | bsDrain =>
    show RunRaises _ (runBsDrain s)
    unfold runBsDrain
    cases drain s.bs <;> trivial
  | hufCount =>
    show RunRaises _ (runHufCount s)
    rw [runHufCount_eq]
    exact checkPre_raises_of_true h <|
      Loop.toRun_raises (countLoop_ends _ _ _ _ _ (countersKept_refl _ _)) (fun _ _ => trivial)
        fun _ _ _ _ hc => List.mem_singleton.2 hc.1
  | hufRdhdr =>
    show RunRaises _ (runHufRdhdr s)
    rw [runHufRdhdr_eq]
    refine checkPre_raises_of_true h <|
      Loop.toRun_raises (headerLoop_ends _ _ _ _ _ (countersKept_refl _ _)) ?_ fun _ _ _ _ hc => hc.elim
    rintro ⟨f, cut⟩ b
    cases cut <;> trivial
  | hufBuild | hufLookup => exact checkPre_raises_of_true h trivial
  | hufCodes =>
    refine checkPre_raises_of_true h ?_
    cases codeTable s.huf <;> trivial
  | hufEncode =>
    show RunRaises _ (runHufEncode s)
    rw [runHufEncode_eq]
    refine checkPre_raises_of_true h <|
      Loop.toRun_raises (encodeLoop_ends _ _ _ _ _) (fun k b => ?_) fun _ _ _ _ hc => ?_
    · unfold encodeDone
      split
      · exact .tail _ (.head _)
      · trivial
    · show _ ∈ [ErrCode.eHufSym, .eHufLen]
      simpa using hc
  | hufDecode =>
    show RunRaises _ (runHufDecode s)
    rw [runHufDecode_eq]
    refine checkPre_raises_of_true h <|
      Loop.toRun_raises (decodeLoop_ends _ _ _ _) (fun cut b => ?_) fun _ _ _ _ hc => hc.elim
    cases cut with
    | true => trivial
    | false =>
      rw [decodeDone]
      cases drain b <;> trivial
  | lzwInit => exact checkCodeWidth_raises (.head _) trivial
  | lzwEncode =>
    show RunRaises _ (runLzwEncode s)
    rw [runLzwEncode_eq]
    refine checkPre_raises_of_true h <|
      Loop.toRun_raises (lzwEncodeLoop_grown _ _ _) ?_ fun _ _ _ _ hc => hc.elim
    rintro ⟨p, z⟩ b
    cases p <;> trivial
  | lzwDecode =>
    show RunRaises _ (runLzwDecode s)
    rw [runLzwDecode_eq]
    exact checkPre_raises_of_true h <|
      Loop.toRun_raises (lzwDecodeLoop_grown _ _ _ (Nat.lt_succ_self _)) (fun _ _ => trivial)
        fun _ _ _ _ hc => List.mem_singleton.2 hc.1
  | nop | bsInit | bsWrbit | bsAlign | bsEnd | hufInit | hufGetfreq => trivial

/-- No command changes ERR before it completes or raises an error (40_control.md R131, 60_exceptions.md R310). -/
theorem runCommand_err (i : Instr) (s : State) :
    RunEnds (fun t => t.err = s.err) (fun t => t.err = s.err) (runCommand i s) :=
  (runCommand_frame i s).mono (fun _ h => by rw [h.kept]) (fun _ h => by rw [h.kept])

/-- A command whose precondition is true leaves the recorded error, or records one of its own. -/
theorem exec_err {i : Instr} {s t : State} (hp : preTable i s = true) (h : exec i s = .next t) :
    t.err = s.err ∨ t.err ∈ errorsOf i := by
  rw [exec_eq_finish] at h
  rcases finish_next h (runCommand_err i s) (runCommand_raises_errorsOf hp) with
    rfl | ⟨u, hu, rfl⟩ | ⟨c, n, u, hc, _, rfl⟩
  · exact .inl rfl
  · exact .inl hu
  · exact .inr hc

/-- Settles O10: the check of the precondition raises E_SEQ, and no command has E_SEQ among its own errors. -/
theorem preconditionTable : Obligations.PreconditionTable := by
  unfold Obligations.PreconditionTable
  refine fun i s => ⟨fun hp => ?_, fun hp hs t h he => ?_⟩
  · rw [exec_eq_finish, runCommand_of_pre_false hp]
    rfl
  · rcases exec_err hp h with e | hmem
    · cases he.symm.trans (e.trans hs)
    · exact eSeq_not_mem_errorsOf i (he ▸ hmem)

/-! ## Accept -/

theorem acceptCommand_dropped {s : State} (h : s.busy = true ∨ s.err ≠ .none) (c : Word) :
    acceptCommand c s = dropCommand s := by
  unfold acceptCommand
  rcases h with hb | he
  · rw [if_pos hb]
  · rw [if_pos he, ite_self]

theorem acceptCommand_taken {s : State} (hb : s.busy = false) (he : s.err = .none) (c : Word) :
    acceptCommand c s = takeCommand c s := by
  simp [acceptCommand, hb, he]

/-- Settles O9: the write reaches CMD, which drops the word or takes it. -/
theorem commandAccept : Obligations.CommandAccept := by
  unfold Obligations.CommandAccept
  intro s c
  rw [hostStep_memWrite (by decide) rfl]
  show Host.Outcome.next (advance (acceptCommand c s)) = _
  split
  next h => rw [acceptCommand_dropped h]; rfl
  next h =>
    obtain ⟨hb, he⟩ := not_or.1 h
    rw [acceptCommand_taken (Bool.eq_false_of_not_eq_true hb) (not_not.1 he)]
    rfl

/-! ## NOP -/

/-- Settles O28: the word 0 is the encoder's for NOP, whose pseudocode changes nothing before it completes. -/
theorem nopOnlyCompletes : Obligations.NopOnlyCompletes := by
  unfold Obligations.NopOnlyCompletes
  exact ⟨decode_encode .nop, fun s => exec_eq_finish .nop s⟩

end Sys2Proof.Machine

/-! PROOF LAYER. The bit stream by itself: the output length and the round trip of the packer and the unpacker; initialisation,
single bits, Align, Finalize and Drain as commands; which commands put an End token. -/

namespace Sys2Proof.Machine

/-! ## Several writes and several reads -/

/-- The bit string of several (value, width) pairs, in order. -/
def pairsBits (ws : List (Nat × Nat)) : List Bool := ws.flatMap (fun p => natBits p.2 p.1)

theorem pairsBits_cons (p : Nat × Nat) (ws : List (Nat × Nat)) :
    pairsBits (p :: ws) = natBits p.2 p.1 ++ pairsBits ws := rfl

theorem pairsBits_length (ws : List (Nat × Nat)) : (pairsBits ws).length = (ws.map Prod.snd).sum := by
  simp [pairsBits, List.length_flatMap]

theorem writeAll_wrote (ws : List (Nat × Nat)) {b : Stream} (h : PackerOk b) : Wrote (pairsBits ws) b (writeAll ws b) := by
  induction ws generalizing b with
  | nil => exact wrote_refl b h
  | cons p ws ih =>
    have hw := writeBits_wrote p.1 p.2 b h
    exact hw.trans (ih hw.packerOk)

theorem inBits_took {n : Nat} {b b' : Stream} (h : Took n b b') : inBits b' = (inBits b).drop n := by
  obtain ⟨_, _, _, e, _⟩ := h
  exact e

/-- A number of at most `w` bits that comes next in the stream is what ReadBits(w) delivers (41_bitstream.md R142). -/
theorem readBits_natBits {w v : Nat} {b : Stream} {r : List Bool} (h : inBits b = natBits w v ++ r) :
    ∃ b', readBits w b = .ok (v % 2 ^ w) b' ∧ Took w b b' ∧ inBits b' = r := by
  obtain ⟨b', e, ht⟩ := readBits_ok (w := w) (b := b) (by simp [h])
  refine ⟨b', ?_, ht, ?_⟩
  · rw [e, h, List.take_left' (natBits_length w v), bitsToNat_natBits]
  · rw [inBits_took ht, h, List.drop_left' (natBits_length w v)]

/-- Numbers that come next in the stream are read one by one, each cut to its width. -/
theorem readAll_pairsBits (ws : List (Nat × Nat)) {b : Stream} {r : List Bool} (h : inBits b = pairsBits ws ++ r) :
    ∃ b', readAll (ws.map Prod.snd) b = .ok (ws.map (fun p => p.1 % 2 ^ p.2)) b' ∧ inBits b' = r ∧
      inClosed b' = inClosed b := by
  induction ws generalizing b with
  | nil => exact ⟨b, rfl, h, rfl⟩
  | cons p ws ih =>
    rw [pairsBits_cons, List.append_assoc] at h
    obtain ⟨b₁, e, ht, h₁⟩ := readBits_natBits h
    obtain ⟨b', e', h', hc⟩ := ih h₁
    refine ⟨b', ?_, h', hc.trans ht.inClosed⟩
    simp only [List.map_cons, readAll, e, e']

/-! ## The output of a packer -/

/-- From a byte boundary whole bytes hold the bits written and the padding. -/
theorem Closed.bytes {withEnd : Bool} {bits : List Bool} {b b' : Stream} (h : Closed withEnd bits b b') (h0 : b.wcnt = 0) :
    ∃ xs : List Byte, b'.out = b.out ++ xs.map .byte ++ (if withEnd then [.stop] else []) ∧
      bytesBits xs = bits ++ List.replicate (padding bits.length) false := by
  obtain ⟨xs, e, hb⟩ := h
  have hp : pendingBits b = [] := List.eq_nil_of_length_eq_zero (by rw [pendingBits_length, h0]; rfl)
  refine ⟨xs, by rw [e], ?_⟩
  rw [hb, hp, h0, List.nil_append]
  simp

/-- Settles O37: the bytes put hold the bits written and their padding. -/
theorem outputLength : Obligations.OutputLength := by
  unfold Obligations.OutputLength
  intro b ws hp h0
  obtain ⟨xs, ho, hb⟩ := (closed_align (writeAll_wrote ws hp)).bytes h0
  refine ⟨xs, by simpa using ho, ?_⟩
  have hl := congrArg List.length hb
  rw [bytesBits_length, List.length_append, List.length_replicate, pairsBits_length] at hl
  unfold padding at hl
  omega

/-- What a fresh unpacker can deliver from whole bytes and their End. -/
theorem inBits_freshStream (xs : List Byte) : inBits (freshStream (xs.map .byte ++ [.stop])) = bytesBits xs := by
  simp [inBits, freshStream, Stream.reset, unreadBits, natBits, leadingBytes_bytes_append, leadingBytes]

theorem inClosed_freshStream (xs : List Byte) : inClosed (freshStream (xs.map .byte ++ [.stop])) = true := by
  simp [inClosed, freshStream]

theorem bitsToNat_replicate_false (n : Nat) : bitsToNat (List.replicate n false) = 0 := by
  induction n with
  | zero => rfl
  | succ n ih => rw [List.replicate_succ, bitsToNat_cons, ih]; simp

/-- Settles O38: the output of the packer holds the bits written, then the padding, which is all that is left after the
reads. -/
theorem bitStreamRoundTrip : Obligations.BitStreamRoundTrip := by
  unfold Obligations.BitStreamRoundTrip
  intro ws
  have hp : PackerOk (freshStream []) := Nat.one_pos
  obtain ⟨xs, ho, hb⟩ := (closed_finalize (writeAll_wrote ws hp)).bytes rfl
  rw [show (freshStream []).out = [] from rfl, List.nil_append, if_pos rfl] at ho
  rw [pairsBits_length] at hb
  rw [ho]
  obtain ⟨b, e, hr, hc⟩ := readAll_pairsBits ws ((inBits_freshStream xs).trans hb)
  rw [inClosed_freshStream] at hc
  refine ⟨b, e, fun w hw => ?_, fun w hw => ?_⟩
  · obtain ⟨b', _, _, e'⟩ := readBits_end (w := w) (b := b) (by simpa [hr] using hw)
    exact ⟨atEnd b', by rw [e', if_pos hc]⟩
  · obtain ⟨b', e', _⟩ := readBits_ok (w := w) (b := b) (by simpa [hr] using hw)
    exact ⟨b', by rw [e', hr, List.take_replicate, bitsToNat_replicate_false]⟩

/-! ## Initialisation -/

/-- Settles O30: the pseudocode of both commands, field by field. -/
theorem streamAndHuffmanInit : Obligations.StreamAndHuffmanInit := by
  unfold Obligations.StreamAndHuffmanInit
  exact fun s => ⟨exec_eq_finish .bsInit s, Vector.replicate 256 0, symGet_replicate 0, exec_eq_finish .hufInit s⟩

/-! ## Single bits -/

theorem exec_bsRdbit_eq (s : State) : exec .bsRdbit s =
    ((readBit s.bs).toRun (fun r b => .ok ((s.withBs b).withResult (BitVec.ofNat 32 r.toNat)))
      (fun b => .ok ((s.withBs b).withResult 0))).finish s := by
  rw [exec_eq_finish, ← runBsRdbit_eq]
  rfl

/-- With no bit left, taking none and meeting the End is `ReachedEnd`. -/
theorem reachedEnd_atEnd {b : Stream} (h : inBits b = []) (hc : inClosed b = true) : ReachedEnd b (atEnd b) :=
  reachedEnd_of_took (by rw [h]; exact took_refl b) hc

/-- Settles O34: WriteBit, and ReadBit with a bit at hand, at the End, and waiting. -/
theorem bsSingleBits : Obligations.BsSingleBits := by
  unfold Obligations.BsSingleBits
  refine fun s => ⟨fun r hp => ⟨_, writeBit_wrote r _ hp, exec_eq_finish (.bsWrbit r) s⟩, fun x rest hi => ?_,
    fun hi hc => ⟨_, reachedEnd_atEnd hi hc, ?_⟩, fun hi hc => ?_⟩
  · obtain ⟨b, e, _, ht⟩ := readBit_ok hi
    refine ⟨b, ht, ?_⟩
    rw [exec_bsRdbit_eq, e]
    cases x <;> rfl
  · rw [exec_bsRdbit_eq, readBit_end hi, if_pos hc]
    rfl
  · rw [exec_bsRdbit_eq, readBit_end hi, if_neg (by rw [hc]; nofun)]
    rfl

/-! ## Align, Finalize and Drain -/

theorem align_of_wcnt_zero {b : Stream} (h : b.wcnt = 0) : align b = b := by
  rw [align_eq, h]
  rfl

/-- Settles O35: Align and Finalize after no further write. -/
theorem bsAlignAndEnd : Obligations.BsAlignAndEnd := by
  unfold Obligations.BsAlignAndEnd
  refine fun s hp => ⟨⟨_, closed_align (wrote_refl _ hp), exec_eq_finish .bsAlign s⟩,
    ⟨_, closed_finalize (wrote_refl _ hp), exec_eq_finish .bsEnd s⟩, fun h0 => ?_⟩
  rw [exec_eq_finish]
  show Host.Outcome.next (complete (s.withBs (align s.bs))) = _
  rw [align_of_wcnt_zero h0]
  rfl

theorem exec_bsDrain_eq (s : State) : exec .bsDrain s =
    ((drain s.bs).toRun (fun _ b => .ok (s.withBs b)) (fun b => .ok (s.withBs b))).finish s := by
  rw [exec_eq_finish, ← runBsDrain_eq]
  rfl

/-- Drain takes the bytes of the stream and its End (41_bitstream.md R149). -/
theorem drain_bytes_stop {b : Stream} {xs : List Byte} {rest : List Token} (he : b.eodf = false)
    (hi : b.inp = xs.map .byte ++ .stop :: rest) :
    drain b = .ok () { b with inp := rest, rcnt := 0, eodf := true, cntIn := b.cntIn + BitVec.ofNat 32 xs.length } := by
  unfold drain
  rw [he, if_neg nofun, drainFrom_eq, hi, if_pos (by simp), dropWhile_bytes_append, leadingBytes_bytes_append]
  simp [leadingBytes]

/-- Settles O36: Drain after the End, up to it, and waiting for it. -/
theorem bsDrain : Obligations.BsDrain := by
  unfold Obligations.BsDrain
  refine fun s => ⟨fun he => ?_, fun xs rest he hi => ?_, fun xs he hi => ?_⟩
  · rw [exec_bsDrain_eq, drain, if_pos he]
    rfl
  · rw [exec_bsDrain_eq, drain_bytes_stop he hi]
    rfl
  · obtain ⟨b, e⟩ := (drain_eq s.bs).2 (by simp [inClosed, he, hi])
    rw [exec_bsDrain_eq, e]
    rfl

/-! ## End tokens -/

theorem stop_not_mem_bytes (xs : List Byte) : Token.stop ∉ xs.map Token.byte := by simp

/-- What `Moved` puts on OUT is data bytes. -/
theorem Moved.stop_not_mem {b b' : Stream} (h : Moved b b') {put : List Token} (ho : b'.out = b.out ++ put) : .stop ∉ put := by
  obtain ⟨xs, e, _⟩ := h.out
  rw [List.append_cancel_left (ho.symm.trans e)]
  exact stop_not_mem_bytes xs

/-- A command that completes with an error has put data bytes only (60_exceptions.md R312). -/
theorem exec_raised_moved {i : Instr} {s t : State} (hs : s.err = .none) (h : exec i s = .next t) (ht : t.err ≠ .none) :
    Moved s.bs t.bs := by
  have hr := (runCommand_err i s).and (runCommand_bs i s)
  rcases exec_next h hr with rfl | ⟨u, hu, rfl⟩ | ⟨_, _, u, _, hu, rfl⟩
  · exact absurd hs ht
  · exact absurd (hu.1.trans hs) ht
  · exact hu.2

/-- Finalize puts data bytes and one End. -/
theorem finalize_out {b b' : Stream} (h : Moved b b') {put : List Token} (ho : (finalize b').out = b.out ++ put) :
    ∃ xs : List Byte, put = xs.map .byte ++ [.stop] := by
  obtain ⟨xs, e, _⟩ := (h.trans (align_moved b')).out
  refine ⟨xs, List.append_cancel_left (as := b.out) ?_⟩
  rw [← ho, ← List.append_assoc, ← e]
  rfl

/-- A command that starts a stream does not end its output (41_bitstream.md R146, R148). -/
theorem endsOutput_of_startsStream {i : Instr} (h : startsStream i = true) : endsOutput i = false ∧ i ≠ .hufRdhdr := by
  cases i with
  | bsInit | hufInit | lzwInit => exact ⟨rfl, nofun⟩
  | _ => cases h

/-- Settles O15: an error leaves data bytes only, and a completion what `BsAfter` says. -/
theorem endTokens : Obligations.EndTokens := by
  unfold Obligations.EndTokens
  intro i s t put hb hs h ht ho
  have hdone : t.err = .none → BsAfter i s t := fun he => by
    obtain ⟨u, hu, rfl⟩ := exec_completed h (runCommand_bs i s) hb ht he
    exact hu
  refine ⟨fun he => (exec_raised_moved hs h he).stop_not_mem ho, fun he hend => ?_, fun he hne hnr => ?_⟩
  · rcases hdone he with ⟨hi, _⟩ | ⟨_, _, b, hm, e⟩ | ⟨_, hne, hnr, _⟩
    · obtain ⟨hne, hnr⟩ := endsOutput_of_startsStream hi
      rw [hne] at hend
      exact absurd (hend.resolve_left nofun).1 hnr
    · exact finalize_out hm (e ▸ ho)
    · rw [hne] at hend
      exact absurd (hend.resolve_left nofun) hnr
  · rcases hdone he with ⟨_, e⟩ | ⟨_, hend, _⟩ | ⟨_, _, _, hm⟩
    · have : put = [] := by simpa [e] using ho
      simp [this]
    · rw [hne] at hend
      exact absurd (hend.resolve_left nofun) hnr
    · exact hm.stop_not_mem ho

end Sys2Proof.Machine

/-! PROOF LAYER. Jobs over the bit stream: HUF_RDHDR and its fields, and HUF_ENCODE, LZW_ENCODE and LZW_DECODE, each by what its
loop has read and written once it has turned over a part of the input. -/

namespace Sys2Proof.Machine

/-! ## HUF_RDHDR -/

theorem exec_hufRdhdr_idle {s : State} (h : s.huf.hstate = .idle) :
    exec .hufRdhdr s =
      ((headerLoop s.params.freqW allSymbols s.huf.freq (rdRestart s.bs)).toRun (headerDone s) (raiseKept s)).finish s := by
  rw [exec_eq_finish]
  show (runHufRdhdr s).finish s = _
  rw [runHufRdhdr_eq, checkPre_true (by simp [h])]

/-- Fields are loaded in the order of the symbols, and the other counters are kept. -/
theorem symGet_loadAll (w : Nat) {cs : List Byte} (hn : cs.Nodup) (bits : List Bool) (f : Vector Nat 256) (c : Byte) :
    symGet (loadAll w cs bits f) c =
      if c ∈ cs then bitsToNat ((bits.drop (cs.idxOf c * w)).take w) else symGet f c := by
  induction cs generalizing bits f with
  | nil => rfl
  | cons d cs ih =>
    obtain ⟨hd, hn⟩ := List.nodup_cons.1 hn
    rw [loadAll, ih hn, symGet_symSet]
    by_cases h : d = c
    · subst h
      simp [hd]
    · simp only [List.mem_cons, Ne.symm h, false_or, if_neg h, List.idxOf_cons_ne _ h, List.drop_drop]
      rw [Nat.succ_mul, Nat.add_comm w]

theorem allSymbols_idxOf (c : Byte) : allSymbols.idxOf c = c.toNat := by
  have h : c.toNat < allSymbols.length := by rw [allSymbols_length]; exact c.isLt
  have := allSymbols_nodup.idxOf_getElem c.toNat h
  rwa [allSymbols_getElem, byte_ofNat_toNat] at this

/-- The first `n` fields, loaded, are the counters of the symbols below `n` (42_huffman.md R182, R183). -/
theorem symGet_loadAll_take (w n : Nat) (bits : List Bool) (f : Vector Nat 256) (c : Byte) :
    symGet (loadAll w (allSymbols.take n) bits f) c =
      if c.toNat < n then bitsToNat ((bits.drop (c.toNat * w)).take w) else symGet f c := by
  have hmem : c ∈ allSymbols.take n ↔ c.toNat < n := by
    rw [List.mem_take_iff_idxOf_lt (mem_allSymbols c), allSymbols_idxOf]
  rw [symGet_loadAll w (allSymbols_nodup.sublist (List.take_sublist _ _))]
  by_cases h : c.toNat < n
  · rw [if_pos h, if_pos (hmem.2 h), (List.take_prefix n _).idxOf_eq_of_mem (hmem.2 h), allSymbols_idxOf]
  · rw [if_neg h, if_neg (mt hmem.1 h)]

theorem symGet_loadAll_allSymbols (w : Nat) (bits : List Bool) (f : Vector Nat 256) (c : Byte) :
    symGet (loadAll w allSymbols bits f) c = bitsToNat ((bits.drop (c.toNat * w)).take w) := by
  rw [symGet_loadAll w allSymbols_nodup, if_pos (mem_allSymbols c), allSymbols_idxOf]

theorem ReachedEnd.packerOk {b b' : Stream} (h : ReachedEnd b b') (hp : PackerOk b) : PackerOk b' := by
  rw [h]
  exact hp

/-- Settles O40: the loop over a whole header, a truncated one, and one whose rest has not come. -/
theorem hufRdhdr : Obligations.HufRdhdr := by
  unfold Obligations.HufRdhdr
  intro s hs hp
  have hlen : allSymbols.length * s.params.freqW = 256 * s.params.freqW := by rw [allSymbols_length]
  refine ⟨fun hn => ?_, fun hn hc => ?_, fun hn hc => ?_⟩
  · obtain ⟨b, e, ht⟩ := headerLoop_full _ _ s.huf.freq _ (hlen.trans_le hn)
    refine ⟨b, loadAll s.params.freqW allSymbols (inBits (rdRestart s.bs)) s.huf.freq, hlen ▸ ht,
      symGet_loadAll_allSymbols _ _ _, ?_⟩
    rw [exec_hufRdhdr_idle hs, e, ← freqSum_eq]
    rfl
  · obtain ⟨b, ht, _, e⟩ := headerLoop_short _ _ s.huf.freq _ (hn.trans_eq hlen.symm)
    have hr := reachedEnd_of_took ht hc
    refine ⟨atEnd b, _, loadAll s.params.freqW (allSymbols.take ((inBits (rdRestart s.bs)).length / s.params.freqW))
      (inBits (rdRestart s.bs)) s.huf.freq, hr, closed_finalize (wrote_refl _ (hr.packerOk hp)), fun c => ?_, ?_⟩
    · simp only [symGet_loadAll_take, Nat.lt_iff_add_one_le,
        Nat.le_div_iff_mul_le (show 0 < s.params.freqW from Nat.succ_pos _)]
    · rw [exec_hufRdhdr_idle hs, e, if_pos hc, ← freqSum_eq]
      rfl
  · obtain ⟨b, _, _, e⟩ := headerLoop_short _ _ s.huf.freq _ (hn.trans_eq hlen.symm)
    rw [exec_hufRdhdr_idle hs, e, if_neg (by rw [hc]; nofun)]
    rfl

/-! ## Reads of whole bytes beside writes -/

/-- The restarted unpacker has read no byte yet (41_bitstream.md R147). -/
theorem rdRestart_eq_tookBytes (b : Stream) : rdRestart b = tookBytes [] false b.inp b := by simp [rdRestart, tookBytes]

theorem readBits_took_byte (rs : List Bool) (xs : List Byte) (c : Byte) (ts : List Token) (b : Stream) :
    readBits 8 (writeBools rs (tookBytes xs false (.byte c :: ts) b)) =
      .ok c.toNat (writeBools rs (tookBytes (xs ++ [c]) false ts b)) := by
  rw [readBits_writeBools, readBits_byte (b := tookBytes xs false (.byte c :: ts) b) rfl rfl rfl, Rd.mapStream]
  simp [tookBytes, BitVec.ofNat_add, BitVec.add_assoc]

theorem readBits_took_stop (rs : List Bool) (xs : List Byte) (ts : List Token) (b : Stream) :
    readBits 8 (writeBools rs (tookBytes xs false (.stop :: ts) b)) = .eod (writeBools rs (tookBytes xs true ts b)) := by
  rw [readBits_writeBools, readBits_stop (b := tookBytes xs false (.stop :: ts) b) rfl rfl rfl]
  rfl

/-- With no token left the reader waits (20_memory.md R76). -/
theorem readBits_took_nil (rs : List Bool) (xs : List Byte) (b : Stream) :
    ∃ b', readBits 8 (writeBools rs (tookBytes xs false [] b)) = .wait b' := by
  have h : inBits (tookBytes xs false [] b) = [] := by simp [inBits, tookBytes, unreadBits, natBits, leadingBytes]
  obtain ⟨b', _, _, e⟩ := readBits_end (w := 8) (b := tookBytes xs false [] b) (by rw [h]; simp)
  refine ⟨writeBools rs b', ?_⟩
  rw [readBits_writeBools, e, if_neg (by simp [inClosed, tookBytes])]
  rfl

/-- The turns of a loop over the tokens of IN, those of the bytes before it first. -/
theorem turns_eq {b : Stream} {xs : List Byte} {ts : List Token} (h : b.inp = xs.map .byte ++ ts) :
    ∃ n, available (rdRestart b) + 1 = xs.length + (n + 1) :=
  ⟨available (rdRestart b) - xs.length, by have := length_le_available_rdRestart h; omega⟩

/-! ## HUF_ENCODE -/

/-- The header is the bits of the counters (42_huffman.md R183). -/
theorem writeHeader_eq (w : Nat) (f : Vector Nat 256) (b : Stream) : writeHeader w f b = writeBools (headerBits w f) b := by
  unfold writeHeader headerBits
  generalize allSymbols = cs
  induction cs generalizing b with
  | nil => rfl
  | cons c cs ih => rw [List.foldl_cons, ih, writeBits_eq_writeBools, List.flatMap_cons, writeBools_append]

/-- The loop over bytes that have codes, up to TOTAL (R210). -/
theorem encodeLoop_bytes (code : Vector (List Bool) 256) (total n : Nat) (ys : List Byte) (k : Nat) (rs : List Bool)
    (xs : List Byte) (ts : List Token) (b : Stream) (hc : ∀ y ∈ ys, symGet code y ≠ []) (hk : k + ys.length ≤ total) :
    encodeLoop code total (ys.length + n) k (writeBools rs (tookBytes xs false (ys.map .byte ++ ts) b)) =
      encodeLoop code total n (k + ys.length)
        (writeBools (rs ++ ys.flatMap (symGet code)) (tookBytes (xs ++ ys) false ts b)) := by
  induction ys generalizing k rs xs with
  | nil => simp
  | cons y ys ih =>
    rw [List.length_cons] at hk
    have hy : (symGet code y).length ≠ 0 := fun h => hc y List.mem_cons_self (List.eq_nil_of_length_eq_zero h)
    rw [List.length_cons, Nat.add_right_comm, encodeLoop, List.map_cons, List.cons_append, readBits_took_byte]
    simp only [byte_ofNat_toNat]
    rw [if_neg hy, if_neg (by omega), ← writeBools_append,
      ih _ _ _ (fun c h => hc c (List.mem_cons_of_mem _ h)) (by omega)]
    simp [Nat.add_comm 1, Nat.add_assoc]

/-- HUF_ENCODE once it has written the header and the codes of the bytes `xs` (R210). -/
theorem exec_hufEncode_bytes {s : State} {xs : List Byte} {ts : List Token} (hs : s.huf.hstate = .codes)
    (hm : s.huf.hmode = .encode) (hc : ∀ x ∈ xs, symGet s.huf.code x ≠ []) (hl : xs.length ≤ s.huf.total)
    (hi : s.bs.inp = xs.map .byte ++ ts) :
    ∃ n, exec .hufEncode s =
      ((encodeLoop s.huf.code s.huf.total (n + 1) xs.length
        (writeBools (headerBits s.params.freqW s.huf.freq ++ xs.flatMap (symGet s.huf.code))
          (tookBytes xs false ts s.bs))).toRun (encodeDone s) (encodeRaise s)).finish s := by
  obtain ⟨n, hn⟩ := turns_eq hi
  refine ⟨n, ?_⟩
  rw [exec_eq_finish]
  show (runHufEncode s).finish s = _
  rw [runHufEncode_eq, checkPre_true (by simp [hs, hm]), writeHeader_eq, available_writeBools, hn, rdRestart_eq_tookBytes, hi,
    encodeLoop_bytes _ _ _ xs 0 _ [] ts _ hc (by omega), Nat.zero_add, List.nil_append]

/-- Settles O46: after the bytes `xs` the loop meets the End, a byte without a code, a byte too many, or waits. -/
theorem hufEncode : Obligations.HufEncode := by
  unfold Obligations.HufEncode
  intro s xs hs hm hp hc hl
  have hw : ∀ (bits : List Bool) (ys : List Byte) (ended : Bool) (ts : List Token),
      Wrote bits (tookBytes ys ended ts s.bs) (writeBools bits (tookBytes ys ended ts s.bs)) :=
    fun bits ys ended ts => writeBools_wrote bits _ hp
  have hrun := fun ts => exec_hufEncode_bytes (ts := ts) hs hm hc hl
  refine ⟨fun rest hi ht => ?_, fun rest hi ht => ?_, fun c rest hi h0 => ?_, fun c rest hi h0 ht => ?_, fun hi => ?_⟩
  · obtain ⟨n, e⟩ := hrun _ hi
    refine ⟨_, closed_finalize (hw _ _ _ _), ?_⟩
    rw [e, encodeLoop, readBits_took_stop]
    simp only [Loop.toRun, encodeDone]
    rw [if_neg (not_not.2 ht)]
    rfl
  · obtain ⟨n, e⟩ := hrun _ hi
    refine ⟨_, hw _ _ _ _, ?_⟩
    rw [e, encodeLoop, readBits_took_stop]
    simp only [Loop.toRun, encodeDone]
    rw [if_pos (Nat.ne_of_lt ht)]
    rfl
  · obtain ⟨n, e⟩ := hrun _ hi
    refine ⟨_, hw _ _ _ _, ?_⟩
    rw [e, encodeLoop, readBits_took_byte]
    simp only [byte_ofNat_toNat]
    rw [if_pos (by rw [h0]; rfl)]
    rfl
  · obtain ⟨n, e⟩ := hrun _ hi
    refine ⟨_, hw _ _ _ _, ?_⟩
    rw [e, encodeLoop, readBits_took_byte]
    simp only [byte_ofNat_toNat]
    rw [if_neg (mt List.eq_nil_of_length_eq_zero h0), if_pos ht, ht]
    rfl
  · obtain ⟨n, e⟩ := hrun [] (by rw [hi, List.append_nil])
    obtain ⟨b, e'⟩ := readBits_took_nil (headerBits s.params.freqW s.huf.freq ++ xs.flatMap (symGet s.huf.code)) xs s.bs
    rw [e, encodeLoop, e']
    rfl

/-! ## LZW_ENCODE -/

@[simp] theorem codesBits_nil (w : Nat) : codesBits w [] = [] := rfl

@[simp] theorem codesBits_cons (w k : Nat) (ks : List Nat) : codesBits w (k :: ks) = natBits w k ++ codesBits w ks := rfl

@[simp] theorem codesBits_append (w : Nat) (ks ls : List Nat) : codesBits w (ks ++ ls) = codesBits w ks ++ codesBits w ls :=
  List.flatMap_append

@[simp] theorem codesBits_length (w : Nat) (ks : List Nat) : (codesBits w ks).length = w * ks.length := by
  induction ks with
  | nil => rfl
  | cons k ks ih => rw [codesBits_cons, List.length_append, natBits_length, ih, List.length_cons]; ring

/-- The loop over bytes: it emits the codes of the spelling but for the last, `q'`, which is still open (43_lzw.md
R250). -/
theorem lzwEncodeLoop_bytes (n : Nat) (ys : List Byte) (q : Option Nat) (z : Lzw) (rs : List Bool) (xs : List Byte)
    (ts : List Token) (b : Stream) :
    ∃ ks q' z', z'.ln = z.ln ∧ lzwSpell q z ys = (ks ++ q'.toList, z') ∧
      lzwEncodeLoop (ys.length + n) q z (writeBools rs (tookBytes xs false (ys.map .byte ++ ts) b)) =
        lzwEncodeLoop n q' z' (writeBools (rs ++ codesBits z.ln.toNat ks) (tookBytes (xs ++ ys) false ts b)) := by
  induction ys generalizing q z rs xs with
  | nil => exact ⟨[], q, z, rfl, by cases q <;> rfl, by simp⟩
  | cons y ys ih =>
    have key : ∀ q₁ z₁ rs₁, ∃ ks q' z', z'.ln = z₁.ln ∧ lzwSpell q₁ z₁ ys = (ks ++ q'.toList, z') ∧
        lzwEncodeLoop (ys.length + n) q₁ z₁ (writeBools rs₁ (tookBytes (xs ++ [y]) false (ys.map .byte ++ ts) b)) =
          lzwEncodeLoop n q' z' (writeBools (rs₁ ++ codesBits z₁.ln.toNat ks) (tookBytes (xs ++ y :: ys) false ts b)) :=
      fun q₁ z₁ rs₁ => by simpa using ih q₁ z₁ rs₁ (xs ++ [y])
    rw [List.length_cons, Nat.add_right_comm, lzwEncodeLoop, List.map_cons, List.cons_append, readBits_took_byte]
    simp only [byte_ofNat_toNat]
    cases q with
    | none => exact key (some y.toNat) z rs
    | some p =>
      cases hf : findEntry p y z with
      | some k => simpa only [lzwSpell, hf] using key (some k) z rs
      | none =>
        obtain ⟨ks, q', z', hln, hsp, hlp⟩ := key (some y.toNat) (lzwInsert p y z) (rs ++ natBits z.ln.toNat p)
        rw [(lzwInsert_kept p y z).1] at hln hlp
        refine ⟨p :: ks, q', z', hln, ?_, ?_⟩
        · simp only [lzwSpell, hf, hsp, List.cons_append]
        · simp only [hf, emitCode, writeBits_eq_writeBools, ← writeBools_append, hlp, codesBits_cons, List.append_assoc]

/-- What LZW_ENCODE makes of the End: the code still open, where there is one (R250). -/
theorem lzwEncodeDone_eq (s : State) (q : Option Nat) (z : Lzw) (b : Stream) :
    lzwEncodeDone s (q, z) b =
      .ok ((s.withBs (finalize (writeBools (codesBits z.ln.toNat q.toList) b))).withLzw { z with lstate := .done }) := by
  cases q with
  | none => rfl
  | some p => simp [lzwEncodeDone, emitCode, writeBits_eq_writeBools]

/-- LZW_ENCODE once it has read the bytes `xs` (R250). -/
theorem exec_lzwEncode_bytes {s : State} {xs : List Byte} {ts : List Token} (hs : s.lzw.lstate = .ready)
    (hi : s.bs.inp = xs.map .byte ++ ts) :
    ∃ n ks q z, z.ln = s.lzw.ln ∧ lzwSpell none s.lzw xs = (ks ++ q.toList, z) ∧
      exec .lzwEncode s = ((lzwEncodeLoop (n + 1) q z (writeBools (codesBits s.lzw.ln.toNat ks)
        (tookBytes xs false ts s.bs))).toRun (lzwEncodeDone s) (raiseKept s)).finish s := by
  obtain ⟨n, hn⟩ := turns_eq hi
  obtain ⟨ks, q, z, hln, hsp, hlp⟩ := lzwEncodeLoop_bytes (n + 1) xs none s.lzw [] [] ts s.bs
  refine ⟨n, ks, q, z, hln, hsp, ?_⟩
  rw [exec_eq_finish]
  show (runLzwEncode s).finish s = _
  rw [runLzwEncode_eq, checkPre_true (by simp [hs]), hn, rdRestart_eq_tookBytes, hi]
  exact congrArg (fun l => (Loop.toRun l (lzwEncodeDone s) (raiseKept s)).finish s) hlp

/-- Settles O51: the loop over the bytes, then the End with the code still open, or the wait. -/
theorem lzwEncode : Obligations.LzwEncode := by
  unfold Obligations.LzwEncode
  refine fun s xs hs hp => ⟨fun rest hi => ?_, fun hi => ?_⟩
  · obtain ⟨n, ks, q, z, hln, hsp, e⟩ := exec_lzwEncode_bytes hs hi
    refine ⟨_, closed_finalize (writeBools_wrote _ _ hp), ?_⟩
    rw [e, lzwEncodeLoop, readBits_took_stop, hsp]
    simp only [Loop.toRun, lzwEncodeDone_eq, hln, ← writeBools_append, ← codesBits_append]
    rfl
  · obtain ⟨n, ks, q, z, _, _, e⟩ := exec_lzwEncode_bytes (ts := []) hs (by rw [hi, List.append_nil])
    obtain ⟨b, e'⟩ := readBits_took_nil (codesBits s.lzw.ln.toNat ks) xs s.bs
    rw [e, lzwEncodeLoop, e']
    rfl

/-! ## LZW_DECODE -/

theorem exec_lzwDecode_ready {s : State} (h : s.lzw.lstate = .ready) :
    exec .lzwDecode s =
      ((lzwDecodeLoop (available (rdRestart s.bs) + 1) none s.lzw (rdRestart s.bs)).toRun
        (lzwDecodeDone s) (lzwDecodeRaise s)).finish s := by
  rw [exec_eq_finish]
  show (runLzwDecode s).finish s = _
  rw [runLzwDecode_eq, checkPre_true (by simp [h])]

theorem writeSymbols_eq (cs : List Byte) (b : Stream) : writeSymbols cs b = writeBools (bytesBits cs) b := by
  induction cs generalizing b with
  | nil => rfl
  | cons c cs ih => rw [writeSymbols, ih, writeBits_eq_writeBools, bytesBits_cons, writeBools_append]; rfl

/-- The loop over codes that resolve: their bytes are written and their bits taken (43_lzw.md R253). -/
theorem lzwDecodeLoop_codes (n : Nat) (ks : List Nat) (pk : Option Nat) (z : Lzw) (rs : List Bool) (b : Stream)
    {ys : List Byte} {z' : Lzw} {r : List Bool} (hk : ∀ k ∈ ks, k < 2 ^ z.ln.toNat) (hr : lzwRead pk z ks = some (ys, z'))
    (hb : inBits b = codesBits z.ln.toNat ks ++ r) :
    ∃ b', Took (z.ln.toNat * ks.length) b b' ∧ inBits b' = r ∧ z'.ln = z.ln ∧
      lzwDecodeLoop (ks.length + n) pk z (writeBools rs b) =
        lzwDecodeLoop n (ks.getLast?.or pk) z' (writeBools (rs ++ bytesBits ys) b') := by
  induction ks generalizing pk z rs b ys with
  | nil =>
    obtain ⟨rfl, rfl⟩ : [] = ys ∧ z = z' := by simpa [lzwRead] using hr
    exact ⟨b, by simpa using took_refl b, hb, rfl, by simp⟩
  | cons k ks ih =>
    rw [codesBits_cons, List.append_assoc] at hb
    obtain ⟨b₁, e, ht, hb₁⟩ := readBits_natBits hb
    rw [Nat.mod_eq_of_lt (hk k List.mem_cons_self)] at e
    cases hc : resolveCode pk z k with
    | unresolved => simp [lzwRead, hc] at hr
    | broken => simp [lzwRead, hc] at hr
    | bytes cur =>
      simp only [lzwRead, hc, Option.map_eq_some_iff, Prod.mk.injEq] at hr
      obtain ⟨⟨ys', _⟩, hr, rfl, rfl⟩ := hr
      have hln := (insertAfter_kept pk cur z).1
      obtain ⟨b', ht', hb', hln', hlp⟩ := ih (some k) (insertAfter pk cur z) (rs ++ bytesBits cur) b₁
        (fun j hj => by rw [hln]; exact hk j (List.mem_cons_of_mem _ hj)) hr (by rw [hln]; exact hb₁)
      rw [hln] at ht' hln'
      refine ⟨b', ?_, hb', hln', ?_⟩
      · rw [List.length_cons, Nat.mul_succ, Nat.add_comm]
        exact ht.trans ht'
      · rw [List.length_cons, Nat.add_right_comm, lzwDecodeLoop, readBits_writeBools, e]
        simp only [Rd.mapStream, hc, writeSymbols_eq, ← writeBools_append, hlp]
        simp [List.getLast?_cons]

/-- LZW_DECODE once it has read the codes `ks`, with a turn left for what comes after them (R253). -/
theorem exec_lzwDecode_codes {s : State} {ks : List Nat} {ys : List Byte} {z : Lzw} {r : List Bool}
    (hs : s.lzw.lstate = .ready) (h0 : 0 < s.lzw.ln.toNat) (hk : ∀ k ∈ ks, k < 2 ^ s.lzw.ln.toNat)
    (hr : lzwRead none s.lzw ks = some (ys, z)) (hb : inBits (rdRestart s.bs) = codesBits s.lzw.ln.toNat ks ++ r) :
    ∃ n b, Took (s.lzw.ln.toNat * ks.length) (rdRestart s.bs) b ∧ inBits b = r ∧ z.ln = s.lzw.ln ∧
      exec .lzwDecode s = ((lzwDecodeLoop (n + 1) ks.getLast? z (writeBools (bytesBits ys) b)).toRun
        (lzwDecodeDone s) (lzwDecodeRaise s)).finish s := by
  have hturns : ks.length ≤ available (rdRestart s.bs) := by
    obtain ⟨b, ⟨_, _, _, _, ha, _⟩, _⟩ := lzwDecodeLoop_codes 0 ks none s.lzw [] _ hk hr hb
    have := Nat.le_mul_of_pos_left ks.length h0
    omega
  obtain ⟨n, hn⟩ : ∃ n, available (rdRestart s.bs) + 1 = ks.length + (n + 1) :=
    ⟨available (rdRestart s.bs) - ks.length, by omega⟩
  obtain ⟨b, ht, hb', hln, hlp⟩ := lzwDecodeLoop_codes (n + 1) ks none s.lzw [] _ hk hr hb
  rw [Option.or_none] at hlp
  refine ⟨n, b, ht, hb', hln, ?_⟩
  rw [exec_lzwDecode_ready hs, hn]
  exact congrArg (fun l => (Loop.toRun l (lzwDecodeDone s) (lzwDecodeRaise s)).finish s) hlp

theorem Took.packerOk {n : Nat} {b b' : Stream} (h : Took n b b') (hp : PackerOk b) : PackerOk b' := by
  obtain ⟨_, _, e, _⟩ := h
  rw [e]
  exact hp

/-- What comes after codes that resolve, where it is too short for a code (R253). -/
theorem exec_lzwDecode_short {s : State} {ks : List Nat} {ys : List Byte} {z : Lzw} {r : List Bool}
    (hs : s.lzw.lstate = .ready) (h0 : 0 < s.lzw.ln.toNat) (hk : ∀ k ∈ ks, k < 2 ^ s.lzw.ln.toNat)
    (hr : lzwRead none s.lzw ks = some (ys, z)) (hb : inBits (rdRestart s.bs) = codesBits s.lzw.ln.toNat ks ++ r)
    (hl : r.length < s.lzw.ln.toNat) :
    ∃ b, Took (inBits (rdRestart s.bs)).length (rdRestart s.bs) b ∧
      exec .lzwDecode s =
        if inClosed (rdRestart s.bs) then (lzwDecodeDone s z (writeBools (bytesBits ys) (atEnd b))).finish s else .next s := by
  obtain ⟨n, b, ht, hb', hln, e⟩ := exec_lzwDecode_codes hs h0 hk hr hb
  obtain ⟨b', ht', _, e'⟩ := readBits_end (w := z.ln.toNat) (b := b) (by rw [hb', hln]; exact hl)
  refine ⟨b', ?_, ?_⟩
  · have := ht.trans ht'
    rwa [hb', ← codesBits_length, ← List.length_append, ← hb] at this
  · rw [e, lzwDecodeLoop, readBits_writeBools, e', ht.inClosed]
    cases inClosed (rdRestart s.bs) <;> rfl

/-- Settles O54: after the codes that resolve comes the End, the wait, or a code that does not resolve. -/
theorem lzwDecode : Obligations.LzwDecode := by
  unfold Obligations.LzwDecode
  refine fun s ks ys z r hs hp h0 hk hr => ⟨fun hb hl => ?_, fun k hk' hb hc => ?_⟩
  · obtain ⟨b, ht, e⟩ := exec_lzwDecode_short hs h0 hk hr hb hl
    refine ⟨fun hcl => ?_, fun hcl => by rw [e, if_neg (by rw [hcl]; nofun)]⟩
    have hend := reachedEnd_of_took ht hcl
    refine ⟨_, _, hend, closed_finalize (writeBools_wrote (bytesBits ys) _ (hend.packerOk hp)), ?_⟩
    rw [e, if_pos hcl]
    rfl
  · rw [codesBits_append, List.append_assoc] at hb
    obtain ⟨n, b, ht, hb', hln, e⟩ := exec_lzwDecode_codes hs h0 hk hr hb
    rw [codesBits_cons, codesBits_nil, List.append_nil] at hb'
    obtain ⟨b', e', ht', _⟩ := readBits_natBits hb'
    rw [Nat.mod_eq_of_lt hk', ← hln] at e'
    have ht₁ := ht.trans ht'
    refine ⟨b', _, ht₁, writeBools_wrote (bytesBits ys) b' (ht₁.packerOk hp), ?_⟩
    rw [e, lzwDecodeLoop, readBits_writeBools, e']
    simp only [Rd.mapStream, hc]
    rfl

end Sys2Proof.Machine

/-! PROOF LAYER. The Huffman tree in the unit's memory: HUF_BUILD and HUF_CODES as equations, what `HoldsTree` says of a
memory that holds the tree of some counters, and the invariants of that tree. -/

namespace Sys2Proof.Machine

/-! ## HUF_BUILD -/

/-- The state after HUF_BUILD (42_huffman.md R190). -/
theorem exec_hufBuild_freq {s : State} (hs : s.huf.hstate = .freq) :
    exec .hufBuild s =
      .next (complete (s.withHuf (withTree { s.huf with hstate := .tree } (buildTree s.huf.freq)))) := by
  rw [exec_eq_finish, runCommand, runHufBuild, checkPre_true (by simp [hs])]
  rfl

section withTree
variable (h : Huf) (t : Tree)

theorem freqOf_withTree (i : Nat) : freqOf (withTree h t) i = freqIn t.nodes i := by
  unfold freqOf freqIn
  rw [nodeAt_withTree]

theorem inQueue_withTree (k j : Nat) : inQueue (withTree h t) k j ↔ waits t.nodes k j := by
  unfold inQueue waits
  simp only [nodeAt_withTree]

theorem idBefore_withTree (i j : Nat) : idBefore (withTree h t) i j ↔ placeBefore t.nodes i j := by
  unfold idBefore placeBefore
  simp only [freqOf_withTree]

end withTree

/-- The shape that a walk down the tree needs: every id has a node, and children come before their parent (42_huffman.md
R193). -/
def Descending (h : Huf) : Prop :=
  ∀ i, i < h.nnodes → (∃ x, nodeAt h i = some x) ∧ ∀ g l r, nodeAt h i = some (.internal g l r) → l < i ∧ r < i

/-- Node `k` combines the two least nodes of the queue of its time, the least on the left (R190, R194). -/
def MadeNode (h : Huf) (k : Nat) : Prop :=
  ∃ a b, nodeAt h k = some (.internal (freqOf h a + freqOf h b) a b) ∧ a ≠ b ∧ inQueue h k a ∧ inQueue h k b ∧
    (∀ j, inQueue h k j → j ≠ a → idBefore h a j) ∧
    (∀ j, inQueue h k j → j ≠ a → j ≠ b → idBefore h b j)

theorem madeNode_withTree (h : Huf) (t : Tree) (k : Nat) : MadeNode (withTree h t) k ↔ MadeAt t.nodes k := by
  unfold MadeNode MadeAt
  simp only [nodeAt_withTree, freqOf_withTree, inQueue_withTree, idBefore_withTree]

/-- The tree memory holds the tree of the counters `f`, at least one of them non-zero: the leaves first, then nodes made from
the queue of their time, up to ROOT, which alone is left in the queue (R190 to R195). -/
structure HoldsTree (f : Vector Nat 256) (h : Huf) : Prop where
  leaf : ∀ i c, (leafSymbols f)[i]? = some c → nodeAt h i = some (.leaf c (symGet f c))
  made : ∀ k, (leafSymbols f).length ≤ k → k < h.nnodes → MadeNode h k
  nnodes : h.nnodes + 1 = 2 * (leafSymbols f).length
  root : h.root + 1 = h.nnodes
  last : ∀ j, inQueue h h.nnodes j ↔ j = h.root
  total : freqOf h h.root = (allSymbols.map (symGet f)).sum

/-- The counters with one non-zero counter, those with none, and the others (R191). -/
theorem leafSymbols_cases (f : Vector Nat 256) :
    leafSymbols f = [] ∨ (∃ c, leafSymbols f = [c]) ∨ 2 ≤ (leafSymbols f).length := by
  match leafSymbols f with
  | [] => exact .inl rfl
  | [c] => exact .inr (.inl ⟨c, rfl⟩)
  | _ :: _ :: _ => exact .inr (.inr (by simp))

theorem buildTree_of_none {f : Vector Nat 256} (h : leafSymbols f = []) :
    buildTree f = { nodes := [], root := 0, tkind := .empty } := buildTree_empty f (by rw [h]; rfl)

/-- The leaves of the tree are its first nodes (R191). -/
theorem getElem?_of_leaves_prefix {f : Vector Nat 256} {ns : List Node} (hp : leafNodes f <+: ns) {i : Nat} {c : Byte}
    (hc : (leafSymbols f)[i]? = some c) : ns[i]? = some (.leaf c (symGet f c)) := by
  obtain ⟨ms, rfl⟩ := hp
  have hi : i < (leafNodes f).length := by
    rw [leafNodes_eq, List.length_map]
    exact (List.getElem?_eq_some_iff.1 hc).1
  rw [List.getElem?_append_left hi, leafNodes_eq, List.getElem?_map, hc]
  rfl

/-- HUF_BUILD's tree, written to the memory. -/
theorem holdsTree_withTree (h : Huf) {f : Vector Nat 256} (hf : leafSymbols f ≠ []) :
    HoldsTree f (withTree h (buildTree f)) := by
  rcases leafSymbols_cases f with h0 | ⟨c, h1⟩ | h2
  · exact absurd h0 hf
  · have hsum := leafNodes_sum f
    rw [leafNodes_eq, h1] at hsum
    rw [buildTree_single f c h1]
    refine ⟨fun i d hd => ?_, fun k hk hk' => ?_, ?_, rfl, fun j => ?_, ?_⟩
    · rw [nodeAt_withTree]
      rw [h1] at hd
      obtain ⟨rfl, rfl⟩ : i = 0 ∧ c = d := by simpa [List.getElem?_singleton] using hd
      rfl
    · rw [h1] at hk
      exact absurd (Nat.lt_of_le_of_lt hk hk') (by simp [withTree])
    · rw [h1]
      rfl
    · rw [inQueue_withTree]
      refine ⟨fun hj => Nat.lt_one_iff.1 hj.1, ?_⟩
      rintro rfl
      exact ⟨Nat.one_pos, fun i g l r hi e => by obtain rfl := Nat.lt_one_iff.1 hi; cases e⟩
    · rw [freqOf_withTree, ← hsum]
      rfl
  · obtain ⟨_, hp, hn, hr, _, hm, hw, ht⟩ := buildTree_full f h2
    exact ⟨fun i c hc => by rw [nodeAt_withTree]; exact getElem?_of_leaves_prefix hp hc,
      fun k hk hk' => (madeNode_withTree _ _ k).2 (hm k hk hk'), hn, hr, fun j => (inQueue_withTree _ _ _ j).trans (hw j),
      (freqOf_withTree _ _ _).trans ht⟩

/-- What HUF_BUILD leaves in the tree memory, as the spec says it. -/
theorem isHuffmanTree_withTree (h : Huf) (f : Vector Nat 256) : IsHuffmanTree f (withTree h (buildTree f)) := by
  rcases leafSymbols_cases f with h0 | ⟨c, h1⟩ | h2
  · rw [buildTree_of_none h0]
    unfold IsHuffmanTree
    rw [h0]
    exact ⟨nofun, fun _ => ⟨rfl, rfl, rfl⟩, nofun, nofun, fun k _ hk => absurd hk (Nat.not_lt_zero k)⟩
  · have ht := holdsTree_withTree h (f := f) (by rw [h1]; nofun)
    refine ⟨ht.leaf, by simp [h1], fun _ => ?_, by simp [h1], ht.made⟩
    rw [buildTree_single f c h1]
    exact ⟨rfl, rfl, rfl⟩
  · have ht := holdsTree_withTree h (f := f) (by rintro e; simp [e] at h2)
    have hn := ht.nnodes
    have hr := ht.root
    exact ⟨ht.leaf, by omega, by omega, fun _ => ⟨(buildTree_full f h2).1, by omega, by omega⟩, ht.made⟩

/-- Settles O41: the memory with the built tree written to it. -/
theorem hufBuild : Obligations.HufBuild := by
  unfold Obligations.HufBuild
  exact fun s hs => ⟨withTree s.huf (buildTree s.huf.freq), exec_hufBuild_freq hs, isHuffmanTree_withTree _ _,
    memGet_withTree _ _⟩

/-! ## Invariants of the tree -/

theorem nodeAt_lt {h : Huf} {i : Nat} {x : Node} (e : nodeAt h i = some x) : i < h.nnodes := by
  unfold nodeAt at e
  split at e
  · assumption
  · cases e

theorem freqOf_eq {h : Huf} {i : Nat} {x : Node} (e : nodeAt h i = some x) : freqOf h i = x.freq := by
  unfold freqOf
  rw [e]
  rfl

namespace HoldsTree
variable {f : Vector Nat 256} {h : Huf} (ht : HoldsTree f h)
include ht

/-- Every node below the leaves' count is the leaf of its symbol. -/
theorem leaf_of_lt {i : Nat} (hi : i < (leafSymbols f).length) :
    nodeAt h i = some (.leaf (leafSymbols f)[i] (symGet f (leafSymbols f)[i])) :=
  ht.leaf i _ (List.getElem?_eq_getElem hi)

theorem leaf_inv {i g : Nat} {c : Byte} (e : nodeAt h i = some (.leaf c g)) :
    (leafSymbols f)[i]? = some c ∧ g = symGet f c := by
  rcases Nat.lt_or_ge i (leafSymbols f).length with hi | hi
  · rw [ht.leaf_of_lt hi] at e
    cases e
    exact ⟨List.getElem?_eq_getElem hi, rfl⟩
  · obtain ⟨a, b, e', _⟩ := ht.made i hi (nodeAt_lt e)
    rw [e'] at e
    cases e

theorem internal_inv {i g l r : Nat} (e : nodeAt h i = some (.internal g l r)) :
    (leafSymbols f).length ≤ i ∧ g = freqOf h l + freqOf h r ∧ l ≠ r ∧ inQueue h i l ∧ inQueue h i r := by
  rcases Nat.lt_or_ge i (leafSymbols f).length with hi | hi
  · rw [ht.leaf_of_lt hi] at e
    cases e
  · obtain ⟨a, b, e', hab, ha, hb, _⟩ := ht.made i hi (nodeAt_lt e)
    rw [e'] at e
    cases e
    exact ⟨hi, rfl, hab, ha, hb⟩

theorem nodeAt_some {i : Nat} (hi : i < h.nnodes) : ∃ x, nodeAt h i = some x := by
  rcases Nat.lt_or_ge i (leafSymbols f).length with hl | hl
  · exact ⟨_, ht.leaf_of_lt hl⟩
  · obtain ⟨a, b, e, _⟩ := ht.made i hl hi
    exact ⟨_, e⟩

theorem descending : Descending h := fun _ hi =>
  ⟨ht.nodeAt_some hi, fun _ _ _ e => by
    obtain ⟨_, _, _, hl, hr⟩ := ht.internal_inv e
    exact ⟨hl.1, hr.1⟩⟩

theorem root_lt : h.root < h.nnodes := by
  have := ht.root
  omega

/-- A node's frequency is the sum of the leaves below it (R195). -/
theorem leavesSum_eq {n i : Nat} (hn : i < n) (hi : i < h.nnodes) : leavesSum h n i = freqOf h i := by
  induction n generalizing i with
  | zero => omega
  | succ n ih =>
    obtain ⟨x, hx⟩ := ht.nodeAt_some hi
    rw [leavesSum, freqOf_eq hx, hx]
    cases x with
    | leaf c g => rfl
    | internal g l r =>
      obtain ⟨_, hg, _, hl, hr⟩ := ht.internal_inv hx
      have hl := hl.1
      have hr := hr.1
      simp only
      rw [ih (by omega) (by omega), ih (by omega) (by omega)]
      exact hg.symm

/-- No node has two parents: once a child, it is in no later queue (R190). -/
theorem parent_unique {i i' j : Nat} (hi : childOf h i j) (hi' : childOf h i' j) : i' = i := by
  have key : ∀ {a b : Nat}, childOf h a j → childOf h b j → ¬ a < b := by
    rintro a b ⟨_, l, r, ea, hj⟩ ⟨_, l', r', eb, hj'⟩ hab
    obtain ⟨_, _, _, hl, hr⟩ := ht.internal_inv eb
    have hq : inQueue h b j := by
      rcases hj' with rfl | rfl
      · exact hl
      · exact hr
    obtain ⟨h1, h2⟩ := hq.2 a _ l r hab ea
    exact hj.elim h1 h2
  exact Nat.le_antisymm (Nat.not_lt.1 (key hi hi')) (Nat.not_lt.1 (key hi' hi))

/-- Every node but ROOT has a parent: it is not in the last queue. -/
theorem parent_exists {j : Nat} (hj : j < h.nnodes) (hr : j ≠ h.root) : ∃ i, childOf h i j := by
  by_contra hno
  refine hr ((ht.last j).1 ⟨hj, fun i g l r _ e => ⟨?_, ?_⟩⟩)
  · rintro rfl
    exact hno ⟨i, g, _, r, e, .inl rfl⟩
  · rintro rfl
    exact hno ⟨i, g, l, _, e, .inr rfl⟩

theorem root_no_parent (i : Nat) : ¬ childOf h i h.root := by
  rintro ⟨g, l, r, e, hj⟩
  obtain ⟨h1, h2⟩ := ((ht.last h.root).2 rfl).2 i g l r (nodeAt_lt e) e
  exact hj.elim h1 h2

theorem leaf_iff (c : Byte) : symGet f c ≠ 0 ↔ ∃ i g, nodeAt h i = some (.leaf c g) := by
  rw [← mem_leafSymbols, List.mem_iff_getElem?]
  exact ⟨fun ⟨i, e⟩ => ⟨i, _, ht.leaf i c e⟩, fun ⟨i, g, e⟩ => ⟨i, (ht.leaf_inv e).1⟩⟩

theorem leaf_unique {i j g g' : Nat} {c : Byte} (hi : nodeAt h i = some (.leaf c g))
    (hj : nodeAt h j = some (.leaf c g')) : i = j := by
  obtain ⟨hi, _⟩ := ht.leaf_inv hi
  obtain ⟨hj, _⟩ := ht.leaf_inv hj
  exact (List.getElem?_inj (List.getElem?_eq_some_iff.1 hi).1 (leafSymbols_nodup f)).1 (hi.trans hj.symm)

end HoldsTree

/-- Settles O42: no node at all without leaves, and else the facts about the tree that the memory holds. -/
theorem treeInvariants : Obligations.TreeInvariants := by
  unfold Obligations.TreeInvariants
  intro s t hs ht
  rw [exec_hufBuild_freq hs] at ht
  cases ht
  simp only [complete_huf, State.withHuf_huf]
  generalize ({ s.huf with hstate := .tree } : Huf) = u
  generalize s.huf.freq = f
  by_cases hf : leafSymbols f = []
  · have hno : ∀ i, nodeAt (withTree u (buildTree f)) i = none := fun i => by
      rw [nodeAt_withTree, buildTree_of_none hf]
      rfl
    simp only [childOf, hno, ← mem_leafSymbols, hf]
    simp [withTree, buildTree_of_none hf]
  · have hT := holdsTree_withTree u hf
    refine ⟨fun i g l r e => ?_, fun _ => hT.total, fun j hj hr => ?_, hT.root_no_parent, hT.leaf_iff,
      fun i j c g g' => hT.leaf_unique⟩
    · obtain ⟨_, hg, hlr, hl, hr⟩ := hT.internal_inv e
      have hi := nodeAt_lt e
      refine ⟨hg, ?_, hlr, hT.nodeAt_some (hl.1.trans hi), hT.nodeAt_some (hr.1.trans hi)⟩
      rw [hT.leavesSum_eq hi hi, freqOf_eq e]
      rfl
    · obtain ⟨i, hi⟩ := hT.parent_exists hj hr
      exact ⟨i, hi, fun i' hi' => hT.parent_unique hi hi'⟩

end Sys2Proof.Machine

/-! PROOF LAYER. The code table: HUF_CODES by kind of tree, the table of the counters alone, and the paths to the leaves of a
tree, from which the properties of the table follow. -/

namespace Sys2Proof.Machine

/-! ## HUF_CODES -/

/-- HUF_CODES on a unit whose tree gives the table `t` (42_huffman.md R200). -/
theorem exec_hufCodes_tree {s : State} {t : Vector (List Bool) 256} (hs : s.huf.hstate = .tree)
    (ht : codeTable s.huf = some t) :
    exec .hufCodes s = .next (complete (s.withHuf { s.huf with code := t, cvalid := true, hstate := .codes })) := by
  rw [exec_eq_finish, runCommand, runHufCodes, checkPre_true (by simp [hs]), ht]
  rfl

section kinds
variable {h : Huf} {t : Vector (List Bool) 256}

/-- No leaf, no code (R203). -/
theorem codeTable_empty (hk : h.tkind = .empty) : codeTable h = some (Vector.replicate 256 []) := by
  rw [codeTable, hk]

/-- The code `0` of a single leaf (R203). -/
theorem codeTable_single (hk : h.tkind = .single) {c : Byte} {g : Nat} (hc : nodeAt h 0 = some (.leaf c g)) :
    codeTable h = some (symSet (Vector.replicate 256 []) c [false]) := by
  rw [codeTable, hk]
  simp only [hc]

/-- On a full tree a symbol's code is a path to a leaf of its own, and a symbol without a code has no leaf (R201, R202,
R204). -/
theorem codeTable_full (hk : h.tkind = .full) (hr : ∃ g l r, nodeAt h h.root = some (.internal g l r))
    (hd : Descending h) (e : codeTable h = some t) (c : Byte) :
    (symGet t c ≠ [] → leafPath h (symGet t c) c) ∧ (symGet t c = [] → ∀ p, ¬ leafPath h p c) := by
  obtain ⟨g, l, r, hroot⟩ := hr
  have hlt := nodeAt_lt hroot
  obtain ⟨t', e', hspec⟩ := walk_spec hd h.nnodes h.root [] (Vector.replicate 256 []) hlt hlt
  rw [codeTable, hk] at e
  obtain rfl : t' = t := Option.some.inj (e'.symm.trans e)
  rcases hspec c with ⟨p, q, hp, hc⟩ | ⟨hno, hc⟩
  · rw [hc, List.nil_append]
    refine ⟨fun _ => ⟨q, hp⟩, ?_⟩
    rintro rfl
    rw [follow, hroot] at hp
    cases hp
  · rw [hc, symGet_replicate]
    exact ⟨absurd rfl, fun _ p ⟨q, hp⟩ => hno p q hp⟩

end kinds

/-- Settles O43: the table of each kind of tree. -/
theorem hufCodes : Obligations.HufCodes := by
  unfold Obligations.HufCodes
  intro s hs ht
  obtain ⟨t, e⟩ := codeTable_some ht
  refine ⟨t, exec_hufCodes_tree hs e, fun hk c => ?_, fun hk c d g hd => ?_, fun hk => ?_⟩
  · rw [codeTable_empty hk] at e
    obtain rfl := Option.some.inj e
    exact symGet_replicate [] c
  · rw [codeTable_single hk hd] at e
    obtain rfl := Option.some.inj e
    rw [symGet_symSet, symGet_replicate]
    simp only [eq_comm]
  · exact codeTable_full hk (ht.2.2 hk).1 (ht.2.2 hk).2 e

/-! ## The table of the counters -/

/-- The walk sees the nodes of the memory and nothing else of the unit. -/
theorem walk_congr {h h' : Huf} (hn : ∀ i, nodeAt h i = nodeAt h' i) (n i : Nat) (p : List Bool)
    (t : Vector (List Bool) 256) : walk h n i p t = walk h' n i p t := by
  induction n generalizing i p t with
  | zero => rfl
  | succ n ih => simp only [walk, hn, ih]

/-- The code table of the counters `f`: what HUF_BUILD and HUF_CODES make of them on an empty unit. -/
def codesOf (f : Vector Nat 256) : Vector (List Bool) 256 :=
  (codeTable (withTree { Huf.reset with total := freqSum f } (buildTree f))).getD (Vector.replicate 256 [])

/-- The table depends on the counters alone (42_huffman.md R206). -/
theorem codeTable_withTree (h : Huf) (f : Vector Nat 256) :
    codeTable (withTree h (buildTree f)) = some (codesOf f) := by
  have hsame : codeTable (withTree h (buildTree f)) =
      codeTable (withTree { Huf.reset with total := freqSum f } (buildTree f)) := by
    have hn : ∀ i, nodeAt (withTree h (buildTree f)) i =
        nodeAt (withTree { Huf.reset with total := freqSum f } (buildTree f)) i := fun i => by
      rw [nodeAt_withTree, nodeAt_withTree]
    unfold codeTable
    rw [hn, walk_congr hn]
    rfl
  obtain ⟨t, e⟩ := codeTable_some (buildTree_treeOk { Huf.reset with total := freqSum f } f rfl)
  rw [hsame, codesOf, e, Option.getD_some]

/-- The Huffman unit after HUF_BUILD and HUF_CODES (42_huffman.md R190, R200). -/
def codedUnit (h : Huf) : Huf :=
  withTree { h with code := codesOf h.freq, cvalid := true, hstate := .codes } (buildTree h.freq)

/-- The state after both commands. -/
def hufCoded (s : State) : State := complete (s.withHuf (codedUnit s.huf))

section hufCoded
variable (s : State)

@[simp] theorem hufCoded_params : (hufCoded s).params = s.params := rfl
@[simp] theorem hufCoded_err : (hufCoded s).err = s.err := rfl
@[simp] theorem hufCoded_bs : (hufCoded s).bs = s.bs := rfl
@[simp] theorem hufCoded_freq : (hufCoded s).huf.freq = s.huf.freq := rfl
@[simp] theorem hufCoded_total : (hufCoded s).huf.total = s.huf.total := rfl
@[simp] theorem hufCoded_hstate : (hufCoded s).huf.hstate = .codes := rfl
@[simp] theorem hufCoded_hmode : (hufCoded s).huf.hmode = s.huf.hmode := rfl
@[simp] theorem hufCoded_trunc : (hufCoded s).huf.trunc = s.huf.trunc := rfl
@[simp] theorem hufCoded_code : (hufCoded s).huf.code = codesOf s.huf.freq := rfl

end hufCoded

/-- HUF_BUILD and then HUF_CODES complete from every counted state. -/
theorem execAll_build_codes {s : State} (hs : s.huf.hstate = .freq) (is : List Instr) :
    execAll (.hufBuild :: .hufCodes :: is) s = execAll is (hufCoded s) := by
  simp only [execAll, exec_hufBuild_freq hs]
  rw [exec_hufCodes_tree rfl (codeTable_withTree _ _)]
  rfl

/-! ## The paths to the leaves -/

/-- The paths from node `i` to the leaves below it, each with the leaf's symbol, over at most `n` levels. -/
def leafPaths (h : Huf) : (n : Nat) → (i : Nat) → List (List Bool × Byte)
  | 0, _ => []
  | n + 1, i =>
    match nodeAt h i with
    | some (.leaf c _) => [([], c)]
    | some (.internal _ l r) =>
      (leafPaths h n l).map (Prod.map (List.cons false) id) ++ (leafPaths h n r).map (Prod.map (List.cons true) id)
    | none => []

theorem leafPaths_leaf {h : Huf} {i g : Nat} {c : Byte} (e : nodeAt h i = some (.leaf c g)) (n : Nat) :
    leafPaths h (n + 1) i = [([], c)] := by
  rw [leafPaths, e]

theorem leafPaths_internal {h : Huf} {i g l r : Nat} (e : nodeAt h i = some (.internal g l r)) (n : Nat) :
    leafPaths h (n + 1) i =
      (leafPaths h n l).map (Prod.map (List.cons false) id) ++ (leafPaths h n r).map (Prod.map (List.cons true) id) := by
  rw [leafPaths, e]

section paths
variable {h : Huf} (hd : Descending h)
include hd

/-- Induction over the nodes of a tree whose children come before their parents. -/
theorem node_induction {P : (n i : Nat) → Prop}
    (leaf : ∀ n i c g, nodeAt h i = some (.leaf c g) → P (n + 1) i)
    (internal : ∀ n i g l r, nodeAt h i = some (.internal g l r) → P n l → P n r → P (n + 1) i)
    {n i : Nat} (hn : i < n) (hi : i < h.nnodes) : P n i := by
  induction n generalizing i with
  | zero => omega
  | succ n ih =>
    obtain ⟨⟨x, hx⟩, hc⟩ := hd i hi
    cases x with
    | leaf c g => exact leaf n i c g hx
    | internal g l r =>
      obtain ⟨hl, hr⟩ := hc g l r hx
      exact internal n i g l r hx (ih (by omega) (by omega)) (ih (by omega) (by omega))

/-- The listed paths are those that lead to a leaf. -/
theorem mem_leafPaths {n i : Nat} (hn : i < n) (hi : i < h.nnodes) (p : List Bool) (c : Byte) :
    (p, c) ∈ leafPaths h n i ↔ ∃ g, follow h i p = some (.leaf c g) := by
  refine node_induction hd (P := fun n i => ∀ p c, (p, c) ∈ leafPaths h n i ↔ ∃ g, follow h i p = some (.leaf c g))
    (fun n i d g hx p c => ?_) (fun n i g l r hx hl hr p c => ?_) hn hi p c
  · rw [leafPaths_leaf hx]
    cases p <;> simp [follow, hx, eq_comm]
  · rw [leafPaths_internal hx]
    cases p with
    | nil => simp [follow, hx]
    | cons x p => cases x <;> simp [follow, hx, hl, hr]

/-- Enough levels are enough. -/
theorem leafPaths_levels {n m i : Nat} (hn : i < n) (hm : i < m) (hi : i < h.nnodes) :
    leafPaths h n i = leafPaths h m i := by
  induction n generalizing m i with
  | zero => omega
  | succ n ih =>
    obtain ⟨m, rfl⟩ : ∃ k, m = k + 1 := ⟨m - 1, by omega⟩
    obtain ⟨⟨x, hx⟩, hc⟩ := hd i hi
    cases x with
    | leaf c g => rw [leafPaths_leaf hx, leafPaths_leaf hx]
    | internal g l r =>
      obtain ⟨hl, hr⟩ := hc g l r hx
      rw [leafPaths_internal hx, leafPaths_internal hx, ih (m := m) (by omega) (by omega) (by omega),
        ih (m := m) (by omega) (by omega) (by omega)]

/-- Kraft's equality for the paths (42_huffman.md R206). -/
theorem leafPaths_kraft {n i : Nat} (hn : i < n) (hi : i < h.nnodes) :
    ((leafPaths h n i).map (fun p => (1 / 2 : ℚ) ^ p.1.length)).sum = 1 := by
  refine node_induction hd (P := fun n i => ((leafPaths h n i).map (fun p => (1 / 2 : ℚ) ^ p.1.length)).sum = 1)
    (fun n i c g hx => ?_) (fun n i g l r hx hl hr => ?_) hn hi
  · simp [leafPaths_leaf hx]
  · have half : ∀ (x : Bool) (ps : List (List Bool × Byte)),
        ((ps.map (Prod.map (List.cons x) id)).map (fun p => (1 / 2 : ℚ) ^ p.1.length)).sum =
          (ps.map (fun p => (1 / 2 : ℚ) ^ p.1.length)).sum * (1 / 2) := by
      intro x ps
      rw [List.map_map, ← List.sum_map_mul_right]
      simp [Function.comp_def, pow_succ, mul_comm]
    rw [leafPaths_internal hx, List.map_append, List.sum_append, half, half, hl, hr]
    norm_num

/-- Every infinite bit string begins with a path to a leaf (R206). -/
theorem exists_leafPath_of_bits {n i : Nat} (hn : i < n) (hi : i < h.nnodes) (bit : Nat → Bool) :
    ∃ p ∈ leafPaths h n i, (List.range p.1.length).map bit = p.1 := by
  refine node_induction hd
    (P := fun n i => ∀ bit : Nat → Bool, ∃ p ∈ leafPaths h n i, (List.range p.1.length).map bit = p.1)
    (fun n i c g hx bit => ⟨([], c), by simp [leafPaths_leaf hx], rfl⟩) (fun n i g l r hx hl hr bit => ?_) hn hi bit
  have shift : ∀ (x : Bool) (p : List Bool), bit 0 = x → (List.range p.length).map (fun k => bit (k + 1)) = p →
      (List.range (x :: p).length).map bit = x :: p := by
    intro x p hx hp
    rw [List.length_cons, List.range_succ_eq_map, List.map_cons, List.map_map, hx]
    exact congrArg _ hp
  rw [leafPaths_internal hx]
  cases hb : bit 0 with
  | false =>
    obtain ⟨⟨p, c⟩, hp, e⟩ := hl (fun k => bit (k + 1))
    exact ⟨(false :: p, c), List.mem_append_left _ (List.mem_map.2 ⟨(p, c), hp, rfl⟩), shift _ _ hb e⟩
  | true =>
    obtain ⟨⟨p, c⟩, hp, e⟩ := hr (fun k => bit (k + 1))
    exact ⟨(true :: p, c), List.mem_append_right _ (List.mem_map.2 ⟨(p, c), hp, rfl⟩), shift _ _ hb e⟩

end paths

/-! ## The paths of the built tree -/

open scoped Classical in
/-- The sum of `F` over the nodes in the queue when node `k` is made. -/
noncomputable def queueSum {M : Type} [AddCommMonoid M] (h : Huf) (F : Nat → M) (k : Nat) : M :=
  ∑ j ∈ (Finset.range k).filter (inQueue h k), F j

namespace HoldsTree
variable {f : Vector Nat 256} {h : Huf} (ht : HoldsTree f h)
include ht

/-- The queue after a node is made: the node comes, its children go (42_huffman.md R190). -/
theorem inQueue_succ {k g a b : Nat} (e : nodeAt h k = some (.internal g a b)) (j : Nat) :
    inQueue h (k + 1) j ↔ j = k ∨ (inQueue h k j ∧ j ≠ a ∧ j ≠ b) := by
  constructor
  · rintro ⟨hj, hno⟩
    by_cases hjk : j = k
    · exact .inl hjk
    · exact .inr ⟨⟨by omega, fun i g l r hi => hno i g l r (by omega)⟩, hno k _ a b (by omega) e⟩
  · rintro (rfl | ⟨⟨hj, hno⟩, hj'⟩)
    · refine ⟨by omega, fun i g l r hi ei => ?_⟩
      obtain ⟨hl, hr⟩ := (ht.descending i (nodeAt_lt ei)).2 g l r ei
      omega
    · refine ⟨by omega, fun i g l r hi ei => ?_⟩
      rcases Nat.lt_succ_iff_lt_or_eq.1 hi with hik | rfl
      · exact hno i g l r hik ei
      · rw [e] at ei
        cases ei
        exact hj'

section sums
variable {M : Type} [AddCommMonoid M] {F : Nat → M}

/-- The first queue holds the leaves. -/
theorem queueSum_leaves : queueSum h F (leafSymbols f).length = ∑ i ∈ Finset.range (leafSymbols f).length, F i := by
  classical
  unfold queueSum
  rw [Finset.filter_true_of_mem]
  exact fun j hj => ⟨Finset.mem_range.1 hj, fun i g l r hi e => absurd (ht.internal_inv e).1 (Nat.not_le.2 hi)⟩

/-- Making a node keeps the sum over the queue, where the node takes its own part from its children. -/
theorem queueSum_succ {k g a b : Nat} (e : nodeAt h k = some (.internal g a b)) (hF : F k = F a + F b) :
    queueSum h F (k + 1) = queueSum h F k := by
  classical
  obtain ⟨_, _, hab, ha, hb⟩ := ht.internal_inv e
  have hset : (Finset.range (k + 1)).filter (inQueue h (k + 1)) =
      insert k ((((Finset.range k).filter (inQueue h k)).erase a).erase b) := by
    ext j
    simp only [Finset.mem_insert, Finset.mem_erase, Finset.mem_filter, Finset.mem_range, ht.inQueue_succ e]
    constructor
    · rintro ⟨_, rfl | ⟨hj, h1, h2⟩⟩
      · exact .inl rfl
      · exact .inr ⟨h2, h1, hj.1, hj⟩
    · rintro (rfl | ⟨h2, h1, hjk, hj⟩)
      · exact ⟨Nat.lt_succ_self _, .inl rfl⟩
      · exact ⟨by omega, .inr ⟨hj, h1, h2⟩⟩
  have ha' : a ∈ (Finset.range k).filter (inQueue h k) := by simpa using ⟨ha.1, ha⟩
  have hb' : b ∈ ((Finset.range k).filter (inQueue h k)).erase a := by simpa using ⟨hab.symm, hb.1, hb⟩
  unfold queueSum
  rw [hset, Finset.sum_insert (by simp), hF, add_assoc, Finset.add_sum_erase _ F hb', Finset.add_sum_erase _ F ha']

/-- The last queue holds ROOT. -/
theorem queueSum_last : queueSum h F h.nnodes = F h.root := by
  classical
  have hset : (Finset.range h.nnodes).filter (inQueue h h.nnodes) = {h.root} := by
    ext j
    simp only [Finset.mem_filter, Finset.mem_range, Finset.mem_singleton, ht.last]
    exact ⟨fun hj => hj.2, by rintro rfl; exact ⟨ht.root_lt, rfl⟩⟩
  unfold queueSum
  rw [hset, Finset.sum_singleton]

/-- A quantity that each internal node takes from its two children is at ROOT the sum over the leaves. -/
theorem root_eq_sum_leaves (hF : ∀ i g l r, nodeAt h i = some (.internal g l r) → F i = F l + F r) :
    F h.root = ∑ i ∈ Finset.range (leafSymbols f).length, F i := by
  have hm : (leafSymbols f).length ≤ h.nnodes := by have := ht.nnodes; have := ht.root; omega
  have kept : ∀ k, (leafSymbols f).length ≤ k → k ≤ h.nnodes → queueSum h F k = queueSum h F (leafSymbols f).length := by
    intro k hk
    induction k, hk using Nat.le_induction with
    | base => exact fun _ => rfl
    | succ k hk ih =>
      intro hk'
      obtain ⟨a, b, e, _⟩ := ht.made k hk hk'
      rw [ht.queueSum_succ e (hF k _ a b e), ih (by omega)]
  rw [← ht.queueSum_last (F := F), kept _ hm (Nat.le_refl _), ht.queueSum_leaves]

end sums

/-- The leaves below ROOT are those of the symbols with non-zero counters, one each (R195). -/
theorem leafPaths_symbols : ((leafPaths h h.nnodes h.root).map Prod.snd).Perm (leafSymbols f) := by
  rw [List.perm_iff_count]
  intro c
  have hroot := ht.root_lt
  have hF : ∀ i g l r, nodeAt h i = some (.internal g l r) →
      ((leafPaths h (i + 1) i).map Prod.snd).count c =
        ((leafPaths h (l + 1) l).map Prod.snd).count c + ((leafPaths h (r + 1) r).map Prod.snd).count c := by
    intro i g l r e
    have hi := nodeAt_lt e
    obtain ⟨hl, hr⟩ := (ht.descending i hi).2 g l r e
    rw [leafPaths_internal e, List.map_append, List.count_append, List.map_map, List.map_map,
      leafPaths_levels ht.descending hl (Nat.lt_succ_self l) (by omega),
      leafPaths_levels ht.descending hr (Nat.lt_succ_self r) (by omega)]
    rfl
  have hleaf : ∀ i : Fin (leafSymbols f).length,
      ((leafPaths h (i + 1) i).map Prod.snd).count c = [(leafSymbols f)[i]].count c := fun i => by
    rw [leafPaths_leaf (ht.leaf_of_lt i.isLt)]
    rfl
  calc ((leafPaths h h.nnodes h.root).map Prod.snd).count c
    _ = ((leafPaths h (h.root + 1) h.root).map Prod.snd).count c := by
        rw [leafPaths_levels ht.descending hroot (Nat.lt_succ_self _) hroot]
    _ = ∑ i : Fin (leafSymbols f).length, [(leafSymbols f)[i]].count c := by
        rw [ht.root_eq_sum_leaves (F := fun i => ((leafPaths h (i + 1) i).map Prod.snd).count c) hF, Finset.sum_range]
        exact Finset.sum_congr rfl fun i _ => hleaf i
    _ = ((leafSymbols f).flatMap fun d => [d]).count c := by
        rw [List.count_flatMap]
        exact Fin.sum_univ_fun_getElem (leafSymbols f) fun d => [d].count c
    _ = (leafSymbols f).count c := by rw [List.flatMap_singleton']

/-- A symbol has one path from ROOT, where it has a leaf. -/
theorem leafPath_unique {p q : List Bool} {c : Byte} (hp : leafPath h p c) (hq : leafPath h q c) : p = q := by
  have hnd : ((leafPaths h h.nnodes h.root).map Prod.snd).Nodup := ht.leafPaths_symbols.nodup_iff.2 (leafSymbols_nodup f)
  have hmem := mem_leafPaths ht.descending ht.root_lt ht.root_lt
  exact congrArg Prod.fst (List.inj_on_of_nodup_map hnd ((hmem p c).2 hp) ((hmem q c).2 hq) rfl)

theorem leafPath_symbol {p : List Bool} {c : Byte} (hp : leafPath h p c) : c ∈ leafSymbols f :=
  ht.leafPaths_symbols.mem_iff.1
    (List.mem_map.2 ⟨(p, c), (mem_leafPaths ht.descending ht.root_lt ht.root_lt p c).2 hp, rfl⟩)

theorem exists_leafPath {c : Byte} (hc : c ∈ leafSymbols f) : ∃ p, leafPath h p c := by
  obtain ⟨⟨p, d⟩, hp, rfl⟩ := List.mem_map.1 (ht.leafPaths_symbols.mem_iff.2 hc)
  exact ⟨p, (mem_leafPaths ht.descending ht.root_lt ht.root_lt p d).1 hp⟩

/-- A path from a node to a leaf passes internal nodes alone, with ids that fall (R193, R205). -/
theorem follow_length {i g : Nat} {p : List Bool} {c : Byte} (hp : follow h i p = some (.leaf c g)) :
    p.length ≤ i + 1 - (leafSymbols f).length := by
  induction p generalizing i with
  | nil => exact Nat.zero_le _
  | cons x p ih =>
    rw [follow] at hp
    split at hp
    · rename_i g' l r e
      obtain ⟨hi, _, _, hl, hr⟩ := ht.internal_inv e
      have hl := hl.1
      have hr := hr.1
      have := ih hp
      rw [List.length_cons]
      cases x
      · simp only [Bool.false_eq_true, if_false] at this; omega
      · simp only [if_true] at this; omega
    · cases hp

theorem leafPath_length {p : List Bool} {c : Byte} (hp : leafPath h p c) : p.length ≤ 255 := by
  obtain ⟨g, hp⟩ := hp
  have := ht.follow_length hp
  have := ht.nnodes
  have := ht.root
  have := leafSymbols_length f
  omega

end HoldsTree

/-! ## The table of the counters by kind of tree -/

theorem codesOf_none {f : Vector Nat 256} (h0 : leafSymbols f = []) : codesOf f = Vector.replicate 256 [] := by
  have e := codeTable_withTree Huf.reset f
  rw [codeTable_empty (by rw [buildTree_of_none h0]; rfl)] at e
  exact (Option.some.inj e).symm

theorem codesOf_single {f : Vector Nat 256} {c : Byte} (h1 : leafSymbols f = [c]) :
    codesOf f = symSet (Vector.replicate 256 []) c [false] := by
  have e := codeTable_withTree Huf.reset f
  rw [codeTable_single (c := c) (g := symGet f c) (by rw [buildTree_single f c h1]; rfl)
    (by rw [buildTree_single f c h1]; rfl)] at e
  exact (Option.some.inj e).symm

section full
variable {f : Vector Nat 256} (h2 : 2 ≤ (leafSymbols f).length) (h : Huf)
include h2

theorem holdsTree_of_two : HoldsTree f (withTree h (buildTree f)) :=
  holdsTree_withTree h (by rintro e; simp [e] at h2)

/-- The codes of a full tree are its paths (42_huffman.md R201, R202). -/
theorem codesOf_full (c : Byte) :
    (symGet (codesOf f) c ≠ [] → leafPath (withTree h (buildTree f)) (symGet (codesOf f) c) c) ∧
    (symGet (codesOf f) c = [] → ∀ p, ¬ leafPath (withTree h (buildTree f)) p c) := by
  have ht := holdsTree_of_two h2 h
  have hr := ht.root
  have hn := ht.nnodes
  obtain ⟨a, b, e, _⟩ := ht.made (withTree h (buildTree f)).root (by omega) ht.root_lt
  exact codeTable_full (buildTree_full f h2).1 ⟨_, a, b, e⟩ ht.descending (codeTable_withTree h f) c

/-- The code of a symbol is its path. -/
theorem codesOf_eq_of_leafPath {p : List Bool} {c : Byte} (hp : leafPath (withTree h (buildTree f)) p c) :
    symGet (codesOf f) c = p := by
  obtain ⟨hsome, hnone⟩ := codesOf_full h2 h c
  by_cases hc : symGet (codesOf f) c = []
  · exact absurd hp (hnone hc p)
  · exact (holdsTree_of_two h2 h).leafPath_unique (hsome hc) hp

end full

/-- A symbol has a code exactly when its counter is not 0 (R204). -/
theorem codesOf_eq_nil_iff (f : Vector Nat 256) (c : Byte) : symGet (codesOf f) c = [] ↔ symGet f c = 0 := by
  rw [← not_iff_not, ← ne_eq (symGet f c), ← mem_leafSymbols]
  rcases leafSymbols_cases f with h0 | ⟨d, h1⟩ | h2
  · rw [codesOf_none h0, h0, symGet_replicate]
    simp
  · rw [codesOf_single h1, h1, symGet_symSet, symGet_replicate, List.mem_singleton]
    by_cases hd : d = c
    · simp [hd]
    · simp [hd, Ne.symm hd]
  · have ht := holdsTree_of_two h2 Huf.reset
    obtain ⟨hsome, hnone⟩ := codesOf_full h2 Huf.reset c
    refine ⟨fun hc => ht.leafPath_symbol (hsome hc), fun hc he => ?_⟩
    obtain ⟨p, hp⟩ := ht.exists_leafPath hc
    exact hnone he p hp

/-- No code is longer than 255 bits (R205). -/
theorem codesOf_length_le (f : Vector Nat 256) (c : Byte) : (symGet (codesOf f) c).length ≤ 255 := by
  rcases leafSymbols_cases f with h0 | ⟨d, h1⟩ | h2
  · rw [codesOf_none h0, symGet_replicate]
    simp
  · rw [codesOf_single h1, symGet_symSet, symGet_replicate]
    split <;> simp
  · by_cases hc : symGet (codesOf f) c = []
    · simp [hc]
    · exact (holdsTree_of_two h2 Huf.reset).leafPath_length ((codesOf_full h2 Huf.reset c).1 hc)

/-- Settles O45: the state after both commands holds the table of the counters. -/
theorem codeLengths : Obligations.CodeLengths := by
  unfold Obligations.CodeLengths
  exact fun s hs => ⟨_, execAll_build_codes hs [], fun c => ⟨not_congr (codesOf_eq_nil_iff _ c), codesOf_length_le _ c⟩⟩

/-! ## Properties of the table -/

/-- No code begins another (R206). -/
theorem codesOf_prefix_free {f : Vector Nat 256} {c d : Byte} (hcd : c ≠ d) (hc : symGet (codesOf f) c ≠ [])
    (hd : symGet (codesOf f) d ≠ []) : ¬ symGet (codesOf f) c <+: symGet (codesOf f) d := by
  intro hp
  rcases leafSymbols_cases f with h0 | ⟨x, h1⟩ | h2
  · exact hc (by rw [codesOf_none h0, symGet_replicate])
  · have only : ∀ y, symGet (codesOf f) y ≠ [] → y = x := fun y hy => by
      rwa [Ne, codesOf_eq_nil_iff, ← ne_eq, ← mem_leafSymbols, h1, List.mem_singleton] at hy
    exact hcd ((only c hc).trans (only d hd).symm)
  · obtain ⟨g, hfc⟩ := (codesOf_full h2 Huf.reset c).1 hc
    obtain ⟨g', hfd⟩ := (codesOf_full h2 Huf.reset d).1 hd
    rw [follow_prefix hfc hfd hp, hfd] at hfc
    cases hfc
    exact hcd rfl

section full
variable {f : Vector Nat 256} (h2 : 2 ≤ (leafSymbols f).length)
include h2

/-- With a full tree every infinite bit string begins with exactly one code (R206). -/
theorem exists_code_of_bits (bit : Nat → Bool) :
    ∃ c, symGet (codesOf f) c ≠ [] ∧
      (List.range (symGet (codesOf f) c).length).map bit = symGet (codesOf f) c ∧
      ∀ d, symGet (codesOf f) d ≠ [] →
        (List.range (symGet (codesOf f) d).length).map bit = symGet (codesOf f) d → d = c := by
  have ht := holdsTree_of_two h2 Huf.reset
  obtain ⟨⟨p, c⟩, hp, hbits⟩ := exists_leafPath_of_bits ht.descending ht.root_lt ht.root_lt bit
  have hpath : leafPath _ p c := (mem_leafPaths ht.descending ht.root_lt ht.root_lt p c).1 hp
  have hcode := codesOf_eq_of_leafPath h2 Huf.reset hpath
  have hne : symGet (codesOf f) c ≠ [] :=
    (not_congr (codesOf_eq_nil_iff f c)).2 ((mem_leafSymbols f c).1 (ht.leafPath_symbol hpath))
  have hbits : (List.range (symGet (codesOf f) c).length).map bit = symGet (codesOf f) c := by rw [hcode]; exact hbits
  refine ⟨c, hne, hbits, fun d hd hd' => by_contra fun hdc => ?_⟩
  have prefix_of_le : ∀ {m n : Nat}, m ≤ n → (List.range m).map bit <+: (List.range n).map bit := fun h => by
    rw [← Nat.add_sub_of_le h, List.range_add, List.map_append]
    exact List.prefix_append _ _
  rcases Nat.le_total (symGet (codesOf f) d).length (symGet (codesOf f) c).length with hle | hle
  · exact codesOf_prefix_free hdc hd hne (by rw [← hd', ← hbits]; exact prefix_of_le hle)
  · exact codesOf_prefix_free (Ne.symm hdc) hne hd (by rw [← hd', ← hbits]; exact prefix_of_le hle)

/-- Kraft's equality for the codes of a full tree: the codes are the paths to the leaves (R206). -/
theorem codesOf_kraft :
    (allSymbols.map (fun c => if symGet (codesOf f) c = [] then 0
      else (1 / 2 : ℚ) ^ (symGet (codesOf f) c).length)).sum = 1 := by
  have ht := holdsTree_of_two h2 Huf.reset
  let h := withTree Huf.reset (buildTree f)
  calc (allSymbols.map (fun c => if symGet (codesOf f) c = [] then 0
        else (1 / 2 : ℚ) ^ (symGet (codesOf f) c).length)).sum
    _ = ((leafSymbols f).map (fun c => (1 / 2 : ℚ) ^ (symGet (codesOf f) c).length)).sum := by
        simp only [codesOf_eq_nil_iff]
        rw [List.sum_map_ite]
        simp [leafSymbols, Nat.pos_iff_ne_zero]
    _ = (((leafPaths h h.nnodes h.root).map Prod.snd).map
          (fun c => (1 / 2 : ℚ) ^ (symGet (codesOf f) c).length)).sum := (ht.leafPaths_symbols.map _).sum_eq.symm
    _ = ((leafPaths h h.nnodes h.root).map (fun p => (1 / 2 : ℚ) ^ p.1.length)).sum := by
        rw [List.map_map]
        refine congrArg List.sum (List.map_congr_left fun ⟨p, c⟩ hp => ?_)
        have hpath : leafPath h p c := (mem_leafPaths ht.descending ht.root_lt ht.root_lt p c).1 hp
        simp only [Function.comp_apply, codesOf_eq_of_leafPath h2 Huf.reset hpath]
    _ = 1 := leafPaths_kraft ht.descending ht.root_lt ht.root_lt

end full

/-- The counters of a full tree (R191). -/
theorem two_leaves_of_full {f : Vector Nat 256} (hk : (buildTree f).tkind = .full) : 2 ≤ (leafSymbols f).length := by
  rcases leafSymbols_cases f with h0 | ⟨c, h1⟩ | h2
  · rw [buildTree_of_none h0] at hk
    cases hk
  · rw [buildTree_single f c h1] at hk
    cases hk
  · exact h2

/-- Settles O44: the properties of the table of the counters, which both commands leave. -/
theorem codeTableProperties : Obligations.CodeTableProperties := by
  unfold Obligations.CodeTableProperties
  refine ⟨fun s t hs ht => ?_, fun s s' t t' hs hs' hf ht ht' => ?_⟩
  · rw [execAll_build_codes hs] at ht
    cases ht
    refine ⟨fun c d => codesOf_prefix_free, fun hk => ?_⟩
    have h2 := two_leaves_of_full hk
    exact ⟨exists_code_of_bits h2, codesOf_kraft h2⟩
  · rw [execAll_build_codes hs] at ht
    rw [execAll_build_codes hs'] at ht'
    cases ht
    cases ht'
    exact congrArg codesOf hf

end Sys2Proof.Machine

/-! PROOF LAYER. HUF_GETFREQ, HUF_LOOKUP and HUF_DECODE: what a symbol's bits in the stream come to, and the loop over the
symbols of a stream. -/

namespace Sys2Proof.Machine

/-! ## HUF_GETFREQ and HUF_LOOKUP -/

/-- The bits of a number, counted from the first (00_scope.md R16). -/
theorem natBits_getD (w v : Nat) {j : Nat} (hj : j < w) : (natBits w v).getD j false = v.testBit (w - 1 - j) := by
  induction w generalizing j with
  | zero => omega
  | succ w ih =>
    cases j with
    | zero => rfl
    | succ j =>
      rw [natBits, List.getD_cons_succ, ih (by omega)]
      congr 1
      omega

/-- The bits of a number read from a bit string are those of the string. -/
theorem testBit_bitsToNat (l : List Bool) {j : Nat} (hj : j < l.length) :
    (bitsToNat l).testBit (l.length - 1 - j) = l.getD j false := by
  rw [← natBits_getD l.length (bitsToNat l) hj, natBits_bitsToNat]

/-- Bit 31 - j of RESULT is bit 32 k + j of the code (42_huffman.md R221). -/
theorem codeWord_getLsbD (bits : List Bool) (k : Nat) {j : Nat} (hj : j < 32) :
    (codeWord bits k).getLsbD (31 - j) = bits.getD (32 * k + j) false := by
  have hbit := testBit_bitsToNat ((List.range 32).map (fun j => bits.getD (32 * k + j) false)) (j := j) (by simpa using hj)
  rw [List.length_map, List.length_range] at hbit
  rw [codeWord, BitVec.getLsbD_ofNat, hbit, decide_eq_true (by omega), Bool.true_and]
  simp [hj]

/-- Settles O29: the counter, the code's length and bits, and E_SEQ without a table. -/
theorem huffmanQueries : Obligations.HuffmanQueries := by
  unfold Obligations.HuffmanQueries
  refine fun s c => ⟨exec_eq_finish _ s, fun k hv => ⟨_, ?_, fun j hj => codeWord_getLsbD _ _ hj⟩, fun k hv => ?_⟩
  · rw [exec_eq_finish, runCommand, runHufLookup, checkPre_true hv]
    rfl
  · rw [exec_eq_finish, runCommand_of_pre_false (i := .hufLookup c k) hv]
    rfl

/-! ## Symbols beside writes -/

/-- A symbol's answer with a change made to the stream it leaves. -/
def SymRead.mapStream (g : Stream → Stream) : SymRead → SymRead
  | .sym c b => .sym c (g b)
  | .eod b => .eod (g b)
  | .wait b => .wait (g b)
  | .fault e => .fault e

theorem descend_writeBools (h : Huf) (n i : Nat) (rs : List Bool) (b : Stream) :
    descend h n i (writeBools rs b) = (descend h n i b).mapStream (writeBools rs) := by
  induction n generalizing i b with
  | zero => rfl
  | succ n ih =>
    unfold descend
    cases nodeAt h i with
    | none => rfl
    | some x =>
      cases x with
      | leaf c g => rfl
      | internal g l r =>
        simp only [readBit_writeBools]
        cases readBit b with
        | ok x b' => exact ih _ _
        | eod b' => rfl
        | wait b' => rfl

/-- Decoding a symbol after writes is decoding it, then the writes. -/
theorem decodeSymbol_writeBools (h : Huf) (rs : List Bool) (b : Stream) :
    decodeSymbol h (writeBools rs b) = (decodeSymbol h b).mapStream (writeBools rs) := by
  unfold decodeSymbol
  split
  · cases nodeAt h 0 with
    | none => rfl
    | some x =>
      cases x with
      | leaf c g =>
        simp only [readBit_writeBools]
        cases readBit b <;> rfl
      | internal g l r => rfl
  · rw [available_writeBools, descend_writeBools]

/-! ## The bits of a symbol -/

/-- The bits `p`, next in the stream, are decoded to the symbol `c` (42_huffman.md R215, R216). -/
def Decodes (h : Huf) (p : List Bool) (c : Byte) : Prop :=
  ∀ b r, inBits b = p ++ r → ∃ b', decodeSymbol h b = .sym c b' ∧ Took p.length b b' ∧ inBits b' = r

/-- The bits `r` are too few for a symbol where they are all that is left: decoding takes them and meets the End, or waits. -/
def Exhausts (h : Huf) (r : List Bool) : Prop :=
  ∀ b, inBits b = r → ∃ b', Took r.length b b' ∧ decodeSymbol h b = if inClosed b then .eod (atEnd b') else .wait b'

theorem length_inBits_le_available (b : Stream) : (inBits b).length ≤ available b := by
  obtain ⟨b', _, _, _, _, _, ha, _⟩ := readBits_ok (w := (inBits b).length) (b := b) (Nat.le_refl _)
  omega

theorem descend_leaf {h : Huf} {n i g : Nat} {p r : List Bool} {c : Byte} {b : Stream}
    (hp : follow h i p = some (.leaf c g)) (hb : inBits b = p ++ r) (hn : p.length < n) :
    ∃ b', descend h n i b = .sym c b' ∧ Took p.length b b' ∧ inBits b' = r := by
  induction p generalizing n i b with
  | nil =>
    obtain ⟨n, rfl⟩ : ∃ m, n = m + 1 := ⟨n - 1, by simp at hn; omega⟩
    rw [follow] at hp
    exact ⟨b, by rw [descend, hp], took_refl b, hb⟩
  | cons x p ih =>
    obtain ⟨n, rfl⟩ : ∃ m, n = m + 1 := ⟨n - 1, by omega⟩
    rw [follow] at hp
    split at hp
    · rename_i g' l r' e
      obtain ⟨b₁, e₁, hb₁, ht₁⟩ := readBit_ok hb
      obtain ⟨b', e', ht', hb'⟩ := ih hp hb₁ (by simpa using hn)
      refine ⟨b', ?_, ?_, hb'⟩
      · rw [descend, e]
        simp only [e₁, e']
      · rw [List.length_cons, Nat.add_comm]
        exact ht₁.trans ht'
    · cases hp

theorem descend_cut {h : Huf} {n i g j k : Nat} {r : List Bool} {b : Stream}
    (hr : follow h i r = some (.internal g j k)) (hb : inBits b = r) (hn : r.length < n) :
    ∃ b', Took r.length b b' ∧ descend h n i b = if inClosed b then .eod (atEnd b') else .wait b' := by
  induction r generalizing n i b with
  | nil =>
    obtain ⟨n, rfl⟩ : ∃ m, n = m + 1 := ⟨n - 1, by simp at hn; omega⟩
    rw [follow] at hr
    refine ⟨b, took_refl b, ?_⟩
    rw [descend, hr, readBit_end hb]
    cases inClosed b <;> rfl
  | cons x r ih =>
    obtain ⟨n, rfl⟩ : ∃ m, n = m + 1 := ⟨n - 1, by omega⟩
    rw [follow] at hr
    split at hr
    · rename_i g' l r' e
      obtain ⟨b₁, e₁, hb₁, ht₁⟩ := readBit_ok hb
      obtain ⟨b', ht', e'⟩ := ih hr hb₁ (by simpa using hn)
      refine ⟨b', ?_, ?_⟩
      · rw [List.length_cons, Nat.add_comm]
        exact ht₁.trans ht'
      · rw [descend, e]
        simp only [e₁, e', ht₁.inClosed]
    · cases hr

section kinds
variable {h : Huf}

/-- A path from ROOT to a leaf is decoded to the leaf's symbol (R215). -/
theorem decodes_of_leafPath (hk : h.tkind ≠ .single) {p : List Bool} {c : Byte} (hp : leafPath h p c) : Decodes h p c := by
  intro b r hb
  obtain ⟨g, hp⟩ := hp
  have hlen := length_inBits_le_available b
  rw [hb, List.length_append] at hlen
  rw [decodeSymbol, if_neg hk]
  exact descend_leaf hp hb (by omega)

/-- Bits that end inside the tree are too few (R217). -/
theorem exhausts_of_internal (hk : h.tkind ≠ .single) {r : List Bool}
    (hr : ∃ g i j, follow h h.root r = some (.internal g i j)) : Exhausts h r := by
  intro b hb
  obtain ⟨g, i, j, hr⟩ := hr
  have hlen := length_inBits_le_available b
  rw [hb] at hlen
  rw [decodeSymbol, if_neg hk]
  exact descend_cut hr hb (by omega)

/-- Any bit is decoded to the symbol of a single leaf (R216). -/
theorem decodes_single (hk : h.tkind = .single) {c : Byte} {g : Nat} (hc : nodeAt h 0 = some (.leaf c g)) (x : Bool) :
    Decodes h [x] c := by
  intro b r hb
  obtain ⟨b', e, hb', ht⟩ := readBit_ok hb
  refine ⟨b', ?_, ht, hb'⟩
  rw [decodeSymbol, if_pos hk, hc]
  simp only [e]

theorem exhausts_single (hk : h.tkind = .single) {c : Byte} {g : Nat} (hc : nodeAt h 0 = some (.leaf c g)) :
    Exhausts h [] := by
  intro b hb
  refine ⟨b, took_refl b, ?_⟩
  rw [decodeSymbol, if_pos hk, hc, readBit_end hb]
  cases inClosed b <;> rfl

end kinds

/-! ## The loop over the symbols -/

/-- The loop over bits that are decoded to symbols, up to TOTAL: each symbol is written as a byte (R215). -/
theorem decodeLoop_symbols (h : Huf) (n : Nat) (ps : List (List Bool × Byte)) (k : Nat) (rs r : List Bool) (b : Stream)
    (hp : ∀ p ∈ ps, Decodes h p.1 p.2) (hk : k + ps.length ≤ h.total) (hb : inBits b = ps.flatMap Prod.fst ++ r) :
    ∃ b', Took (ps.flatMap Prod.fst).length b b' ∧ inBits b' = r ∧
      decodeLoop h (ps.length + n) k (writeBools rs b) =
        decodeLoop h n (k + ps.length) (writeBools (rs ++ bytesBits (ps.map Prod.snd)) b') := by
  induction ps generalizing k rs b with
  | nil => exact ⟨b, took_refl b, hb, by simp⟩
  | cons p ps ih =>
    rw [List.length_cons] at hk
    rw [List.flatMap_cons, List.append_assoc] at hb
    obtain ⟨b₁, e, ht, hb₁⟩ := hp p List.mem_cons_self b _ hb
    obtain ⟨b', ht', hb', e'⟩ := ih (k + 1) (rs ++ byteBits p.2) b₁ (fun q hq => hp q (List.mem_cons_of_mem _ hq))
      (by omega) hb₁
    refine ⟨b', ?_, hb', ?_⟩
    · rw [List.flatMap_cons, List.length_append]
      exact ht.trans ht'
    · rw [List.length_cons, Nat.add_right_comm, decodeLoop, if_pos (by omega), decodeSymbol_writeBools, e]
      simp only [SymRead.mapStream, writeBits_eq_writeBools, ← writeBools_append]
      rw [show rs ++ natBits 8 p.2.toNat = rs ++ byteBits p.2 from rfl, e', List.map_cons, bytesBits_cons, List.append_assoc,
        Nat.add_assoc, Nat.add_comm 1]

theorem exec_hufDecode_codes {s : State} (hs : s.huf.hstate = .codes) (hm : s.huf.hmode = .decode) :
    exec .hufDecode s =
      ((decodeLoop s.huf (available s.bs + 1) 0 s.bs).toRun (decodeDone s) (raiseKept s)).finish s := by
  rw [exec_eq_finish, runCommand, runHufDecode_eq, checkPre_true (by simp [hs, hm])]

/-- HUF_DECODE once it has decoded the bits of `ps`, with a turn left for what comes after them (R215). -/
theorem exec_hufDecode_symbols {s : State} {ps : List (List Bool × Byte)} {r : List Bool} (hs : s.huf.hstate = .codes)
    (hm : s.huf.hmode = .decode) (hp : ∀ p ∈ ps, Decodes s.huf p.1 p.2) (hne : ∀ p ∈ ps, p.1 ≠ [])
    (hl : ps.length ≤ s.huf.total) (hb : inBits s.bs = ps.flatMap Prod.fst ++ r) :
    ∃ n b, Took (ps.flatMap Prod.fst).length s.bs b ∧ inBits b = r ∧
      exec .hufDecode s = ((decodeLoop s.huf (n + 1) ps.length (writeBools (bytesBits (ps.map Prod.snd)) b)).toRun
        (decodeDone s) (raiseKept s)).finish s := by
  have hturns : ps.length ≤ available s.bs := by
    have hbits : ps.length ≤ (ps.flatMap Prod.fst).length := by
      rw [List.length_flatMap]
      simpa using List.length_le_sum_of_one_le (ps.map fun p => p.1.length)
        (List.forall_mem_map.2 fun p h => List.length_pos_iff.2 (hne p h))
    have hlen := length_inBits_le_available s.bs
    rw [hb, List.length_append] at hlen
    omega
  obtain ⟨n, hn⟩ : ∃ n, available s.bs + 1 = ps.length + (n + 1) := ⟨available s.bs - ps.length, by omega⟩
  obtain ⟨b, ht, hb', e⟩ := decodeLoop_symbols s.huf (n + 1) ps 0 [] r s.bs hp (by omega) hb
  rw [Nat.zero_add] at e
  refine ⟨n, b, ht, hb', ?_⟩
  rw [exec_hufDecode_codes hs hm, hn]
  exact congrArg (fun l => (Loop.toRun l (decodeDone s) (raiseKept s)).finish s) e

/-- Drain beside writes. -/
theorem drain_writeBools (rs : List Bool) {b : Stream} (hc : inClosed b = true) :
    ∃ b', Drained b b' ∧ drain (writeBools rs b) = .ok () (writeBools rs b') := by
  obtain ⟨b', e, hd⟩ := (drain_eq (writeBools rs b)).1 (by rw [inClosed_writeBools, hc])
  obtain ⟨h1, h2, _, h4, h5⟩ := writeBools_reader rs b
  refine ⟨_, rfl, ?_⟩
  rw [e, hd]
  have hw := writeBools_withReader rs b (restAfterEnd b) b.rbuf 0 true (b.cntIn + BitVec.ofNat 32 (bytesBeforeEnd b).length)
  simp only [restAfterEnd, bytesBeforeEnd, Stream.withReader, h1, h2, h4, h5] at hw ⊢
  exact congrArg (Rd.ok ()) hw.symm

section ends
variable {s : State} {ps : List (List Bool × Byte)} {r : List Bool} (hs : s.huf.hstate = .codes)
  (hm : s.huf.hmode = .decode) (hok : PackerOk s.bs) (hp : ∀ p ∈ ps, Decodes s.huf p.1 p.2) (hne : ∀ p ∈ ps, p.1 ≠ [])
  (hb : inBits s.bs = ps.flatMap Prod.fst ++ r) (hc : inClosed s.bs = true)
include hs hm hok hp hne hb hc

/-- After TOTAL symbols the rest of the stream is drained and End is put (R215). -/
theorem exec_hufDecode_total (hl : ps.length = s.huf.total) :
    ∃ b₁ b₂ b₃, Took (ps.flatMap Prod.fst).length s.bs b₁ ∧ Drained b₁ b₂ ∧
      Closed true (bytesBits (ps.map Prod.snd)) b₂ b₃ ∧
      exec .hufDecode s = .next { s with bs := b₃, huf := { s.huf with hstate := .done }, busy := false, done := true } := by
  obtain ⟨n, b₁, ht, _, e⟩ := exec_hufDecode_symbols hs hm hp hne hl.le hb
  obtain ⟨b₂, hd, e₂⟩ := drain_writeBools (bytesBits (ps.map Prod.snd)) (ht.inClosed.trans hc)
  have hok₂ : PackerOk b₂ := by
    rw [hd]
    exact ht.packerOk hok
  refine ⟨b₁, b₂, _, ht, hd, closed_finalize (writeBools_wrote _ _ hok₂), ?_⟩
  rw [e, decodeLoop, if_neg (by omega)]
  simp only [Loop.toRun, decodeDone, e₂]
  rfl

/-- Where the stream ends first, TRUNC is set and the symbols so far are put with End (R217). -/
theorem exec_hufDecode_cut (hl : ps.length < s.huf.total) (hr : Exhausts s.huf r) :
    ∃ b₁ b₂, ReachedEnd s.bs b₁ ∧ Closed true (bytesBits (ps.map Prod.snd)) b₁ b₂ ∧
      exec .hufDecode s =
        .next { s with bs := b₂, huf := { s.huf with trunc := true, hstate := .done }, busy := false, done := true } := by
  obtain ⟨n, b₁, ht, hb₁, e⟩ := exec_hufDecode_symbols hs hm hp hne hl.le hb
  obtain ⟨b₂, ht₂, e₂⟩ := hr b₁ hb₁
  have hend : ReachedEnd s.bs (atEnd b₂) := by
    refine reachedEnd_of_took ?_ hc
    rw [hb, List.length_append]
    exact ht.trans ht₂
  refine ⟨_, _, hend, closed_finalize (writeBools_wrote (bytesBits (ps.map Prod.snd)) _ (hend.packerOk hok)), ?_⟩
  rw [e, decodeLoop, if_pos hl, decodeSymbol_writeBools, e₂, ht.inClosed, hc]
  rfl

end ends

/-! ## Streams without their End -/

theorem readBit_open {b : Stream} (hc : inClosed b = false) :
    (∃ x b', readBit b = .ok x b' ∧ inClosed b' = false) ∨ ∃ b', readBit b = .wait b' := by
  match hi : inBits b with
  | [] => exact .inr ⟨b, by rw [readBit_end hi, hc]; rfl⟩
  | x :: r =>
    obtain ⟨b', e, _, ht⟩ := readBit_ok hi
    exact .inl ⟨x, b', e, ht.inClosed.trans hc⟩

/-- Without the End no symbol meets it (20_memory.md R76). -/
def SymOpen : SymRead → Prop
  | .sym _ b => inClosed b = false
  | .eod _ => False
  | .wait _ => True
  | .fault _ => True

theorem descend_open (h : Huf) (n i : Nat) {b : Stream} (hc : inClosed b = false) : SymOpen (descend h n i b) := by
  induction n generalizing i b with
  | zero => trivial
  | succ n ih =>
    unfold descend
    split
    · trivial
    · exact hc
    · rcases readBit_open hc with ⟨x, b', e, hc'⟩ | ⟨b', e⟩
      · rw [e]
        exact ih _ hc'
      · rw [e]
        trivial

theorem decodeSymbol_open (h : Huf) {b : Stream} (hc : inClosed b = false) : SymOpen (decodeSymbol h b) := by
  unfold decodeSymbol
  split
  · split
    · rcases readBit_open hc with ⟨x, b', e, hc'⟩ | ⟨b', e⟩
      · rw [e]
        exact hc'
      · rw [e]
        trivial
    · trivial
  · exact descend_open h _ _ hc

/-- Without the End the loop is not cut short, and what it leaves has no End (20_memory.md R76). -/
theorem decodeLoop_open (h : Huf) (n k : Nat) {b : Stream} (hc : inClosed b = false) {cut : Bool} {b' : Stream}
    (e : decodeLoop h n k b = .done cut b') : cut = false ∧ inClosed b' = false := by
  induction n generalizing k b with
  | zero =>
    rw [decodeLoop] at e
    split at e
    · cases e
    · cases e
      exact ⟨rfl, hc⟩
  | succ n ih =>
    rw [decodeLoop] at e
    split at e
    · have ho := decodeSymbol_open h hc
      cases hd : decodeSymbol h b with
      | sym c b₁ =>
        rw [hd] at e ho
        exact ih _ (by rw [writeBits_eq_writeBools, inClosed_writeBools]; exact ho) e
      | eod b₁ => rw [hd] at ho; exact ho.elim
      | wait b₁ => rw [hd] at e; cases e
      | fault x => rw [hd] at e; cases e
    · cases e
      exact ⟨rfl, hc⟩

/-- Without the End HUF_DECODE waits. -/
theorem exec_hufDecode_open {s : State} (hs : s.huf.hstate = .codes) (hm : s.huf.hmode = .decode) (ht : TreeOk s.huf)
    (hc : inClosed s.bs = false) : exec .hufDecode s = .next s := by
  have hfault := decodeLoop_ne_fault ht (available s.bs + 1) 0 s.bs
  have hends := decodeLoop_ends s.huf (available s.bs + 1) 0 s.bs
  rw [exec_hufDecode_codes hs hm]
  cases e : decodeLoop s.huf (available s.bs + 1) 0 s.bs with
  | done cut b =>
    obtain ⟨rfl, hc'⟩ := decodeLoop_open s.huf _ _ hc e
    obtain ⟨b', e'⟩ := (drain_eq b).2 hc'
    simp only [Loop.toRun, decodeDone, e', finish_wait]
  | raise c x y b => rw [e] at hends; exact hends.elim
  | wait b => rfl
  | fault x => exact absurd e (hfault x (Nat.lt_succ_self _))

/-! ## HUF_DECODE -/

/-- The bits of a stream, each for one symbol `c` (R216). -/
def bitsOf (c : Byte) (bits : List Bool) : List (List Bool × Byte) := bits.map (fun x => ([x], c))

theorem bitsOf_bits (c : Byte) (bits : List Bool) : (bitsOf c bits).flatMap Prod.fst = bits := by
  simp [bitsOf, List.flatMap_map]

theorem bitsOf_symbols (c : Byte) (bits : List Bool) : (bitsOf c bits).map Prod.snd = List.replicate bits.length c := by
  simp [bitsOf, Function.comp_def]

theorem bitsOf_length (c : Byte) (bits : List Bool) : (bitsOf c bits).length = bits.length := List.length_map _

/-- On a full tree no leaf is reached without a bit; an empty tree has nothing to decode. -/
theorem leafPath_ne_nil {h : Huf} (ht : TreeOk h) (hk : h.tkind ≠ .single) (h0 : 0 < h.total) {p : List Bool} {c : Byte}
    (hp : leafPath h p c) : p ≠ [] := by
  rintro rfl
  obtain ⟨g, hp⟩ := hp
  match hkind : h.tkind with
  | .empty => exact absurd (ht.1 hkind) h0.ne'
  | .single => exact hk hkind
  | .full =>
    obtain ⟨⟨_, _, _, hroot⟩, _⟩ := ht.2.2 hkind
    rw [follow, hroot] at hp
    cases hp

/-- Settles O47: the symbols of a full tree and of a single leaf, each to TOTAL or to the End, and the wait. -/
theorem hufDecode : Obligations.HufDecode := by
  unfold Obligations.HufDecode
  refine fun s hs hm hok ht => ⟨fun ps r hc hk hp hb => ?_, fun c g hc hk hleaf => ?_, exec_hufDecode_open hs hm ht⟩
  · have hdec : ∀ p ∈ ps, Decodes s.huf p.1 p.2 := fun p h => decodes_of_leafPath hk (hp p h)
    have hne : ps.length ≤ s.huf.total → ∀ p ∈ ps, p.1 ≠ [] := fun hl p h =>
      leafPath_ne_nil ht hk ((List.length_pos_of_mem h).trans_le hl) (hp p h)
    exact ⟨fun hl => exec_hufDecode_total hs hm hok hdec (hne hl.le) hb hc hl,
      fun hl hr => exec_hufDecode_cut hs hm hok hdec (hne hl.le) hb hc hl (exhausts_of_internal hk hr)⟩
  · have hdec : ∀ bits, ∀ p ∈ bitsOf c bits, Decodes s.huf p.1 p.2 := fun bits p h => by
      obtain ⟨x, _, rfl⟩ := List.mem_map.1 h
      exact decodes_single hk hleaf x
    have hne : ∀ bits, ∀ p ∈ bitsOf c bits, p.1 ≠ [] := fun bits p h => by
      obtain ⟨x, _, rfl⟩ := List.mem_map.1 h
      exact List.cons_ne_nil x []
    refine ⟨fun hl => ?_, fun hl => ?_⟩
    · have hlen : ((inBits s.bs).take s.huf.total).length = s.huf.total := by rw [List.length_take, Nat.min_eq_left hl]
      have := exec_hufDecode_total hs hm hok (hdec ((inBits s.bs).take s.huf.total)) (hne _)
        (r := (inBits s.bs).drop s.huf.total) (by rw [bitsOf_bits, List.take_append_drop]) hc
        (by rw [bitsOf_length, hlen])
      rwa [bitsOf_bits, bitsOf_symbols, hlen] at this
    · have := exec_hufDecode_cut hs hm hok (hdec (inBits s.bs)) (hne _) (r := []) (by rw [bitsOf_bits, List.append_nil]) hc
        (by rw [bitsOf_length]; exact hl) (exhausts_single hk hleaf)
      rwa [bitsOf_symbols] at this

end Sys2Proof.Machine

/-! PROOF LAYER. The Huffman round trip: what the encoder job leaves in OUT, bit by bit, and what the decoder job makes of it. -/

namespace Sys2Proof.Machine

/-! ## Commands one after the other -/

theorem execAll_cons {i : Instr} {s t : State} (h : exec i s = .next t) (is : List Instr) :
    execAll (i :: is) s = execAll is t := by
  rw [execAll, h]

theorem execAll_single (i : Instr) {s t : State} (h : exec i s = .next t) : execAll [i] s = .next t :=
  execAll_cons h []

/-- The state after HUF_INIT (42_huffman.md R180). -/
def hufStarted (s : State) : State := complete ((s.withBs (streamInit s.bs)).withHuf (hufInitUnit s.huf))

theorem exec_hufInit_eq (s : State) : exec .hufInit s = .next (hufStarted s) := exec_eq_finish .hufInit s

@[simp] theorem hufStarted_params (s : State) : (hufStarted s).params = s.params := by simp [hufStarted]

@[simp] theorem hufStarted_freq (s : State) : (hufStarted s).huf.freq = Vector.replicate 256 0 := by simp [hufStarted]

theorem packerOk_hufStarted (s : State) : PackerOk (hufStarted s).bs := (streamOk_init s.bs).1

/-! ## Bits of bytes -/

theorem byteBits_inj {x y : Byte} (h : byteBits x = byteBits y) : x = y := by
  have hn := congrArg bitsToNat h
  rw [byteBits, byteBits, bitsToNat_natBits, bitsToNat_natBits, Nat.mod_eq_of_lt x.isLt, Nat.mod_eq_of_lt y.isLt] at hn
  exact BitVec.eq_of_toNat_eq hn

/-- Bytes are known by their bits. -/
theorem bytesBits_inj {xs ys : List Byte} (h : bytesBits xs = bytesBits ys) : xs = ys := by
  induction xs generalizing ys with
  | nil => cases ys with
    | nil => rfl
    | cons y ys => exact absurd (congrArg List.length h) (by simp; omega)
  | cons x xs ih => cases ys with
    | nil => exact absurd (congrArg List.length h) (by simp)
    | cons y ys =>
      rw [bytesBits_cons, bytesBits_cons] at h
      obtain ⟨hx, hxs⟩ := List.append_inj h (by simp)
      rw [byteBits_inj hx, ih hxs]

/-- Whole bytes written from a byte boundary are the bytes put. -/
theorem Closed.bytes_eq {xs : List Byte} {b b' : Stream} (h : Closed true (bytesBits xs) b b') (h0 : b.wcnt = 0) :
    b'.out = b.out ++ xs.map .byte ++ [.stop] := by
  obtain ⟨ys, ho, hb⟩ := h.bytes h0
  have hpad : padding (bytesBits xs).length = 0 := by
    rw [bytesBits_length, padding]
    omega
  rw [hpad, List.replicate_zero, List.append_nil] at hb
  rw [ho, bytesBits_inj hb]
  rfl

/-! ## The header -/

/-- Fields of one width in a row. -/
theorem take_drop_flatMap {α β : Type} (g : α → List β) {w : Nat} (hw : ∀ a, (g a).length = w) (l : List α) (r : List β)
    {k : Nat} (hk : k < l.length) : ((l.flatMap g ++ r).drop (k * w)).take w = g l[k] := by
  induction l generalizing k with
  | nil => exact absurd hk (Nat.not_lt_zero k)
  | cons a l ih =>
    rw [List.flatMap_cons, List.append_assoc]
    cases k with
    | zero => rw [Nat.zero_mul, List.drop_zero, List.take_left' (hw a), List.getElem_cons_zero]
    | succ k =>
      rw [Nat.succ_mul, Nat.add_comm, ← List.drop_drop, List.drop_left' (hw a), ih (by simpa using hk),
        List.getElem_cons_succ]

theorem headerBits_length (w : Nat) (f : Vector Nat 256) : (headerBits w f).length = 256 * w := by
  simp only [headerBits, List.length_flatMap, natBits_length, List.map_const', allSymbols_length, List.sum_replicate,
    smul_eq_mul]

/-- The header's field of a symbol is its counter (42_huffman.md R183). -/
theorem headerBits_field {w : Nat} {f : Vector Nat 256} {c : Byte} (hc : symGet f c < 2 ^ w) (r : List Bool) :
    bitsToNat (((headerBits w f ++ r).drop (c.toNat * w)).take w) = symGet f c := by
  have hlt : c.toNat < allSymbols.length := by
    rw [allSymbols_length]
    exact c.isLt
  rw [headerBits, take_drop_flatMap _ (fun d => natBits_length w _) allSymbols r hlt, bitsToNat_natBits, allSymbols_getElem,
    byte_ofNat_toNat, Nat.mod_eq_of_lt hc]

/-! ## The counters of a byte sequence -/

/-- The counters of the bytes `xs` (R181). -/
def countsOf (xs : List Byte) : Vector Nat 256 := countAll (Vector.replicate 256 0) xs

theorem symGet_countsOf (xs : List Byte) (c : Byte) : symGet (countsOf xs) c = xs.count c := by
  rw [countsOf, symGet_countAll, symGet_replicate, Nat.zero_add]

/-- TOTAL is the number of bytes (R181). -/
theorem sum_countsOf (xs : List Byte) : (allSymbols.map (symGet (countsOf xs))).sum = xs.length := by
  have hall : ∀ x ∈ (xs : Multiset Byte), x ∈ allSymbols.toFinset := fun x _ => List.mem_toFinset.2 (mem_allSymbols x)
  rw [← List.sum_toFinset _ allSymbols_nodup, ← Multiset.coe_card, ← Multiset.sum_count_eq_card hall]
  exact Finset.sum_congr rfl fun c _ => by rw [symGet_countsOf, Multiset.coe_count]

theorem symGet_countsOf_ne_zero {xs : List Byte} {x : Byte} (hx : x ∈ xs) : symGet (countsOf xs) x ≠ 0 := by
  rw [symGet_countsOf]
  exact (List.count_pos_iff.2 hx).ne'

/-! ## The encoder job -/

/-- HUF_ENCODE on a unit with the counters and the codes of `xs`, from a byte boundary: whole bytes that hold the header, the
codes and the padding, then End (R210). -/
theorem exec_hufEncode_pass {s : State} {xs : List Byte} {rest : List Token} (hs : s.huf.hstate = .codes)
    (hm : s.huf.hmode = .encode) (hp : PackerOk s.bs) (h0 : s.bs.wcnt = 0) (hf : s.huf.freq = countsOf xs)
    (hc : s.huf.code = codesOf (countsOf xs)) (ht : s.huf.total = xs.length) (hi : s.bs.inp = xs.map .byte ++ .stop :: rest) :
    ∃ t zs pad, exec .hufEncode s = .next t ∧ t.err = s.err ∧ t.bs.inp = rest ∧
      t.bs.out = s.bs.out ++ zs.map .byte ++ [.stop] ∧
      bytesBits zs = headerBits s.params.freqW (countsOf xs) ++ (xs.flatMap (symGet (codesOf (countsOf xs))) ++ pad) := by
  have hcodes : ∀ x ∈ xs, symGet s.huf.code x ≠ [] := fun x hx => by
    rw [hc]
    exact (not_congr (codesOf_eq_nil_iff _ x)).2 (symGet_countsOf_ne_zero hx)
  obtain ⟨b, hcl, e⟩ := (hufEncode s xs hs hm hp hcodes ht.ge).1 rest hi ht.symm
  obtain ⟨zs, ho, hb⟩ := hcl.bytes h0
  rw [hf, hc, List.append_assoc] at hb
  have hin : b.inp = rest := by
    obtain ⟨_, e, _⟩ := hcl
    rw [e]
    rfl
  exact ⟨_, zs, _, e, rfl, hin, ho, hb⟩

/-- The state after HUF_INIT and HUF_COUNT over the bytes `xs` (R180, R181). -/
def hufCounted (s : State) (xs : List Byte) (rest : List Token) : State :=
  complete (((hufStarted s).withBs (tookBytes xs true rest (hufStarted s).bs)).withHuf
    { (hufStarted s).huf with freq := countsOf xs, total := xs.length, hmode := .encode, hstate := .freq })

section hufCounted
variable (s : State) (xs : List Byte) (rest : List Token)

@[simp] theorem hufCounted_params : (hufCounted s xs rest).params = s.params := by simp [hufCounted, hufStarted]
@[simp] theorem hufCounted_err : (hufCounted s xs rest).err = s.err := by simp [hufCounted, hufStarted]
@[simp] theorem hufCounted_inp : (hufCounted s xs rest).bs.inp = rest := by simp [hufCounted, hufStarted, tookBytes]
@[simp] theorem hufCounted_out : (hufCounted s xs rest).bs.out = s.bs.out := by simp [hufCounted, hufStarted, tookBytes]
@[simp] theorem hufCounted_wcnt : (hufCounted s xs rest).bs.wcnt = 0 := by simp [hufCounted, hufStarted, tookBytes]
@[simp] theorem hufCounted_freq : (hufCounted s xs rest).huf.freq = countsOf xs := by simp [hufCounted, hufStarted]
@[simp] theorem hufCounted_total : (hufCounted s xs rest).huf.total = xs.length := by simp [hufCounted, hufStarted]
@[simp] theorem hufCounted_hstate : (hufCounted s xs rest).huf.hstate = .freq := by simp [hufCounted, hufStarted]
@[simp] theorem hufCounted_hmode : (hufCounted s xs rest).huf.hmode = .encode := by simp [hufCounted, hufStarted]
theorem hufCounted_packerOk : PackerOk (hufCounted s xs rest).bs := by
  simp [PackerOk, hufCounted, hufStarted, tookBytes]

end hufCounted

theorem exec_hufCount_started {s : State} {xs : List Byte} {rest : List Token}
    (hx : ∀ c, xs.count c ≤ 2 ^ s.params.freqW - 1) (hi : s.bs.inp = xs.map .byte ++ .stop :: rest) :
    exec .hufCount (hufStarted s) = .next (hufCounted s xs rest) := by
  obtain ⟨f, hf, e⟩ := (hufCount (hufStarted s) xs rfl (fun c => by simpa using hx c)).1 rest hi
  obtain rfl : f = countsOf xs := table_ext fun c => by simpa [symGet_countsOf] using hf c
  rw [e, sum_countsOf]
  rfl

/-- An encoder job with the bytes `xs` on both passes (R180, R181, R190, R200, R210). -/
theorem encoder_job {s : State} {xs : List Byte} {rest : List Token} (hx : ∀ c, xs.count c ≤ 2 ^ s.params.freqW - 1)
    (hi : s.bs.inp = xs.map .byte ++ .stop :: (xs.map .byte ++ .stop :: rest)) :
    ∃ t zs pad, execAll [.hufInit, .hufCount, .hufBuild, .hufCodes, .hufEncode] s = .next t ∧ t.err = s.err ∧
      t.bs.inp = rest ∧ t.bs.out = s.bs.out ++ zs.map .byte ++ [.stop] ∧
      bytesBits zs = headerBits s.params.freqW (countsOf xs) ++ (xs.flatMap (symGet (codesOf (countsOf xs))) ++ pad) := by
  rw [execAll_cons (exec_hufInit_eq s), execAll_cons (exec_hufCount_started hx hi),
    execAll_build_codes (hufCounted_hstate _ _ _)]
  obtain ⟨t, zs, pad, e, ht⟩ := exec_hufEncode_pass (s := hufCoded (hufCounted s xs (xs.map .byte ++ .stop :: rest)))
    (xs := xs) (rest := rest) (by simp) (by simp) (by simpa using hufCounted_packerOk _ _ _) (by simp) (by simp) (by simp)
    (by simp) (by simp)
  exact ⟨t, zs, pad, execAll_single _ e, by simpa using ht⟩

/-! ## The decoder job -/

/-- On the tree of the counters a symbol's code is decoded to the symbol (R215, R216). -/
theorem decodes_codesOf (h : Huf) {f : Vector Nat 256} {c : Byte} (hc : symGet f c ≠ 0) :
    Decodes (withTree h (buildTree f)) (symGet (codesOf f) c) c := by
  have hmem := (mem_leafSymbols f c).2 hc
  have hne := (not_congr (codesOf_eq_nil_iff f c)).2 hc
  rcases leafSymbols_cases f with h0 | ⟨d, h1⟩ | h2
  · rw [h0] at hmem
    cases hmem
  · rw [h1, List.mem_singleton] at hmem
    subst hmem
    rw [codesOf_single h1, symGet_symSet, if_pos rfl]
    refine decodes_single (g := symGet f c) ?_ ?_ false
    · rw [buildTree_single f c h1]
      rfl
    · rw [nodeAt_withTree, buildTree_single f c h1]
      rfl
  · have hk : (withTree h (buildTree f)).tkind = .full := (buildTree_full f h2).1
    exact decodes_of_leafPath (by rw [hk]; nofun) ((codesOf_full h2 h c).1 hne)

/-- What reads leave of the stream ends where the stream ends. -/
theorem Took.restAfterEnd {n : Nat} {b b' : Stream} (h : Took n b b') (he : b.eodf = false) :
    restAfterEnd b' = restAfterEnd b := by
  have he' := h.eodf
  obtain ⟨xs, e, _⟩ := h
  rw [Machine.restAfterEnd, Machine.restAfterEnd, he', he, e, dropWhile_bytes_append]
  rfl

section stream
variable {b : Stream} {zs : List Byte} {rest : List Token} (hi : b.inp = zs.map .byte ++ .stop :: rest)
include hi

theorem inBits_rdRestart : inBits (rdRestart b) = bytesBits zs := by
  simp [inBits, unreadBits, natBits, hi, leadingBytes_bytes_append, leadingBytes]

theorem inClosed_rdRestart : inClosed (rdRestart b) = true := by
  simp [inClosed, hi]

theorem restAfterEnd_rdRestart : restAfterEnd (rdRestart b) = rest := by
  rw [restAfterEnd, rdRestart_eodf, rdRestart_inp, hi, dropWhile_bytes_append]
  simp

end stream

/-- HUF_DECODE on a unit with the tree of the counters `f`, from byte boundaries: the codes of TOTAL bytes give these bytes, then
End (R215). -/
theorem exec_hufDecode_pass {s : State} {u : Huf} {xs : List Byte} {f : Vector Nat 256} {pad : List Bool}
    (hs : s.huf.hstate = .codes) (hm : s.huf.hmode = .decode) (hp : PackerOk s.bs) (h0 : s.bs.wcnt = 0)
    (he : s.bs.eodf = false) (hc : inClosed s.bs = true) (hu : s.huf = withTree u (buildTree f))
    (hx : ∀ x ∈ xs, symGet f x ≠ 0) (ht : s.huf.total = xs.length)
    (hb : inBits s.bs = xs.flatMap (symGet (codesOf f)) ++ pad) :
    ∃ t, exec .hufDecode s = .next t ∧ t.err = s.err ∧ t.huf.trunc = s.huf.trunc ∧ t.bs.inp = restAfterEnd s.bs ∧
      t.bs.out = s.bs.out ++ xs.map .byte ++ [.stop] := by
  obtain ⟨b₁, b₂, b₃, ht₁, hdr, hcl, e⟩ :=
    exec_hufDecode_total (ps := xs.map fun x => (symGet (codesOf f) x, x)) (r := pad) hs hm hp
      (by rw [hu]; exact List.forall_mem_map.2 fun x h => decodes_codesOf u (hx x h))
      (List.forall_mem_map.2 fun x h => (not_congr (codesOf_eq_nil_iff f x)).2 (hx x h))
      (by rw [hb, List.flatMap_map]) hc (by rw [List.length_map, ht])
  have hin : b₂.inp = restAfterEnd s.bs := by
    rw [hdr]
    exact ht₁.restAfterEnd he
  have hfresh : b₂.wcnt = 0 ∧ b₂.out = s.bs.out := by
    obtain ⟨_, _, e, _⟩ := ht₁
    rw [hdr, e]
    exact ⟨h0, rfl⟩
  have hin₃ : b₃.inp = b₂.inp := by
    obtain ⟨_, e, _⟩ := hcl
    rw [e]
  rw [List.map_map, show Prod.snd ∘ (fun x => (symGet (codesOf f) x, x)) = id from rfl, List.map_id] at hcl
  exact ⟨_, e, rfl, rfl, hin₃.trans hin, by rw [hcl.bytes_eq hfresh.1, hfresh.2]⟩

/-- The state after HUF_INIT and HUF_RDHDR, which has loaded the counters `f` of `n` symbols and left the stream at `b`
(R180, R182). -/
def hufLoaded (d : State) (f : Vector Nat 256) (n : Nat) (b : Stream) : State :=
  complete (((hufStarted d).withBs b).withHuf
    { (hufStarted d).huf with freq := f, total := n, hmode := .decode, hstate := .freq })

section hufLoaded
variable (d : State) (f : Vector Nat 256) (n : Nat) (b : Stream)

@[simp] theorem hufLoaded_err : (hufLoaded d f n b).err = d.err := by simp [hufLoaded, hufStarted]
@[simp] theorem hufLoaded_bs : (hufLoaded d f n b).bs = b := by simp [hufLoaded, hufStarted]
@[simp] theorem hufLoaded_freq : (hufLoaded d f n b).huf.freq = f := by simp [hufLoaded, hufStarted]
@[simp] theorem hufLoaded_total : (hufLoaded d f n b).huf.total = n := by simp [hufLoaded, hufStarted]
@[simp] theorem hufLoaded_hstate : (hufLoaded d f n b).huf.hstate = .freq := by simp [hufLoaded, hufStarted]
@[simp] theorem hufLoaded_hmode : (hufLoaded d f n b).huf.hmode = .decode := by simp [hufLoaded, hufStarted]
@[simp] theorem hufLoaded_trunc : (hufLoaded d f n b).huf.trunc = false := by simp [hufLoaded, hufStarted]

end hufLoaded

/-- HUF_RDHDR right after HUF_INIT, over bytes that hold the header of `f` (R182, R183). -/
theorem exec_hufRdhdr_started {d : State} {zs : List Byte} {f : Vector Nat 256} {bits : List Bool} {rest : List Token}
    (hf : ∀ c, symGet f c < 2 ^ d.params.freqW) (hz : bytesBits zs = headerBits d.params.freqW f ++ bits)
    (hi : d.bs.inp = zs.map .byte ++ .stop :: rest) :
    ∃ b, Took (256 * d.params.freqW) (rdRestart (hufStarted d).bs) b ∧ inBits b = bits ∧
      exec .hufRdhdr (hufStarted d) = .next (hufLoaded d f (allSymbols.map (symGet f)).sum b) := by
  have hbits : inBits (rdRestart (hufStarted d).bs) = bytesBits zs := inBits_rdRestart hi
  have hlen := headerBits_length d.params.freqW f
  obtain ⟨b, g, ht, hg, e⟩ := (hufRdhdr (hufStarted d) rfl (packerOk_hufStarted d)).1 (by
    rw [hufStarted_params, hbits, hz, List.length_append, hlen]
    exact Nat.le_add_right _ _)
  rw [hufStarted_params] at ht
  obtain rfl : g = f := table_ext fun c => by
    rw [hg, hufStarted_params, hbits, hz]
    exact headerBits_field (hf c) _
  refine ⟨b, ht, ?_, e⟩
  rw [inBits_took ht, hbits, hz]
  exact List.drop_left' hlen

/-- A decoder job over bytes that hold the header of `f` and the codes of TOTAL bytes (R180, R182, R190, R200, R215). -/
theorem decoder_job {d : State} {xs zs : List Byte} {f : Vector Nat 256} {pad : List Bool} {rest : List Token}
    (hf : ∀ c, symGet f c < 2 ^ d.params.freqW) (hx : ∀ x ∈ xs, symGet f x ≠ 0)
    (hn : (allSymbols.map (symGet f)).sum = xs.length)
    (hz : bytesBits zs = headerBits d.params.freqW f ++ (xs.flatMap (symGet (codesOf f)) ++ pad))
    (hi : d.bs.inp = zs.map .byte ++ .stop :: rest) :
    ∃ u, execAll [.hufInit, .hufRdhdr, .hufBuild, .hufCodes, .hufDecode] d = .next u ∧ u.err = d.err ∧
      u.huf.trunc = false ∧ u.bs.inp = rest ∧ u.bs.out = d.bs.out ++ xs.map .byte ++ [.stop] := by
  obtain ⟨b, ht, hb, e₂⟩ := exec_hufRdhdr_started hf hz hi
  have hw : b.wcnt = 0 ∧ b.out = d.bs.out := by
    obtain ⟨_, _, e, _⟩ := ht
    rw [e]
    exact ⟨rfl, rfl⟩
  obtain ⟨u, e, heu, htu, hiu, hou⟩ := exec_hufDecode_pass (s := hufCoded (hufLoaded d f _ b)) (f := f)
    (hufCoded_hstate _) (by simp) (ht.packerOk (packerOk_hufStarted d)) (by simpa using hw.1) (by simpa using ht.eodf)
    (ht.inClosed.trans (inClosed_rdRestart hi)) rfl hx (by simpa using hn) hb
  rw [execAll_cons (exec_hufInit_eq d), execAll_cons e₂, execAll_build_codes (hufLoaded_hstate _ _ _ _)]
  refine ⟨u, execAll_single _ e, by simpa using heu, by simpa using htu,
    hiu.trans ((ht.restAfterEnd rfl).trans (restAfterEnd_rdRestart hi)), ?_⟩
  rw [hou, hufCoded_bs, hufLoaded_bs, hw.2]

/-- Settles O48: the decoder's header gives it the encoder's counters, so it has the encoder's tree and codes. -/
theorem huffmanRoundTrip : Obligations.HuffmanRoundTrip := by
  unfold Obligations.HuffmanRoundTrip
  intro s d xs rest rest' hs hd hw hx hi
  have hfw : d.params.freqW = s.params.freqW := by rw [Params.freqW, Params.freqW, hw]
  obtain ⟨t, zs, pad, e, het, hti, hto, hz⟩ := encoder_job hx hi
  have hdec := fun hdi : d.bs.inp = zs.map .byte ++ .stop :: rest' => decoder_job (f := countsOf xs) (pad := pad)
    (fun c => by
      rw [symGet_countsOf, hfw]
      exact (hx c).trans_lt (Nat.sub_lt (Nat.two_pow_pos _) Nat.one_pos))
    (fun x => symGet_countsOf_ne_zero) (sum_countsOf xs) (by rw [hfw]; exact hz) hdi
  by_cases hdi : d.bs.inp = zs.map .byte ++ .stop :: rest'
  · obtain ⟨u, eu, heu, hu⟩ := hdec hdi
    exact ⟨t, u, zs, e, het.trans hs, hti, hto, fun _ => ⟨eu, heu.trans hd, hu⟩⟩
  · exact ⟨t, d, zs, e, het.trans hs, hti, hto, fun h => absurd h hdi⟩

end Sys2Proof.Machine

/-! PROOF LAYER. The LZW unit: LZW_INIT, Insert and the search, NEXT and RESETS after several Inserts, what a code stands for in
the decoder, and the codes the encoder emits. -/

namespace Sys2Proof.Machine

/-! ## LZW_INIT -/

theorem checkCodeWidth_legal {s : State} (body : Run) (h8 : 8 ≤ s.curCfg.toNat) (hm : s.curCfg.toNat ≤ s.params.lzwNmax) :
    checkCodeWidth s body = body :=
  if_neg (not_or.2 ⟨Nat.not_lt.2 h8, Nat.not_lt.2 hm⟩)

theorem checkCodeWidth_illegal {s : State} (body : Run) (h : s.curCfg.toNat < 8 ∨ s.params.lzwNmax < s.curCfg.toNat) :
    checkCodeWidth s body = .raise .eCfg (s.curCfg.setWidth 32) s :=
  if_pos h

/-- The state after LZW_INIT with a legal width (43_lzw.md R241). -/
def lzwStarted (s : State) : State := complete ((s.withBs (streamInit s.bs)).withLzw (lzwInitUnit s.curCfg s.lzw))

theorem exec_lzwInit_legal {s : State} (h8 : 8 ≤ s.curCfg.toNat) (hm : s.curCfg.toNat ≤ s.params.lzwNmax) :
    exec .lzwInit s = .next (lzwStarted s) := by
  rw [exec_eq_finish]
  exact congrArg (Run.finish s) (checkCodeWidth_legal _ h8 hm)

/-- Settles O31: the check of the width lets the pseudocode run or raises E_CFG. -/
theorem lzwInit : Obligations.LzwInit := by
  unfold Obligations.LzwInit
  refine fun s => ⟨exec_lzwInit_legal, fun h => ?_⟩
  rw [exec_eq_finish]
  exact congrArg (Run.finish s) (checkCodeWidth_illegal _ h)

/-! ## Insert and the search -/

/-- Settles O49: Insert below the ceiling, at it, and above it, where LN = 8 keeps it; and the search, both ways. -/
theorem lzwInsertAndSearch : Obligations.LzwInsertAndSearch := by
  unfold Obligations.LzwInsertAndSearch
  refine ⟨fun _ _ _ => lzwInsert_below, fun _ _ _ => lzwInsert_full, fun p c z hl hn => ?_,
    fun _ _ _ _ => findEntry_some, fun _ _ _ _ _ => findEntry_none⟩
  have hle : lmax z ≤ 255 := lmax_le (by rw [hl]; decide)
  rw [lzwInsert_over (by omega), resetDict, ← hn]

/-! ## Counting Inserts -/

/-- NEXT and RESETS are those of `i` Inserts into a fresh dictionary with room for `m` entries (43_lzw.md R246). -/
structure InsertCount (m : Nat) (z : Lzw) (i : Nat) : Prop where
  room : lmax z = m + 255
  next : z.next = 256 + i % m
  resets : z.resets = BitVec.ofNat 32 (i / m)

theorem lmax_lzwInsert (p : Nat) (c : Byte) (z : Lzw) : lmax (lzwInsert p c z) = lmax z := by
  rw [lmax, lmax, (lzwInsert_kept p c z).1]

theorem lzwInsert_next {p : Nat} {c : Byte} {z : Lzw} (h : z.next < lmax z) : (lzwInsert p c z).next = z.next + 1 := by
  rw [lzwInsert_below h, writeEntry_next]

/-- An Insert counts one up: the last entry of the room resets the dictionary. -/
theorem InsertCount.insert {m i : Nat} {z : Lzw} (h : InsertCount m z i) (h0 : 0 < m) (p : Nat) (c : Byte) :
    InsertCount m (lzwInsert p c z) (i + 1) := by
  obtain ⟨hroom, hnext, hresets⟩ := h
  have hroom' := (lmax_lzwInsert p c z).trans hroom
  have hlt := Nat.mod_lt i h0
  have hi := Nat.mod_add_div i m
  by_cases hfull : i % m + 1 = m
  · obtain ⟨hq, hr⟩ : (i + 1) / m = i / m + 1 ∧ (i + 1) % m = 0 :=
      (Nat.div_mod_unique h0).2 ⟨by rw [Nat.mul_succ]; omega, h0⟩
    rw [lzwInsert_full (by omega)] at hroom' ⊢
    exact ⟨hroom', by rw [hr], by rw [hq, BitVec.ofNat_add, ← hresets]; rfl⟩
  · obtain ⟨hq, hr⟩ : (i + 1) / m = i / m ∧ (i + 1) % m = i % m + 1 :=
      (Nat.div_mod_unique h0).2 ⟨by omega, by omega⟩
    rw [lzwInsert_below (by omega)] at hroom' ⊢
    exact ⟨hroom', by rw [hr, writeEntry_next, hnext, Nat.add_assoc], by rw [hq, writeEntry_resets, hresets]⟩

theorem InsertCount.foldl {m i : Nat} {z : Lzw} (h : InsertCount m z i) (h0 : 0 < m) (es : List (Nat × Byte)) :
    InsertCount m (es.foldl (fun z e => lzwInsert e.1 e.2 z) z) (i + es.length) := by
  induction es generalizing z i with
  | nil => exact h
  | cons e es ih =>
    rw [List.length_cons, Nat.add_comm es.length, ← Nat.add_assoc]
    exact ih (h.insert h0 e.1 e.2)

/-- Settles O50: every Insert counts one up, and a fresh dictionary has counted none. -/
theorem lzwInsertCounts : Obligations.LzwInsertCounts := by
  unfold Obligations.LzwInsertCounts
  intro z es hl hn hr
  have hroom : lmax z = 2 ^ z.ln.toNat - 256 + 255 ∧ 0 < 2 ^ z.ln.toNat - 256 := by
    have := lmax_ge hl
    unfold lmax at *
    omega
  have hfresh : InsertCount (2 ^ z.ln.toNat - 256) z 0 :=
    ⟨hroom.1, by rw [hn, Nat.zero_mod], by rw [hr, Nat.zero_div]; rfl⟩
  have h := hfresh.foldl hroom.2 es
  rw [Nat.zero_add] at h
  exact ⟨h.next, h.resets⟩

/-! ## The dictionary's shape -/

section shape
variable {z : Lzw} (h : DictOk z)
include h

theorem DictOk.next_ge : 256 ≤ z.next := h.1
theorem DictOk.next_le (hl : 8 < z.ln.toNat) : z.next ≤ lmax z := h.2.1 hl
theorem DictOk.next_narrow (hl : z.ln.toNat ≤ 8) : z.next = 256 := h.2.2.1 hl
theorem DictOk.entry (k : Nat) (hk : 256 ≤ k) (hk' : k < z.next) : ∃ e, memGet z.dict k = some e ∧ e.parent < k :=
  h.2.2.2 k hk hk'

end shape

/-- A READY unit has the seeds alone (43_lzw.md R241). -/
theorem LzwOk.fresh {p : Params} {z : Lzw} (h : LzwOk p z) (hs : z.lstate = .ready) : z.next = 256 := by
  obtain ⟨_, _, _, _, _, _, hr⟩ := h
  exact (hr hs).1

/-! ## What a code stands for -/

/-- With NEXT = LMAX a code that is no seed is stale (43_lzw.md R255). -/
theorem resolveCode_stale {z : Lzw} (p : Nat) {k : Nat} (hk : 256 ≤ k) (hn : z.next = lmax z) :
    resolveCode (some p) z k = .unresolved := by
  rw [resolveCode, if_pos ⟨hn, hk⟩]

/-- A present code is its sequence (43_lzw.md R253). -/
theorem resolveCode_present {z : Lzw} (p : Nat) {k : Nat} (hn : z.next ≠ lmax z) (hk : k < z.next) :
    resolveCode (some p) z k = resolvedSeq (seqAt z k) := by
  rw [resolveCode, if_neg (fun h => hn h.1), if_pos hk]

/-- The KwK case (43_lzw.md R254). -/
theorem resolveCode_next {z : Lzw} {p : Nat} {x : Byte} {xs : List Byte} (hn : z.next ≠ lmax z)
    (hp : seqAt z p = some (x :: xs)) : resolveCode (some p) z z.next = .bytes (x :: xs ++ [x]) := by
  rw [resolveCode, if_neg (fun h => hn h.1), if_neg (Nat.lt_irrefl _), if_pos rfl, hp]
  rfl

theorem resolveCode_seed {z : Lzw} (hd : DictOk z) (pk : Option Nat) {k : Nat} (hk : k < 256) :
    resolveCode pk z k = .bytes [BitVec.ofNat 8 k] := by
  cases pk with
  | none => exact if_neg (Nat.not_le.2 hk)
  | some p =>
    rw [resolveCode, if_neg (fun h => absurd hk (Nat.not_lt.2 h.2)), if_pos (hk.trans_le hd.next_ge), seqAt_seed hk]
    rfl

theorem resolveCode_above {z : Lzw} (hd : DictOk z) (p : Nat) {k : Nat} (hk : z.next < k) :
    resolveCode (some p) z k = .unresolved := by
  by_cases hn : z.next = lmax z
  · exact resolveCode_stale p (hd.next_ge.trans hk.le) hn
  · rw [resolveCode, if_neg (fun h => hn h.1), if_neg (by omega), if_neg (by omega)]

/-- Settles O53: one branch of the decoder after the other; the KwK code is the one the next Insert writes. -/
theorem lzwResolve : Obligations.LzwResolve := by
  unfold Obligations.LzwResolve
  intro q z k hz _
  have hd := hz.dictOk
  refine ⟨resolveCode_seed hd none, fun hk => if_pos hk, fun p hp => ⟨resolveCode_seed hd (some p), resolveCode_stale p,
    fun hk hn hlt => ?_, fun hn hk => ?_, resolveCode_above hd p⟩⟩
  · obtain ⟨e, he, hlt'⟩ := hd.entry k hk hlt
    obtain ⟨x, xs, hx⟩ := seqAt_some hd e.parent (.inr (hlt'.trans hlt))
    refine ⟨e, x :: xs, he, hx, ?_⟩
    rw [resolveCode_present p hn hlt, seqAt_entry hd hk hlt he, hx]
    rfl
  · subst hk
    obtain ⟨x, xs, hx⟩ := seqAt_some hd p hp
    refine ⟨x :: xs, x, hx, rfl, resolveCode_next hn hx, fun hl => ?_⟩
    rw [seqAt_inserted hd hp hl hn, hx]
    rfl

/-! ## What the encoder emits -/

theorem lzwSpell_found {p k : Nat} {c : Byte} {z : Lzw} (h : findEntry p c z = some k) (cs : List Byte) :
    lzwSpell (some p) z (c :: cs) = lzwSpell (some k) z cs := by
  rw [lzwSpell, h]

theorem lzwSpell_emit {p : Nat} {c : Byte} {z : Lzw} (h : findEntry p c z = none) (cs : List Byte) :
    lzwSpell (some p) z (c :: cs) = (p :: (lzwSpell (some c.toNat) (lzwInsert p c z) cs).1,
      (lzwSpell (some c.toNat) (lzwInsert p c z) cs).2) := by
  rw [lzwSpell, h]

/-- A byte is a seed. -/
theorem validCode_byte (z : Lzw) (c : Byte) : ValidCode z c.toNat := .inl c.isLt

theorem ValidCode.lt {z : Lzw} {k : Nat} (hd : DictOk z) (hk : ValidCode z k) : k < max 256 (lmax z) := by
  rcases Nat.lt_or_ge 8 z.ln.toNat with hl | hl
  · have := lmax_ge hl
    have := hd.next_le hl
    rcases hk with hk | hk <;> omega
  · have := hd.next_narrow hl
    rcases hk with hk | hk <;> omega

/-- Only valid codes are emitted, and none is LMAX unless it is a seed (43_lzw.md R244, R251). -/
theorem lzwSpell_lt {z : Lzw} {p : Nat} (hd : DictOk z) (hp : ValidCode z p) (cs : List Byte) :
    ∀ k ∈ (lzwSpell (some p) z cs).1, k < max 256 (lmax z) := by
  induction cs generalizing p z with
  | nil => simpa [lzwSpell] using hp.lt hd
  | cons c cs ih =>
    cases hf : findEntry p c z with
    | some k =>
      rw [lzwSpell_found hf]
      exact ih hd (findEntry_valid hf)
    | none =>
      rw [lzwSpell_emit hf, ← lmax_lzwInsert p c z]
      refine List.forall_mem_cons.2 ⟨?_, ih (lzwInsert_dictOk hd hp) (validCode_byte _ c)⟩
      rw [lmax_lzwInsert]
      exact hp.lt hd

/-- The codes of a whole stream (43_lzw.md R244). -/
theorem lzwSpell_none_lt {z : Lzw} (hd : DictOk z) (xs : List Byte) :
    ∀ k ∈ (lzwSpell none z xs).1, k < max 256 (lmax z) := by
  cases xs with
  | nil => exact List.forall_mem_nil _
  | cons c cs => exact lzwSpell_lt hd (validCode_byte z c) cs

theorem max_lmax_le {z : Lzw} (h8 : 8 ≤ z.ln.toNat) : max 256 (lmax z) ≤ 2 ^ z.ln.toNat :=
  max_le (Nat.pow_le_pow_right Nat.two_pos h8) (Nat.sub_le _ _)

/-- With the seeds alone the search finds nothing (43_lzw.md R242). -/
theorem findEntry_empty {z : Lzw} (hn : z.next = 256) (p : Nat) (c : Byte) : findEntry p c z = none := by
  simp [findEntry, hn]

theorem lzwSpell_narrow {z : Lzw} (hd : DictOk z) (hl : z.ln.toNat ≤ 8) (p : Nat) (cs : List Byte) :
    lzwSpell (some p) z cs = (p :: cs.map BitVec.toNat, z) := by
  induction cs generalizing p with
  | nil => rfl
  | cons c cs ih =>
    rw [lzwSpell_emit (findEntry_empty (hd.next_narrow hl) p c), lzwInsert_narrow hd hl, ih, List.map_cons]

theorem seqAt_byte (z : Lzw) (c : Byte) : seqAt z c.toNat = some [c] := by
  rw [seqAt_seed c.isLt, byte_ofNat_toNat]

/-- The code found stands for the sequence so far and the byte (43_lzw.md R250). -/
theorem seqAt_found {z : Lzw} {p k : Nat} {c : Byte} {ws : List Byte} (hw : memWf z.dict = true) (hd : DictOk z)
    (hf : findEntry p c z = some k) (hs : seqAt z p = some ws) : seqAt z k = some (ws ++ [c]) := by
  obtain ⟨hk, hlt, he⟩ := findEntry_some hw hf
  rw [seqAt_entry hd hk hlt he, hs]
  rfl

/-- Too few bytes for a reset leave the sequences of the codes valid before (43_lzw.md R251). -/
theorem seqAt_lzwSpell {z : Lzw} {p k : Nat} {cs : List Byte} (hd : DictOk z) (hp : ValidCode z p)
    (hn : z.next + cs.length < lmax z) (hk : ValidCode z k) : seqAt (lzwSpell (some p) z cs).2 k = seqAt z k := by
  induction cs generalizing p z with
  | nil => rfl
  | cons c cs ih =>
    rw [List.length_cons] at hn
    cases hf : findEntry p c z with
    | some k =>
      rw [lzwSpell_found hf]
      exact ih hd (findEntry_valid hf) (by omega) hk
    | none =>
      have hnext := lzwInsert_next (p := p) (c := c) (show z.next < lmax z by omega)
      rw [lzwSpell_emit hf, ih (lzwInsert_dictOk hd hp) (validCode_byte _ c) (by rw [hnext, lmax_lzwInsert]; omega)
        (hk.imp_right fun h => by omega), seqAt_lzwInsert hd hp (by omega) hk]

/-- The bytes that codes stand for, one after the other. -/
def spelled (z : Lzw) (ks : List Nat) : List Byte := (ks.map fun k => (seqAt z k).getD []).flatten

/-- Too few bytes for a reset are what the codes spell in the dictionary they leave (43_lzw.md R251). -/
theorem spelled_lzwSpell {z : Lzw} {p : Nat} {ws cs : List Byte} (hw : memWf z.dict = true) (hd : DictOk z)
    (hp : ValidCode z p) (hs : seqAt z p = some ws) (hn : z.next + cs.length < lmax z) :
    spelled (lzwSpell (some p) z cs).2 (lzwSpell (some p) z cs).1 = ws ++ cs := by
  induction cs generalizing p z ws with
  | nil => simp [lzwSpell, spelled, hs]
  | cons c cs ih =>
    rw [List.length_cons] at hn
    cases hf : findEntry p c z with
    | some k =>
      rw [lzwSpell_found hf, ih hw hd (findEntry_valid hf) (seqAt_found hw hd hf hs) (by omega)]
      simp
    | none =>
      have hnext := lzwInsert_next (p := p) (c := c) (show z.next < lmax z by omega)
      have hd' := lzwInsert_dictOk (c := c) hd hp
      have hn' : (lzwInsert p c z).next + cs.length < lmax (lzwInsert p c z) := by
        rw [hnext, lmax_lzwInsert]
        omega
      have hp' : ValidCode (lzwInsert p c z) p := hp.imp_right fun h => by omega
      have hsp : seqAt (lzwSpell (some c.toNat) (lzwInsert p c z) cs).2 p = some ws := by
        rw [seqAt_lzwSpell hd' (validCode_byte _ c) hn' hp', seqAt_lzwInsert hd hp (by omega) hp, hs]
      have hrest := ih (memWf_lzwInsert p c z hw) hd' (validCode_byte _ c) (seqAt_byte _ c) hn'
      simpa [lzwSpell_emit hf, spelled, hsp] using hrest

/-- Settles O52: the codes emitted are valid, and they keep their sequences while no reset comes. -/
theorem lzwCodesFit : Obligations.LzwCodesFit := by
  unfold Obligations.LzwCodesFit
  intro q z xs hz hw hs
  have hd := hz.dictOk
  have hlt := lzwSpell_none_lt hd xs
  refine ⟨fun k hk => (hlt k hk).trans_le (max_lmax_le (hz.width hs).1), fun hl k hk => ?_, fun hl => ?_, fun hn => ?_⟩
  · have := lmax_ge hl
    have := hlt k hk
    omega
  · cases xs with
    | nil => rfl
    | cons c cs => rw [lzwSpell, lzwSpell_narrow hd (by rw [hl]; decide), List.map_cons]
  · cases xs with
    | nil => rfl
    | cons c cs =>
      have hnext : z.next = 256 := hz.fresh hs
      rw [List.length_cons] at hn
      exact spelled_lzwSpell hw hd (validCode_byte z c) (seqAt_byte z c) (by unfold lmax; omega)

end Sys2Proof.Machine

/-! PROOF LAYER. The LZW round trip: the decoder keeps in step with the encoder, one Insert behind, and so gives the input of the
codes it reads (43_lzw.md R260, R261). -/

namespace Sys2Proof.Machine

/-! ## Dictionaries with the same valid entries -/

/-- Two dictionaries of one width with the same valid entries and the same count of resets: what stands at or above NEXT does not
matter (43_lzw.md R242). -/
structure SameDict (z z' : Lzw) : Prop where
  ln : z'.ln = z.ln
  next : z'.next = z.next
  resets : z'.resets = z.resets
  entry : ∀ j, 256 ≤ j → j < z.next → memGet z'.dict j = memGet z.dict j

namespace SameDict
variable {z z' : Lzw} (h : SameDict z z')
include h

theorem lmax_eq : lmax z' = lmax z := by
  rw [lmax, lmax, h.ln]

theorem seqAt_eq (hd : DictOk z) (hd' : DictOk z') {k : Nat} (hk : ValidCode z k) : seqAt z' k = seqAt z k :=
  seqAt_congr hd hd' h.entry h.next.ge k hk

/-- The same Insert in both keeps them the same (43_lzw.md R260). -/
theorem insert (p : Nat) (c : Byte) : SameDict (lzwInsert p c z) (lzwInsert p c z') := by
  have hmax := h.lmax_eq
  have hnext := h.next
  rcases Nat.lt_trichotomy z.next (lmax z) with hl | hl | hl
  · rw [lzwInsert_below hl, lzwInsert_below (by omega)]
    refine ⟨h.ln, congrArg (· + 1) hnext, h.resets, fun j hj hlt => ?_⟩
    rw [writeEntry_next] at hlt
    rw [writeEntry_dict, writeEntry_dict, hnext, memGet_memSet, memGet_memSet]
    split
    · rfl
    · exact h.entry j hj (by omega)
  · rw [lzwInsert_full hl, lzwInsert_full (by omega)]
    exact ⟨h.ln, rfl, congrArg (· + 1) h.resets, fun j hj hlt => absurd hj (Nat.not_le.2 hlt)⟩
  · rw [lzwInsert_over hl, lzwInsert_over (by omega)]
    exact ⟨h.ln, rfl, h.resets, fun j hj hlt => absurd hj (Nat.not_le.2 hlt)⟩

end SameDict

/-! ## Encoder and decoder in step -/

/-- A code valid after the decoder's next Insert resolves before it, to what it will stand for: a seed, an entry that a reset
does not come before, or the entry that the Insert writes (43_lzw.md R254, R255, R260). -/
theorem resolveCode_of_seqAt_lzwInsert {z : Lzw} {p k : Nat} {x : Byte} {ws : List Byte} (hd : DictOk z) (hp : ValidCode z p)
    (hk : ValidCode (lzwInsert p x z) k) (hs : seqAt (lzwInsert p x z) k = some (x :: ws)) :
    resolveCode (some p) z k = .bytes (x :: ws) := by
  by_cases h8 : k < 256
  · rw [resolveCode_seed hd (some p) h8, ← Option.some_inj.1 ((seqAt_seed h8).symm.trans hs)]
  have hlt : k < (lzwInsert p x z).next := hk.resolve_left h8
  have hl : 8 < z.ln.toNat := by
    by_contra hl
    rw [lzwInsert_narrow hd (Nat.not_lt.1 hl), hd.next_narrow (Nat.not_lt.1 hl)] at hlt
    exact h8 hlt
  have hn : z.next ≠ lmax z := fun hn => by
    rw [lzwInsert_full hn] at hlt
    exact h8 hlt
  have hle := hd.next_le hl
  rw [lzwInsert_below (by omega), writeEntry_next] at hlt
  rcases Nat.lt_or_eq_of_le (Nat.lt_succ_iff.1 hlt) with hlt | rfl
  · rw [resolveCode_present p hn hlt, ← seqAt_lzwInsert (c := x) hd hp hn (.inr hlt), hs]
    rfl
  · obtain ⟨y, ys, hy⟩ := seqAt_some hd p hp
    rw [seqAt_inserted hd hp hl hn, hy, Option.map_some, Option.some_inj, List.cons_append, List.cons.injEq] at hs
    obtain ⟨rfl, rfl⟩ := hs
    exact resolveCode_next hn hy

/-- The decoder, which has read `pk` and whose dictionary is `zd`, is in step with the encoder, whose open code `q` stands for
`ws`: the Insert that `ws` will bring makes its dictionary the encoder's `z` (43_lzw.md R260). -/
structure InStep (pk : Option Nat) (zd : Lzw) (q : Nat) (z : Lzw) (ws : List Byte) : Prop where
  encoder : DictOk z
  decoder : DictOk zd
  memory : memWf z.dict = true
  code_valid : ValidCode z q
  code_seq : seqAt z q = some ws
  read_valid : ∀ p, pk = some p → ValidCode zd p
  first : pk = none → z.next = 256
  same : SameDict z (insertAfter pk ws zd)

namespace InStep
variable {pk : Option Nat} {zd z : Lzw} {q : Nat} {ws : List Byte} (h : InStep pk zd q z ws)
include h

/-- The dictionary after the decoder's Insert has the unit's shape. -/
theorem inserted : DictOk (insertAfter pk ws zd) := insertAfter_dictOk h.decoder h.read_valid

theorem seq_cons : ∃ x xs, ws = x :: xs := by
  obtain ⟨x, xs, e⟩ := seqAt_some h.encoder q h.code_valid
  exact ⟨x, xs, Option.some_inj.1 (h.code_seq.symm.trans e)⟩

/-- The open code resolves in the decoder to what it stands for in the encoder. -/
theorem resolves : resolveCode pk zd q = .bytes ws := by
  cases pk with
  | none =>
    have hq : q < 256 := h.code_valid.elim id fun hq => (h.first rfl) ▸ hq
    rw [resolveCode_seed h.decoder none hq, ← Option.some_inj.1 ((seqAt_seed hq).symm.trans h.code_seq)]
  | some p =>
    obtain ⟨x, xs, rfl⟩ := h.seq_cons
    have hs : seqAt (lzwInsert p x zd) q = some (x :: xs) :=
      (h.same.seqAt_eq h.encoder h.inserted h.code_valid).trans h.code_seq
    exact resolveCode_of_seqAt_lzwInsert h.decoder (h.read_valid p rfl)
      (h.code_valid.imp_right fun hq => hq.trans_eq h.same.next.symm) hs

/-- A byte more leaves the first byte, and with it the decoder's Insert. -/
theorem extend {k : Nat} {c : Byte} (hf : findEntry q c z = some k) : InStep pk zd k z (ws ++ [c]) := by
  refine { h with
    code_valid := findEntry_valid hf
    code_seq := seqAt_found h.memory h.encoder hf h.code_seq
    same := ?_ }
  obtain ⟨x, xs, rfl⟩ := h.seq_cons
  have := h.same
  cases pk <;> exact this

/-- An emitted code is read, and both go on with the Insert of the encoder still to come in the decoder. -/
theorem emit (c : Byte) : InStep (some q) (insertAfter pk ws zd) c.toNat (lzwInsert q c z) [c] where
  encoder := lzwInsert_dictOk h.encoder h.code_valid
  decoder := h.inserted
  memory := memWf_lzwInsert q c z h.memory
  code_valid := validCode_byte _ c
  code_seq := seqAt_byte _ c
  read_valid := by
    rintro p ⟨⟩
    exact h.code_valid.imp_right fun hq => hq.trans_eq h.same.next.symm
  first := nofun
  same := h.same.insert q c

end InStep

/-- The decoder makes of the encoder's codes what the open code stands for and the bytes after it (43_lzw.md R260, R261). -/
theorem InStep.lzwRead_lzwSpell {pk : Option Nat} {zd z : Lzw} {q : Nat} {ws : List Byte} (h : InStep pk zd q z ws)
    (cs : List Byte) :
    ∃ zd', lzwRead pk zd (lzwSpell (some q) z cs).1 = some (ws ++ cs, zd') ∧ SameDict (lzwSpell (some q) z cs).2 zd' := by
  induction cs generalizing pk zd q z ws with
  | nil => exact ⟨_, by simp [lzwSpell, lzwRead, h.resolves], h.same⟩
  | cons c cs ih =>
    cases hf : findEntry q c z with
    | some k =>
      rw [lzwSpell_found hf]
      simpa using ih (h.extend hf)
    | none =>
      obtain ⟨zd', hr, hsame⟩ := ih (h.emit c)
      rw [lzwSpell_emit hf]
      exact ⟨zd', by simp [lzwRead, h.resolves, hr], hsame⟩

/-- From fresh dictionaries the decoder makes of the encoder's codes the encoder's input (43_lzw.md R261). -/
theorem lzwRead_lzwSpell {z zd : Lzw} (hd : DictOk z) (hd' : DictOk zd) (hw : memWf z.dict = true) (hn : z.next = 256)
    (hsame : SameDict z zd) (xs : List Byte) :
    ∃ zd', lzwRead none zd (lzwSpell none z xs).1 = some (xs, zd') ∧ SameDict (lzwSpell none z xs).2 zd' := by
  cases xs with
  | nil => exact ⟨zd, rfl, hsame⟩
  | cons c cs =>
    have h : InStep none zd c.toNat z [c] :=
      ⟨hd, hd', hw, validCode_byte z c, seqAt_byte z c, by simp, fun _ => hn, hsame⟩
    exact h.lzwRead_lzwSpell cs

/-! ## The jobs -/

section started
variable {s : State} (h8 : 8 ≤ s.curCfg.toNat) (hm : s.curCfg.toNat ≤ s.params.lzwNmax)
include h8 hm

theorem dictOk_lzwStarted : DictOk (lzwStarted s).lzw := (lzwOk_init s.lzw h8 hm).dictOk

/-- An encoder job over the bytes `xs`: whole bytes that hold the codes and less than a byte of padding, then End (43_lzw.md R241,
R250). -/
theorem lzwEncoder_job {xs : List Byte} {rest : List Token} (hi : s.bs.inp = xs.map .byte ++ .stop :: rest) :
    ∃ t zs pad, execAll [.lzwInit, .lzwEncode] s = .next t ∧ t.err = s.err ∧ t.bs.inp = rest ∧
      t.bs.out = s.bs.out ++ zs.map .byte ++ [.stop] ∧
      bytesBits zs = codesBits s.curCfg.toNat (lzwSpell none (lzwStarted s).lzw xs).1 ++ pad ∧ pad.length < 8 ∧
      t.lzw = { (lzwSpell none (lzwStarted s).lzw xs).2 with lstate := .done } := by
  obtain ⟨b, hcl, e⟩ := (lzwEncode (lzwStarted s) xs rfl (streamOk_init s.bs).1).1 rest hi
  obtain ⟨zs, ho, hb⟩ := hcl.bytes rfl
  have hin : b.inp = rest := by
    obtain ⟨_, e, _⟩ := hcl
    rw [e]
    rfl
  rw [execAll_cons (exec_lzwInit_legal h8 hm)]
  exact ⟨_, zs, _, execAll_single _ e, rfl, hin, ho, hb, by rw [List.length_replicate]; exact Nat.mod_lt _ (by decide), rfl⟩

/-- A decoder job over bytes that hold codes that resolve and less than a byte of padding (R241, R253). -/
theorem lzwDecoder_job {ks : List Nat} {xs zs : List Byte} {z : Lzw} {pad : List Bool} {rest : List Token}
    (hk : ∀ k ∈ ks, k < 2 ^ s.curCfg.toNat) (hr : lzwRead none (lzwStarted s).lzw ks = some (xs, z))
    (hz : bytesBits zs = codesBits s.curCfg.toNat ks ++ pad) (hpad : pad.length < 8)
    (hi : s.bs.inp = zs.map .byte ++ .stop :: rest) :
    ∃ u, execAll [.lzwInit, .lzwDecode] s = .next u ∧ u.err = s.err ∧ u.bs.inp = rest ∧
      u.bs.out = s.bs.out ++ xs.map .byte ++ [.stop] ∧ u.lzw = { z with lstate := .done } := by
  have hi' : (lzwStarted s).bs.inp = zs.map .byte ++ .stop :: rest := hi
  obtain ⟨b, b', hend, hcl, e⟩ :=
    ((lzwDecode (lzwStarted s) ks xs z pad rfl (streamOk_init s.bs).1 (Nat.lt_of_lt_of_le (by decide) h8) hk hr).1
      ((inBits_rdRestart hi').trans hz) (hpad.trans_le h8)).1 (inClosed_rdRestart hi')
  have hb : b.inp = rest ∧ b.wcnt = 0 ∧ b.out = s.bs.out := by
    rw [hend]
    exact ⟨restAfterEnd_rdRestart hi', rfl, rfl⟩
  obtain ⟨hin, h0, hout⟩ := hb
  have hin' : b'.inp = rest := by
    obtain ⟨_, e, _⟩ := hcl
    rw [e]
    exact hin
  rw [execAll_cons (exec_lzwInit_legal h8 hm)]
  exact ⟨_, execAll_single _ e, rfl, hin', by rw [hcl.bytes_eq h0, hout], rfl⟩

end started

/-- Settles O55: the decoder keeps in step with the encoder over the codes, and the padding is too short for one more. -/
theorem lzwRoundTrip : Obligations.LzwRoundTrip := by
  unfold Obligations.LzwRoundTrip
  intro s d xs rest rest' hs hd h8 hm hcfg hm' hw _ hi
  have h8' : 8 ≤ d.curCfg.toNat := by rwa [hcfg]
  obtain ⟨t, zs, pad, e, het, hti, hto, hz, hpad, htl⟩ := lzwEncoder_job h8 hm hi
  have hok := dictOk_lzwStarted h8 hm
  obtain ⟨zd, hr, hsame⟩ := lzwRead_lzwSpell (zd := (lzwStarted d).lzw) hok (dictOk_lzwStarted h8' hm') hw rfl
    ⟨hcfg, rfl, rfl, fun j hj hlt => absurd hj (Nat.not_le.2 hlt)⟩ xs
  have hk : ∀ k ∈ (lzwSpell none (lzwStarted s).lzw xs).1, k < 2 ^ d.curCfg.toNat := fun k hk => by
    rw [hcfg]
    exact (lzwSpell_none_lt hok xs k hk).trans_le (max_lmax_le h8)
  by_cases hdi : d.bs.inp = zs.map .byte ++ .stop :: rest'
  · obtain ⟨u, eu, heu, hui, huo, hul⟩ := lzwDecoder_job h8' hm' hk hr (by rw [hcfg]; exact hz) hpad hdi
    refine ⟨t, u, zs, e, het.trans hs, hti, hto, fun _ => ⟨eu, heu.trans hd, hui, huo, ?_⟩⟩
    rw [hul, htl]
    exact ⟨hsame.next, hsame.resets⟩
  · exact ⟨t, d, zs, e, het.trans hs, hti, hto, fun h => absurd h hdi⟩

end Sys2Proof.Machine

/-! PROOF LAYER. Exceptions: everything an error of a command can be, the interrupt line, and everything a step can do while an
error is recorded. -/

namespace Sys2Proof.Machine

/-! ## The errors of the commands -/

/-- Everything a command's error can be: its code, its detail and the state at that point (60_exceptions.md R300, R310). -/
inductive Raised (s : State) : Instr → ErrCode → Word → State → Prop where
  | seq (i : Instr) : Raised s i .eSeq s.curCmd s
  | writeWidth (w : BitVec 6) (hw : 32 < w.toNat) : Raised s (.bsWrbits w) .eWidth s.curCmd s
  | readWidth (w : BitVec 6) (hw : 32 < w.toNat) : Raised s (.bsRdbits w) .eWidth s.curCmd s
  | codeWidth : Raised s .lzwInit .eCfg (s.curCfg.setWidth 32) s
  | counter (n : Word) (u : State) (hn : n.toNat < 256) (hu : u.huf.hstate = .error) : Raised s .hufCount .eFreqOvf n u
  | symbol (n : Word) (u : State) (hn : n.toNat < 256) (hu : u.huf.hstate = .error) : Raised s .hufEncode .eHufSym n u
  | length (n : Word) (u : State) (hu : u.huf.hstate = .error) : Raised s .hufEncode .eHufLen n u
  | code (n : Word) (u : State) (hu : u.lzw.lstate = .error) : Raised s .lzwDecode .eLzwCode n u

/-- The error of a job command is its loop's, or what is made of the end of the loop. -/
theorem Loop.toRun_eq_raise {β : Type} {l : Loop β} {done : β → Stream → Run} {raise : ErrCode → Word → β → Stream → Run}
    {c : ErrCode} {n : Word} {u : State} (h : l.toRun done raise = .raise c n u) :
    (∃ x b, l = .done x b ∧ done x b = .raise c n u) ∨
      (∃ c' n' x b, l = .raise c' n' x b ∧ raise c' n' x b = .raise c n u) := by
  cases l with
  | done x b => exact .inl ⟨x, b, rfl, h⟩
  | raise c' n' x b => exact .inr ⟨c', n', x, b, rfl, h⟩
  | wait b => cases h
  | fault e => cases h

theorem byte_setWidth_lt (c : Byte) : (c.setWidth 32).toNat < 256 :=
  (BitVec.toNat_setWidth_of_le (by decide)).trans_lt c.isLt

/-- The detail of E_FREQ_OVF is a byte (R300). -/
theorem countLoop_raise {limit n : Nat} {f g : Vector Nat 256} {b b' : Stream} {c : ErrCode} {info : Word}
    (h : countLoop limit n f b = .raise c info g b') : info.toNat < 256 := by
  induction n generalizing f b with
  | zero => cases h
  | succ n ih =>
    unfold countLoop at h
    cases hr : readBits 8 b with
    | eod b₁ => rw [hr] at h; cases h
    | wait b₁ => rw [hr] at h; cases h
    | ok r b₁ =>
      rw [hr] at h
      dsimp only at h
      split at h
      · cases h; exact byte_setWidth_lt _
      · exact ih h

/-- The detail of E_HUF_SYM is a byte (R300). -/
theorem encodeLoop_raise {code : Vector (List Bool) 256} {total n k k' : Nat} {b b' : Stream} {c : ErrCode} {info : Word}
    (h : encodeLoop code total n k b = .raise c info k' b') (hc : c = .eHufSym) : info.toNat < 256 := by
  induction n generalizing k b with
  | zero => cases h
  | succ n ih =>
    unfold encodeLoop at h
    cases hr : readBits 8 b with
    | eod b₁ => rw [hr] at h; cases h
    | wait b₁ => rw [hr] at h; cases h
    | ok r b₁ =>
      rw [hr] at h
      dsimp only at h
      split at h
      · cases h; exact byte_setWidth_lt _
      · split at h
        · cases h; cases hc
        · exact ih h

theorem ok_ne_raise {t u : State} {c : ErrCode} {n : Word} : Run.ok t ≠ .raise c n u := nofun

theorem readIntoResult_ne_raise (s : State) (r : Rd Nat) (c : ErrCode) (n : Word) (u : State) :
    readIntoResult s r ≠ .raise c n u := by
  cases r <;> nofun

/-- The check of a width fails with E_WIDTH and the command word, before anything changes (41_bitstream.md R151, R152). -/
theorem checkWidth_eq_raise {w : BitVec 6} {s u : State} {body : Run} {c : ErrCode} {n : Word}
    (hb : body ≠ .raise c n u) (h : checkWidth w s body = .raise c n u) :
    32 < w.toNat ∧ .raise .eWidth s.curCmd s = Run.raise c n u := by
  by_cases hw : w.toNat ≤ 32
  · rw [checkWidth_ok hw] at h
    exact absurd h hb
  · have hw := Nat.lt_of_not_le hw
    rw [checkWidth_over hw] at h
    exact ⟨hw, h⟩

/-- A command that ends with an error does so as `Raised` says. -/
theorem runCommand_raised {i : Instr} {s u : State} {c : ErrCode} {n : Word} (h : runCommand i s = .raise c n u) :
    Raised s i c n u := by
  cases hp : preTable i s with
  | false =>
    rw [runCommand_of_pre_false hp] at h
    cases h
    exact .seq i
  | true =>
    have hc := runCommand_raises_errorsOf hp
    rw [h] at hc
    change c ∈ errorsOf i at hc
    cases i with
    | bsWrbits w =>
      obtain ⟨hw, e⟩ := checkWidth_eq_raise (w := w) (s := s) ok_ne_raise h
      cases e
      exact .writeWidth w hw
    | bsRdbits w =>
      obtain ⟨hw, e⟩ := checkWidth_eq_raise (readIntoResult_ne_raise _ _ _ _ _) h
      cases e
      exact .readWidth w hw
    | lzwInit =>
      change runLzwInit s = _ at h
      unfold runLzwInit checkCodeWidth at h
      dsimp only at h
      split at h
      · cases h; exact .codeWidth
      · cases h
    | hufCount =>
      cases List.mem_singleton.1 hc
      rw [show runCommand .hufCount s = _ from runHufCount_eq s, checkPre_true (pre := s.huf.hstate == .idle) hp] at h
      rcases Loop.toRun_eq_raise h with ⟨f, b, _, e⟩ | ⟨c', n', f, b, hl, e⟩
      · cases e
      · cases e
        exact .counter _ _ (countLoop_raise hl) rfl
    | hufEncode =>
      rw [show runCommand .hufEncode s = _ from runHufEncode_eq s,
        checkPre_true (pre := s.huf.hstate == .codes && s.huf.hmode == .encode) hp] at h
      rcases Loop.toRun_eq_raise h with ⟨k, b, _, e⟩ | ⟨c', n', k, b, hl, e⟩
      · unfold encodeDone at e
        split at e
        · cases e; exact .length _ _ rfl
        · cases e
      · cases e
        rcases List.mem_pair.1 hc with rfl | rfl
        · exact .symbol _ _ (encodeLoop_raise hl rfl) rfl
        · exact .length _ _ rfl
    | lzwDecode =>
      cases List.mem_singleton.1 hc
      rw [show runCommand .lzwDecode s = _ from runLzwDecode_eq s, checkPre_true (pre := s.lzw.lstate == .ready) hp] at h
      rcases Loop.toRun_eq_raise h with ⟨z, b, _, e⟩ | ⟨c', n', z, b, _, e⟩
      · cases e
      · cases e
        exact .code _ _ rfl
    | _ => cases hc

/-- A command that leaves an error where none was recorded has raised it. -/
theorem exec_raised {i : Instr} {s t : State} (hs : s.err = .none) (h : exec i s = .next t) (ht : t.err ≠ .none) :
    ∃ c n u, Raised s i c n u ∧ t = raiseError c n u := by
  rcases exec_next_cases h with ⟨u, e, rfl⟩ | ⟨c, n, u, e, rfl⟩ | ⟨_, _, rfl⟩
  · have hu := runCommand_err i s
    rw [e] at hu
    exact absurd (hu.trans hs) ht
  · exact ⟨c, n, u, runCommand_raised e, rfl⟩
  · exact absurd hs ht

/-- Settles O11: each error that `Raised` lists, and what `raiseError` makes of it. -/
theorem commandErrors : Obligations.CommandErrors := by
  unfold Obligations.CommandErrors
  intro i s t hs h ht
  obtain ⟨c, n, u, hr, rfl⟩ := exec_raised hs h ht
  refine ⟨rfl, rfl, ?_⟩
  rw [raiseError_err, raiseError_errInfo, raiseError_huf, raiseError_lzw]
  cases hr with
  | seq => exact ⟨nofun, fun _ => rfl, fun _ => rfl, nofun, nofun, nofun, nofun, nofun, nofun⟩
  | writeWidth w hw =>
    exact ⟨nofun, fun _ => rfl, fun _ => rfl, fun _ => ⟨w, hw, .inl rfl⟩, nofun, nofun, nofun, nofun, nofun⟩
  | readWidth w hw =>
    exact ⟨nofun, fun _ => rfl, fun _ => rfl, fun _ => ⟨w, hw, .inr rfl⟩, nofun, nofun, nofun, nofun, nofun⟩
  | codeWidth =>
    have hn : (s.curCfg.setWidth 32).toNat = s.curCfg.toNat := BitVec.toNat_setWidth_of_le (by decide)
    exact ⟨nofun, fun _ => rfl, nofun, nofun, fun _ => ⟨rfl, hn⟩, nofun, nofun, nofun, nofun⟩
  | counter n u hn hu => exact ⟨nofun, nofun, nofun, nofun, nofun, fun _ => ⟨rfl, hu, hn⟩, nofun, nofun, nofun⟩
  | symbol n u hn hu => exact ⟨nofun, nofun, nofun, nofun, nofun, nofun, fun _ => ⟨rfl, hu, hn⟩, nofun, nofun⟩
  | length n u hu => exact ⟨nofun, nofun, nofun, nofun, nofun, nofun, nofun, fun _ => ⟨rfl, hu⟩, nofun⟩
  | code n u hu => exact ⟨nofun, nofun, nofun, nofun, nofun, nofun, nofun, nofun, fun _ => ⟨rfl, hu⟩⟩

/-! ## A recorded error -/

/-- What stays while an error is recorded (R311). -/
structure ErrorKept (s t : State) : Prop where
  err : t.err = s.err
  errInfo : t.errInfo = s.errInfo
  busy : t.busy = s.busy
  huf : t.huf = s.huf
  lzw : t.lzw = s.lzw
  result : t.result = s.result

theorem errorKept_refl (s : State) : ErrorKept s s := ⟨rfl, rfl, rfl, rfl, rfl, rfl⟩

/-- The host's own side is none of what stays. -/
theorem ErrorKept.host {s t : State} (h : ErrorKept s t) (g : HostSide) : ErrorKept s { t with host := g } :=
  ⟨h.err, h.errInfo, h.busy, h.huf, h.lzw, h.result⟩

/-- Everything a host operation can do to the core while an error is recorded: the resets alone clear it (R311, R315), and
a write to CTRL alone changes IE. -/
inductive ErrorMoved (s : State) : HostOp → State → Prop where
  | kept (op : HostOp) (t : State) (h : ErrorKept s t) (hie : t.ie = s.ie) : ErrorMoved s op t
  | ie (v : Word) (t : State) (h : ErrorKept s t) (hie : t.ie = v.getLsbD 1) :
      ErrorMoved s (.memWrite s.params.base 4 v) t
  | softReset (v : Word) (t : State) (hv : v.getLsbD 0 = true) (he : t.err = .none) (hi : t.errInfo = 0) :
      ErrorMoved s (.memWrite s.params.base 4 v) t
  | hardReset (t : State) (he : t.err = .none) (hi : t.errInfo = 0) : ErrorMoved s .hardReset t

/-- A soft reset clears ERR and ERRINFO, whatever the core was doing (70_reset_and_hazards.md R352). -/
theorem softReset_err (ie : Bool) (s : State) : (softReset ie s).err = .none ∧ (softReset ie s).errInfo = 0 := by
  rcases softReset_cases ie s with ⟨_, e⟩ | ⟨_, _, _, _, _, _, _, e⟩
  · rw [e]; exact ⟨rfl, rfl⟩
  · rw [e]; exact ⟨rfl, rfl⟩

/-- A read keeps everything that stays, and IE. -/
theorem windowRead_errorKept (off size : Nat) (s : State) :
    ErrorKept s (windowRead off size s).2 ∧ (windowRead off size s).2.ie = s.ie := by
  rcases windowRead_state off size s with e | e
  · rw [e]; exact ⟨errorKept_refl s, rfl⟩
  · rw [e]; exact ⟨⟨rfl, rfl, rfl, rfl, rfl, rfl⟩, rfl⟩

/-- While an error is recorded a write to a register but CTRL keeps everything that stays, and IE: a CMD write is dropped
(40_control.md R130). -/
theorem writeReg_errorKept {s : State} (he : s.err ≠ .none) {r : Reg} (hr : r ≠ .ctrl) (v : Word) :
    ErrorKept s (writeReg r v s) ∧ (writeReg r v s).ie = s.ie := by
  cases r with
  | ctrl => exact absurd rfl hr
  | cmd =>
    rw [show writeReg .cmd v s = dropCommand s from acceptCommand_dropped (.inr he) v]
    exact ⟨⟨rfl, rfl, rfl, rfl, rfl, rfl⟩, rfl⟩
  | _ => exact ⟨⟨rfl, rfl, rfl, rfl, rfl, rfl⟩, rfl⟩

/-- A write to CTRL is a soft reset, or changes IE alone (10_state.md R24). -/
theorem writeReg_ctrl_errorMoved (v : Word) (s : State) :
    ErrorMoved s (.memWrite s.params.base 4 v) (advance (writeReg .ctrl v s)) := by
  cases hv : v.getLsbD 0 with
  | false =>
    rw [writeReg_ctrl_ie hv]
    exact .ie v _ ⟨rfl, rfl, rfl, rfl, rfl, rfl⟩ rfl
  | true =>
    rw [writeReg_ctrl_srst hv]
    obtain ⟨he, hi⟩ := softReset_err (v.getLsbD 1) s
    exact .softReset v _ hv he hi

/-- Every host operation, while an error is recorded, moves the core as `ErrorMoved` says. -/
theorem hostStep_errorMoved {op : HostOp} {s t : State} (he : s.err ≠ .none) (h : hostStep op s = .next t) :
    ErrorMoved s op t := by
  have hsame := errorKept_refl s
  cases op with
  | memRead addr size =>
    simp only [hostStep] at h
    split at h
    · cases h
    · rename_i off _
      cases h
      obtain ⟨hk, hie⟩ := windowRead_errorKept off size s
      exact .kept _ _ (hk.host _) hie
  | memWrite addr size v =>
    simp only [hostStep] at h
    split at h
    · cases h
    · rename_i off ho
      cases h
      obtain ⟨rfl, _⟩ := addr_of_windowOffset ho
      unfold windowWrite
      split
      · rename_i r hr
        by_cases hc : r = .ctrl
        · subst hc
          obtain ⟨rfl, rfl⟩ := accessedReg_ctrl hr
          exact writeReg_ctrl_errorMoved v s
        · obtain ⟨hk, hie⟩ := writeReg_errorKept he hc v
          exact .kept _ _ (hk.host _) hie
      · exact .kept _ _ (hsame.host _) rfl
  | inPush tok => cases h; exact .kept _ _ ⟨rfl, rfl, rfl, rfl, rfl, rfl⟩ rfl
  | outPop =>
    simp only [hostStep] at h
    split at h
    · cases h; exact .kept _ _ hsame rfl
    · cases h; exact .kept _ _ ⟨rfl, rfl, rfl, rfl, rfl, rfl⟩ rfl
  | outPopAll => cases h; exact .kept _ _ ⟨rfl, rfl, rfl, rfl, rfl, rfl⟩ rfl
  | waitIdle =>
    simp only [hostStep] at h
    split at h
    · cases h; exact .kept _ _ hsame rfl
    · cases h; exact .kept _ _ (hsame.host _) rfl
  | hardReset => cases h; exact .hardReset _ rfl rfl

theorem ErrorOk.idle {s : State} (hs : ErrorOk s) (he : s.err ≠ .none) : s.busy = false := by
  obtain ⟨_, hb, _⟩ := hs
  exact Bool.eq_false_of_not_eq_true fun h => he (hb h).1

/-- While an error is recorded no command runs, so that a step is the host's (R311): nothing, or one of its operations. -/
theorem step_errorMoved {s t : State} (hs : ErrorOk s) (he : s.err ≠ .none) (h : step s = .next t) :
    t = s ∨ ∃ op, nextOp s = some op ∧ ErrorMoved s op t := by
  have hb := hs.idle he
  cases hn : nextOp s with
  | none =>
    rw [step_of_no_op hn, engineTurn_idle hb] at h
    cases h
    exact .inl rfl
  | some op =>
    have hd : engineEnabled s = false := by simp [engineEnabled, hb]
    rw [step_of_engine_disabled hn hd] at h
    exact .inr ⟨op, rfl, hostStep_errorMoved he h⟩

/-- Settles O27: the host's moves keep what stays, but for the two resets. -/
theorem errorsAreSticky : Obligations.ErrorsAreSticky := by
  unfold Obligations.ErrorsAreSticky
  intro s t hs he h
  have hkept : ErrorKept s t → t.err = s.err ∧ t.errInfo = s.errInfo ∧ t.busy = false ∧ t.huf = s.huf ∧ t.lzw = s.lzw ∧
      t.result = s.result := fun ⟨h1, h2, h3, h4, h5, h6⟩ => ⟨h1, h2, h3.trans (hs.idle he), h4, h5, h6⟩
  rcases step_errorMoved hs he h with rfl | ⟨op, hn, hm⟩
  · exact .inl (hkept (errorKept_refl _))
  · cases hm with
    | kept _ _ hk _ => exact .inl (hkept hk)
    | ie v _ hk _ => exact .inl (hkept hk)
    | softReset v _ hv h1 h2 => exact .inr ⟨h1, h2, .inr ⟨v, hv, hn⟩⟩
    | hardReset _ h1 h2 => exact .inr ⟨h1, h2, .inl hn⟩

/-! ## The interrupt line -/

theorem irq_iff (s : State) : irq s = true ↔ s.ie = true ∧ (s.done = true ∨ s.err ≠ .none) := by
  simp [irq, errf]

theorem irq_false {s : State} (h : s.ie = false ∨ s.done = false ∧ s.err = .none) : irq s = false := by
  rcases h with hi | ⟨hd, he⟩
  · simp [irq, hi]
  · simp [irq, errf, hd, he]

/-- Settles O26: with an error recorded the line is IE, which a write to CTRL and the resets alone change. -/
theorem interruptLine : Obligations.InterruptLine := by
  unfold Obligations.InterruptLine
  refine ⟨irq_iff, fun s v he hv => ?_, fun s c hb he => ?_, fun s v h0 h1 => ?_, fun s t hs he hirq h => ?_⟩
  · exact irq_false (.inr ⟨by simp [writeReg, clearFlags, hv], he⟩)
  · rw [show writeReg .cmd c s = _ from acceptCommand_taken hb he c]
    exact irq_false (.inr ⟨rfl, he⟩)
  · rw [writeReg_ctrl_ie h0]
    exact irq_false (.inl h1)
  · obtain ⟨hie, _⟩ := (irq_iff s).1 hirq
    have hirq' : ErrorKept s t → t.ie = true → irq t = true := fun hk hi =>
      (irq_iff t).2 ⟨hi, .inr (hk.err ▸ he)⟩
    rcases step_errorMoved hs he h with rfl | ⟨op, hn, hm⟩
    · exact .inl hirq
    · cases hm with
      | kept _ _ hk hi => exact .inl (hirq' hk (hi.trans hie))
      | ie v _ hk hi =>
        cases h1 : v.getLsbD 1 with
        | false => exact .inr (.inr ⟨v, hn, .inr h1⟩)
        | true => exact .inl (hirq' hk (hi.trans h1))
      | softReset v _ hv _ _ => exact .inr (.inr ⟨v, hn, .inl hv⟩)
      | hardReset _ _ _ => exact .inr (.inl hn)

end Sys2Proof.Machine
